-- ==== Sys2Proof/Word.lean ====
section
/-!
DEFINITION. The word types of the package (R8: bit 0 is the least significant, multi-byte fields are little-endian) and
the sparse table that holds any numbered collection of registers or entries.
-/
namespace Sys2Proof

/-- A byte, a 16-bit, a 32-bit and a 64-bit word, and the 64-byte Control ISA command (R116) as one number. -/
abbrev Byte := BitVec 8
abbrev Half := BitVec 16
abbrev Word := BitVec 32
abbrev Quad := BitVec 64
abbrev Command := BitVec 512

/-- A sparse table: the entries that differ from the collection's default, in rising order of index. -/
abbrev Tab (α : Type) := List (Nat × α)

/-- The entry at `k`, or `d` where none is listed. -/
def Tab.get {α : Type} (d : α) (k : Nat) : Tab α → α
  | [] => d
  | (j, v) :: t => if j = k then v else Tab.get d k t

/-- The table without an entry at `k`. -/
def Tab.erase {α : Type} (k : Nat) (t : Tab α) : Tab α := t.filter fun e => e.1 ≠ k

/-- The table with `v` listed at `k`, the indices kept in rising order. -/
def Tab.put {α : Type} (k : Nat) (v : α) : Tab α → Tab α
  | [] => [(k, v)]
  | (j, w) :: t => if k < j then (k, v) :: (j, w) :: t else if k = j then (k, v) :: t else (j, w) :: Tab.put k v t

/-- `put`, and nothing listed where the value is the default `d`. -/
def Tab.set {α : Type} [DecidableEq α] (d : α) (k : Nat) (v : α) (t : Tab α) : Tab α :=
  if v = d then Tab.erase k t else Tab.put k v t

end Sys2Proof
end

