-- ==== Sys2Proof/Syntax.lean ====
section
/-!
DEFINITION. The commands of the block: one constructor of `Instr` for each of the 215 rows of the table, with the row's
operands. Control ISA commands carry the function, the queue and the 64 bytes of R116 and R117; what the package reads by
DMA, samples from a pin or measures is an operand of the row that reads, samples or measures it.
-/
namespace Sys2Proof

/-- Function 0 is the physical function, 1 to 31 the virtual functions (R298). -/
abbrev FuncId := Fin 32
/-- Queue of a function (R298). -/
abbrev QueueId := Fin 64
/-- Cluster of the package (R13, R24). -/
abbrev ClusterId := Fin 16
/-- Physical core of a cluster (R19). -/
abbrev CoreId := Fin 32
/-- Compute die (R16). -/
abbrev DieId := Fin 4
/-- Span slot of a die (R124). -/
abbrev SlotId := Fin 64
/-- Viaduct port: 0 north, 1 east, 2 south, 3 west (R334). -/
abbrev PortId := Fin 4
/-- Engine of a core: 0 to 3 CE 0 to 3, 4 to 7 ME 0 to 3 (R95). -/
abbrev EngId := Fin 8

/-- The three networks of a truss (R41). -/
inductive Net where
  | scalar | vector | control
deriving DecidableEq, Repr

/-- An engine port: cluster, physical core, engine, network, port number (R39, R95). -/
structure EngPort where
  cl : Nat
  phys : Nat
  eng : Nat
  net : Net
  port : Nat
deriving DecidableEq, Repr

/-- What a route starts from: an engine output port or a handoff receive endpoint of a die (R95, R96). -/
inductive RouteSrc where
  | port (p : EngPort)
  | recvEp (die ep : Nat)
deriving DecidableEq, Repr

/-- What a route leads to: an engine input port or a handoff send endpoint of a die (R95, R62). -/
inductive RouteDst where
  | port (p : EngPort)
  | sendEp (die ep : Nat)
deriving DecidableEq, Repr

/-- Where a keystone is held and forwarded: an engine, a send endpoint or a receive endpoint (R60, R63). -/
inductive KeySite where
  | engine (cl phys eng : Nat)
  | sendEp (die ep : Nat)
  | recvEp (die ep : Nat)
deriving DecidableEq, Repr

/-- What the check bits of a word or a token showed (R45, R54, R194). -/
inductive Ecc where
  | good | corrected | uncorrected
deriving DecidableEq, Repr

/-- A requester of the tiers: a stream context, an open TRESTLE, or an open move, image or transfer, by its number (R188, R233). -/
inductive Requester where
  | stream (cl phys me ctx : Nat)
  | command (uid : Nat)
  | long (slot : Nat)
deriving DecidableEq, Repr

/-- The executors of R290. -/
inductive Executor where
  | span (slot : Nat)
  | steps
  | trestle
deriving DecidableEq, Repr

/-- How a fetch ended (R383). -/
inductive FetchError where
  | timeout | unsupported | completerAbort | poisoned
deriving DecidableEq, Repr

/-- Who wrote a register: the host through BAR0 of function 0, or a management session (R341, R394). -/
inductive Writer where
  | host
  | session (id : Nat)
deriving DecidableEq, Repr

/-- The units that a reset of R344 other than a cold one acts on. -/
inductive ResetTarget where
  | core (cl phys : Nat)
  | cluster (cl : Nat)
  | die (d : Nat)
  | package
deriving DecidableEq, Repr

/-- What a scrub read reads: 64 bytes of DRAM, or 8 bytes of the near tier, by address (R195). -/
inductive ScrubAt where
  | dram (pa : Nat)
  | near (addr : Nat)
deriving DecidableEq, Repr

/-- What a trestle unit found on the way of a command's data: nothing wrong, an uncorrected word of its staging in unit 32 × stack + port at a byte of its
context's 4 KiB, or an uncorrected crossbar transfer from a unit (R201, R220). -/
inductive TrestleEcc where
  | good
  | staging (unit : Fin 640) (off : Fin 4096)
  | crossbar (unit : Fin 640)
deriving DecidableEq, Repr

/-- The end of the work on a TRESTLE: its command, and how it ended. -/
structure TrestleEnd where
  uid : Nat
  ecc : TrestleEcc := .good
deriving DecidableEq, Repr

/-- The straps sampled at PERST_N release (R313, R401, R423). -/
structure Straps where
  x : BitVec 4
  y : BitVec 4
  edge : BitVec 4
  bootMode : BitVec 2
deriving DecidableEq, Repr

/-- What training and self-tests found at boot (R164, R338, R374): bulk channels that trained only at 8.533 Gb/s, and that
failed at both rates; cores and pier cores that failed their test; the PCIe generation and width. -/
structure BootFound where
  slowCh : Word
  failedCh : Word
  failedCores : List (Nat × Word)
  failedPier : BitVec 16
  gen : BitVec 4
  width : BitVec 4
deriving DecidableEq, Repr

/-- What the governor measured over the last period (R364, R372): voltage, total, useful draw, the six junction temperatures in
units of 1/4 degree above -40, the energy of the period in mJ. -/
structure Measured where
  mv : Half
  total : Half
  useful : Half
  ballast : Half
  temps : List (BitVec 10)
  energy : Nat
deriving DecidableEq, Repr

/-- The kinds of flit (R309). -/
inductive FlitKind where
  | idle | data | rts | cts | nack | endAck | linkFail | xferAbort | vote | decision | query | decisionAck
  | heartbeat | ident | withdraw | lretry
deriving DecidableEq, Repr

/-- A flit: the header fields of R309 and its 240 payload bytes, of which trailing zero bytes may be left out. -/
structure Flit where
  dstX : Nat
  dstY : Nat
  srcX : Nat
  srcY : Nat
  srcLX : Nat
  srcLY : Nat
  vc : Nat
  detour : Bool
  last : Bool
  kind : FlitKind
  tag : Nat
  xfer : Nat
  lseq : Nat
  cvc : Nat
  credits : Nat
  payload : List Byte
deriving DecidableEq, Repr

/-- A register-access message (R395). -/
structure RegMessage where
  func : Nat
  count : Nat
  offset : Nat
  value : Quad
deriving DecidableEq, Repr

/-- The commands, one for each row of the table, in its order. -/
inductive Instr where
  | nop (f : FuncId) (q : QueueId) (c : Command)
  | badOpcode (f : FuncId) (q : QueueId) (c : Command)
  | spanLoad (f : FuncId) (q : QueueId) (c : Command)
  | loadComplete (d : DieId) (slot : SlotId)
  | spanLaunch (f : FuncId) (q : QueueId) (c : Command)
  | launchEnd (d : DieId) (slot : SlotId) (cycles : Quad)
  | spanDrain (f : FuncId) (q : QueueId) (c : Command)
  | drainComplete (d : DieId) (slot : SlotId)
  | dispenseSet (f : FuncId) (q : QueueId) (c : Command)
  | move (f : FuncId) (q : QueueId) (c : Command)
  | moveChunk (uid : Nat)
  | moveComplete (uid : Nat)
  | image (f : FuncId) (q : QueueId) (c : Command)
  | imageSegment (slot : Nat)
  | evictImage (f : FuncId) (q : QueueId) (c : Command)
  | evictPagesFree (entry : Nat) (d : DieId)
  | gather (f : FuncId) (q : QueueId) (c : Command)
  | scatter (f : FuncId) (q : QueueId) (c : Command)
  | scatterAdd (f : FuncId) (q : QueueId) (c : Command)
  | decode (f : FuncId) (q : QueueId) (c : Command)
  | reduce (f : FuncId) (q : QueueId) (c : Command)
  | update (f : FuncId) (q : QueueId) (c : Command)
  | pfxLookup (f : FuncId) (q : QueueId) (c : Command)
  | pfxInsert (f : FuncId) (q : QueueId) (c : Command)
  | score (f : FuncId) (q : QueueId) (c : Command)
  | trestleDone (fin : TrestleEnd)
  | wait (f : FuncId) (q : QueueId) (c : Command)
  | signal (f : FuncId) (q : QueueId) (c : Command)
  | barrier (f : FuncId) (q : QueueId) (c : Command)
  | commit (f : FuncId) (q : QueueId) (c : Command)
  | abort (f : FuncId) (q : QueueId) (c : Command)
  | viaSend (f : FuncId) (q : QueueId) (c : Command)
  | viaRecv (f : FuncId) (q : QueueId) (c : Command)
  | seqStep (f : FuncId) (q : QueueId) (c : Command)
  | stepCommit (d : DieId)
  | admitSession (f : FuncId) (q : QueueId) (c : Command)
  | release (f : FuncId) (q : QueueId) (c : Command)
  | timestamp (f : FuncId) (q : QueueId) (c : Command)
  | longSuspend (f : FuncId) (q : QueueId) (c : Command)
  | longResume (f : FuncId) (q : QueueId) (c : Command)
  | longCancel (f : FuncId) (q : QueueId) (c : Command)
  | longQuery (f : FuncId) (q : QueueId) (c : Command)
  | objLoad (f : FuncId) (q : QueueId) (c : Command) (head : List Byte)
  | objLoadSegment (slot : Nat) (data : List Byte)
  | objRetire (f : FuncId) (q : QueueId) (c : Command)
  | retireTeardown (entry : Nat)
  | retirePagesFree (entry : Nat)
  | sqDoorbell (f : FuncId) (q : QueueId) (value : Word)
  | cqDoorbell (f : FuncId) (q : QueueId) (value : Word)
  | commandFetch (f : FuncId) (q : QueueId) (cmds : List Command)
  | fetchFault (f : FuncId) (q : QueueId) (why : FetchError)
  | dispatch (d : DieId) (x : Executor)
  | cycleStart
  | slotStart
  | tokenArrival (dst : RouteDst) (ecc : Ecc)
  | tokenSend (src : RouteSrc)
  | creditReturn (src : RouteSrc)
  | ceFiring (cl : ClusterId) (p : CoreId) (e : Fin 4)
  | meFiring (cl : ClusterId) (p : CoreId) (e : Fin 4) (ctx : Fin 8) (recent : Nat) (ecc : Ecc)
  | keystoneForward (site : KeySite)
  | handoffReceive (d : DieId) (ep : Fin 32)
  | arbRound (port : Fin 672)
  | dynamicSlotGrant (port : Fin 672)
  | tierTransferDone (cl : ClusterId) (p : CoreId) (e : Fin 4) (ctx : Fin 8) (lin : Nat) (ecc : Ecc)
  | tierDeadlineExpiry (who : Requester)
  | pageWalkDone (who : Requester) (ecc : Ecc)
  | faultResolutionStart (id : Nat)
  | faultResolutionDone (id : Nat)
  | faultDeadlineExpiry (who : Requester)
  | scrubRead (loc : ScrubAt) (ecc : Ecc)
  | tlbInv (value : Quad)
  | tlbInvDone
  | poolLock (value : Quad)
  | arbClear (value : Quad)
  | eventWrite (f : FuncId) (n : Fin 1024) (value : Quad)
  | counterReadClear (f : FuncId) (off : BitVec 26) (wide : Bool)
  | registerWrite (f : FuncId) (off : BitVec 26) (wide : Bool) (value : Quad)
  | resetCore (w : Writer) (value : Quad)
  | resetCluster (w : Writer) (value : Quad)
  | resetDie (w : Writer) (value : Quad)
  | resetPackageWarm (w : Writer) (value : Quad)
  | resetComplete (t : ResetTarget)
  | retirementRecordWrite
  | fenceCore (w : Writer) (value : Quad)
  | fenceCluster (w : Writer) (value : Quad)
  | spanReload (d : DieId) (slot : SlotId)
  | rasUnretire (w : Writer) (value : Quad)
  | selfTestDone (t : ResetTarget) (failed : Word) (pierFailed : Bool)
  | coreWatchdogExpiry (cl : ClusterId) (p : CoreId)
  | commandDeadlineExpiry (uid : Nat)
  | pierWatchdogExpiry (d : DieId) (pier : Fin 8)
  | hubWatchdogExpiry
  | dieResetWatchdogExpiry (d : DieId)
  | coreControlEcc (cl : ClusterId) (p : CoreId) (part : Fin 5)
  | clusterControlEcc (cl : ClusterId) (part : Fin 3)
  | bridgeEcc (bridge : Fin 8) (victims : List Requester)
  | hubControlEcc
  | cePolicyFence (cl : ClusterId) (p : CoreId)
  | autoReset
  | powerOn
  | powerRemoval
  | perstAssert
  | perstRelease (straps : Straps) (programmed : Option (List Byte))
  | bootReady (found : BootFound)
  | supplyUndervoltage
  | supplyOvervoltage
  | regulatorFault
  | refclkLoss
  | epoAssert
  | brakeAssert
  | brakeRelease
  | thermalTrip
  | thermalForcedFloor
  | governorPeriod (m : Measured)
  | heartbeatTimeout
  | pwrHeartbeat (w : Writer) (value : Quad)
  | clusterNap (cl : ClusterId)
  | clusterDeep (cl : ClusterId)
  | clusterWake (cl : ClusterId)
  | clusterWakeDone (cl : ClusterId)
  | clkWake (value : Quad)
  | queueEnable (f : FuncId) (q : QueueId)
  | queueDisable (f : FuncId) (q : QueueId)
  | queueDrainDone (f : FuncId) (q : QueueId)
  | funcDisable (f : FuncId)
  | vfFlr (f : FuncId)
  | vfDisable (numVfs : Fin 32)
  | pfFlr
  | funcResetComplete (f : FuncId)
  | linkLoss
  | bar2Read (f : FuncId) (off : Nat) (len : Nat)
  | bar2Write (f : FuncId) (off : Nat) (data : List Byte) (poisoned : Bool)
  | portTrainingAttempt (p : PortId)
  | trainingTimeout (p : PortId)
  | portTrain (p : PortId) (w : Writer)
  | mapout (w : Writer) (value : Quad)
  | mapoutClr (w : Writer) (value : Quad)
  | peerStateWrite (w : Writer) (n : Fin 256) (value : Quad)
  | laneLockLoss (p : PortId)
  | linkSilenceExpiry (p : PortId)
  | viaHeartbeatSend
  | peerFaultReceived (p : PortId)
  | peerFaultClear (p : PortId)
  | idle (p : PortId) (fl : Flit)
  | data (p : PortId) (fl : Flit)
  | rts (p : PortId) (fl : Flit)
  | cts (p : PortId) (fl : Flit)
  | nack (p : PortId) (fl : Flit)
  | endAck (p : PortId) (fl : Flit)
  | linkFail (p : PortId) (fl : Flit)
  | xferAbort (p : PortId) (fl : Flit)
  | vote (p : PortId) (fl : Flit)
  | decision (p : PortId) (fl : Flit)
  | query (p : PortId) (fl : Flit)
  | decisionAck (p : PortId) (fl : Flit)
  | heartbeat (p : PortId) (fl : Flit)
  | ident (p : PortId) (fl : Flit)
  | withdraw (p : PortId) (fl : Flit)
  | lretry (p : PortId) (fl : Flit)
  | rtsResend (uid : Nat)
  | voteResend (f : FuncId) (group : Word)
  | querySend (f : FuncId) (group : Word)
  | claim (record : List Byte)
  | ownerRelease (record : List Byte)
  | pubEnrol (record : List Byte)
  | pubRemove (record : List Byte)
  | reqEnrol (record : List Byte)
  | reqRemove (record : List Byte)
  | policy (record : List Byte)
  | imageBoot (img : List Byte)
  | imageWriteFlash (img : List Byte)
  | flashWriteDone
  | registerReadMessage (w : Writer) (m : RegMessage)
  | registerWriteMessage (w : Writer) (m : RegMessage)
  | getPdrRepositoryInfo
  | getPdr (record : Word)
  | getSensorReading (id : Half)
  | getStateSensorReadings (id : Half)
  | getNumericEffecterValue (id : Half)
  | setNumericEffecterValue (w : Writer) (id : Half) (value : Word)
  | pollForPlatformEventMessage
  | setEndpointId (eid : Byte)
  | getEndpointId
  | getMctpVersionSupport (msgType : Byte)
  | getMessageTypeSupport
  | getVendorDefinedMessageSupport (selector : Byte)
  | entdaa (addr : BitVec 7)
  | setnewda (addr : BitVec 7)
  | rstdaa
  | getpid
  | getbcr
  | getdcr
  | getmrl
  | getmwl
  | setmrl (len : Half)
  | setmwl (len : Half)
  | spdmGetCertificate (slot : Fin 8)
  | spdmChallenge (slot : Fin 8) (nonce : BitVec 256)
  | spdmGetMeasurements (index : Byte) (nonce : BitVec 256)
  | spdmKeyExchange (slot : Fin 8)
  | spdmHeartbeat (id : Nat)
  | spdmEndSession (id : Nat)
  | epoRelease
  | thermtripRelease
  | inputWithinOperatingRange
  | refclkPresent
  | flitCrcFailure (p : PortId)
  | msixUnmask (f : FuncId) (v : Fin 64)
  | stackFailure (k : Fin 20)
  | spdmGetVersion
  | spdmGetCapabilities
  | spdmNegotiateAlgorithms
  | spdmGetDigests
  | spdmFinish (id : Nat) (keyHash : Option (BitVec 256)) (abauzorChain : Bool)
  | pldmBaseDiscovery
deriving DecidableEq, Repr

end Sys2Proof
end

