-- ==== Sys2Proof/Decode.lean ====
section
/-!
DEFINITION. Words that spell a command by the bits of the command table. The table gives no row any bits, so no word spells one.
-/
namespace Sys2Proof

/-- The command that the table's bits make of a word: none, for no row has bits. -/
def decodeTableWord (_nbits _w : Nat) : Option Instr := none

end Sys2Proof
end

