-- ==== Sys2Proof/Machine/Bits.lean ====
section
/-!
DEFINITION. Bit fields, bytes and lists of bytes (R8: bit 0 is the least significant, byte 0 holds bits [7:0]).
-/
namespace Sys2Proof.Machine

/-- Bits [lo + n - 1 : lo] of `v`. -/
def bitsAt (v lo n : Nat) : Nat := v >>> lo % 2 ^ n

/-- Bit `i` of `v`. -/
def bitAt (v i : Nat) : Bool := v.testBit i

/-- 1 for true. -/
def bit (b : Bool) : Nat := if b then 1 else 0

/-- `v` with bits [lo + n - 1 : lo] replaced by the low bits of `x`. -/
def putBits (v lo n x : Nat) : Nat :=
  v - bitsAt v lo n * 2 ^ lo + x % 2 ^ n * 2 ^ lo

/-- `v` with bit `i` set or cleared. -/
def putBit (v i : Nat) (b : Bool) : Nat := putBits v i 1 (bit b)

/-- Number of bits set among the low `n`. -/
def popCount (n v : Nat) : Nat := (List.range n).countP v.testBit

/-- The indices below `n` whose bit is set, in rising order. -/
def bitList (n v : Nat) : List Nat := (List.range n).filter v.testBit

/-- The value of bytes in little-endian order. -/
def ofBytes : List Byte → Nat
  | [] => 0
  | b :: t => b.toNat + 256 * ofBytes t

/-- The low `n` bytes of `v`, byte 0 first. -/
def toBytes : Nat → Nat → List Byte
  | 0, _ => []
  | n + 1, v => BitVec.ofNat 8 v :: toBytes n (v / 256)

/-- Bytes [at, at + n) of a list, as a number; bytes past its end count 0. -/
def bytesAt (l : List Byte) (at_ n : Nat) : Nat := ofBytes ((l.drop at_).take n)

/-- The value of bytes in big-endian order. -/
def ofBytesBE (l : List Byte) : Nat := l.foldl (fun a b => a * 256 + b.toNat) 0

/-- The low `n` bytes of `v`, most significant first. -/
def toBytesBE (n v : Nat) : List Byte := (toBytes n v).reverse

/-- The value of an `n`-bit two's complement number. -/
def signedOf (n v : Nat) : Int := if v % 2 ^ n < 2 ^ (n - 1) then v % 2 ^ n else (v % 2 ^ n : Int) - 2 ^ n

/-- The `n`-bit two's complement code of an integer, modulo 2^n. -/
def unsignedOf (n : Nat) (i : Int) : Nat := (i % (2 ^ n : Int)).toNat

/-- The smallest element, or `d` for none. -/
def minList (d : Nat) : List Nat → Nat
  | [] => d
  | a :: t => t.foldl min a

/-- The largest element, or `d` for none. -/
def maxList (d : Nat) : List Nat → Nat
  | [] => d
  | a :: t => t.foldl max a

/-- The element that comes first under `lt`, the earlier one on a tie. -/
def firstBy {α : Type} (lt : α → α → Bool) : List α → Option α
  | [] => none
  | a :: t =>
    match firstBy lt t with
    | none => some a
    | some b => if lt b a then some b else some a

end Sys2Proof.Machine
end

