-- ==== Sys2Proof/Machine/Crypto.lean ====
section
/-!
DEFINITION. The published algorithms that the spec names: SHA-256 (R242), HMAC-SHA-256 (R408), RSASSA-PSS with RSA-3072 (R241),
SipHash-2-4 (R283), Philox4x32-10 (R114), CRC-32 (R309) and AES-256-GCM decryption (R244). PRESUMED: the spec names the standards and
does not restate them (log entry 12).
-/
namespace Sys2Proof.Machine

def w32 : Nat := 2 ^ 32
def w64 : Nat := 2 ^ 64

/-- Rotation of a 32-bit word to the right and of a 64-bit word to the left. -/
def rotr32 (x n : Nat) : Nat := x >>> n ||| x <<< (32 - n) % w32
def rotl64 (x n : Nat) : Nat := x <<< n % w64 ||| x >>> (64 - n)

/-! ### SHA-256 -/

def shaK : List Nat :=
  [0x428a2f98, 0x71374491, 0xb5c0fbcf, 0xe9b5dba5, 0x3956c25b, 0x59f111f1, 0x923f82a4, 0xab1c5ed5] ++
  [0xd807aa98, 0x12835b01, 0x243185be, 0x550c7dc3, 0x72be5d74, 0x80deb1fe, 0x9bdc06a7, 0xc19bf174] ++
  [0xe49b69c1, 0xefbe4786, 0x0fc19dc6, 0x240ca1cc, 0x2de92c6f, 0x4a7484aa, 0x5cb0a9dc, 0x76f988da] ++
  [0x983e5152, 0xa831c66d, 0xb00327c8, 0xbf597fc7, 0xc6e00bf3, 0xd5a79147, 0x06ca6351, 0x14292967] ++
  [0x27b70a85, 0x2e1b2138, 0x4d2c6dfc, 0x53380d13, 0x650a7354, 0x766a0abb, 0x81c2c92e, 0x92722c85] ++
  [0xa2bfe8a1, 0xa81a664b, 0xc24b8b70, 0xc76c51a3, 0xd192e819, 0xd6990624, 0xf40e3585, 0x106aa070] ++
  [0x19a4c116, 0x1e376c08, 0x2748774c, 0x34b0bcb5, 0x391c0cb3, 0x4ed8aa4a, 0x5b9cca4f, 0x682e6ff3] ++
  [0x748f82ee, 0x78a5636f, 0x84c87814, 0x8cc70208, 0x90befffa, 0xa4506ceb, 0xbef9a3f7, 0xc67178f2]

def shaH : List Nat :=
  [0x6a09e667, 0xbb67ae85, 0x3c6ef372, 0xa54ff53a, 0x510e527f, 0x9b05688c, 0x1f83d9ab, 0x5be0cd19]

/-- One round on the eight working words. -/
def shaRound (s : List Nat) (kw : Nat) : List Nat :=
  match s with
  | [a, b, c, d, e, f, g, h] =>
    let s1 := rotr32 e 6 ^^^ rotr32 e 11 ^^^ rotr32 e 25
    let ch := (e &&& f) ^^^ ((w32 - 1 - e) &&& g)
    let t1 := h + s1 + ch + kw
    let s0 := rotr32 a 2 ^^^ rotr32 a 13 ^^^ rotr32 a 22
    let mj := (a &&& b) ^^^ (a &&& c) ^^^ (b &&& c)
    [(t1 + s0 + mj) % w32, a, b, c, (d + t1) % w32, e, f, g]
  | _ => s

/-- Runs the rounds while the schedule window of sixteen words moves on. -/
def shaRounds : List Nat → List Nat → List Nat → List Nat
  | [], _, s => s
  | k :: ks, w, s =>
    let w0 := w.getD 0 0
    let x := w.getD 1 0
    let y := w.getD 14 0
    let next := (w0 + (rotr32 x 7 ^^^ rotr32 x 18 ^^^ x >>> 3) + w.getD 9 0 + (rotr32 y 17 ^^^ rotr32 y 19 ^^^ y >>> 10)) % w32
    shaRounds ks (w.drop 1 ++ [next]) (shaRound s (k + w0))

/-- The sixteen big-endian words of a block. -/
def shaWords (b : List Byte) : List Nat := (List.range 16).map fun i => ofBytesBE ((b.drop (4 * i)).take 4)

def shaBlock (h : List Nat) (b : List Byte) : List Nat :=
  (h.zip (shaRounds shaK (shaWords b) h)).map fun x => (x.1 + x.2) % w32

def shaBlocks : Nat → List Nat → List Byte → List Nat
  | 0, h, _ => h
  | n + 1, h, m => shaBlocks n (shaBlock h (m.take 64)) (m.drop 64)

def sha256Bytes (m : List Byte) : List Byte :=
  let n := (m.length + 9 + 63) / 64
  let padded := m ++ [0x80#8] ++ List.replicate (64 * n - 9 - m.length) 0#8 ++ toBytesBE 8 (8 * m.length)
  (shaBlocks n shaH padded).flatMap (toBytesBE 4)

/-- The digest as a number whose byte 0 is the first byte of the digest. -/
def sha256 (m : List Byte) : BitVec 256 := BitVec.ofNat 256 (ofBytes (sha256Bytes m))

def xorBytes (a b : List Byte) : List Byte := (a.zip b).map fun x => x.1 ^^^ x.2

/-- HMAC-SHA-256 under a 32-byte key. -/
def hmacSha256 (key m : List Byte) : List Byte :=
  let k := key ++ List.replicate 32 0#8
  let outer := xorBytes k (List.replicate 64 0x5c#8)
  let inner := xorBytes k (List.replicate 64 0x36#8)
  sha256Bytes (outer ++ sha256Bytes (inner ++ m))

/-! ### RSASSA-PSS, RSA-3072, exponent 65537, 32-byte salt -/

/-- MGF1 with SHA-256: `n` blocks from counter `c`. -/
def mgf1 (seed : List Byte) : Nat → Nat → List Byte
  | 0, _ => []
  | n + 1, c => sha256Bytes (seed ++ toBytesBE 4 c) ++ mgf1 seed n (c + 1)

/-- x^65537 mod n, by sixteen squarings. -/
def rsaPublic (x n : Nat) : Nat := ((List.range 16).foldl (fun y _ => y * y % n) x) * x % n

/-- EMSA-PSS verification of a 3072-bit modulus over a message. -/
def pssVerify (modulus : Nat) (msg sig : List Byte) : Bool :=
  let s := ofBytesBE sig
  let em := toBytesBE 384 (rsaPublic s modulus)
  let masked := em.take 351
  let h := (em.drop 351).take 32
  let mask := mgf1 h 11 0
  let db := match xorBytes masked mask with
    | b :: t => (b &&& 0x7F#8) :: t
    | [] => []
  let salt := db.drop 319
  modulus ≠ 0 && s < modulus && em.getD 383 0#8 = 0xBC#8 && (em.getD 0 0#8).toNat < 128
    && db.take 318 = List.replicate 318 0#8 && db.getD 318 0#8 = 1#8
    && sha256Bytes (List.replicate 8 0#8 ++ sha256Bytes msg ++ salt) = h

/-! ### SipHash-2-4 -/

def sipRound : Nat × Nat × Nat × Nat → Nat × Nat × Nat × Nat
  | (a, b, c, d) =>
    let a := (a + b) % w64
    let b := rotl64 b 13 ^^^ a
    let a := rotl64 a 32
    let c := (c + d) % w64
    let d := rotl64 d 16 ^^^ c
    let a := (a + d) % w64
    let d := rotl64 d 21 ^^^ a
    let c := (c + b) % w64
    let b := rotl64 b 17 ^^^ c
    let c := rotl64 c 32
    (a, b, c, d)

def sipWords : Nat → List Byte → Nat × Nat × Nat × Nat → Nat × Nat × Nat × Nat
  | 0, _, v => v
  | n + 1, m, (a, b, c, d) =>
    let w := ofBytes (m.take 8)
    let (a, b, c, d) := sipRound (sipRound (a, b, c, d ^^^ w))
    sipWords n (m.drop 8) (a ^^^ w, b, c, d)

def sipHash24 (key : List Byte) (m : List Byte) : Nat :=
  let k0 := ofBytes (key.take 8)
  let k1 := ofBytes ((key.drop 8).take 8)
  let n := m.length / 8
  let tail := m.drop (8 * n)
  let last := tail ++ List.replicate (7 - tail.length) 0#8 ++ [BitVec.ofNat 8 m.length]
  let v := sipWords n m (k0 ^^^ 0x736f6d6570736575, k1 ^^^ 0x646f72616e646f6d, k0 ^^^ 0x6c7967656e657261, k1 ^^^ 0x7465646279746573)
  let (a, b, c, d) := sipWords 1 last v
  let (a, b, c, d) := sipRound (sipRound (sipRound (sipRound (a, b, c ^^^ 0xff, d))))
  a ^^^ b ^^^ c ^^^ d

/-! ### Philox4x32-10 -/

def philoxRounds : Nat → List Nat → Nat → Nat → List Nat
  | n + 1, [c0, c1, c2, c3], k0, k1 =>
    let p := 0xD2511F53 * c0
    let q := 0xCD9E8D57 * c2
    philoxRounds n [q / w32 ^^^ c1 ^^^ k0, q % w32, p / w32 ^^^ c3 ^^^ k1, p % w32] ((k0 + 0x9E3779B9) % w32) ((k1 + 0xBB67AE85) % w32)
  | _, c, _, _ => c

/-- Output word 0 of a sampling draw: the seed as key, position, draw index and stream as counter (R114). -/
def philoxDraw (seed position draw stream : Nat) : Nat :=
  (philoxRounds 10 [position, draw, stream, 0] (seed % w32) (seed / w32)).getD 0 0

/-! ### CRC-32 (IEEE 802.3) -/

def crcBits : Nat → Nat → Nat
  | 0, c => c
  | n + 1, c => crcBits n (if c % 2 = 1 then c / 2 ^^^ 0xEDB88320 else c / 2)

def crc32 (m : List Byte) : Nat := (m.foldl (fun c b => crcBits 8 (c ^^^ b.toNat)) 0xFFFFFFFF) ^^^ 0xFFFFFFFF

/-! ### AES-256-GCM -/

/-- The S-box as one number, entry `i` at byte `i`. -/
def aesBox : Nat := 0x16bb54b00f2d99416842e6bf0d89a18cdf2855cee9871e9b948ed9691198f8e19e1dc186b95735610ef6034866b53e708a8bbd4b1f74dde8c6b4a61c2e2578ba08ae7a65eaf4566ca94ed58d6d37c8e779e4959162acd3c25c2406490a3a32e0db0b5ede14b8ee4688902a22dc4f816073195d643d7ea7c41744975fec130ccdd2f3ff1021dab6bcf5389d928f40a351a89f3c507f02f94585334d43fbaaefd0cf584c4a39becb6a5bb1fc20ed00d153842fe329b3d63b52a05a6e1b1a2c830975b227ebe28012079a059618c323c7041531d871f1e5a534ccf73f362693fdb7c072a49cafa2d4adf04759fa7dc982ca76abd7fe2b670130c56f6bf27b777c63

def sbox (b : Nat) : Nat := aesBox >>> (8 * b) % 256
def xtime (b : Nat) : Nat := if b < 128 then 2 * b else (2 * b) ^^^ 0x11B

/-- The round keys as sixty words of four bytes. -/
def aesExpand : Nat → Nat → List (List Nat) → List (List Nat)
  | 0, _, w => w
  | n + 1, rcon, w =>
    let i := w.length
    let t := w.getD (i - 1) []
    let t := if i % 8 = 0 then
        match t.map sbox with
        | [a, b, c, d] => [b ^^^ rcon, c, d, a]
        | l => l
      else if i % 8 = 4 then t.map sbox else t
    let x := ((w.getD (i - 8) []).zip t).map fun p => p.1 ^^^ p.2
    aesExpand n (if i % 8 = 0 then xtime rcon else rcon) (w ++ [x])

def aesKeys (key : List Byte) : List (List Nat) :=
  let w := (List.range 8).map fun i => ((key.drop (4 * i)).take 4).map (·.toNat)
  let all := aesExpand 52 1 w
  (List.range 15).map fun r => (all.drop (4 * r)).take 4 |>.flatten

def aesShift (s : List Nat) : List Nat :=
  (List.range 16).map fun i => s.getD ((i + 4 * (i % 4)) % 16) 0

def aesMix : List Nat → List Nat
  | a :: b :: c :: d :: t =>
    let x := a ^^^ b ^^^ c ^^^ d
    (a ^^^ x ^^^ xtime (a ^^^ b)) :: (b ^^^ x ^^^ xtime (b ^^^ c)) :: (c ^^^ x ^^^ xtime (c ^^^ d)) :: (d ^^^ x ^^^ xtime (d ^^^ a)) :: aesMix t
  | l => l

def aesXor (s k : List Nat) : List Nat := (s.zip k).map fun p => p.1 ^^^ p.2

def aesRounds (s : List Nat) : List (List Nat) → List Nat
  | [] => s
  | [k] => aesXor (aesShift (s.map sbox)) k
  | k :: t => aesRounds (aesXor (aesMix (aesShift (s.map sbox))) k) t

def aesEncrypt (keys : List (List Nat)) (b : List Byte) : List Byte :=
  (aesRounds (aesXor (b.map (·.toNat)) (keys.getD 0 [])) (keys.drop 1)).map (BitVec.ofNat 8)

/-- Multiplication in GF(2^128), bits in GCM's order. -/
def ghashMul (x y : Nat) : Nat :=
  ((List.range 128).foldl (fun (zv : Nat × Nat) i =>
    (if bitAt x (127 - i) then zv.1 ^^^ zv.2 else zv.1, if zv.2 % 2 = 1 then zv.2 / 2 ^^^ 0xE1 <<< 120 else zv.2 / 2)) (0, y)).1

def ghashBlocks (h : Nat) : Nat → Nat → List Byte → Nat
  | 0, y, _ => y
  | n + 1, y, m => ghashBlocks h n (ghashMul (y ^^^ ofBytesBE (m.take 16 ++ List.replicate (16 - m.length) 0#8)) h) (m.drop 16)

def gcmCounter (keys : List (List Nat)) (iv : List Byte) : Nat → Nat → List Byte
  | 0, _ => []
  | n + 1, c => aesEncrypt keys (iv ++ toBytesBE 4 c) ++ gcmCounter keys iv n (c + 1)

/-- AES-256-GCM decryption with a 12-byte IV: the plaintext, or none where the tag fails. -/
def gcmDecrypt (key iv aad cipher tag : List Byte) : Option (List Byte) :=
  let keys := aesKeys key
  let h := ofBytesBE (aesEncrypt keys (List.replicate 16 0#8))
  let blocks (m : List Byte) : Nat := (m.length + 15) / 16
  let y := ghashBlocks h (blocks cipher) (ghashBlocks h (blocks aad) 0 aad) cipher
  let s := ghashMul (y ^^^ (8 * aad.length * 2 ^ 64 + 8 * cipher.length)) h
  let expected := xorBytes (toBytesBE 16 s) (aesEncrypt keys (iv ++ toBytesBE 4 1))
  if expected = tag then some (xorBytes cipher (gcmCounter keys iv (blocks cipher) 2)) else none

end Sys2Proof.Machine
end

