-- ==== Sys2Proof/Config.lean ====
section
/-!
DEFINITION. The error codes of R434 and the values the spec leaves open. An `opaque` constant has no body: a statement about it holds
for every value it could have.
-/
namespace Sys2Proof.Config

/-! ### Error codes (R434) -/

def ok : Nat := 0x00
def badOpcode : Nat := 0x01
def badField : Nat := 0x02
def badHandle : Nat := 0x03
def noPermission : Nat := 0x04
def unitAbsent : Nat := 0x05
def quota : Nat := 0x06
def deadline : Nat := 0x07
def signature : Nat := 0x08
def decrypt : Nat := 0x09
def versionRetired : Nat := 0x0A
def busy : Nat := 0x0B
def overflow : Nat := 0x10
def tagWindow : Nat := 0x11
def epoch : Nat := 0x12
def pageFault : Nat := 0x13
def tierFail : Nat := 0x14
def eccUncorrected : Nat := 0x15
def link : Nat := 0x16
def peerAbort : Nat := 0x17
def cancelled : Nat := 0x18
def functionReset : Nat := 0x19
def hang : Nat := 0x1A
def power : Nat := 0x1B
def thermal : Nat := 0x1C
def retired : Nat := 0x1D

/-- LOCAL_TIME counts in a µs: the 100 MHz always-on clock (R358). -/
def usTicks : Nat := 100

/-! ### Free values -/

/-- The `n`-th value that the spec leaves open in a run, `w` bits wide (log entry 6). -/
opaque freeBits (w n : Nat) : BitVec w

/-- A special function of the SF stage on a finite operand that its rule does not fix exactly (R110; log entry 7). -/
opaque specialFn (fn : Nat) (x : Word) : Word

/-- What the device's private content key makes of a wrapped key: the content key, or none where it does not unwrap (R244;
log entry 8). -/
opaque unwrapKey (deviceId : BitVec 64) (wrapped : List Byte) : Option (BitVec 256)

/-- The signature of the device's attestation key over a message (R405; log entry 9). -/
opaque deviceSign (deviceId : BitVec 64) (message : List Byte) : List Byte

/-- The key of the retirement record, 32 bytes, a function of the device's own secrets (R407; log entry 14). -/
opaque recordKey (deviceId : BitVec 64) : List Byte

/-- The certificate chain in a slot, 0 or 1, of the device (R405; log entry 15). -/
opaque certChain (deviceId : BitVec 64) (slot : Nat) : List Byte

/-- SHA-256 of the security processor's ROM, measurement 1 (R405; log entry 15). -/
opaque romHash : BitVec 256

/-- In how many bytes an item of measurements 6 to 8 is hashed: 0 SEC_POLICY, 1 SEC_OWNER_COUNTER, 2 a key hash, 3 a publisher key, 4 a role, 5 KF_ID,
6 KF_CAP.PART, 7 the SVN floor, 8 SEC_BOOT_STATUS (R405; log entry 15). -/
opaque measureWidth (item : Nat) : Nat

/-- The platform descriptor record of a sensor or effecter (R393; log entry 16). -/
opaque pdrRecord (id : Nat) : List Byte

/-- The versions of an MCTP message type, and Abauzor's PCI vendor identifier (R392, R395; log entry 16). -/
opaque mctpVersions (msgType : Nat) : List Byte
opaque vendorId : BitVec 16

/-- The I3C provisioned ID of a device, and its bus and device characteristics (R392; log entry 16). -/
opaque i3cPid (deviceId : BitVec 64) : BitVec 48
opaque i3cBcr : BitVec 8
opaque i3cDcr : BitVec 8

end Sys2Proof.Config
end

