-- ==== Sys2Proof/Machine/State.lean ====
section
/-!
DEFINITION. The state of the package as plain data: every register, queue, buffer, counter, mode and pin the spec names,
the open commands, and the queue `pending` of commands that wait. A field's default is its value at reset: the value of the
spec's register table, or the value a log entry names.
-/
namespace Sys2Proof.Machine

/-- The ordering numbers of R1, coded as KF_CAP.PART (R4). -/
inductive Part where
  | kpv4A | kpv4S | kpv2L
deriving DecidableEq, Repr

/-- What is fused at test and never changes (R4, R24, R25, R398). The values are the part's own (log entry 5). -/
structure Fuses where
  part : Part := .kpv4A
  stepping : Byte := 0xA0#8
  /-- KF_CORE_STATE.FUSED of each cluster (R25). -/
  fusedCores : Tab Word := []
  /-- Clusters fenced in fuses (R4, CLUSTER_MAP). -/
  fusedClusters : BitVec 16 := 0#16
  deviceId : Quad := 0#64
  /-- SHA-256 of the firmware signing key (R398). -/
  fwRootHash : BitVec 256 := 0#256
deriving DecidableEq, Repr

/-- The core maps and fences of the KF_ block (R4, R18, R19, R25, R26). -/
structure Kf where
  /-- KF_CAP.CLUSTER_MAP. -/
  clusterMap : BitVec 16 := 0xFFFF#16
  /-- KF_CORE_STATE.FENCED of each cluster. -/
  fenced : Tab Word := []
  /-- KF_VMAP: the byte of virtual position v of cluster c at 32c + v. -/
  vmap : Tab Byte := []
deriving DecidableEq, Repr

/-! ### Tokens, engines, cores -/

/-- KIND of a token (R42). -/
inductive TokKind where
  | data | void | keystone
deriving DecidableEq, Repr

/-- A token with its sideband (R41, R42); a scalar or control payload lies in the low bits. `iter` is the full iteration number that the sender
has for the tag: a handoff carries it across (R62), nothing else reads it. -/
structure Token where
  kind : TokKind
  tag : BitVec 4
  iter : Nat
  epoch : BitVec 4
  payload : BitVec 512
deriving DecidableEq, Repr

/-- A joint queue: at most 8 DATA and VOID tokens and the keystone slot (R46); `seen` records that a KEYSTONE has arrived in this
epoch (R54, check 3). -/
structure JointQueue where
  toks : List Token := []
  key : Bool := false
  seen : Bool := false
deriving DecidableEq, Repr

/-- What an engine or stream context keeps of an open iteration (R50 to R59): firings started, whether it is void and has sent its VOID, complete,
the steering value, how many tokens each input has delivered, and which inputs delivered a VOID. -/
structure Iter where
  fired : Nat := 0
  void : Bool := false
  voidSent : Bool := false
  complete : Bool := false
  ctl : Option Bool := none
  got : Tab Nat := []
  voidIn : List Nat := []
  loads : Nat := 0
deriving DecidableEq, Repr

/-- A decoded stage word of a CE (R81 to R84). -/
inductive StageOp where
  | snop
  | dot (fmt opq opoff accIn cq : Nat) (close : Bool) (ssq ssb stsb : Nat) (fast : Bool)
  | alu (op : Nat) (wreg keep : Bool) (rd srcA srcB srcC vq sq sub : Nat) (dir sat : Bool) (imm : Word)
deriving DecidableEq, Repr

/-- A FIRE word and its eight stage words (R76). The input and output fields are bit masks. -/
structure Phase where
  first : Nat
  vin : Nat
  sin : Nat
  cin : Nat
  ldst : Nat
  vout : Nat
  sout : Bool
  cout : Bool
  ldn : Nat
  stages : List StageOp
deriving DecidableEq, Repr

/-- A CE block (R73, R75). -/
structure CeProg where
  ordered : Bool
  serial : Bool
  sfEn : Bool
  sfStage : Nat
  steer : Nat
  tap : Nat
  firings : Nat
  iterArg : Bool
  iters : Nat
  phases : List Phase
deriving DecidableEq, Repr

/-- One loop level of a stream (R88). -/
structure LoopLevel where
  carg : Bool
  count : Nat
  sstride : Int
  tstride : Int
deriving DecidableEq, Repr

/-- The words of one bound stream context (R87 to R89). -/
structure CtxProg where
  role : Nat
  nlev : Nat
  ilev : Nat
  tok2 : Bool
  out : Nat
  laneb : Nat
  vin : Nat
  gate : Nat
  gq : Nat
  lstride : Nat
  leadEn : Bool
  lead : Nat
  sig : Bool
  sout : Bool
  inplace : Bool
  loops : List LoopLevel
  sbase : Nat
  istride : Nat
  vargEn : Bool
  varg : Nat
  vbase : Nat
deriving DecidableEq, Repr

/-- An ME block (R73, R86). -/
structure MeProg where
  ordered : Bool
  steer : Nat
  budget : Nat
  window : Nat
  sfirings : Nat
  ctxs : List (Nat × CtxProg)
deriving DecidableEq, Repr

/-- The program of an engine; `unused` is a block that binds nothing (R73). -/
inductive EngProg where
  | unused
  | ce (p : CeProg)
  | me (p : MeProg)
deriving DecidableEq, Repr

/-- A tier transfer issued and not completed (R226): firing, tier address, physical address, SRAM byte address, direction, and the
port and slot it holds or waits at (R231, R232); `granted` once the arbiter has served it. -/
structure Xfer where
  lin : Nat
  va : Nat
  pa : Nat
  sram : Nat
  write : Bool
  port : Nat
  granted : Bool := false
  deadline : Word := 0#32
  /-- NOW of the port when it entered the arbiter (R234). -/
  arrived : Word := 0#32
  /-- LOCAL_TIME at which it entered the arbiter; none while it waits for a slot (R188). -/
  since : Option Nat := none
  /-- What a spill read from the SRAM. -/
  data : List Byte := []
deriving DecidableEq, Repr

/-- A freeze on a resolvable fault, or a page walk under way (R175, R191): address, direction, LOCAL_TIME of step 1, and the number of
its resolution. -/
structure Freeze where
  va : Nat
  write : Bool
  since : Nat
  resolution : Nat
deriving DecidableEq, Repr

/-- A stream context (R37, R90 to R94). -/
structure Ctx where
  lin : Nat := 0
  base : Nat := 0
  iters : Tab Iter := []
  /-- Effective trip counts of this launch (R97). -/
  counts : List Nat := []
  frozen : Option Freeze := none
  /-- A translation this firing waits for (a page walk under way). -/
  walk : Option (Nat × Bool) := none
  outst : List Xfer := []
  /-- A dispense context that has read at or past LIMIT (R148). -/
  voiding : Bool := false
  /-- Iterations that the context voided and a follower has not passed (R94). -/
  voided : List Nat := []
deriving DecidableEq, Repr

/-- An engine: STATE (R67), program, joint queues and output buffers by 4 × network + port, iteration state, stage registers by
(8 × stage + register) × 16 + lane, stream contexts, counters (R66). -/
structure Eng where
  st : BitVec 3 := 0#3
  prog : EngProg := .unused
  queues : Tab JointQueue := []
  outs : Tab (List Token) := []
  base : Nat := 0
  iters : Tab Iter := []
  regs : Tab Word := []
  ctxs : Tab Ctx := []
  /-- Iterations of the running launch; 0: no limit. -/
  limit : Nat := 0
  /-- The engine has sent or reported its keystone in this drain (R60). -/
  keyOut : Bool := false
  /-- A source's keystone handed by the sequencer (R130). -/
  keyIn : Bool := false
  firings : Nat := 0
  stallInput : Nat := 0
  stallCredit : Nat := 0
  conflicts : Nat := 0
  /-- The count A of R233. -/
  fillBytes : Nat := 0
deriving DecidableEq, Repr

/-- A physical core (R40, R66): epoch, the span that occupies it, engines 0 to 7, truss counters, and the count of its progress watchdog in units
of LOCAL_TIME (R339). -/
structure Core where
  epoch : BitVec 4 := 0#4
  span : Option (Nat × Nat) := none
  engs : Tab Eng := []
  eccCorr : Nat := 0
  eccUncorr : Nat := 0
  still : Nat := 0
deriving DecidableEq, Repr

/-- A direction of a truss link (R40). -/
inductive Dir where
  | north | east | south | west
deriving DecidableEq, Repr

/-- One direction of one link of a die's 16 × 8 grid, at the truss it leaves (R40, R43). -/
structure GridLink where
  x : Nat
  y : Nat
  dir : Dir
deriving DecidableEq, Repr

/-- A placed route (R43): its destinations, the links it uses, and what the sender has last learned of each destination: free slots and
base (R48). -/
structure Route where
  /-- Key of the span slot whose image names the route. -/
  slot : Nat
  die : Nat
  net : Net
  src : RouteSrc
  dsts : List RouteDst
  links : List GridLink
  free : List Nat
  bases : List Nat
deriving DecidableEq, Repr

/-- A token on its way to a destination (R44). -/
structure Flight where
  src : RouteSrc
  dst : RouteDst
  tok : Token
deriving DecidableEq, Repr

/-- A credit return on its way to a sender (R48): slots freed and the base of the destination. -/
structure CreditMsg where
  src : RouteSrc
  dst : RouteDst
  slots : Nat
  base : Nat
deriving DecidableEq, Repr

/-- An entry of a handoff pair's buffer (R62, R63). -/
inductive HandItem where
  | tok (ext : Nat) (kind : TokKind) (payload : BitVec 512)
  | endMark
deriving DecidableEq, Repr

/-- A handoff pair or half of one (R62, R125): the ends, the spans (die, slot) that hold them, the buffer at the receiving die, the
items on the bridge, and the send endpoint's credit. -/
structure Pair where
  sDie : Nat
  sEp : Nat
  rDie : Nat
  rEp : Nat
  sSpan : Option (Nat × Nat) := none
  rSpan : Option (Nat × Nat) := none
  buf : List HandItem := []
  bridge : List HandItem := []
  credit : Nat := 64
  /-- The sending span's KEYSTONE waits at the send endpoint (R63). -/
  sKey : Bool := false
  /-- The receiving span's KEYSTONE waits at the receive endpoint (R63). -/
  rKey : Bool := false
  /-- The receive endpoint has forwarded its keystone. -/
  rDone : Bool := false
  /-- The send endpoint has reported its keystone. -/
  sDone : Bool := false
deriving DecidableEq, Repr

/-! ### Spans, dispensers, groups -/

/-- SPN_SPAN.STATE (R143). -/
inductive SpanSt where
  | free | loading | loaded | running | draining | flushing
deriving DecidableEq, Repr

/-- A core of a span: core index 30k + v (R72), cluster, physical core. -/
structure CoreRef where
  idx : Nat
  cl : Nat
  phys : Nat
deriving DecidableEq, Repr

/-- A ROUTE word as the image gives it, by core index (R95). -/
inductive VEnd where
  | port (core eng port : Nat)
  | handoff (slot : Nat)
deriving DecidableEq, Repr

/-- A route of the image, not yet placed. -/
structure VRoute where
  net : Nat
  src : VEnd
  dsts : List VEnd
deriving DecidableEq, Repr

/-- A handoff slot of a span as SPAN_LOAD binds it (R125): slot, direction, own endpoint, peer die and endpoint. -/
structure HandSlot where
  slot : Nat
  recv : Bool
  ep : Nat
  peerDie : Nat
  peerEp : Nat
deriving DecidableEq, Repr

/-- A span slot of a die (R124, R143) with the loaded span: image version, publisher key slot, cores, decoded programs by core index,
routes, handoffs, dispensers (cluster, dispenser, G), waiting launches and drain by command number, the running launch. `late`: launches and
drains (true) that started after a drain of a LOADING slot, and wait for the load with it (R129, R130). -/
structure Span where
  st : SpanSt := .free
  epoch : BitVec 4 := 0#4
  places : Byte := 0#8
  nplace : Nat := 0
  func : Nat := 0
  entry : Nat := 0
  pubKey : Nat := 0
  ncores : Nat := 0
  cores : List CoreRef := []
  progs : List (Nat × List EngProg) := []
  vroutes : List VRoute := []
  hands : List HandSlot := []
  disps : List (Nat × Nat × Nat) := []
  waiting : List Nat := []
  running : Option Nat := none
  args : List Word := []
  asid : Nat := 0
  drain : Option Nat := none
  late : List (Nat × Bool) := []
  keyed : Bool := false
  reload : Bool := false
  loadCmd : Option Nat := none
  /-- Its load reads the bulk home, not a bonded image (R301). -/
  fromBulk : Bool := false
deriving DecidableEq, Repr

/-- A tile dispenser (R145, R152, R153). -/
structure Disp where
  next : Word := 0#32
  limit : Word := 0#32
  pStart : Word := 0#32
  pLimit : Word := 0#32
  owner : Option Nat := none
  exhausted : Bool := false
  set : Bool := false
deriving DecidableEq, Repr

/-- A split-request group (R137, R328 to R332): the parts that ended and wait (`held`, with the RESULT each will carry), the count the
COMMIT gave, the COMMIT, the first failure, and the vote with other packages. -/
structure Group where
  func : Nat
  num : Nat
  ended : Nat := 0
  need : Option Nat := none
  commit : Option Nat := none
  held : List (Nat × Quad) := []
  aborted : Bool := false
  committed : Bool := false
  remote : Nat := 0
  coord : Bool := false
  voted : Bool := false
  inDoubt : Bool := false
  yes : List Nat := []
  voters : List Nat := []
  voteAt : Nat := 0
  queryAt : Nat := 0
deriving DecidableEq, Repr

/-! ### Open commands -/

/-- An open command: started and not completed (R121). `uid` is the model's own number for it. `held`: a group part that has
ended and waits for its group (R137). -/
structure OpenCmd where
  uid : Nat
  die : Nat
  func : Nat
  queue : Nat
  asid : Nat
  cmd : Command
  sqHead : Nat
  start : Nat
  ownerStarted : Bool := false
  /-- It was held by the dispatcher before it started (R303). -/
  wasHeld : Bool := false
  held : Bool := false
  /-- Set when nothing is to be written for it any more (R299, R341). -/
  quiet : Bool := false
deriving DecidableEq, Repr

/-- STATE of a queue (R387). -/
inductive QState where
  | unbound | bound | draining | stopped
deriving DecidableEq, Repr

/-- A command fetched and not started, with SQ_HEAD after its fetch (R119) and whether it may still owe two completions. -/
structure Fetched where
  cmd : Command
  sqHead : Nat
deriving DecidableEq, Repr

/-- A command queue of a function: its HIF_ registers and the state SCH_QSAVE shows (R297, R386, R387). -/
structure Queue where
  sqBase : Quad := 0#64
  cqBase : Quad := 0#64
  cfg : Quad := 0#64
  st : QState := .unbound
  err : Byte := 0#8
  sqHead : Nat := 0
  sqTail : Nat := 0
  cqTail : Nat := 0
  cqHead : Nat := 0
  /-- Index to which the package has written entries since the last CQ head (R385): entries written and not yet freed. -/
  unread : Nat := 0
  phase : Bool := false
  fetched : List Fetched := []
  heldSince : Option Nat := none
  exec : Option Executor := none
  /-- ENABLE as written. -/
  enable : Bool := false
deriving DecidableEq, Repr

/-- STATE of a long operation (R140). -/
inductive LongSt where
  | running | suspended | cancelling | done | failed
deriving DecidableEq, Repr

/-- What a long operation works on (R138): a move, an image, a load or a retirement. -/
inductive LongKind where
  | move
  | image (entry : Nat) (dies : List Nat) (seg : Nat)
  | objLoad (entry : Nat) (seg : Nat)
  | objRetire (entry : Nat)
deriving DecidableEq, Repr

/-- A long-operation slot (R138 to R141). `waiters`: LONG_ commands that complete at the next boundary; the command's own completion
fields are kept for LONG_FINAL. -/
structure LongOp where
  used : Bool := false
  gen : Nat := 0
  func : Nat := 0
  queue : Nat := 0
  die : Nat := 0
  kind : LongKind := .move
  st : LongSt := .running
  suspendPending : Bool := false
  error : Byte := 0#8
  chunks : Nat := 0
  bytes : Nat := 0
  /-- A tile of a failed unit that it waits for: physical address, LOCAL_TIME of its entry (R188). -/
  stall : Option (Nat × Nat) := none
  /-- Die and segment of every image page this IMAGE has written (R180). -/
  written : List (Nat × Nat) := []
  cmd : Command := 0#512
  sqHead : Nat := 0
  waiters : List Nat := []
  /-- A cancellation by a function reset ends it with ERR_FUNCTION_RESET (R301). -/
  byReset : Bool := false
  quiet : Bool := false
deriving DecidableEq, Repr

/-- A page of an open move: virtual page address, source page, destination page once taken (R178). -/
structure MovePage where
  va : Nat
  src : Nat
  dst : Option Nat := none
deriving DecidableEq, Repr

/-- An open move (R178): a MOVE command, a long operation or a fault resolution. `waiting`: held before step 1 by a shadow (R208). -/
structure Move where
  uid : Nat
  long : Option Nat
  asid : Nat
  die : Option Nat
  pages : List MovePage
  copied : Nat := 0
  switched : Bool := false
  resolution : Bool := false
  waiting : Bool := false
deriving DecidableEq, Repr

/-- A shadow page of an open command (R29, R207): the virtual page, the home page, the shadow, whether the home is OPEN, and the ranges that the
command has written, as offset and length. -/
structure Shadow where
  uid : Nat
  asid : Nat
  vpage : Nat
  home : Nat
  page : Nat
  openHome : Bool
  wrote : List (Nat × Nat) := []
deriving DecidableEq, Repr

/-- A running TRESTLE (R203, R207, R219): the context number it holds on each unit of its stacks (unit 32s + u), next element, result so
far, finished, a page walk under way (address, write), a freeze, and a transfer to a failed stack (physical address, VA, LOCAL_TIME of its entry). -/
structure TrestleRun where
  uid : Nat
  die : Nat
  stackSet : Nat
  asid : Nat
  pubKey : Option Nat := none
  ctxs : Tab Nat := []
  desc : List Byte := []
  k : Nat := 0
  result : Nat := 0
  done : Bool := false
  walk : Option (Nat × Bool) := none
  frozen : Option Freeze := none
  stall : Option (Nat × Nat × Nat) := none
deriving DecidableEq, Repr

/-- What a fault resolution does (R192): moves an MG page, waits for a move's switch, or images a sealed segment. -/
inductive ResKind where
  | mgPage (asid vpage : Nat)
  | movingPage (asid vpage : Nat)
  | segment (entry seg : Nat)
deriving DecidableEq, Repr

/-- A fault resolution (R191, R192) of a die; `failed` holds the code and resource with which it ends the requests that wait. -/
structure Resolution where
  id : Nat
  die : Nat
  kind : ResKind
  started : Bool := false
  ready : Bool := false
  failed : Option (Byte × Nat × Nat) := none
deriving DecidableEq, Repr

/-! ### Memory tiers -/

/-- State of a 64 KiB page of the DRAM tiers (R168). -/
inductive PageSt where
  | opn | free | mutable | sealed | moving | priv
deriving DecidableEq, Repr

/-- A cached translation (R176): die, address space (0: the sealed range, by region unit), virtual page, leaf. `holder`: the requester that keeps it
as that of its last page; none: the die's cache. `only`: the leaf was cleared, and the commands listed, which were then running, still hold the
translation (R182). -/
structure TlbEntry where
  die : Nat
  asid : Nat
  vpage : Nat
  leaf : Quad
  holder : Option Requester := none
  only : Option (List Nat) := none
deriving DecidableEq, Repr

/-- A bulk channel (R200). -/
structure Channel where
  st : BitVec 2 := 0#2
deriving DecidableEq, Repr

/-- Counters CORR, UNCORR, SCRUB_FIX (R200). -/
structure EccCount where
  corr : Nat := 0
  uncorr : Nat := 0
  fix : Nat := 0
deriving DecidableEq, Repr

/-- The tiers (R162 to R200): registers, page states, caches, cells. -/
structure Blk where
  tierDeadline : Quad := 0x1F4#64
  faultDeadline : Quad := 0x7D0#64
  scrubPeriod : Quad := 0x18#64
  tlbInvVa : Quad := 0#64
  tlbBusy : Bool := false
  tlbError : Bool := false
  /-- The invalidation under way: address space, first page, pages (0: all). -/
  tlbJob : Option (Nat × Nat × Nat) := none
  locked : Bool := false
  invalid : Bool := false
  bar2Refused : Nat := 0
  eccLogAddr : BitVec 48 := 0#48
  eccLogTier : BitVec 3 := 0#3
  eccLogCount : Nat := 0
  poolBonded : Tab Quad := []
  poolBulk : Quad := 0#64
  channels : Tab Channel := []
  eccBulk : Tab EccCount := []
  eccBonded : Tab EccCount := []
  eccNear : Tab EccCount := []
  asids : Tab Quad := []
  /-- Page states that differ from the state the pools give a page (R168): by PA[47:16]. -/
  pages : Tab PageSt := []
  /-- The runtime's reserve, in 2 MiB units (R167). -/
  reserve : List Nat := []
  tlb : List TlbEntry := []
  /-- Sealed leaves: die × 2^23 + region unit (R174, R247). -/
  sealedLeaf : Tab Quad := []
  dram : List Host.Cell := []
  near : List Host.Cell := []
  /-- Poisoned 64-bit words of the DRAM tiers by PA / 8, and uncorrected ones of the near tier by SRAM place / 8 (R189, R194). -/
  poison : List Nat := []
  nearBad : List Nat := []
  moves : List Move := []
  shadows : List Shadow := []
  /-- Old homes of pages whose leaf a commit has switched to a shadow; each is FREE once its last access has completed (R207). -/
  oldHomes : List Nat := []
  /-- Self-refresh of channel c at c and of stack s at 32 + s since the package last left RUNNING: 1 entered, 2 left (R200, R224). -/
  selfRef : Tab Nat := []
  resolutions : List Resolution := []
deriving DecidableEq, Repr

/-- The trestle units and stacks (R223, R224). Unit u of stack s is at 32s + u. -/
structure Btr where
  stackSet : Tab (BitVec 2) := []
  xfer : Tab Nat := []
  busy : Tab (BitVec 16) := []
  frozen : Tab (BitVec 16) := []
  walks : Tab Nat := []
  pfxHit : Tab Nat := []
  pfxMiss : Tab Nat := []
  scored : Tab Nat := []
  runs : List TrestleRun := []
  /-- Staging SRAM: byte a of unit u is at 65536u + a (R201). -/
  staging : List Host.Cell := []
deriving DecidableEq, Repr

/-- Holder of a requester slot (R239). -/
inductive SlotOwner where
  | free
  | stream (cl phys me ctx : Nat)
  | trestle (ctx : Nat)
  | mover (die engine : Nat)
  | scrub
  | host
  | walker
deriving DecidableEq, Repr

/-- A requester slot of a port or channel (R231 to R234). -/
structure ArbSlot where
  owner : SlotOwner := .free
  ready : Bool := false
  d : Word := 0#32
  lost : Nat := 0
  arrived : Word := 0#32
deriving DecidableEq, Repr

/-- Transfers that a fixed slot's requester makes one after another in a 4 KiB block (R231): for whom, the next address, how many, the VA, whether a
tier-move engine makes them with ARB_SLACK2.FAULT, LOCAL_TIME at which the tile entered the arbiter (R188), and the entries that a page walk reads
after this one. -/
structure FixReq where
  who : Option Requester := none
  pa : Nat
  n : Nat
  va : Option Nat := none
  fault : Bool := false
  since : Option Nat := none
  path : List Nat := []
deriving DecidableEq, Repr

/-- A transfer that waits at the die for a dynamic slot (R232). -/
structure SlotWait where
  port : Nat
  cl : Nat
  phys : Nat
  me : Nat
  ctx : Nat
  d : Word
deriving DecidableEq, Repr

/-- The arbiters (R231 to R239). Slot k of port p is at 64p + k. -/
structure Arb where
  ageStep : Quad := 0x10#64
  slack : Quad := 0x0400FFFF08000100#64
  slack2 : Quad := 0x08000000#64
  now : Tab Word := []
  slots : Tab ArbSlot := []
  waiting : List SlotWait := []
  /-- Requests of the fixed slots, oldest first; the first is the one the slot presents (R231). -/
  fixed : Tab (List FixReq) := []
  grants : Tab Nat := []
  waits : Tab Nat := []
  maxWait : Tab Nat := []
deriving DecidableEq, Repr

/-! ### Object versions and sequences -/

/-- State of a version table entry (R251). -/
inductive VerSt where
  | free | loading | active | retiring
deriving DecidableEq, Repr

/-- A manifest entry (R242). -/
structure Segment where
  hash : BitVec 256
  tag : BitVec 128
  len : Nat
deriving DecidableEq, Repr

/-- An image of a version on a die (R180, R256): pinned or on demand, its 2 MiB pages by segment, complete, and the start of the last
step that used it. -/
structure DieImage where
  pinned : Bool
  pages : List (Nat × Nat)
  complete : Bool
  used : Nat
deriving DecidableEq, Repr

/-- An entry of the version table (R240 to R256). -/
structure Version where
  st : VerSt := .free
  gen : Nat := 0
  kind : Nat := 0
  region : Nat := 0
  payloadLen : Nat := 0
  func : Nat := 0
  part : Nat := 0
  igzon : Nat := 0
  pubKey : Nat := 0
  spanKey : Nat := 0
  rank : Nat := 0
  modelId : Nat := 0
  version : Nat := 0
  baseId : Nat := 0
  baseVersion : Nat := 0
  encrypted : Bool := false
  nonce : Nat := 0
  aad : List Byte := []
  manifestHash : BitVec 256 := 0#256
  segs : List Segment := []
  /-- Bulk pages of the home, and the bytes of header and manifest, which stand first (R240, R250). -/
  pages : List Nat := []
  headLen : Nat := 0
  key : Option (BitVec 256) := none
  images : Tab DieImage := []
  /-- Pages of evicted images that wait for the commands then running: die, pages, commands (R182). -/
  evicted : List (Nat × List Nat × List Nat) := []
  /-- The retirement's teardown has begun, with the commands it waits for (R254). -/
  torn : Option (List Nat) := none
deriving DecidableEq, Repr

/-- State of a sequence (R262). -/
inductive SeqSt where
  | free | ready | running | parked
deriving DecidableEq, Repr

/-- An entry of the sequence table (R259 to R287). -/
structure Seq where
  st : SeqSt := .free
  gen : Nat := 0
  die : Nat := 0
  func : Nat := 0
  cls : Nat := 0
  asid : Nat := 0
  base : Nat := 0
  adapter : Option Nat := none
  draft : Option Nat := none
  plan : Nat := 0
  kvVa : Nat := 0
  blockBytes : Nat := 0
  promptLen : Nat := 0
  maxLen : Nat := 0
  tokVa : Nat := 0
  seed : Quad := 0#64
  chunk : Nat := 0
  pfxUse : Bool := false
  pfxShare : Bool := false
  len : Nat := 0
  /-- Blocks held, each as its 64 KiB pages (R259); filled blocks come first. -/
  blocks : List (List Nat) := []
  inPlace : Bool := false
  lastRows : Option Nat := none
  lastTok : Word := 0#32
  ctrl : Nat := 15
  zeroSteps : Nat := 0
  rejectAll : Nat := 0
  /-- A RELEASE that waits for a boundary or for the end of the step (R266). -/
  leaver : Option Nat := none
  hashes : List Quad := []
deriving DecidableEq, Repr

/-- An entry of a running step (R268, R272): the descriptor's fields, the draft length, the draft tokens so far, and how the boundary
settled it. -/
structure StepEntry where
  seq : Nat
  phase : Nat
  draftMax : Nat
  sample : Nat
  tokens : Nat
  tokVa : Nat
  ran : Bool := false
  d : Nat := 0
  drafts : List Word := []
  parked : Bool := false
  joined : Bool := false
  left : Bool := false
  refused : Bool := false
  inPlace : Bool := false
  /-- LEN of the sequence at the boundary, for the record of an entry that does not run (R270). -/
  len : Nat := 0
  /-- What STEP_COMMIT computed: tokens emitted, accepted count. -/
  emitted : List Word := []
  accepted : Nat := 0
deriving DecidableEq, Repr

/-- A running serving step (R277): its command, plan, output records, entries, the launches still to make (round, 0: main; span slot), the
round whose fold stands, the launch under way with its arguments, the charge so far; `begun` once the steps before it on its die have ended, `computed`
once its results stand in its entries. -/
structure StepRun where
  uid : Nat
  die : Nat
  asid : Nat
  plan : Nat
  out : Nat
  entries : List StepEntry
  todo : List (Nat × Nat) := []
  round : Option Nat := none
  current : Option (Nat × Nat) := none
  args : List Word := []
  charge : Nat := 0
  begun : Bool := false
  computed : Bool := false
deriving DecidableEq, Repr

/-! ### Scheduling -/

/-- The SCH_ block (R288 to R307). VT of class k on die d is at 16d + k. -/
structure Sch where
  cycCtrl : Quad := 0#64
  cycStart : Quad := 0#64
  lookahead : Quad := 1#64
  classes : Tab Quad := []
  slots : Tab Quad := []
  funcs : Tab Quad := []
  acctClass : Tab Nat := []
  acctFunc : Tab Nat := []
  vt : Tab Nat := []
  /-- Slots as sampled at the start of the cycle (R294). -/
  cycle : List Quad := []
  cycBegin : Nat := 0
  slotBegin : Nat := 0
  slot : Nat := 0
  cycles : Nat := 0
  inCycle : Bool := false
  enabledAt : Nat := 0
deriving DecidableEq, Repr

/-! ### Viaducts -/

/-- State of a viaduct port (R315). -/
inductive PortSt where
  | disabled | down | training | mismatch | up | peerFault
deriving DecidableEq, Repr

/-- A viaduct port (R308 to R318, R334, R335). Credits are by virtual channel, 4 being the detour buffers of VC 1. -/
structure Port where
  st : PortSt := .disabled
  traffic : Bool := false
  peerX : Nat := 0
  peerY : Nat := 0
  peerPart : Nat := 0
  /-- LOCAL_TIME of the failures in the current window. -/
  fails : List Nat := []
  cause : Nat := 0
  trainSince : Nat := 0
  sent : Nat := 0
  received : Nat := 0
  replays : Nat := 0
  fecCorr : Nat := 0
  fecUncorr : Nat := 0
  txSeq : Nat := 0
  rxSeq : Nat := 0
  replayBuf : List Flit := []
  replayCount : Tab Nat := []
  credit : Tab Nat := []
  owed : Tab Nat := []
  /-- Flits that wait to be sent, each with the port and channel of the receive buffer it holds, where it came from another port. -/
  waiting : List (Option (Nat × Nat) × Flit) := []
  /-- Place in the weighted round robin of span and state flits (R311). -/
  wrr : Nat := 0
  faultSets : Bool := false
  lastRx : Nat := 0
  /-- LOCAL_TIME of the next training attempt (R315). -/
  nextTry : Nat := 0
deriving DecidableEq, Repr

/-- An open VIA_SEND (R323, R324). -/
structure ViaSend where
  uid : Nat
  xfer : Nat
  dst : Nat
  vc : Nat
  tag : Nat
  len : Nat
  va : Nat
  asid : Nat
  cts : Bool := false
  /-- The receiver answered NACK FULL, at LOCAL_TIME `triedAt`. -/
  full : Bool := false
  triedAt : Nat := 0
  /-- Every DATA flit has been sent. -/
  sent : Bool := false
  frozen : Option Freeze := none
  /-- LOCAL_TIME since which a transfer of its data waits for a failed unit (R188). -/
  stall : Option Nat := none
deriving DecidableEq, Repr

/-- A posted VIA_RECV (R323, R324): the source (logical on VC 0), the matched transfer (physical source, transfer, length) and the flits
received. -/
structure ViaRecv where
  uid : Nat
  src : Nat
  vc : Nat
  tag : Nat
  len : Nat
  va : Nat
  asid : Nat
  matched : Option (Nat × Nat × Nat) := none
  got : List Nat := []
  /-- CTS has been sent: every page of the range has its shadow. -/
  ready : Bool := false
  frozen : Option Freeze := none
  /-- LOCAL_TIME since which a transfer of its data waits for a failed unit (R188). -/
  stall : Option Nat := none
deriving DecidableEq, Repr

/-- A held RTS (R324): physical source, matching coordinate, VC, tag, transfer, length. -/
structure HeldRts where
  phys : Nat
  src : Nat
  vc : Nat
  tag : Nat
  xfer : Nat
  len : Nat
deriving DecidableEq, Repr

/-- An entry of the decision log (R329, R330): group, decision, the voters whose acknowledgement is awaited. -/
structure Decision where
  func : Nat
  group : Nat
  commit : Bool
  await : List Nat
deriving DecidableEq, Repr

/-- A NO vote of a participant whose DECISION has not come: function, group, LOCAL_TIME at which it was last sent (R329). -/
structure NoVote where
  func : Nat
  group : Nat
  sentAt : Nat
deriving DecidableEq, Repr

/-- The VIA_ block (R308 to R335). -/
structure Via where
  pos : Quad := 0#64
  selfLogical : Quad := 0#64
  maint : Quad := 0#64
  vcWeight : Quad := 0x103#64
  policy : Quad := 0x02580003#64
  mapout : Byte := 0#8
  lost : Nat := 0
  dropped : Nat := 0
  ports : Tab Port := []
  routeSpan : Tab Quad := []
  routeState : Tab Quad := []
  lmap : Tab Quad := []
  peers : Tab (BitVec 3) := []
  sends : List ViaSend := []
  recvs : List ViaRecv := []
  rts : List HeldRts := []
  log : List Decision := []
  noVotes : List NoVote := []
  /-- LOCAL_TIME of the last HEARTBEAT (R316). -/
  beatAt : Nat := 0
deriving DecidableEq, Repr

/-! ### Reliability, power, host, security, management -/

/-- RAS_STATUS.STATE (R354). -/
inductive PkgSt where
  | running | parapet | resetting | retired
deriving DecidableEq, Repr

/-- A fault record as its 64 bytes (R159) in one number, byte 0 lowest. -/
abbrev FaultRec := BitVec 512

/-- The RAS_ block (R336 to R354). -/
structure Ras where
  st : PkgSt := .running
  retiredBoot : Bool := false
  lastCode : Byte := 0#8
  resets : Nat := 0
  cause : Byte := 0#8
  latched : Byte := 0#8
  lastTime : Quad := 0#64
  ctrl : Quad := 0xA01#64
  limit : Quad := 3#64
  window : Quad := 0x258#64
  wdt : Quad := 0x000A03E8#64
  cePolicy : Quad := 0x1810#64
  unretireStatus : BitVec 3 := 0#3
  alert : BitVec 9 := 0#9
  eventSeq : Nat := 0
  events : Tab (BitVec 256) := []
  /-- Counted resets, latest first, at most 256: LOCAL_TIME and kind 4 or 5 (R347). -/
  hist : List (Nat × Nat) := []
  /-- Fault logs: entry e of function f at 256f + e; SEQ of the latest record of f (R160). -/
  faultLog : Tab FaultRec := []
  faultSeq : Tab Nat := []
  /-- Resets under way (R344), with LOCAL_TIME of their start; a cold reset has its own flag. -/
  resetting : List (ResetTarget × Nat) := []
  coldReset : Bool := false
  /-- Cores and clusters whose self-test has not ended (R338), and cores fenced while their cluster is tested (R352). -/
  testing : List ResetTarget := []
  toFence : List (Nat × Nat) := []
  /-- LOCAL_TIME of the last pier-core watchdog expiry of a die (R340). -/
  pierAt : Tab Nat := []
  /-- LOCAL_TIME from which the pier cores of a die, and the hub die, are watched: their start, or the last expiry (R339). -/
  pierFrom : Tab Nat := []
  hubFrom : Nat := 0
  /-- LOCAL_TIME of the corrected control-state errors of core 32c + p that RAS_CE_POLICY counts, and the cores beyond the policy that are not fenced
  yet (R337, R352). -/
  ceErrors : Tab (List Nat) := []
  ceDue : List (Nat × Nat) := []
  /-- A regulator or REFCLK fault is among the latched causes (R356). -/
  supplyHard : Bool := false
  /-- LOCAL_TIME at which the package became RETIRED. -/
  retiredAt : Nat := 0
  /-- A parapet cause fell in a package-warm reset, so no automatic reset follows (R352). -/
  noAuto : Bool := false
deriving DecidableEq, Repr

/-- The pins and the supply (R355, R356, R424, R425). -/
structure Pins where
  powered : Bool := true
  perst : Bool := true
  /-- LOCAL_TIME of the assertion of PERST_N. -/
  perstAt : Nat := 0
  epo : Bool := false
  brake : Bool := false
  thermtrip : Bool := false
  refclk : Bool := true
  inputGood : Bool := true
  /-- LOCAL_TIME at which the input last left its range (R356). -/
  inputAt : Nat := 0
deriving DecidableEq, Repr

/-- Sleep state of a cluster (R359, R360). -/
inductive SleepSt where
  | active | nap | deep
deriving DecidableEq, Repr

/-- Sleep bookkeeping of a cluster: state, a wake under way, LOCAL_TIME since which it may nap and since which it naps, wakes. -/
structure Sleep where
  st : SleepSt := .active
  waking : Bool := false
  idleSince : Nat := 0
  napSince : Nat := 0
  wakes : Nat := 0
deriving DecidableEq, Repr

/-- The PWR_ and CLK_ blocks (R355 to R373). H, TL, ceiling and floor are in units of 0.01 W. -/
structure Pwr where
  cap : Quad := 0xAF0#64
  slew : Quad := 0x14#64
  brakeFloor : Quad := 0x384#64
  safe : Quad := 0x13880640#64
  therm : Quad := 0x5F#64
  hbLost : Bool := true
  lastBeat : Nat := 0
  h : Nat := 160000
  tl : Nat := 280000
  cf : Nat := 0
  ceiling : Nat := 0
  floor : Nat := 0
  forced : Bool := false
  ballast : Bool := false
  ballastShort : Bool := false
  hard : Bool := false
  supply : BitVec 3 := 0#3
  input : Quad := 0#64
  temps : List (BitVec 10) := []
  energy : Nat := 0
  evBrake : Nat := 0
  evHb : Nat := 0
  evForced : Nat := 0
  evShort : Nat := 0
  mhz : Nat := 0
  duty : Nat := 0
  lastPeriod : Nat := 0
  sleepPolicy : Quad := 0x00000064000AFFFF#64
  sleep : Tab Sleep := []
  /-- PWR_ writes stored in the parapet state and applied when it ends (R341, R371). -/
  deferred : List (Nat × Quad) := []
deriving DecidableEq, Repr

/-- The HIF_ block (R374 to R391). Queue q of function f is at 64f + q, vector v of function f at 64f + v. -/
structure Hif where
  queues : Tab Queue := []
  ready : Bool := false
  bar2Base : Quad := 0#64
  bar2Map : Tab Quad := []
  /-- BAR2 size as log2 (R376). -/
  bar2Log2 : Nat := 30
  dbErr : Tab Nat := []
  dbErrQueue : Tab Nat := []
  gen : BitVec 4 := 0#4
  width : BitVec 4 := 0#4
  flit : Bool := false
  downCount : Nat := 0
  /-- NumVFs of the SR-IOV capability, 0 while VF Enable is clear (R299). -/
  numVfs : Nat := 0
  /-- MSI-X vectors the host has unmasked, and the pending bits (R384). -/
  unmasked : List Nat := []
  pba : List Nat := []
  /-- Functions under reset, with whether completions are written (R299). -/
  fresets : List (Nat × Bool) := []
  /-- Functions whose ENABLE was written 1 during their reset (R307). -/
  reenable : List Nat := []
  /-- Queues served in the present round of fetches (R382). -/
  fetchRound : List Nat := []
deriving DecidableEq, Repr

/-- A firmware image that has passed R400, as far as software can see it (R405, R409). -/
structure FwInfo where
  version : Nat
  svn : Nat
  floor : Nat
  header : BitVec 256
  comps : List (BitVec 256)
deriving DecidableEq, Repr

/-- A requester slot of the owner (R404): role and key hash. -/
structure ReqSlot where
  role : Nat
  hash : BitVec 256
deriving DecidableEq, Repr

/-- The security processor and the board flash (R398 to R411). -/
structure Sec where
  bootMode : BitVec 2 := 0#2
  recovery : Bool := false
  bootCause : BitVec 3 := 0#3
  recordBad : Bool := false
  owned : Bool := false
  fromHost : Bool := false
  running : Option FwInfo := none
  floor : Nat := 0
  plainForbid : Bool := false
  ownerCounter : Word := 0#32
  ownerKey : Option (BitVec 3072) := none
  pubKeys : Tab (BitVec 3072) := []
  reqSlots : Tab ReqSlot := []
  submitAddr : Quad := 0#64
  submitLen : Quad := 0#64
  submitBusy : Bool := false
  submitPhase : BitVec 2 := 0#2
  submitErr : Byte := 0#8
  submitKind : Nat := 0
  /-- The image region of the board flash; empty: erased (R399, R403). -/
  flash : List Byte := []
  flashNew : List Byte := []
  /-- The retirement record's erase block; empty: erased (R407). -/
  record : List Byte := []
  /-- Boot is under way: PERST_N released, READY not yet 1 (R388). -/
  booting : Bool := false
  /-- SEC_BOOT_STATUS as the last boot left it, which measurement 8 measures (R405). -/
  bootMeasured : Nat := 0
deriving DecidableEq, Repr

/-- An SPDM session (R394, R405, R406): number, role (0: read only), the requester slot that authenticated it, finished. -/
structure Session where
  id : Nat
  role : Nat
  slot : Option Nat
  finished : Bool
  abauzor : Bool
deriving DecidableEq, Repr

/-- The management bus (R392 to R397). -/
structure Mgmt where
  dynAddr : BitVec 7 := 0#7
  mrl : Half := 64#16
  mwl : Half := 64#16
  eid : Byte := 0#8
  sessions : List Session := []
  nextSession : Nat := 1
  events : List (BitVec 256) := []
deriving DecidableEq, Repr

/-- What the package sends to the outside, in order: a completion entry (R119) at a ring index, an MSI-X message, a flit or fault
ordered sets on a port, bytes a read returns, a management response, a refused access. -/
inductive Output where
  | completion (func queue index : Nat) (entry : BitVec 128)
  | msix (func vector : Nat)
  | flit (port : Nat) (fl : Flit)
  | faultSets (port : Nat)
  | readData (data : List Byte) (poisoned : Bool)
  | response (status : Nat) (values : List Quad)
  | bytes (data : List Byte)
deriving DecidableEq, Repr

/-- Everything of the package but fuses, core maps, LOCAL_TIME and the waiting commands. -/
structure Dev where
  cores : Tab Core := []
  routes : List Route := []
  flights : List Flight := []
  creditMsgs : List CreditMsg := []
  pairs : List Pair := []
  spans : Tab Span := []
  disps : Tab Disp := []
  defaultDeadline : Quad := 0xF4240#64
  events : Tab Quad := []
  groups : List Group := []
  opens : List OpenCmd := []
  nextUid : Nat := 1
  longs : Tab LongOp := []
  blk : Blk := {}
  btr : Btr := {}
  arb : Arb := {}
  vers : Tab Version := []
  seqs : Tab Seq := []
  steps : List StepRun := []
  sch : Sch := {}
  via : Via := {}
  ras : Ras := {}
  pins : Pins := {}
  pwr : Pwr := {}
  hif : Hif := {}
  sec : Sec := {}
  mgmt : Mgmt := {}
  out : List Output := []
  /-- How many free values have been taken (log entry 6). -/
  freeCount : Nat := 0
deriving DecidableEq, Repr

/-- The package. `pending` is the queue of commands that wait, first in first out. -/
structure State where
  fuse : Fuses
  kf : Kf
  time : Quad
  dev : Dev
  pending : List Instr
deriving DecidableEq, Repr

/-- No step raises a fault: the spec names no condition on which the block stops (R28, R336, R340 give every error a next state). The one
member stands for that empty set and is raised by nothing; safe. -/
inductive Fault where
  | unreachable
deriving DecidableEq, Repr

/-- Why a step has no meaning. -/
inductive Refusal where
  /-- An arm whose meaning is not written; raised by the dispatch alone. Safe: nothing is claimed of it. -/
  | notModelled (mnemonic : String)
  /-- Raised by a meaning whose operand is no value of the row's field (a command word with another row's opcode, a table
  index past its end): the term is no command of the hardware. Safe: no run of the hardware has it. -/
  | illFormed
deriving DecidableEq, Repr

/-- The package right after power-on: the always-on domain runs, LOCAL_TIME is 0 and PERST_N is still asserted (R388, steps 1 and 2);
every register at its reset value, no command waiting. -/
def State.reset : State := { fuse := {}, kf := {}, time := 0#64, dev := {}, pending := [] }

end Sys2Proof.Machine
end

