-- ==== Sys2Proof/Machine/Operands.lean ====
section
/-!
DEFINITION. The fields of a Control ISA command (R116, R117), the reserved bits of every opcode, and handles (R124, R139).
-/
namespace Sys2Proof.Machine

/-! ### The header (R116) -/

/-- `n` bytes of the command from byte `at_`, as a number (R8). -/
def cmdField (c : Command) (at_ n : Nat) : Nat := bitsAt c.toNat (8 * at_) (8 * n)

def cmdOpcode (c : Command) : Nat := cmdField c 0 1
def cmdNotify (c : Command) : Bool := bitAt c.toNat 8
def cmdFence (c : Command) : Bool := bitAt c.toNat 9
def cmdForce (c : Command) : Bool := bitAt c.toNat 10
def cmdId (c : Command) : Nat := cmdField c 2 2
def cmdDeadline (c : Command) : Nat := cmdField c 4 4
def cmdClass (c : Command) : Nat := bitsAt c.toNat 64 4
def cmdGroup (c : Command) : Nat := cmdField c 12 4

/-! ### Opcodes (R117) -/

def opNop : Nat := 0x01
def opSpanLoad : Nat := 0x02
def opSpanLaunch : Nat := 0x03
def opSpanDrain : Nat := 0x04
def opDispenseSet : Nat := 0x05
def opMove : Nat := 0x06
def opImage : Nat := 0x07
def opEvictImage : Nat := 0x08
def opTrestle : Nat := 0x09
def opWait : Nat := 0x0A
def opSignal : Nat := 0x0B
def opBarrier : Nat := 0x0C
def opCommit : Nat := 0x0D
def opAbort : Nat := 0x0E
def opViaSend : Nat := 0x0F
def opViaRecv : Nat := 0x10
def opSeqStep : Nat := 0x11
def opAdmit : Nat := 0x12
def opRelease : Nat := 0x13
def opTimestamp : Nat := 0x14
def opLongSuspend : Nat := 0x15
def opLongResume : Nat := 0x16
def opLongCancel : Nat := 0x17
def opLongQuery : Nat := 0x18
def opObjLoad : Nat := 0x19
def opObjRetire : Nat := 0x1A

/-- An opcode of the table of R117. -/
def opAssigned (op : Nat) : Bool := 1 ≤ op && op ≤ 0x1A

/-- GROUP may be non-zero in these opcodes alone (R118). -/
def opTakesGroup (op : Nat) : Bool := op = opSpanLaunch || op = opTrestle || op = opViaRecv || op = opSeqStep

/-- MOVE of 2 MiB or more, IMAGE, OBJ_LOAD and OBJ_RETIRE are long operations (R138). -/
def cmdMayBeLong (c : Command) : Bool :=
  let op := cmdOpcode c
  op = opImage || op = opObjLoad || op = opObjRetire || (op = opMove && 2 ^ 21 ≤ cmdField c 24 8)

/-- The bits [8·at + n - 1 : 8·at]. -/
def maskBits (at_ n : Nat) : Nat := (2 ^ n - 1) * 2 ^ (8 * at_)

/-- The header bits a command may set: OPCODE, NOTIFY and FENCE (with FORCE in SPAN_LOAD), CMD_ID, DEADLINE, CLASS and GROUP
(R116). -/
def headerMask (op : Nat) : Nat :=
  maskBits 0 8 + maskBits 1 (if op = opSpanLoad then 3 else 2) + maskBits 2 48 + maskBits 8 4 + maskBits 12 32

/-- The payload bits that a field of R117 occupies; every other payload bit is reserved. The operands of a TRESTLE are in force by
its operation, which refuses the rest itself. -/
def payloadMask (op : Nat) : Nat :=
  if op = opSpanLoad then maskBits 16 72 + maskBits 25 6 + maskBits 32 256
  else if op = opSpanLaunch then maskBits 16 32 + maskBits 24 256
  else if op = opSpanDrain then maskBits 16 32
  else if op = opDispenseSet then maskBits 16 4 + maskBits 17 4 + maskBits 20 64
  else if op = opMove then maskBits 16 152 + maskBits 35 2
  else if op = opImage || op = opEvictImage then maskBits 16 72 + maskBits 25 4
  else if op = opTrestle then maskBits 16 8 + maskBits 17 5 + maskBits 24 80 + maskBits 40 192
  else if op = opWait || op = opSignal then maskBits 16 24 + maskBits 24 64
  else if op = opBarrier then maskBits 16 16
  else if op = opCommit then maskBits 16 56 + maskBits 24 1
  else if op = opAbort || op = opRelease then maskBits 16 32
  else if op = opViaSend || op = opViaRecv then maskBits 16 4 + maskBits 17 4 + maskBits 18 8 + maskBits 20 112 + maskBits 36 32
  else if op = opSeqStep then maskBits 16 80 + maskBits 32 16
  else if op = opAdmit then maskBits 16 64 + maskBits 32 16
  else if op = opLongSuspend || op = opLongResume || op = opLongCancel || op = opLongQuery || op = opObjRetire then maskBits 16 64
  else if op = opObjLoad then maskBits 16 128
  else 0

/-- The bytes of a command that hold a reserved bit set (R11, R116, R117), in rising order; FLAGS, CLASS and GROUP among them. Bytes 9 to
11 are one field. -/
def reservedBytes (c : Command) : List Nat :=
  let op := cmdOpcode c
  let bad := c.toNat &&& (~~~(BitVec.ofNat 512 (headerMask op + payloadMask op))).toNat
  ((List.range 64).filter fun i => bitsAt bad (8 * i) 8 ≠ 0 || (i = 12 && cmdGroup c ≠ 0 && !opTakesGroup op)).map
    fun i => if i = 10 || i = 11 then 9 else i

/-! ### Handles -/

/-- A span handle is well formed when bits [31:8] are 0 (R124). -/
def handleSlot (h : Nat) : Nat := 64 * bitsAt h 0 2 + bitsAt h 2 6

/-- The handle of slot `k` = 64 × die + slot. -/
def slotHandle (k : Nat) : Nat := k / 64 + k % 64 * 4

/-- A long-operation handle: SLOT, FUNC, GEN (R139). -/
def longHandle (slot func gen : Nat) : Nat := slot + func * 2 ^ 16 + gen % 2 ^ 40 * 2 ^ 24

end Sys2Proof.Machine
end

