-- ==== Sys2Proof/Machine/Ops.lean ====
section
/-!
DEFINITION. The shared operations on the state: how a row acts on it, the tables of units by number, free values, output,
completions (R119, R384), fault records (R159, R160), RAS events (R350), and what is fitted and usable (R1, R4, R18).
-/
namespace Sys2Proof.Machine

/-- The outcome of a row. -/
abbrev Res := Host.Outcome State Fault Refusal

/-- What a row reads and does not write: fuses, core maps, LOCAL_TIME. -/
structure Env where
  fuse : Fuses
  kf : Kf
  now : Nat
deriving DecidableEq, Repr

def State.env (s : State) : Env := { fuse := s.fuse, kf := s.kf, now := s.time.toNat }

/-- A row that acts on `dev` alone. -/
def State.onDev (s : State) (f : Env → Dev → Dev) : State := { s with dev := f s.env s.dev }

/-- LOCAL_TIME moved up to `t`, where it has not reached it (log entry 2). -/
def State.timeTo (s : State) (t : Nat) : State := { s with time := BitVec.ofNat 64 (max s.time.toNat t) }

/-- The outcome of a row whose term is a command of the hardware. -/
def onDev (s : State) (f : Env → Dev → Dev) : Res := .next (s.onDev f)

/-- `r` where the term is well formed, a refusal where it is no command of the hardware. -/
def guarded (wf : Bool) (r : Res) : Res := if wf then r else .refused .illFormed

/-! ### Units by number -/

namespace Dev

def core (d : Dev) (cl phys : Nat) : Core := Tab.get {} (32 * cl + phys) d.cores
def setCore (d : Dev) (cl phys : Nat) (c : Core) : Dev := { d with cores := Tab.put (32 * cl + phys) c d.cores }
def modCore (d : Dev) (cl phys : Nat) (f : Core → Core) : Dev := d.setCore cl phys (f (d.core cl phys))
def eng (d : Dev) (cl phys e : Nat) : Eng := Tab.get {} e (d.core cl phys).engs
def setEng (d : Dev) (cl phys e : Nat) (x : Eng) : Dev := d.modCore cl phys fun c => { c with engs := Tab.put e x c.engs }
def modEng (d : Dev) (cl phys e : Nat) (f : Eng → Eng) : Dev := d.setEng cl phys e (f (d.eng cl phys e))
/-- Span of slot key 64 × die + slot. -/
def span (d : Dev) (k : Nat) : Span := Tab.get {} k d.spans
def setSpan (d : Dev) (k : Nat) (x : Span) : Dev := { d with spans := Tab.put k x d.spans }
def modSpan (d : Dev) (k : Nat) (f : Span → Span) : Dev := d.setSpan k (f (d.span k))
/-- Dispenser `n` of cluster `c`. -/
def disp (d : Dev) (c n : Nat) : Disp := Tab.get {} (16 * c + n) d.disps
def setDisp (d : Dev) (c n : Nat) (x : Disp) : Dev := { d with disps := Tab.put (16 * c + n) x d.disps }
def queue (d : Dev) (f q : Nat) : Queue := Tab.get {} (64 * f + q) d.hif.queues
def setQueue (d : Dev) (f q : Nat) (x : Queue) : Dev :=
  { d with hif := { d.hif with queues := Tab.put (64 * f + q) x d.hif.queues } }
def modQueue (d : Dev) (f q : Nat) (g : Queue → Queue) : Dev := d.setQueue f q (g (d.queue f q))
/-- Event counter `i` of function `f` (R135). -/
def event (d : Dev) (f i : Nat) : Quad := Tab.get 0#64 (1024 * f + i) d.events
def setEvent (d : Dev) (f i : Nat) (v : Quad) : Dev := { d with events := Tab.put (1024 * f + i) v d.events }
def long (d : Dev) (k : Nat) : LongOp := Tab.get {} k d.longs
def setLong (d : Dev) (k : Nat) (x : LongOp) : Dev := { d with longs := Tab.put k x d.longs }
def modLong (d : Dev) (k : Nat) (f : LongOp → LongOp) : Dev := d.setLong k (f (d.long k))
def ver (d : Dev) (k : Nat) : Version := Tab.get {} k d.vers
def setVer (d : Dev) (k : Nat) (x : Version) : Dev := { d with vers := Tab.put k x d.vers }
def modVer (d : Dev) (k : Nat) (f : Version → Version) : Dev := d.setVer k (f (d.ver k))
def seq (d : Dev) (k : Nat) : Seq := Tab.get {} k d.seqs
def setSeq (d : Dev) (k : Nat) (x : Seq) : Dev := { d with seqs := Tab.put k x d.seqs }
def modSeq (d : Dev) (k : Nat) (f : Seq → Seq) : Dev := d.setSeq k (f (d.seq k))
def port (d : Dev) (p : Nat) : Port := Tab.get {} p d.via.ports
def setPort (d : Dev) (p : Nat) (x : Port) : Dev := { d with via := { d.via with ports := Tab.put p x d.via.ports } }
def modPort (d : Dev) (p : Nat) (f : Port → Port) : Dev := d.setPort p (f (d.port p))
def sleep (d : Dev) (c : Nat) : Sleep := Tab.get {} c d.pwr.sleep
def setSleep (d : Dev) (c : Nat) (x : Sleep) : Dev := { d with pwr := { d.pwr with sleep := Tab.put c x d.pwr.sleep } }
def emit (d : Dev) (o : Output) : Dev := { d with out := d.out ++ [o] }

/-- SCH_FUNC[f] (R304, R307). -/
def schFunc (d : Dev) (f : Nat) : Quad := Tab.get (if f = 0 then 0xC0FFFF#64 else 0xC00001#64) f d.sch.funcs
def setSchFunc (d : Dev) (f : Nat) (v : Quad) : Dev := { d with sch := { d.sch with funcs := Tab.put f v d.sch.funcs } }
def funcClasses (d : Dev) (f : Nat) : Nat := bitsAt (d.schFunc f).toNat 0 16
def funcQueues (d : Dev) (f : Nat) : Nat := bitsAt (d.schFunc f).toNat 16 7
def funcEnabled (d : Dev) (f : Nat) : Bool := bitAt (d.schFunc f).toNat 23
/-- SCH_FUNC[f].RESETTING: a function reset is under way (R300). -/
def funcResetting (d : Dev) (f : Nat) : Bool := d.hif.fresets.any fun r => r.1 = f

/-- A value the spec leaves open: `freeBits` at the next number (log entry 6). -/
def free (d : Dev) (w : Nat) : BitVec w × Dev := (Config.freeBits w d.freeCount, { d with freeCount := d.freeCount + 1 })

end Dev

/-! ### What is fitted and usable -/

/-- KF_CAP.PART (R4). -/
def Part.code : Part → Nat
  | .kpv4A => 1
  | .kpv4S => 2
  | .kpv2L => 3

/-- Compute dies fitted (R1, R4: DIE_MAP). -/
def Fuses.dieFitted (u : Fuses) (d : Nat) : Bool := if u.part = .kpv2L then d < 2 else d < 4
/-- Clusters fitted. -/
def Fuses.clusterFitted (u : Fuses) (c : Nat) : Bool := u.dieFitted (c / 4)
/-- Viaduct ports fitted (R4: VIA_MAP). -/
def Fuses.portFitted (u : Fuses) (p : Nat) : Bool :=
  match u.part with
  | .kpv4A => p < 4
  | .kpv4S => false
  | .kpv2L => p = 1 || p = 3
def Fuses.hasTrestle (u : Fuses) : Bool := u.part ≠ .kpv2L
def Fuses.dies (u : Fuses) : Nat := if u.part = .kpv2L then 2 else 4

/-- A cluster is usable (R4: CLUSTER_MAP). -/
def Kf.usable (k : Kf) (c : Nat) : Bool := bitAt k.clusterMap.toNat c
/-- A die with no usable cluster (R22). -/
def Kf.dieDead (k : Kf) (d : Nat) : Bool := (List.range 4).all fun i => !k.usable (4 * d + i)
/-- FENCED of cluster `c` (R25). -/
def Kf.fencedOf (k : Kf) (c : Nat) : Word := Tab.get 0#32 c k.fenced
/-- A core fenced, by its own bit or with its cluster (R21). -/
def Kf.coreFenced (k : Kf) (c p : Nat) : Bool := !k.usable c || bitAt (k.fencedOf c).toNat p
/-- The KF_VMAP entry of virtual position `v` (R26). -/
def Kf.vmapEntry (k : Kf) (c v : Nat) : Byte := Tab.get 0#8 (32 * c + v) k.vmap
/-- The physical core at virtual position `v`, where the entry is valid. -/
def Kf.physOf (k : Kf) (c v : Nat) : Option Nat :=
  let b := (k.vmapEntry c v).toNat
  if bitAt b 7 then some (bitsAt b 0 5) else none
/-- The virtual position that physical core `p` holds. -/
def Kf.vposOf (k : Kf) (c p : Nat) : Option Nat := (List.range 30).find? fun v => k.physOf c v = some p

/-- The package executes: supplied, PERST_N released, RAS_STATUS.STATE RUNNING. -/
def Dev.running (d : Dev) : Bool := d.pins.powered && !d.pins.perst && d.ras.st = .running
/-- The runtime accepts commands (HIF_STATUS.READY, R386). -/
def Dev.inService (d : Dev) : Bool := d.running && d.hif.ready
/-- The PCIe link serves the host (R388, R389). -/
def Dev.busUp (d : Dev) : Bool := d.pins.powered && !d.pins.perst
/-- The viaduct ports and the doorbells are served: the package runs, or a cold reset has come to its boot (R315, R388). -/
def Dev.linkLive (d : Dev) : Bool := d.busUp && (d.ras.st = .running || (d.ras.st = .resetting && d.ras.coldReset))
/-- BAR0 writes of the host act: not in the parapet state, and not while RETIRED (R341, R347). -/
def Dev.bar0Open (d : Dev) : Bool := d.busUp && (d.ras.st = .running || d.ras.st = .resetting)
/-- The same outside recovery mode (R402). -/
def Dev.hostOpen (d : Dev) : Bool := d.bar0Open && !d.sec.recovery
/-- A function that may submit: enabled and not under reset (R299, R300). -/
def Dev.funcLive (d : Dev) (f : Nat) : Bool := d.funcEnabled f && !d.funcResetting f

/-! ### RAS events and alerts (R350, R393) -/

/-- The event record of R350 as a number. -/
def eventRecord (seq kind code cluster phys time domain resource : Nat) : BitVec 256 :=
  BitVec.ofNat 256 (seq + kind * 2 ^ 32 + code * 2 ^ 40 + cluster * 2 ^ 48 + phys * 2 ^ 56 + time * 2 ^ 64 + domain * 2 ^ 128
    + resource * 2 ^ 136)

/-- Logs an event: the record, its bit of RAS_ALERT, and the PLDM event queue, which holds 64 and drops the oldest (R350, R393). -/
def Dev.rasEvent (d : Dev) (e : Env) (kind : Nat) (code : Nat := 0) (cluster : Nat := 0xFF) (phys : Nat := 0xFF)
    (domain : Nat := 0) (resource : Nat := 0) : Dev :=
  let n := (d.ras.eventSeq + 1) % 2 ^ 32
  let r := eventRecord n kind code cluster phys e.now domain resource
  let q := d.mgmt.events ++ [r]
  { d with
    ras := { d.ras with
      eventSeq := n
      events := Tab.put (n % 64) r d.ras.events
      alert := d.ras.alert ||| (1#9 <<< (kind - 1)) }
    mgmt := { d.mgmt with events := q.drop (q.length - 64) } }

/-! ### Fault records (R159, R160) -/

/-- What a fault record reports; SEQ and TIME are added when it is written. -/
structure FaultInfo where
  error : Nat
  resource : Nat
  engine : Nat := 0xFF
  core : Option (Nat × Nat) := none
  /-- The position the core held where the map has moved on (R20). -/
  vpos : Option Nat := none
  ctx : Option Nat := none
  iter : Option Nat := none
  value : Nat := 0
  limit : Nat := 0
  addr : Option Nat := none
  firing : Option Nat := none
  span : Nat := 0
deriving DecidableEq, Repr

/-- The 64 bytes of R159. -/
def faultRecord (e : Env) (seq cmdId queue : Nat) (i : FaultInfo) : FaultRec :=
  let cl := (i.core.map (·.1)).getD 0
  let ph := (i.core.map (·.2)).getD 0
  let vp := i.vpos.getD (match i.core with
    | some (c, p) => (e.kf.vposOf c p).getD 0
    | none => 0)
  let flags := bit i.core.isSome + 2 * bit i.ctx.isSome + 4 * bit i.iter.isSome + 8 * bit i.addr.isSome + 16 * bit i.firing.isSome
  BitVec.ofNat 512
    (seq % 2 ^ 32 + i.error * 2 ^ 32 + i.resource * 2 ^ 40 + i.engine * 2 ^ 48 + flags * 2 ^ 56 + e.now % 2 ^ 64 * 2 ^ 64
      + i.span * 2 ^ 128 + cmdId * 2 ^ 160 + queue * 2 ^ 176 + cl * 2 ^ 192 + vp * 2 ^ 200 + ph * 2 ^ 208
      + i.ctx.getD 0 * 2 ^ 216 + i.iter.getD 0 % 2 ^ 32 * 2 ^ 224 + i.value % 2 ^ 64 * 2 ^ 256 + i.limit % 2 ^ 64 * 2 ^ 320
      + i.addr.getD 0 % 2 ^ 64 * 2 ^ 384 + i.firing.getD 0 % 2 ^ 64 * 2 ^ 448)

/-- SEQ of the latest record of a function; 0 before the first (R160). -/
def Dev.faultSeqOf (d : Dev) (f : Nat) : Nat := Tab.get 0 f d.ras.faultSeq

/-- Writes a fault record of a command to its function's log, and answers its SEQ (R160: after 0xFFFF_FFFF comes 1). -/
def Dev.writeFault (d : Dev) (e : Env) (f queue cmdId : Nat) (i : FaultInfo) : Nat × Dev :=
  let n := d.faultSeqOf f % (2 ^ 32 - 1) + 1
  (n, { d with ras := { d.ras with
    faultSeq := Tab.put f n d.ras.faultSeq
    faultLog := Tab.put (256 * f + n % 256) (faultRecord e n cmdId queue i) d.ras.faultLog } })

/-! ### Completions (R119, R384) -/

/-- The 16 bytes of a completion entry (R119). -/
def completionEntry (cmd queue sqHead status flags result : Nat) : BitVec 128 :=
  BitVec.ofNat 128 (cmd + status * 2 ^ 16 + flags * 2 ^ 24 + queue * 2 ^ 32 + sqHead * 2 ^ 48 + result % 2 ^ 64 * 2 ^ 64)

def Queue.sqSize (q : Queue) : Nat := 2 ^ bitsAt q.cfg.toNat 0 4
def Queue.cqSize (q : Queue) : Nat := 2 ^ bitsAt q.cfg.toNat 8 4
def Queue.dieOf (q : Queue) : Nat := bitsAt q.cfg.toNat 12 2
def Queue.asid (q : Queue) : Nat := bitsAt q.cfg.toNat 16 12
def Queue.vector (q : Queue) : Nat := bitsAt q.cfg.toNat 28 6

/-- LONG_FINAL and LONG_START in FLAGS of a completion (R119). -/
def flagFinal : Nat := 1
def flagStart : Nat := 2

/-- Sends MSI-X vector `v` of function `f`, or sets its PBA bit while it is masked (R384). -/
def Dev.msix (d : Dev) (f v : Nat) : Dev :=
  if d.hif.unmasked.contains (64 * f + v) then d.emit (.msix f v)
  else { d with hif := { d.hif with pba := if d.hif.pba.contains (64 * f + v) then d.hif.pba else d.hif.pba ++ [64 * f + v] } }

/-- Writes one completion entry at CQ_TAIL with PHASE, moves CQ_TAIL on, inverts the phase where it wraps to 0, and then sends the
queue's message where NOTIFY is set (R30, R119, R384). -/
def Dev.post (d : Dev) (f q : Nat) (c : Command) (sqHead status flags result : Nat) : Dev :=
  let u := d.queue f q
  let entry := completionEntry (cmdId c) q sqHead status (flags + 128 * bit u.phase) result
  let tail := (u.cqTail + 1) % u.cqSize
  let d := (d.setQueue f q { u with
    cqTail := tail
    phase := if tail = 0 then !u.phase else u.phase
    unread := u.unread + 1 }).emit (.completion f q u.cqTail entry)
  if cmdNotify c then d.msix f u.vector else d

/-- The open command `uid`. -/
def Dev.openOf (d : Dev) (uid : Nat) : Option OpenCmd := d.opens.find? fun o => o.uid = uid

/-- Takes `uid` off the open commands and posts its completion, unless nothing is to be written for it (R299, R341). Under a reset of its
function every completion carries ERR_FUNCTION_RESET (R300). -/
def Dev.complete (d : Dev) (uid status result : Nat) (flags : Nat := 0) : Dev :=
  match d.openOf uid with
  | none => d
  | some o =>
    let d := { d with opens := d.opens.filter fun x => x.uid ≠ uid }
    if o.quiet then d
    else if d.funcResetting o.func then d.post o.func o.queue o.cmd o.sqHead Config.functionReset flags 0
    else d.post o.func o.queue o.cmd o.sqHead status flags result

/-- Deadline of a command in µs: DEADLINE, or SPN_DEFAULT_DEADLINE where it is 0 (R116, R122). -/
def Dev.deadlineUs (d : Dev) (c : Command) : Nat :=
  if cmdDeadline c = 0 then bitsAt d.defaultDeadline.toNat 0 32 else cmdDeadline c

/-! ### Virtual time and charges (R292, R293) -/

def Dev.vt (d : Dev) (die k : Nat) : Nat := Tab.get 0 (16 * die + k) d.sch.vt
def Dev.schClass (d : Dev) (k : Nat) : Quad := Tab.get 1#64 k d.sch.classes
def Dev.share (d : Dev) (k : Nat) : Nat := bitsAt (d.schClass k).toNat 0 16

/-- Charges an ended command: the accounts saturate, and the virtual time of its class grows where it was not owner-started and
SHARE is not 0 (R292, R293). -/
def Dev.charge (d : Dev) (o : OpenCmd) (amount : Nat) : Dev :=
  let k := cmdClass o.cmd
  let sat (v : Nat) : Nat := min v (2 ^ 64 - 1)
  let vt := if o.ownerStarted || d.share k = 0 then d.sch.vt
    else Tab.put (16 * o.die + k) ((d.vt o.die k + amount / d.share k) % 2 ^ 64) d.sch.vt
  { d with sch := { d.sch with
    vt := vt
    acctClass := Tab.put k (sat (Tab.get 0 k d.sch.acctClass + amount)) d.sch.acctClass
    acctFunc := Tab.put o.func (sat (Tab.get 0 o.func d.sch.acctFunc + amount)) d.sch.acctFunc } }

end Sys2Proof.Machine
end

