-- ==== Sys2Proof/Machine/Links.lean ====
section
/-!
DEFINITION. The viaduct link layer and routing (R309 to R322): tables and coordinates, credits and service of a port, sending and forwarding
a flit, link failure and map-out.
-/
namespace Sys2Proof.Machine

/-! ### Coordinates and tables (R319, R321, R326) -/

def Via.x (v : Via) : Nat := bitsAt v.pos.toNat 0 4
def Via.y (v : Via) : Nat := bitsAt v.pos.toNat 4 4
/-- Index of the package's own coordinate. -/
def Via.self (v : Via) : Nat := bitsAt v.pos.toNat 0 8
/-- Index of the package's own logical coordinate (R321). -/
def Via.logical (v : Via) : Nat := bitsAt v.selfLogical.toNat 0 8
/-- Index 16 × y + x of a coordinate. -/
def coordIdx (x y : Nat) : Nat := 16 * y + x

/-- The port that leads toward `i` from (x, y), first along x, then along y: 0 local, 1 north, 2 east, 3 south, 4 west (R319). -/
def dimPort (x y i : Nat) : Nat :=
  if i % 16 > x then 2 else if i % 16 < x then 4 else if i / 16 > y then 1 else if i / 16 < y then 3 else 0

/-- A port that is fitted and not marked as an edge. -/
def Via.portThere (v : Via) (u : Fuses) (p : Nat) : Bool := u.portFitted p && !bitAt v.pos.toNat (8 + p) && bitAt v.pos.toNat 12

/-- The default route of R319: 7 where it would leave by an edge or absent port. -/
def Via.defaultPort (v : Via) (u : Fuses) (i : Nat) : Nat :=
  let p := dimPort v.x v.y i
  if p = 0 then 0 else if v.portThere u (p - 1) then p else 7

def Via.spanPort (v : Via) (u : Fuses) (i : Nat) : Nat :=
  bitsAt (Tab.get (BitVec.ofNat 64 (v.defaultPort u i)) i v.routeSpan).toNat 0 3
def Via.stateEntry (v : Via) (u : Fuses) (i : Nat) : Nat :=
  (Tab.get (BitVec.ofNat 64 (v.defaultPort u i + 0x70)) i v.routeState).toNat
def Via.lmapOf (v : Via) (i : Nat) : Nat := (Tab.get (BitVec.ofNat 64 (i + 256)) i v.lmap).toNat
/-- STATE of a peer: 0 ABSENT, 1 JOINING, 2 UP, 3 RESETTING, 4 RETIRED. -/
def Via.peer (v : Via) (i : Nat) : Nat := (Tab.get 0#3 i v.peers).toNat

def kindCode : FlitKind → Nat
  | .idle => 0 | .data => 1 | .rts => 2 | .cts => 3 | .nack => 4 | .endAck => 5 | .linkFail => 6 | .xferAbort => 7
  | .vote => 8 | .decision => 9 | .query => 10 | .decisionAck => 11 | .heartbeat => 12 | .ident => 13 | .withdraw => 14 | .lretry => 15

/-- A flit of the neighbour alone: IDLE, HEARTBEAT, IDENT, LRETRY (R310). -/
def kindNeighbour : FlitKind → Bool
  | .idle | .heartbeat | .ident | .lretry => true
  | _ => false

/-- KINDs whose XFER names a transfer (R310). -/
def kindOfTransfer : FlitKind → Bool
  | .data | .rts | .cts | .nack | .endAck | .xferAbort => true
  | _ => false

/-- KINDs that the receiver of a transfer sends; XFER_ABORT goes either way. -/
def kindOfReceiver : FlitKind → Bool
  | .cts | .nack | .endAck => true
  | _ => false

/-! ### The 256 bytes of a flit (R309) -/

/-- Bits [95:0] of a flit. -/
def flitHeader (f : Flit) : Nat :=
  f.dstX + f.dstY * 2 ^ 4 + f.srcX * 2 ^ 8 + f.srcY * 2 ^ 12 + f.srcLX * 2 ^ 16 + f.srcLY * 2 ^ 20 + f.vc * 2 ^ 24 + bit f.detour * 2 ^ 26
    + bit f.last * 2 ^ 27 + kindCode f.kind * 2 ^ 28 + f.tag * 2 ^ 32 + f.xfer * 2 ^ 64 + f.lseq * 2 ^ 76 + f.cvc * 2 ^ 86 + f.credits * 2 ^ 88

/-- Header, payload filled with zero bytes, and the CRC-32 over both, low byte first (R8). -/
def flitBytes (f : Flit) : List Byte :=
  let l := toBytes 12 (flitHeader f) ++ f.payload ++ List.replicate (240 - f.payload.length) 0#8
  l ++ toBytes 4 (crc32 l)

def kindOf (n : Nat) : FlitKind :=
  ([.idle, .data, .rts, .cts, .nack, .endAck, .linkFail, .xferAbort, .vote, .decision, .query, .decisionAck, .heartbeat, .ident, .withdraw,
    .lretry] : List FlitKind).getD n .idle

/-- The flit that 256 received bytes hold; none where the CRC fails (R312). -/
def flitOf (l : List Byte) : Option Flit :=
  let h := bytesAt l 0 12
  if l.length = 256 && bytesAt l 252 4 = crc32 (l.take 252) then
    some { dstX := bitsAt h 0 4, dstY := bitsAt h 4 4, srcX := bitsAt h 8 4, srcY := bitsAt h 12 4, srcLX := bitsAt h 16 4, srcLY := bitsAt h 20 4
           vc := bitsAt h 24 2, detour := bitAt h 26, last := bitAt h 27, kind := kindOf (bitsAt h 28 4), tag := bitsAt h 32 32, xfer := bitsAt h 64 12
           lseq := bitsAt h 76 10, cvc := bitsAt h 86 2, credits := bitsAt h 88 6, payload := (l.drop 12).take 240 }
  else none

/-! ### A port -/

/-- The receive buffer a flit takes: its channel, or 4 for the detour buffers of VC 1 (R311). -/
def flitChannel (f : Flit) : Nat := if f.vc = 1 && f.detour then 4 else f.vc

/-- Receive buffers of a channel (R311). -/
def channelSize : Nat → Nat
  | 2 => 32
  | 3 => 8
  | _ => 1024

def Port.creditOf (p : Port) (c : Nat) : Nat := Tab.get (channelSize c) c p.credit
def Port.inService (p : Port) : Bool := p.st = .up && p.traffic

/-- Credits that come back for a channel; those of VC 1 past its own buffers are of its detour buffers (log entry 13). -/
def Port.addCredits (p : Port) (c n : Nat) : Port :=
  let room := channelSize c - p.creditOf c
  let p := { p with credit := Tab.put c (p.creditOf c + min n room) p.credit }
  if c = 1 then { p with credit := Tab.put 4 (min 1024 (p.creditOf 4 + (n - min n room))) p.credit } else p

/-- Owes a neighbour the credit of a freed buffer of a channel (R311). -/
def Dev.oweCredit (d : Dev) (port c : Nat) : Dev :=
  let v := if c = 4 then 1 else c
  d.modPort port fun p => { p with owed := Tab.put v (Tab.get 0 v p.owed + 1) p.owed }

/-- The channel whose credits the next flit returns: the lowest that owes any. -/
def Port.owing (p : Port) : Nat := ((List.range 4).find? fun c => Tab.get 0 c p.owed ≠ 0).getD 0

/-- Puts a flit on the link: LSEQ and the credits returned are filled in, the flit enters the replay buffer of the last 512 (R311, R312). -/
def Dev.transmit (d : Dev) (port : Nat) (f : Flit) : Dev :=
  let p := d.port port
  let c := p.owing
  let n := min 63 (Tab.get 0 c p.owed)
  let f := { f with lseq := p.txSeq, cvc := c, credits := n }
  let buf := p.replayBuf ++ [f]
  (d.setPort port { p with
    txSeq := (p.txSeq + 1) % 1024
    owed := Tab.put c (Tab.get 0 c p.owed - n) p.owed
    replayBuf := buf.drop (buf.length - 512)
    replayCount := Tab.erase p.txSeq p.replayCount
    sent := min (p.sent + 1) (2 ^ 64 - 1) }).emit (.flit port f)

/-- The waiting flit that a port serves next (R311): fault, then management, then span and state by weighted round robin; only a flit
whose channel has a credit, and on the other channels than management only while the port passes them (R315). Answers its index and the round-robin place after it. -/
def Port.nextFlit (p : Port) (weight : Nat) : Option (Nat × Nat) :=
  let span := bitsAt weight 0 8
  let state := bitsAt weight 8 8
  let ready (vc : Nat) : Option Nat :=
    if vc = 2 || p.inService then (p.waiting.zipIdx.find? fun x => x.1.2.vc = vc && p.creditOf (flitChannel x.1.2) ≠ 0).map (·.2) else none
  match ready 3, ready 2 with
  | some i, _ => some (i, p.wrr)
  | none, some i => some (i, p.wrr)
  | none, none =>
    let spanTurn := p.wrr < span
    match ready 0, ready 1 with
    | none, none => none
    | some i, none => some (i, if spanTurn then p.wrr + 1 else 1)
    | none, some j => some (j, (if spanTurn then span + 1 else p.wrr + 1) % (span + state))
    | some i, some j => if spanTurn then some (i, p.wrr + 1) else some (j, (p.wrr + 1) % (span + state))

/-- Sends waiting flits while one has a credit; `fuel` bounds their number. -/
def Dev.servePort (d : Dev) (port : Nat) : Nat → Dev
  | 0 => d
  | fuel + 1 =>
    let p := d.port port
    match p.nextFlit d.via.vcWeight.toNat with
    | none => d
    | some (i, w) =>
      match p.waiting[i]? with
      | none => d
      | some (from_, f) =>
        let d := d.setPort port { p with
          waiting := p.waiting.eraseIdx i, wrr := w, credit := Tab.put (flitChannel f) (p.creditOf (flitChannel f) - 1) p.credit }
        let d := d.transmit port f
        let d := match from_ with
          | some (q, c) => d.oweCredit q c
          | none => d
        Dev.servePort d port fuel

/-- A port whose lanes carry flits. -/
def Port.linked (p : Port) : Bool := p.st = .up || p.st = .training

def Dev.serve (d : Dev) (port : Nat) : Dev :=
  if (d.port port).linked && !(d.port port).faultSets then d.servePort port (d.port port).waiting.length else d

/-- Credits still owed to a neighbour go back in IDLE flits. -/
def Dev.returnCredits (d : Dev) (port : Nat) : Nat → Dev
  | 0 => d
  | fuel + 1 =>
    let p := d.port port
    if p.linked && !p.faultSets && Tab.get 0 p.owing p.owed ≠ 0 then
      (d.transmit port
        { dstX := 0, dstY := 0, srcX := d.via.x, srcY := d.via.y, srcLX := d.via.logical % 16, srcLY := d.via.logical / 16, vc := 0,
          detour := false, last := false, kind := .idle, tag := 0, xfer := 0, lseq := 0, cvc := 0, credits := 0, payload := [] }).returnCredits
        port fuel
    else d

/-- The same on every port; a channel owes at most 1,024 credits, and a flit returns at most 63. -/
def Dev.returnAll (d : Dev) : Dev := (List.range 4).foldl (fun d p => d.returnCredits p 128) d

/-- Lets a flit wait at an output port, and serves the port. -/
def Dev.enqueue (d : Dev) (port : Nat) (from_ : Option (Nat × Nat)) (f : Flit) : Dev :=
  (d.modPort port fun p => { p with waiting := p.waiting ++ [(from_, f)] }).serve port

/-- A neighbour's flit on VC 2, sent on a port that is up or training. -/
def Dev.sendNeighbour (d : Dev) (port : Nat) (kind : FlitKind) (payload : List Byte) : Dev :=
  d.enqueue port none
    { dstX := 0, dstY := 0, srcX := d.via.x, srcY := d.via.y, srcLX := d.via.logical % 16, srcLY := d.via.logical / 16, vc := 2,
      detour := false, last := false, kind := kind, tag := 0, xfer := 0, lseq := 0, cvc := 0, credits := 0, payload := payload }

/-! ### Routing (R319, R320) -/

/-- Where the tables send a flit: delivered here, out of a port (0 to 3) with DETOUR as given, or no port in service. -/
inductive Hop where
  | here
  | out (port : Nat) (detour : Bool)
  | nowhere
deriving DecidableEq, Repr

def Dev.hop (d : Dev) (u : Fuses) (f : Flit) : Hop :=
  let i := coordIdx f.dstX f.dstY
  let up (p : Nat) : Bool := 1 ≤ p && p ≤ 4 && (d.port (p - 1)).inService
  if f.vc = 0 then
    let p := d.via.spanPort u i
    if p = 0 && i = d.via.self then .here else if up p then .out (p - 1) f.detour else .nowhere
  else
    let v := d.via.stateEntry u i
    let p := bitsAt v 0 3
    let alt := bitsAt v 4 3
    if p = 0 && i = d.via.self then .here
    else if up p then .out (p - 1) f.detour
    else if up alt then .out (alt - 1) true
    else .nowhere

/-- The LINK_FAIL for a dropped flit (R310): cause, failed port in the coding of VIA_ROUTE_SPAN or 7. -/
def linkFailFor (v : Via) (f : Flit) (cause port : Nat) : Flit :=
  { dstX := f.srcX, dstY := f.srcY, srcX := v.x, srcY := v.y, srcLX := v.logical % 16, srcLY := v.logical / 16, vc := 3,
    detour := false, last := false, kind := .linkFail, tag := f.tag, xfer := f.xfer, lseq := 0, cvc := 0, credits := 0,
    payload := [BitVec.ofNat 8 cause, BitVec.ofNat 8 port, BitVec.ofNat 8 (f.dstX + 16 * f.dstY)] }

/-- Sends a flit of this package, or answers false where no port is in service for it. -/
def Dev.sendFlit (d : Dev) (u : Fuses) (f : Flit) : Bool × Dev :=
  match d.hop u f with
  | .out p det => (true, d.enqueue p none { f with detour := det })
  | _ => (false, d)

/-- Sends a LINK_FAIL for a dropped flit to its source; a LINK_FAIL is never answered with another (R320). A source that is this package
is answered to the caller. -/
def Dev.reportDrop (d : Dev) (u : Fuses) (f : Flit) (cause port : Nat) : Option Flit × Dev :=
  if f.kind = .linkFail then (none, d)
  else if coordIdx f.srcX f.srcY = d.via.self then (some (linkFailFor d.via f cause port), d)
  else (none, (d.sendFlit u (linkFailFor d.via f cause port)).2)

/-- The header of a flit of this package to physical coordinate `dst`. -/
def Dev.mkFlit (d : Dev) (dst vc tag xfer : Nat) (kind : FlitKind) (payload : List Byte) (last : Bool := false) : Flit :=
  { dstX := dst % 16, dstY := dst / 16, srcX := d.via.x, srcY := d.via.y, srcLX := d.via.logical % 16, srcLY := d.via.logical / 16,
    vc := vc, detour := false, last := last, kind := kind, tag := tag, xfer := xfer, lseq := 0, cvc := 0, credits := 0, payload := payload }

/-! ### Failure and map-out (R316, R317) -/

def PortSt.code : PortSt → Nat
  | .disabled => 0 | .down => 1 | .training => 2 | .mismatch => 3 | .up => 4 | .peerFault => 5

/-- Two flits of one transfer from one source: the same two packages and XFER, both the sender's or both the receiver's; an XFER_ABORT may be of either
transfer of that number. -/
def sameTransfer (f g : Flit) : Bool :=
  f.srcX = g.srcX && f.srcY = g.srcY && f.dstX = g.dstX && f.dstY = g.dstY && f.xfer = g.xfer
    && (f.kind = .xferAbort || g.kind = .xferAbort || kindOfReceiver f.kind = kindOfReceiver g.kind)

/-- Drops the flits waiting for a port: one LINK_FAIL for each transfer with a dropped flit (R316); a vote is sent again (R332). Those of this package
come back. -/
def Dev.dropWaiting (u : Fuses) (d : Dev) (port cause : Nat) : List Flit × Dev :=
  let w := (d.port port).waiting
  let d := d.modPort port fun p => { p with waiting := [] }
  let d := w.foldl (fun d x => match x.1 with
    | some (q, c) => d.oweCredit q c
    | none => d) d
  let firsts := w.foldl (fun (l : List Flit) x =>
    if !kindOfTransfer x.2.kind || l.any (sameTransfer x.2) then l else l ++ [x.2]) []
  firsts.foldl (fun (r : List Flit × Dev) f =>
    match r.2.reportDrop u f cause (port + 1) with
    | (some x, d) => (r.1 ++ [x], d)
    | (none, d) => (r.1, d)) ([], d)

/-- Failures in the current window (R317). -/
def Dev.windowFails (d : Dev) (now : Nat) (p : Port) : List Nat :=
  p.fails.filter fun t => now < t + bitsAt d.via.policy.toNat 16 16 * 100000000

/-- A port that is no longer up: what it sent is gone, and training starts from sequence 0. Flits of transfers that still wait for it keep waiting
(log entry 70). -/
def Port.lower (p : Port) (st : PortSt) : Port :=
  { p with st := st, traffic := p.traffic && decide (p.st ≠ .up), waiting := p.waiting.filter fun x => !kindNeighbour x.2.kind, replayBuf := [], replayCount := [], txSeq := 0, rxSeq := 0, credit := [], owed := [], wrr := 0 }

/-- The failure of an UP port: DOWN, TRAFFIC clear, its waiting flits dropped, FAILS counted, and mapped out by the package once the
failures in the window reach RETRAINS + 1 (R316, R317). -/
def Dev.linkFailure (u : Fuses) (now : Nat) (d : Dev) (port cause : Nat) : List Flit × Dev :=
  let d := d.modPort port fun p => { p with st := .down, traffic := false, cause := cause }
  let (own, d) := d.dropWaiting u port cause
  let p := d.port port
  let fails := d.windowFails now { p with fails := p.fails ++ [now] }
  if bitsAt d.via.policy.toNat 0 4 + 1 ≤ fails.length then
    (own, { d.setPort port { (p.lower .disabled) with fails := fails, cause := 5 } with
      via := { (d.setPort port { (p.lower .disabled) with fails := fails, cause := 5 }).via with
        mapout := d.via.mapout ||| BitVec.ofNat 8 (2 ^ port + 2 ^ (port + 4)) } })
  else (own, d.setPort port { (p.lower .down) with fails := fails })

/-- A port mapped out by the fabric manager enters DISABLED at once, its waiting flits dropped (R317). -/
def Dev.mapOutPort (u : Fuses) (d : Dev) (port : Nat) : List Flit × Dev :=
  let d := d.modPort port fun p => { p with st := .disabled, traffic := false, cause := 5 }
  let (own, d) := d.dropWaiting u port 5
  (own, d.modPort port fun p => p.lower .disabled)

/-- Every port that is not DISABLED sends fault ordered sets in place of flits (R318). -/
def Dev.faultSets (d : Dev) : Dev :=
  (List.range 4).foldl (fun d p =>
    if (d.port p).st = .disabled then d else (d.modPort p fun x => { x with faultSets := true }).emit (.faultSets p)) d

end Sys2Proof.Machine
end

