-- ==== Sys2Proof/Machine/Memory.lean ====
section
/-!
DEFINITION. A memory as a list of cells in one canonical form: addresses strictly rising, no cell equal to 0, which is what an address
that is not listed reads as (log entry 4).
-/
namespace Sys2Proof.Machine

abbrev Memory := List Host.Cell

/-- The byte at address `a`. -/
def Memory.get : Memory → Nat → Byte
  | [], _ => 0#8
  | (x, v) :: t, a => if x = a then v else Memory.get t a

/-- The memory with byte `b` at address `a`. -/
def Memory.put : Memory → Nat → Byte → Memory
  | [], a, b => if b = 0#8 then [] else [(a, b)]
  | (x, v) :: t, a, b =>
    if a < x then (if b = 0#8 then (x, v) :: t else (a, b) :: (x, v) :: t)
    else if a = x then (if b = 0#8 then t else (a, b) :: t)
    else (x, v) :: Memory.put t a b

/-- The `n` bytes from address `a`. -/
def Memory.read (m : Memory) (a : Nat) : Nat → List Byte
  | 0 => []
  | n + 1 => m.get a :: Memory.read m (a + 1) n

/-- The memory with bytes `l` written from address `a`. -/
def Memory.write (m : Memory) (a : Nat) : List Byte → Memory
  | [] => m
  | b :: t => Memory.write (m.put a b) (a + 1) t

/-- The memory with every byte of [a, a + n) at 0. -/
def Memory.clear (m : Memory) (a n : Nat) : Memory := m.filter fun c => c.1 < a || a + n ≤ c.1

/-- The cells of [a, a + n), their addresses counted from `a`. -/
def Memory.cells (m : Memory) (a n : Nat) : List Host.Cell :=
  (m.filter fun c => a ≤ c.1 && c.1 < a + n).map fun c => (c.1 - a, c.2)

/-- Writes the listed cells, their addresses counted from `a`. -/
def Memory.putCells (m : Memory) (a : Nat) : List Host.Cell → Memory
  | [] => m
  | c :: t => Memory.putCells (m.put (a + c.1) c.2) a t

/-- The memory with [src, src + n) copied to [dst, dst + n). -/
def Memory.copy (m : Memory) (src dst n : Nat) : Memory := (m.clear dst n).putCells dst (m.cells src n)

/-- The canonical form. -/
def Memory.wf : Memory → Bool
  | [] => true
  | [c] => c.2 ≠ 0#8
  | c :: c' :: t => c.2 ≠ 0#8 && c.1 < c'.1 && Memory.wf (c' :: t)

end Sys2Proof.Machine
end

