-- ==== Sys2Proof/Machine/Tiers.lean ====
section
/-!
DEFINITION. The memory tiers: the physical map (R163 to R166), pools, the reserve and page states (R167, R168), page allocation, the
page tables and the checks of a translation (R171 to R175), the translation cache (R176), shadow pages (R29) and check-bit counters (R200).
-/
namespace Sys2Proof.Machine

/-! ### The physical map -/

def pageBytes : Nat := 0x10000
def unitBytes : Nat := 0x200000
def dieBonded : Nat := 0x1400000000
def bulkBase : Nat := 0x40000000000
def nearBase : Nat := 0x80000000000
def nearEnd : Nat := nearBase + 0x40000000
def sealedBase : Nat := 0x8000000000000
def vaReserved : Nat := 0xF000000000000
/-- The dispenser window, which ends with the address space (R146). -/
def dispWindow : Nat := 0xFFFFFFFFF0000
/-- The sealed range that R247 uses: the first 16 TiB. -/
def sealedUnits : Nat := 2 ^ 23

def Fuses.bondedTop (u : Fuses) : Nat := dieBonded * u.dies
def Fuses.bulkTop (u : Fuses) : Nat := if u.part = .kpv2L then 0x50000000000 else 0x58000000000
def Fuses.isBonded (u : Fuses) (pa : Nat) : Bool := pa < u.bondedTop
def Fuses.isBulk (u : Fuses) (pa : Nat) : Bool := bulkBase ≤ pa && pa < u.bulkTop
def Fuses.isDram (u : Fuses) (pa : Nat) : Bool := u.isBonded pa || u.isBulk pa
def Fuses.stackCount (u : Fuses) : Nat := 5 * u.dies
def Fuses.channels (u : Fuses) : Nat := 8 * u.dies
/-- The die that holds a bonded address (R165). -/
def bondedDie (pa : Nat) : Nat := pa / dieBonded
/-- Stack and port of a bonded address (R163). -/
def stackOf (pa : Nat) : Nat := bitsAt pa 34 5
def portOf (pa : Nat) : Nat := bitsAt pa 12 5
/-- Bulk channel of an address (R164). -/
def Fuses.channelOf (u : Fuses) (pa : Nat) : Nat := bitsAt (pa - bulkBase) 12 (if u.part = .kpv2L then 4 else 5)
/-- The arbiter of a DRAM address: ports 0 to 639 are bonded, 640 on the bulk channels (R231). -/
def Fuses.arbiterOf (u : Fuses) (pa : Nat) : Nat := if u.isBonded pa then 32 * stackOf pa + portOf pa else 640 + u.channelOf pa

/-! ### Pools and page states -/

def poolBase (p : Quad) : Nat := bitsAt p.toNat 0 27
def poolSize (p : Quad) : Nat := bitsAt p.toNat 27 27
/-- A 2 MiB unit in a pool. -/
def inPool (p : Quad) (unit : Nat) : Bool := poolBase p ≤ unit && unit < poolBase p + poolSize p
def Dev.bondedPool (d : Dev) (die : Nat) : Quad := Tab.get 0#64 die d.blk.poolBonded

/-- A unit in some pool. -/
def Dev.pooled (d : Dev) (unit : Nat) : Bool :=
  inPool d.blk.poolBulk unit || (List.range 4).any fun i => inPool (d.bondedPool i) unit

/-- The state the pools give a page that nothing has taken: FREE in a locked pool, PRIVATE in the reserve, OPEN elsewhere (R167, R168). -/
def Dev.pageDefault (d : Dev) (page : Nat) : PageSt :=
  if d.blk.locked && d.pooled (page / 32) then (if d.blk.reserve.contains (page / 32) then .priv else .free) else .opn

/-- State of the 64 KiB page PA[47:16]. -/
def Dev.pageState (d : Dev) (page : Nat) : PageSt := Tab.get (d.pageDefault page) page d.blk.pages

def Dev.setPage (d : Dev) (page : Nat) (st : PageSt) : Dev :=
  { d with blk := { d.blk with
    pages := if st = d.pageDefault page then Tab.erase page d.blk.pages else Tab.put page st d.blk.pages } }

def Dev.setPages (d : Dev) (pages : List Nat) (st : PageSt) : Dev := pages.foldl (fun d p => d.setPage p st) d

/-- FREE pages of a pool: its pages less the reserve and those taken (R167, R197). -/
def Dev.freeIn (d : Dev) (p : Quad) : Nat :=
  if d.blk.locked then
    32 * (poolSize p - (d.blk.reserve.filter (inPool p)).length)
      - (d.blk.pages.filter fun x => inPool p (x.1 / 32) && x.2 ≠ .free).length
  else 0

def Dev.freeBonded (d : Dev) (die : Nat) : Nat := d.freeIn (d.bondedPool die)
def Dev.freeBulk (d : Dev) : Nat := d.freeIn d.blk.poolBulk

/-- The first of `n` numbers from `start` on that `p` holds of. -/
def findFrom (p : Nat → Bool) (start : Nat) : Nat → Option Nat
  | 0 => none
  | n + 1 => if p start then some start else findFrom p (start + 1) n

/-- The first number of [base, base + n) that `p` holds of, looked for from a point that the spec leaves open, and round. -/
def findRound (p : Nat → Bool) (base n point : Nat) : Option Nat :=
  if n = 0 then none
  else (findFrom p (base + point % n) (n - point % n)).orElse fun _ => findFrom p base (point % n)

/-- Takes one FREE page of a pool into state `st`. Which one is left open: a free value picks it (log entry 10). -/
def Dev.takePage (d : Dev) (p : Quad) (st : PageSt) : Option Nat × Dev :=
  let (x, d) := d.free 64
  match findRound (fun g => d.pageState g = .free) (32 * poolBase p) (32 * poolSize p) x.toNat with
  | none => (none, d)
  | some g => (some g, d.setPage g st)

/-- Takes `n` pages of a pool, or as many as there are. -/
def Dev.takePages (d : Dev) (p : Quad) (st : PageSt) : Nat → List Nat × Dev
  | 0 => ([], d)
  | n + 1 =>
    match d.takePage p st with
    | (none, d) => ([], d)
    | (some g, d) => let (l, d) := Dev.takePages d p st n; (g :: l, d)

/-- A 2 MiB unit whose 32 pages are all FREE. -/
def Dev.unitFree (d : Dev) (u : Nat) : Bool := (List.range 32).all fun i => d.pageState (32 * u + i) = .free

/-- The units of the bonded pool of `die` in stack `s`: the first and how many. -/
def Dev.stackUnits (d : Dev) (die s : Nat) : Nat × Nat :=
  let p := d.bondedPool die
  let lo := max (poolBase p) (8192 * s)
  let hi := min (poolBase p + poolSize p) (8192 * (s + 1))
  (lo, hi - lo)

/-- The stacks in which the k-th image unit of a die may lie, in the order of R181. -/
def stackOrder (die k : Nat) : List Nat := (List.range 5).map fun i => 5 * die + (k + i) % 5

/-- A FREE page of the bonded pool of `die` for its k-th page in the order of R181; the place within its stack is left open (log entry 10). -/
def Dev.takeSpread (d : Dev) (die k : Nat) (st : PageSt) : Option Nat × Dev :=
  let (x, d) := d.free 64
  match (stackOrder die k).findSome? fun s =>
      let r := d.stackUnits die s
      findRound (fun g => d.pageState g = .free) (32 * r.1) (32 * r.2) x.toNat with
  | none => (none, d)
  | some g => (some g, d.setPage g st)

/-- A FREE unit for the k-th 2 MiB page of an image on a die (R181); the place within its stack is left open. -/
def Dev.findUnit (d : Dev) (die k point : Nat) : Option Nat :=
  (stackOrder die k).findSome? fun s => let r := d.stackUnits die s; findRound d.unitFree r.1 r.2 point

/-- Takes that unit, its 32 pages SEALED. -/
def Dev.takeUnit (d : Dev) (die k : Nat) : Option Nat × Dev :=
  let (x, d) := d.free 64
  match d.findUnit die k x.toNat with
  | none => (none, d)
  | some u => (some u, d.setPages ((List.range 32).map fun i => 32 * u + i) .sealed)

def unitPages (u : Nat) : List Nat := (List.range 32).map fun i => 32 * u + i

/-- The reserve of a die: 48 units of its bonded pool, the k-th in stack 5d + (k mod 5) or the next that has one (R167, R181). The
units of a stack are taken from its lowest up (log entry 11). -/
def Dev.reserveOf (d : Dev) (die : Nat) : List Nat :=
  (List.range 48).foldl (fun taken k =>
    match (stackOrder die k).findSome? fun s =>
      let r := d.stackUnits die s
      findFrom (fun u => !taken.contains u) r.1 (min r.2 49) with
    | some u => taken ++ [u]
    | none => taken) []

/-! ### Page tables (R173, R174) -/

/-- The 8-byte entry at a physical address. -/
def Dev.entryAt (d : Dev) (pa : Nat) : Nat := ofBytes (Memory.read d.blk.dram pa 8)
/-- Writes an 8-byte entry. -/
def Dev.setEntry (d : Dev) (pa v : Nat) : Dev := { d with blk := { d.blk with dram := Memory.write d.blk.dram pa (toBytes 8 v) } }
/-- The first poisoned word that [pa, pa + n) meets (R189; a word is 64 bits, R194). -/
def Dev.badIn (d : Dev) (pa n : Nat) : Option Nat :=
  match d.blk.poison.filter fun w => 8 * w < pa + n && pa < 8 * w + 8 with
  | [] => none
  | w :: t => some (8 * minList w t)
def Dev.asidEntry (d : Dev) (a : Nat) : Nat := (Tab.get 0#64 a d.blk.asids).toNat
def asidValid (v : Nat) : Bool := bitAt v 0
def asidFunc (v : Nat) : Nat := bitsAt v 1 5
def asidRoot (v : Nat) : Nat := bitsAt v 15 33 * 2 ^ 15

/-- Whether the walk of a lower VA found its leaf: the leaf and its address, or the fault: error, resource, VALUE, LIMIT (R175, R196). -/
inductive Walked where
  | leaf (v pa : Nat)
  | fault (error resource value limit : Nat)
deriving DecidableEq, Repr

/-- The table index of a level (R173). -/
def tableIndex (va level : Nat) : Nat :=
  match level with
  | 4 => bitsAt va 39 12
  | 3 => bitsAt va 30 9
  | 2 => bitsAt va 21 9
  | _ => bitsAt va 16 5

/-- Levels `level` down to 1 of a walk, from the table at `table`: checks 3, 4 and 5 of R175 on each entry. DESIGN CHOICE: an entry passes all three before
the next is read; the spec does not say whether they run entry by entry or check by check (log entry 76). -/
def walkLevels (u : Fuses) (d : Dev) (va : Nat) : Nat → Nat → Walked
  | 0, _ => .fault Config.pageFault 0x23 0 0
  | level + 1, table =>
    let pa := table + 8 * tableIndex va (level + 1)
    let v := d.entryAt pa
    if (d.badIn pa 8).isSome then .fault Config.eccUncorrected 0x2C pa (level + 1)
    else if !bitAt v 0 then .fault Config.pageFault 0x20 va (level + 1)
    else if level = 0 then .leaf v pa
    else
      let next := bitsAt v 8 40 * 256
      if bitsAt v 1 7 ≠ 0 || bitsAt v 48 16 ≠ 0 || !u.isBonded next then .fault Config.pageFault 0x23 v (level + 1)
      else walkLevels u d va level next

/-- The walk of a lower VA in an address space (checks 2 to 5 of R175 up to the leaf's own fields). -/
def walkLower (u : Fuses) (d : Dev) (asid va : Nat) : Walked :=
  let a := d.asidEntry asid
  if asid = 0 || !asidValid a then .fault Config.pageFault 0x2D asid 0
  else if !u.isBonded (asidRoot a) then .fault Config.pageFault 0x23 a 4
  else walkLevels u d va 4 (asidRoot a)

def leafPa (leaf : Nat) : Nat := bitsAt leaf 16 32 * 2 ^ 16
def leafW (leaf : Nat) : Bool := bitAt leaf 1
def leafMg (leaf : Nat) : Bool := bitAt leaf 2
def leafMoving (leaf : Nat) : Bool := bitAt leaf 3
def sealedV (leaf : Nat) : Bool := bitAt leaf 0
def sealedPa (leaf : Nat) : Nat := bitsAt leaf 1 27 * 2 ^ 21
def sealedConf (leaf : Nat) : Bool := bitAt leaf 28
def sealedFmask (leaf : Nat) : Nat := bitsAt leaf 32 32
/-- A sealed leaf (R174). -/
def mkSealed (unit : Nat) (conf : Bool) (fmask : Nat) : Quad :=
  BitVec.ofNat 64 (1 + unit % 2 ^ 27 * 2 + bit conf * 2 ^ 28 + fmask * 2 ^ 32)

/-- The sealed leaf of region unit `unit` on a die. -/
def Dev.sealedOf (d : Dev) (die unit : Nat) : Nat := (Tab.get 0#64 (2 ^ 23 * die + unit) d.blk.sealedLeaf).toNat
def Dev.setSealed (d : Dev) (die unit : Nat) (v : Quad) : Dev :=
  { d with blk := { d.blk with sealedLeaf := Tab.set 0#64 (2 ^ 23 * die + unit) v d.blk.sealedLeaf } }

/-- The entry whose region holds a region unit, not FREE. -/
def Dev.versionAt (d : Dev) (unit : Nat) : Option Nat :=
  (d.vers.find? fun x => x.2.st ≠ .free && x.2.region ≤ unit && unit < x.2.region + (x.2.payloadLen + unitBytes - 1) / unitBytes).map (·.1)

/-- Functions that may read a version (R248). -/
def Version.fmask (v : Version) : Nat := if v.func = 0 then 2 ^ 32 - 1 else 2 ^ v.func

/-! ### Translations (R175) -/

/-- Who accesses: the die, address space, function, whether it writes, whether it is an engine or trestle unit, and the publisher key
slot of the span it belongs to (R184). -/
structure Access where
  die : Nat
  asid : Nat
  func : Nat
  write : Bool
  engine : Bool := true
  pubKey : Option Nat := none
deriving DecidableEq, Repr

/-- What a translation answers: a physical address, an immediate fault, or a resolvable fault (R190). -/
inductive Trans where
  | pa (a : Nat)
  | fault (error resource value limit : Nat)
  | resolve (k : ResKind)
deriving DecidableEq, Repr

/-- A reader that may read a confidential page of entry `n`: a tier-fill context of a span under one of the version's two key slots (R184). -/
def Dev.mayReadConf (d : Dev) (a : Access) (n : Nat) : Bool :=
  !a.write && match a.pubKey with
    | some k => (d.ver n).pubKey = k || ((d.ver n).spanKey ≠ 0xFF && (d.ver n).spanKey = k)
    | none => false

/-- A page is the home to which an open move has switched its leaf: still MOVING until the move completes, and reached through that leaf (R178,
steps 3 to 5; log entry 73). -/
def Dev.switchedHome (d : Dev) (page : Nat) : Bool := d.blk.moves.any fun m => m.switched && m.pages.any fun p => p.dst = some page

/-- Checks 5 to 9 on the leaf of a lower VA. -/
def checkLower (u : Fuses) (d : Dev) (a : Access) (va leaf : Nat) : Trans :=
  let pa := leafPa leaf
  let st := d.pageState (pa / pageBytes)
  if bitsAt leaf 4 12 ≠ 0 || bitsAt leaf 48 16 ≠ 0 || !u.isDram pa
      || !(st = .opn || st = .mutable || (st = .moving && (leafMoving leaf || d.switchedHome (pa / pageBytes)))) then
    .fault Config.pageFault 0x23 leaf 1
  else if a.write && !leafW leaf then .fault Config.pageFault 0x21 va 0
  else if a.engine && leafMg leaf then .resolve (.mgPage a.asid (va / pageBytes))
  else if a.write && leafMoving leaf then .resolve (.movingPage a.asid (va / pageBytes))
  else .pa (pa + va % pageBytes)

/-- Checks 4 to 7 on the sealed leaf of a region unit. The tables of the range that R247 uses are all present, so V = 0 is found at
level 2 there and at level 4 beyond it. -/
def checkSealed (d : Dev) (a : Access) (va leaf : Nat) : Trans :=
  let unit := (va - sealedBase) / unitBytes
  if sealedUnits ≤ unit then .fault Config.pageFault 0x20 va 4
  else if !sealedV leaf then
    match d.versionAt unit with
    | some n =>
      if ((d.ver n).st = .active || (d.ver n).st = .retiring) && bitAt (d.ver n).fmask a.func && (d.ver n).torn.isNone && a.engine then
        .resolve (.segment n (unit - (d.ver n).region))
      else .fault Config.pageFault 0x20 va 2
    | none => .fault Config.pageFault 0x20 va 2
  else if d.pageState (sealedPa leaf / pageBytes) ≠ .sealed || bitsAt leaf 29 3 ≠ 0 then .fault Config.pageFault 0x23 leaf 2
  else if !bitAt (sealedFmask leaf) a.func
      || (sealedConf leaf && !((d.versionAt unit).any fun n => d.mayReadConf a n)) then .fault Config.pageFault 0x22 va (sealedFmask leaf)
  else if a.write then .fault Config.pageFault 0x21 va 0
  else .pa (sealedPa leaf + va % unitBytes)

/-- What an access at or above the reserved range finds: in the dispenser window every access but a dispense read is refused (R146, R161). -/
def beyond (va : Nat) : Trans := if dispWindow ≤ va && va < 2 ^ 52 then .fault Config.overflow 0x08 va 0 else .fault Config.pageFault 0x24 va 0

/-- The translation of a VA by a walk (R175). -/
def translate (u : Fuses) (d : Dev) (a : Access) (va : Nat) : Trans :=
  if vaReserved ≤ va then beyond va
  else if va < sealedBase then
    match walkLower u d a.asid va with
    | .fault x r v l => .fault x r v l
    | .leaf v _ => checkLower u d a va v
  else checkSealed d a va (d.sealedOf a.die ((va - sealedBase) / unitBytes))

/-- The address of the level-1 entry of a lower VA. -/
def leafAddr (u : Fuses) (d : Dev) (asid va : Nat) : Option Nat :=
  match walkLower u d asid va with
  | .leaf _ pa => some pa
  | .fault .. => none

/-! ### The translation cache (R176) -/

/-- The page under which a translation is cached: the page of a lower VA, the region unit of a sealed one. -/
def tlbPage (va : Nat) : Nat := if va < sealedBase then va / pageBytes else (va - sealedBase) / unitBytes
def tlbSpace (asid va : Nat) : Nat := if va < sealedBase then asid else 0

/-- The cached leaf that a requester of command `uid` may use for a VA on a die: that of the die's cache, or that of its own last page. -/
def Dev.tlbLeaf (d : Dev) (who : Requester) (uid die asid va : Nat) : Option Nat :=
  (d.blk.tlb.find? fun t => t.die = die && t.asid = tlbSpace asid va && t.vpage = tlbPage va && (t.holder.isNone || t.holder = some who)
    && (match t.only with | none => true | some l => l.contains uid)).map (·.leaf.toNat)

/-- Caches a leaf. A die keeps its latest 8,192 translations: DESIGN CHOICE, the spec does not say which one a full cache drops (log entry 74). -/
def Dev.addTlb (d : Dev) (die asid va leaf : Nat) : Dev :=
  let t := d.blk.tlb.filter fun t =>
    !(t.die = die && t.asid = tlbSpace asid va && t.vpage = tlbPage va && t.only.isNone && t.holder.isNone)
  let mine := t.countP fun t => t.die = die && t.holder.isNone
  let t := if mine < 8192 then t else
    match t.findIdx? fun t => t.die = die && t.holder.isNone with
    | some i => t.eraseIdx i
    | none => t
  { d with blk := { d.blk with tlb := t ++ [{ die := die, asid := tlbSpace asid va, vpage := tlbPage va, leaf := BitVec.ofNat 64 leaf }] } }

/-- A requester keeps the translation of its last page, in place of the one before (R176). -/
def Dev.keepLast (d : Dev) (who : Requester) (uid die asid va : Nat) : Dev :=
  match d.tlbLeaf who uid die asid va with
  | none => d
  | some leaf =>
    let only := (d.blk.tlb.find? fun t => t.die = die && t.asid = tlbSpace asid va && t.vpage = tlbPage va
      && (t.holder.isNone || t.holder = some who)).bind (·.only)
    { d with blk := { d.blk with tlb := (d.blk.tlb.filter fun t => t.holder ≠ some who)
        ++ [{ die := die, asid := tlbSpace asid va, vpage := tlbPage va, leaf := BitVec.ofNat 64 leaf, holder := some who, only := only }] } }

/-- The translations that requesters kept of their last page are gone. -/
def Dev.dropLast (d : Dev) (p : Requester → Bool) : Dev :=
  { d with blk := { d.blk with tlb := d.blk.tlb.filter fun t => !t.holder.any p } }

/-- The leaf that a walk of a VA finds. -/
def leafOf (u : Fuses) (d : Dev) (a : Access) (va : Nat) : Option Nat :=
  if va < sealedBase then
    match walkLower u d a.asid va with
    | .leaf v _ => some v
    | .fault .. => none
  else some (d.sealedOf a.die ((va - sealedBase) / unitBytes))

/-- Checks 6 to 9 on a cached leaf; a sealed leaf held past its clearing (R182) still passes check 4. -/
def translateCached (u : Fuses) (d : Dev) (a : Access) (va leaf : Nat) : Trans :=
  if va < sealedBase then checkLower u d a va leaf else checkSealed d a va leaf

/-- What an access of a requester of command `uid` finds: a miss, or the translation. -/
def Dev.lookup (u : Fuses) (d : Dev) (who : Requester) (uid : Nat) (a : Access) (va : Nat) : Option Trans :=
  if vaReserved ≤ va then some (beyond va)
  else (d.tlbLeaf who uid a.die a.asid va).map (translateCached u d a va)

/-- The sealed translations of region units [first, first + n) on a die stay with the commands `uids` alone (R182). -/
def Dev.holdSealed (d : Dev) (die first n : Nat) (uids : List Nat) : Dev :=
  { d with blk := { d.blk with tlb := d.blk.tlb.map fun t =>
      if t.die = die && t.asid = 0 && first ≤ t.vpage && t.vpage < first + n && t.only.isNone then { t with only := some uids } else t } }

/-- The sealed translations of region units [first, first + n) on a die are gone. -/
def Dev.dropSealed (d : Dev) (die first n : Nat) : Dev :=
  { d with blk := { d.blk with tlb := d.blk.tlb.filter fun t =>
      !(t.die = die && t.asid = 0 && first ≤ t.vpage && t.vpage < first + n) } }

/-- Drops the cached translations of pages [first, first + n) of an address space; sealed translations are kept under space 0. -/
def Dev.dropTlb (d : Dev) (asid first n : Nat) : Dev :=
  { d with blk := { d.blk with tlb := d.blk.tlb.filter fun t => t.asid ≠ asid || t.vpage < first || first + n ≤ t.vpage } }

/-! ### Reads and writes by address -/

/-- The end of the piece of [va, va + n) that lies in one 64 KiB page: how many bytes it has. -/
def pieceLen (va n : Nat) : Nat := min n (pageBytes - va % pageBytes)

/-- Reads `n` bytes at VA in pieces of a page, through a translation of each; `fuel` bounds the pieces. -/
def readVaFuel (u : Fuses) (d : Dev) (a : Access) (va n : Nat) : Nat → Except Trans (List Byte)
  | 0 => .ok []
  | fuel + 1 =>
    if n = 0 then .ok []
    else match translate u d a va with
      | .pa p =>
        let k := pieceLen va n
        match d.badIn p k, readVaFuel u d a (va + k) (n - k) fuel with
        | some w, _ => .error (.fault Config.eccUncorrected (if u.isBonded w then 0x29 else 0x2A) w 0)
        | none, .ok t => .ok (Memory.read d.blk.dram p k ++ t)
        | none, .error x => .error x
      | x => .error x

def pieces (n : Nat) : Nat := n / pageBytes + 2

/-- Reads `n` bytes of DRAM at VA; the first poisoned word on the way is a fault (R189). -/
def Dev.readVa (d : Dev) (u : Fuses) (a : Access) (va n : Nat) : Except Trans (List Byte) := readVaFuel u d a va n (pieces n)

def Dev.writePa (d : Dev) (pa : Nat) (l : List Byte) : Dev :=
  { d with blk := { d.blk with dram := Memory.write d.blk.dram pa l } }
def Dev.copyPa (d : Dev) (src dst n : Nat) : Dev :=
  { d with blk := { d.blk with dram := Memory.copy d.blk.dram src dst n } }

/-- The poisoned words that a full write of [pa, pa + n) clears (R189: a write that covers all 64 bytes). -/
def Dev.unpoison (d : Dev) (pa n : Nat) : Dev :=
  { d with blk := { d.blk with poison := d.blk.poison.filter fun w => 64 * (w / 8) < pa || pa + n < 64 * (w / 8) + 64 } }

/-! ### Requester slots (R231 to R234) -/

/-- A count that saturates. -/
def satPut (bits key v : Nat) (t : Tab Nat) : Tab Nat := Tab.put key (min (2 ^ bits - 1) v) t
def satAdd (bits a b : Nat) : Nat := min (2 ^ bits - 1) (a + b)

def Dev.arbNow (d : Dev) (p : Nat) : Word := Tab.get 0#32 p d.arb.now
def Dev.arbSlot (d : Dev) (p k : Nat) : ArbSlot := Tab.get {} (64 * p + k) d.arb.slots
def Dev.setArbSlot (d : Dev) (p k : Nat) (x : ArbSlot) : Dev :=
  { d with arb := { d.arb with slots := Tab.set {} (64 * p + k) x d.arb.slots } }

/-- The fixed slots of a port, and whose slot k is (R231). -/
def fixedSlots (p : Nat) : List Nat := if p < 640 then List.range 22 else List.range 18
def fixedOwner (p k : Nat) : SlotOwner :=
  if p < 640 then
    if k < 15 then .trestle k else if k = 15 then .walker else if k < 20 then .mover (p / 160) (k - 16) else if k = 20 then .scrub else .host
  else if k < 16 then .mover (k / 4) (k % 4) else if k = 16 then .scrub else .host

/-- Slack of a fixed slot's request (R233, R238). -/
def Dev.fixedSlack (d : Dev) (p k : Nat) (fault : Bool) : Nat :=
  match fixedOwner p k with
  | .mover .. => if fault then bitsAt d.arb.slack2.toNat 0 16 else bitsAt d.arb.slack.toNat 16 16
  | .scrub => bitsAt d.arb.slack.toNat 32 16
  | .host => bitsAt d.arb.slack.toNat 48 16
  | _ => bitsAt d.arb.slack.toNat 0 16

/-- Requests of a fixed slot, oldest first. -/
def Dev.fixedOf (d : Dev) (p k : Nat) : List FixReq := Tab.get [] (64 * p + k) d.arb.fixed
def Dev.setFixed (d : Dev) (p k : Nat) (l : List FixReq) : Dev :=
  { d with arb := { d.arb with fixed := Tab.set [] (64 * p + k) l d.arb.fixed } }

/-- The oldest transfer of a fixed slot's requester enters the arbiter, where the slot presents none: its latest-service cycle is fixed (R233). A tile of
a tier-move engine keeps the time of its first transfer (R188). -/
def Dev.present (now : Nat) (d : Dev) (p k : Nat) : Dev :=
  if (d.arbSlot p k).ready then d else
    match d.fixedOf p k with
    | [] => d
    | r :: t =>
      let entry := match fixedOwner p k with
        | .mover .. => r.since.getD now
        | _ => now
      (d.setFixed p k ({ r with since := some entry } :: t)).setArbSlot p k
        { owner := fixedOwner p k, ready := true, d := d.arbNow p + BitVec.ofNat 32 (d.fixedSlack p k r.fault), lost := 0, arrived := d.arbNow p }

/-- A request joins those of slot `k` at the port or channel of its address. -/
def Dev.ask (e : Env) (d : Dev) (k : Nat) (r : FixReq) : Dev :=
  let p := e.fuse.arbiterOf r.pa
  (d.setFixed p k (d.fixedOf p k ++ [r])).present e.now p k

/-- 64-byte transfers that [pa, pa + n) takes. -/
def xfersOf (pa n : Nat) : Nat := if n = 0 then 0 else (pa + n + 63) / 64 - pa / 64
/-- 4 KiB blocks that [pa, pa + n) meets; each lies on one port or channel (R163, R164). -/
def blocksOf (pa n : Nat) : Nat := if n = 0 then 0 else (pa + n + 4095) / 4096 - pa / 4096

/-- The transfers of [r.pa, r.pa + n) are asked for, those of a 4 KiB block in one request; `slot` gives the slot from a block's number and its port; a requester
without a slot there asks for nothing. -/
def Dev.askRange (e : Env) (d : Dev) (r : FixReq) (n : Nat) (slot : Nat → Nat → Option Nat) : Dev :=
  (List.range (blocksOf r.pa n)).foldl (fun d i =>
    let a := max r.pa (4096 * (r.pa / 4096 + i))
    let b := min (r.pa + n) (4096 * (r.pa / 4096 + i + 1))
    match slot i (e.fuse.arbiterOf a) with
    | some k => d.ask e k { r with pa := a, n := xfersOf a (b - a), va := r.va.map (· + (a - r.pa)) }
    | none => d) d

/-- Transfers of a requester that the arbiters have not granted. -/
def Dev.asks (d : Dev) (who : Requester) : Bool := d.arb.fixed.any fun x => x.2.any fun r => r.who = some who

/-- Of a requester's transfers in an arbiter, the one whose tile entered first: address, LOCAL_TIME, VA (R188). -/
def Dev.oldestAsk (d : Dev) (who : Requester) : Option (Nat × Nat × Option Nat) :=
  firstBy (fun a b : Nat × Nat × Option Nat => a.2.1 < b.2.1)
    (d.arb.fixed.filterMap fun x => match x.2 with
      | r :: _ => if r.who = some who then r.since.map fun t => (r.pa, t, r.va) else none
      | [] => none)

/-- The walk of a requester is under way: a read of it waits in the walker's slot. -/
def Dev.walks (d : Dev) (who : Requester) : Bool := d.arb.fixed.any fun x => x.1 % 64 = 15 && x.1 < 64 * 640 && x.2.any fun r => r.who = some who

/-- The transfers of requesters that are not granted are withdrawn. -/
def Dev.withdrawBy (d : Dev) (p : Requester → Bool) : Dev :=
  { d with arb := { d.arb with
    fixed := (d.arb.fixed.map fun x => (x.1, x.2.filter fun r => !r.who.any p)).filter fun x => !x.2.isEmpty
    slots := d.arb.slots.filter fun x => !((Tab.get [] x.1 d.arb.fixed).head?.any fun r => r.who.any p) } }
def Dev.withdraw (d : Dev) (who : Requester) : Dev := d.withdrawBy fun x => x = who

/-- A fixed slot's oldest transfer has been granted: it is counted where a trestle unit made it (R223), the slot is free for the next, and a page walk
goes on to its next entry. -/
def Dev.servedFixed (e : Env) (d : Dev) (p k : Nat) : Dev :=
  match d.fixedOf p k with
  | [] => d.setArbSlot p k {}
  | r :: t =>
    let d := if p < 640 && k < 16 && e.fuse.hasTrestle then { d with btr := { d.btr with
        xfer := satPut 64 (p / 32) (Tab.get 0 (p / 32) d.btr.xfer + 1) d.btr.xfer
        walks := if k = 15 then satPut 32 (p / 160) (Tab.get 0 (p / 160) d.btr.walks + 1) d.btr.walks else d.btr.walks } }
      else d
    let d := (d.setFixed p k (if r.n ≤ 1 then t else { r with n := r.n - 1, pa := r.pa / 64 * 64 + 64 } :: t)).setArbSlot p k {}
    let d := if r.n ≤ 1 then match r.path with
        | x :: l => d.ask e 15 { r with pa := x, n := 1, since := none, path := l }
        | [] => d
      else d
    d.present e.now p k

/-- Slots of host BAR2 and of the patrol scrub. -/
def hostSlot (_ p : Nat) : Option Nat := some (if p < 640 then 21 else 17)
def scrubSlot (_ p : Nat) : Option Nat := some (if p < 640 then 20 else 16)

/-- Transfers of the tier-move engines of a die; which of the four moves each 4 KiB unit is left open. -/
def Dev.moved (e : Env) (d : Dev) (die pa n : Nat) (r : FixReq := { pa := pa, n := 0 }) : Dev :=
  let (x, d) := d.free (2 * blocksOf pa n)
  d.askRange e { r with pa := pa } n fun i p => some ((if p < 640 then 16 else 4 * die) + bitsAt x.toNat (2 * i) 2)

/-- A range is copied with its poison (R178, R189). -/
def Dev.copyPoisoned (d : Dev) (src dst n : Nat) : Dev :=
  let w := (d.blk.poison.filter fun w => src ≤ 8 * w && 8 * w < src + n).map fun w => (8 * w - src + dst) / 8
  let d := (d.copyPa src dst n).unpoison dst n
  { d with blk := { d.blk with poison := d.blk.poison ++ w } }

/-- The tier-move engines of a die copy a range. -/
def Dev.moverCopy (e : Env) (d : Dev) (die src dst n : Nat) (r : FixReq := { pa := src, n := 0 }) : Dev :=
  ((d.moved e die src n r).moved e die dst n r).copyPoisoned src dst n

/-! ### Failed units -/

/-- A bonded port's stack or a bulk channel has failed (R200, R224). -/
def Dev.portDead (d : Dev) (p : Nat) : Bool :=
  if p < 640 then Tab.get 0#2 (p / 32) d.btr.stackSet = 3#2 else (Tab.get ({} : Channel) (p - 640) d.blk.channels).st = 3#2

/-- A failed stack or channel holds an address (R188, R224). -/
def Dev.unitDead (u : Fuses) (d : Dev) (pa : Nat) : Bool :=
  if u.isBonded pa then Tab.get 0#2 (stackOf pa) d.btr.stackSet = 3#2
  else u.isBulk pa && (Tab.get ({} : Channel) (u.channelOf pa) d.blk.channels).st = 3#2

/-- The first of some 4 KiB blocks that lies on a failed unit. -/
def Dev.deadIn (u : Fuses) (d : Dev) (l : List Nat) : Option Nat := l.find? (d.unitDead u)

/-- The 4 KiB blocks of a page. -/
def pageBlocks (page : Nat) : List Nat := (List.range 16).map fun j => page * pageBytes + 4096 * j

/-! ### Walk reads (R175, R218) -/

/-- The entries that a walk of a lower VA reads: level and address. -/
def walkReads (u : Fuses) (d : Dev) (va : Nat) : Nat → Nat → List (Nat × Nat)
  | 0, _ => []
  | level + 1, table =>
    let pa := table + 8 * tableIndex va (level + 1)
    let v := d.entryAt pa
    let next := bitsAt v 8 40 * 256
    (level + 1, pa) :: (if level = 0 || (d.badIn pa 8).isSome || !bitAt v 0 || bitsAt v 1 7 ≠ 0 || bitsAt v 48 16 ≠ 0 || !u.isBonded next then []
      else walkReads u d va level next)

/-- The reads of a walk: of the address space's tables, or of the die's sealed tables, whose places in the reserve are left open. A sealed VA past the
range that R247 uses has no entry at level 4. -/
def Dev.walkPath (u : Fuses) (d : Dev) (a : Access) (va : Nat) : List (Nat × Nat) × Dev :=
  if va < sealedBase then
    let v := d.asidEntry a.asid
    (if a.asid = 0 || !asidValid v || !u.isBonded (asidRoot v) then [] else walkReads u d va 4 (asidRoot v), d)
  else
    let (x, d) := d.free 48
    let units := d.blk.reserve.filter fun r => bondedDie (r * unitBytes) = a.die
    let pa (i : Nat) : Nat := (units.getD (x.toNat / 2 ^ 21 % max units.length 1) 0) * unitBytes + (x.toNat + 8 * i) % unitBytes / 8 * 8
    (if sealedUnits ≤ (va - sealedBase) / unitBytes then [(4, pa 0)] else [(4, pa 0), (3, pa 1), (2, pa 2)], d)

/-- A walk begins: the read of its first entry is asked for in slot 15 of the entry's port, and each further one once the one before is granted. -/
def Dev.askWalk (e : Env) (d : Dev) (who : Option Requester) (a : Access) (va : Nat) : Dev :=
  if vaReserved ≤ va then d else
    let (l, d) := d.walkPath e.fuse a va
    match l with
    | [] => d
    | x :: t => d.ask e 15 { who := who, pa := x.2, n := 1, va := some va, path := t.map (·.2) }

/-! ### Shadows (R29, R207, R208) -/

def Dev.shadowOf (d : Dev) (uid asid vpage : Nat) : Option Shadow :=
  d.blk.shadows.find? fun s => s.uid = uid && s.asid = asid && s.vpage = vpage

/-- A page lies whole in a range. -/
def holdsPage (r : Nat × Nat) (vpage : Nat) : Bool := r.1 ≤ vpage * pageBytes && (vpage + 1) * pageBytes ≤ r.1 + r.2

/-- What the first write of a command to a page answers. -/
inductive Shadowed where
  | page (g : Nat) (d : Dev)
  | busy
  | quota

/-- The shadow of the page of home `home`: the one it has, or one taken from the bonded pool of `die` with the home copied into it by the tier-move
engines, unless the command is known to write the whole page; a page that another open command shadows is refused (R29, R207, R208). -/
def Dev.takeShadow (e : Env) (d : Dev) (uid die asid vpage home : Nat) (whole : Bool) : Shadowed :=
  match d.shadowOf uid asid vpage with
  | some s => .page s.page d
  | none =>
    if d.blk.shadows.any fun s => s.home = home && s.uid ≠ uid then .busy
    else
      let opn := d.pageState home = .opn
      match d.takeSpread die (d.blk.shadows.countP fun s => s.uid = uid) .priv with
      | (none, _) => .quota
      | (some g, d) =>
        let d := if whole then d.unpoison (g * pageBytes) pageBytes
          else d.moverCopy e die (home * pageBytes) (g * pageBytes) pageBytes { who := some (.command uid), pa := 0, n := 0, va := some (vpage * pageBytes), fault := true }
        .page g { d with blk := { d.blk with
          shadows := d.blk.shadows ++ [{ uid := uid, asid := asid, vpage := vpage, home := home, page := g, openHome := opn }] } }

/-- The command has written `n` bytes at offset `off` of a page that it shadows. -/
def Dev.shadowWrote (d : Dev) (uid asid vpage off n : Nat) : Dev :=
  { d with blk := { d.blk with shadows := d.blk.shadows.map fun s =>
      if s.uid = uid && s.asid = asid && s.vpage = vpage then { s with wrote := s.wrote ++ [(off, n)] } else s } }

/-- The command has written a byte of a page. -/
def Shadow.holds (s : Shadow) (off : Nat) : Bool := s.wrote.any fun r => r.1 ≤ off && off < r.1 + r.2
/-- Where `n` bytes at offset `off` of a page are read by the command that shadows it: in the shadow what it has written, else in the home (R207). -/
def Shadow.places (s : Shadow) (home off n : Nat) : List Nat :=
  (List.range n).map fun i => if s.holds (off + i) then s.page * pageBytes + off + i else home + i

/-- A tier transfer of a stream context on a page has not completed. -/
def Dev.pageInUse (d : Dev) (page : Nat) : Bool :=
  d.cores.any fun c => c.2.engs.any fun e => e.2.ctxs.any fun x => x.2.outst.any fun t => t.pa / pageBytes = page

/-- Old homes whose last access has completed become FREE (R207). -/
def Dev.freeHomes (d : Dev) : Dev :=
  let done := d.blk.oldHomes.filter fun h => !d.pageInUse h
  ({ d with blk := { d.blk with oldHomes := d.blk.oldHomes.filter d.pageInUse } }).setPages done .free

/-- Commits one shadow: a MUTABLE home is replaced by its shadow in the leaf, an OPEN home is copied into (R29). -/
def Dev.commitShadow (e : Env) (d : Dev) (s : Shadow) : Dev :=
  if s.openHome then
    (d.moverCopy e (bondedDie (s.page * pageBytes)) (s.page * pageBytes) (s.home * pageBytes) pageBytes).setPage s.page .free
  else
    let d := match leafAddr e.fuse d s.asid (s.vpage * pageBytes) with
      | some pa => d.setEntry pa (putBits (d.entryAt pa) 16 32 s.page)
      | none => d
    let d := (d.setPage s.page .mutable).dropTlb s.asid s.vpage 1
    { d with blk := { d.blk with oldHomes := d.blk.oldHomes ++ [s.home] } }

/-- Commits every shadow of a command. -/
def Dev.commitShadows (e : Env) (d : Dev) (uid : Nat) : Dev :=
  let mine := d.blk.shadows.filter fun s => s.uid = uid
  let d := { d with blk := { d.blk with shadows := d.blk.shadows.filter fun s => s.uid ≠ uid } }
  (mine.foldl (Dev.commitShadow e) d).freeHomes

/-- Discards every shadow of a command: the pages become FREE and no home changes (R29). -/
def Dev.dropShadows (d : Dev) (uid : Nat) : Dev :=
  let mine := (d.blk.shadows.filter fun s => s.uid = uid).map (·.page)
  ({ d with blk := { d.blk with shadows := d.blk.shadows.filter fun s => s.uid ≠ uid } }).setPages mine .free

/-! ### Check-bit counters (R200) -/

/-- Whether a word was corrected or found uncorrected, and whether a scrub wrote it back. -/
def EccCount.add (c : EccCount) (corr uncorr fix : Nat) : EccCount :=
  { corr := min (c.corr + corr) (2 ^ 32 - 1), uncorr := min (c.uncorr + uncorr) (2 ^ 16 - 1), fix := min (c.fix + fix) (2 ^ 16 - 1) }

/-- Counts check-bit results of the unit that holds a physical address. -/
def Dev.countEcc (u : Fuses) (d : Dev) (pa corr uncorr fix : Nat) : Dev :=
  if u.isBonded pa then
    { d with blk := { d.blk with eccBonded := Tab.put (bondedDie pa) ((Tab.get {} (bondedDie pa) d.blk.eccBonded).add corr uncorr fix) d.blk.eccBonded } }
  else
    { d with blk := { d.blk with eccBulk := Tab.put (u.channelOf pa) ((Tab.get {} (u.channelOf pa) d.blk.eccBulk).add corr uncorr fix) d.blk.eccBulk } }

/-- Logs an uncorrected error in BLK_ECC_LOG: its address and tier (1 near, 2 bonded, 3 bulk, 4 page-table entry). -/
def Dev.logEcc (d : Dev) (addr tier : Nat) : Dev :=
  { d with blk := { d.blk with
    eccLogAddr := BitVec.ofNat 48 addr, eccLogTier := BitVec.ofNat 3 tier, eccLogCount := min (d.blk.eccLogCount + 1) 4095 } }

/-- The image page of 2 MiB that holds an address: entry, die, segment. -/
def Dev.imagePageAt (d : Dev) (pa : Nat) : Option (Nat × Nat × Nat) :=
  d.vers.findSome? fun x => x.2.images.findSome? fun y =>
    (y.2.pages.find? fun g : Nat × Nat => g.2 = pa / unitBytes).map fun g => (x.1, y.1, g.1)

/-- A segment of an image is gone from a die: its leaf is clear, and the next access images it again (R189). DESIGN CHOICE: its pages are FREE at once,
which the spec does not say (log entry 75). -/
def Dev.dropImagePage (d : Dev) (n die seg : Nat) : Dev :=
  let v := d.ver n
  match (v.images.find? fun y : Nat × DieImage => y.1 = die).map (·.2) with
  | none => d
  | some g =>
    let gone := g.pages.filter fun x : Nat × Nat => x.1 = seg
    let d := gone.foldl (fun d x => d.setPages (unitPages x.2) .free) ((d.setSealed die (v.region + seg) 0#64).dropSealed die (v.region + seg) 1)
    let g := { g with pages := g.pages.filter fun x => x.1 ≠ seg, complete := false }
    d.setVer n { v with images := Tab.put die g v.images }

/-- An uncorrected DRAM word is read: it is poisoned, counted and logged, and an image page that holds it is dropped (R189, R195, R200). -/
def Dev.uncorrected (u : Fuses) (d : Dev) (pa : Nat) (entry : Bool := false) : Dev :=
  let d := (d.countEcc u pa 0 1 0).logEcc (8 * (pa / 8)) (if entry then 4 else if u.isBonded pa then 2 else 3)
  let d : Dev := if d.blk.poison.contains (pa / 8) then d else { d with blk := { d.blk with poison := d.blk.poison ++ [pa / 8] } }
  match d.imagePageAt pa with
  | some (n, die, seg) => d.dropImagePage n die seg
  | none => d

/-- Near-tier check results are counted by die (R200). -/
def Dev.nearEcc (d : Dev) (die corr uncorr : Nat) : Dev :=
  { d with blk := { d.blk with eccNear := Tab.put die ((Tab.get ({} : EccCount) die d.blk.eccNear).add corr uncorr 0) d.blk.eccNear } }

/-- An uncorrected word of the near tier is read: counted and logged. -/
def Dev.nearUncorrected (d : Dev) (a : Nat) : Dev := (d.nearEcc (a / 0x4000000 / 4) 0 1).logEcc (nearBase + 8 * (a / 8)) 1

/-- A fault record is written; an uncorrected DRAM word that it names is counted, logged and poisoned. -/
def Dev.recordFault (d : Dev) (e : Env) (f queue cmdId : Nat) (i : FaultInfo) : Nat × Dev :=
  let dram : Bool := i.resource = 0x29 || i.resource = 0x2A || i.resource = 0x2C
  (if i.error = Config.eccUncorrected && dram then d.uncorrected e.fuse i.value (i.resource = 0x2C) else d).writeFault e f queue cmdId i

end Sys2Proof.Machine
end

