-- ==== Sys2Proof/Machine/MoveOps.lean ====
section
/-!
DEFINITION. Long operations (R138 to R141), moves of a home (R177 to R179), sealed images and their segments (R180 to R183), and the version
table with its handles and references (R246 to R254).
-/
namespace Sys2Proof.Machine

/-! ### Long operations -/

def LongSt.code : LongSt → Nat
  | .running => 0 | .suspended => 1 | .cancelling => 2 | .done => 3 | .failed => 4

def LongSt.terminal (s : LongSt) : Bool := s = .done || s = .failed

/-- The status word of R140. -/
def LongOp.status (l : LongOp) : Nat :=
  l.st.code + bit l.suspendPending * 8 + (if l.st = .failed then l.error.toNat else 0) * 256 + l.chunks % 2 ^ 48 * 2 ^ 16

/-- The lowest free long-operation slot (R138). -/
def Dev.freeLong (d : Dev) : Option Nat := (List.range 1024).find? fun k => !(d.long k).used

/-- A long operation starts: it takes the lowest free slot, with GEN one past that of its last use, and the completion with LONG_START is posted
(R138, R139). -/
def Dev.openLong (d : Dev) (o : OpenCmd) (kind : LongKind) : Nat × Dev :=
  let k := d.freeLong.getD 0
  let gen := if d.longs.any fun x => x.1 = k then (d.long k).gen + 1 else 0
  let d := d.setLong k { used := true, gen := gen, func := o.func, queue := o.queue, die := o.die, kind := kind, cmd := o.cmd, sqHead := o.sqHead, quiet := o.quiet }
  (k, d.complete o.uid Config.ok (longHandle k o.func gen) flagStart)

/-- Completes the LONG_ commands that waited for a boundary of operation `k`, with its status word (R141). -/
def Dev.wakeLong (d : Dev) (k : Nat) : Dev :=
  let l := d.long k
  let d := d.modLong k fun l => { l with waiters := [] }
  l.waiters.foldl (fun d uid => match d.openOf uid with
    | some o => (d.charge o 0).complete uid Config.ok l.status
    | none => d) d

/-- Operation `k` reaches DONE or FAILED: LONG_FINAL is posted with the final status and RESULT (R138). Every end of work in CANCELLING is FAILED with
ERR_CANCELLED (R141). -/
def Dev.endLong (d : Dev) (k : Nat) (error result : Nat) : Dev :=
  let l := d.long k
  let error := if l.st = .cancelling then Config.cancelled else error
  let result := if l.st = .cancelling then 0 else result
  if l.st.terminal then d else
    let d := d.modLong k fun l => { l with st := if error = 0 then .done else .failed, error := BitVec.ofNat 8 error, suspendPending := false }
    let d := if l.quiet then d else d.post l.func l.queue l.cmd l.sqHead (if l.byReset then Config.functionReset else error) flagFinal
      (if l.byReset then 0 else result)
    d.wakeLong k

/-! ### Moves (R178, R179) -/

/-- The pages that relocation of a page gives back: to its pool, or to the host outside every pool (R168). -/
def Dev.freedState (d : Dev) (page : Nat) : PageSt := if d.blk.locked && d.pooled (page / 32) then .free else .opn
/-- The state of a home that is not moving. -/
def Dev.homeState (d : Dev) (page : Nat) : PageSt := if d.blk.locked && d.pooled (page / 32) then .mutable else .opn

/-- Who makes the transfers of a move. -/
def Move.who (m : Move) : Requester := match m.long with
  | some k => .long k
  | none => .command m.uid
/-- A transfer of a move; that of a fault resolution has the slack FAULT (R233). -/
def Move.req (m : Move) (va : Nat) : FixReq := { who := some m.who, pa := 0, n := 0, va := some va, fault := m.resolution }
/-- The die whose engines move a page: the destination's, or that of its source (R231). -/
def Move.mover (m : Move) (p : MovePage) : Nat := m.die.getD (bondedDie (p.src * pageBytes))

/-- The pages of the next chunk of a move. -/
def Move.chunk (m : Move) : List MovePage := (m.pages.drop m.copied).take 32

/-- Sets or clears MOVING in the leaf of a page. -/
def Dev.markMoving (u : Fuses) (d : Dev) (asid va : Nat) (b : Bool) : Dev :=
  match leafAddr u d asid va with
  | some pa => (d.setEntry pa (putBit (d.entryAt pa) 3 b)).dropTlb asid (va / pageBytes) 1
  | none => d

/-- Step 1: every leaf of the range is MOVING, and so are the source pages. -/
def Dev.beginMove (u : Fuses) (d : Dev) (m : Move) : Dev :=
  m.pages.foldl (fun d p => (d.markMoving u m.asid p.va true).setPage p.src .moving) d

def Dev.setMove (d : Dev) (m : Move) : Dev :=
  { d with blk := { d.blk with moves := d.blk.moves.map fun x => if x.uid = m.uid then m else x } }

/-- The pool that a move leads to. -/
def Dev.movePool (d : Dev) (m : Move) : Quad := match m.die with
  | some x => d.bondedPool x
  | none => d.blk.poolBulk

/-- A page of the next chunk gets its destination page, MOVING, and its transfers are asked for, where the pool has a page. One that is at its destination
already is its own destination. -/
def askPage (e : Env) (m : Move) (r : List MovePage × Dev) (p : MovePage) : List MovePage × Dev :=
  if p.dst.isSome then (r.1 ++ [p], r.2)
  else match r.2.takePage (r.2.movePool m) .moving with
    | (none, d) => (r.1 ++ [p], d)
    | (some g, d) =>
      (r.1 ++ [{ p with dst := some g }],
        (d.moved e (m.mover p) (p.src * pageBytes) pageBytes (m.req p.va)).moved e (m.mover p) (g * pageBytes) pageBytes (m.req p.va))

/-- Step 2 of a move begins for its next chunk: the pages that lack a destination get one, as far as the pool has them. -/
def Dev.askChunk (e : Env) (d : Dev) (m : Move) : Dev :=
  let r := m.chunk.foldl (askPage e m) ([], d)
  r.2.setMove { m with pages := m.pages.take m.copied ++ r.1 ++ m.pages.drop (m.copied + 32) }

/-- The next chunk is copied: its pages stand at their destinations. -/
def Dev.copyChunk (d : Dev) (m : Move) : Dev :=
  m.chunk.foldl (fun d p => match p.dst with
    | some g => if g = p.src then d else d.copyPoisoned (p.src * pageBytes) (g * pageBytes) pageBytes
    | none => d) d
def Move.nextChunk (m : Move) : Move := { m with copied := min m.pages.length (m.copied + 32) }

/-- Step 3: every leaf names its destination page, MOVING clear, and MG clear for the bonded tier; the translations are gone on every die. -/
def Dev.switchMove (u : Fuses) (d : Dev) (m : Move) : Dev :=
  m.pages.foldl (fun d p =>
    match p.dst, leafAddr u d m.asid p.va with
    | some g, some pa =>
      let v := putBit (putBits (d.entryAt pa) 16 32 g) 3 false
      (d.setEntry pa (if m.die.isSome then putBit v 2 false else v)).dropTlb m.asid (p.va / pageBytes) 1
    | _, _ => d) d

/-- Step 5: the source pages are given back, and the destination pages are homes. -/
def Dev.finishMove (d : Dev) (m : Move) : Dev :=
  m.pages.foldl (fun d p =>
    if p.dst = some p.src then d.setPage p.src (d.homeState p.src)
    else
      let d := d.setPage p.src (d.freedState p.src)
      match p.dst with
      | some g => d.setPage g .mutable
      | none => d) d

/-- A move that does not come to its switch gives its destination pages back and leaves every home where it was (R179). -/
def Dev.undoMove (u : Fuses) (d : Dev) (m : Move) : Dev :=
  m.pages.foldl (fun d p =>
    let d := (d.markMoving u m.asid p.va false).setPage p.src (d.homeState p.src)
    match p.dst with
    | some g => if g = p.src then d else d.setPage g .free
    | none => d) d

def Dev.dropMove (d : Dev) (uid : Nat) : Dev :=
  { d with blk := { d.blk with moves := d.blk.moves.filter fun x => x.uid ≠ uid } }
def Dev.moveOf (d : Dev) (uid : Nat) : Option Move := d.blk.moves.find? fun m => m.uid = uid

/-- Ends a move before its switch, or completes one that has switched (R179). -/
def Dev.abortMove (u : Fuses) (d : Dev) (m : Move) : Dev :=
  let d := (d.dropMove m.uid).withdraw m.who
  if m.waiting then d else if m.switched then d.finishMove m else d.undoMove u m

/-- Bytes moved: pages already at the destination are not counted (R177). -/
def Move.bytes (m : Move) : Nat := (m.pages.countP fun p => p.dst ≠ some p.src) * pageBytes

/-- An access that began on a source page of the move is still open: a tier transfer of a stream context (R178, step 4). -/
def Dev.readsSource (d : Dev) (m : Move) : Bool :=
  d.cores.any fun c => c.2.engs.any fun e => e.2.ctxs.any fun x => x.2.outst.any fun t => m.pages.any fun p => p.dst ≠ some p.src && p.src = t.pa / pageBytes

/-! ### Versions (R246, R251, R252) -/

def Version.units (v : Version) : Nat := (v.payloadLen + unitBytes - 1) / unitBytes
def verHandle (n : Nat) (v : Version) : Nat := n + v.region * 2 ^ 16 + v.gen % 2 ^ 25 * 2 ^ 39

/-- The entry that an object version handle names (R246). -/
def Dev.verOf (d : Dev) (h : Nat) : Option Nat :=
  let n := bitsAt h 0 14
  let v := d.ver n
  if v.st ≠ .free && bitsAt h 14 2 = 0 && bitsAt h 16 23 = v.region && bitsAt h 39 25 = v.gen % 2 ^ 25 then some n else none

/-- References to a version (R252). -/
def Dev.refs (d : Dev) (n : Nat) : Nat :=
  d.seqs.countP (fun s => s.2.st ≠ .free && s.2.base = n) + d.seqs.countP (fun s => s.2.st ≠ .free && s.2.adapter = some n)
    + d.seqs.countP (fun s => s.2.st ≠ .free && s.2.draft = some n)
    + d.spans.countP (fun s => s.2.st ≠ .free && s.2.entry = n)
    + d.longs.countP (fun l => l.2.used && !l.2.st.terminal && (match l.2.kind with | .image e _ _ => e = n | _ => false))
    + d.blk.resolutions.countP (fun r => match r.kind with | .segment e _ => e = n | _ => false)

/-- The current version of a model: the ACTIVE one of the highest VERSION (R253). -/
def Dev.current (d : Dev) (model : Nat) : Option Nat :=
  (firstBy (fun a b : Nat × Version => b.2.version < a.2.version)
    (d.vers.filter fun x => x.2.st = .active && x.2.modelId = model)).map (·.1)

/-- The place of object byte `b` in the bulk home. -/
def Version.objectByte (v : Version) (b : Nat) : Nat := v.pages.getD (b / pageBytes) 0 * pageBytes + b % pageBytes
/-- The place of payload byte `b`, after the header and manifest (R240). -/
def Version.homeByte (v : Version) (b : Nat) : Nat := v.objectByte (v.headLen + b)

def Version.segLen (v : Version) (i : Nat) : Nat := ((v.segs[i]?).map (·.len)).getD 0

/-- The 4 KiB blocks of which objects are made (R240). -/
def blockBytes : Nat := 4096

/-- The 4 KiB blocks of segment `i` in the bulk home. -/
def Version.segBlocks (v : Version) (i : Nat) : List Nat :=
  (List.range (v.segLen i / blockBytes)).map fun j => v.homeByte (unitBytes * i + blockBytes * j)

/-- The bytes of segment `i` in the bulk home. -/
def Dev.homeSegment (d : Dev) (v : Version) (i : Nat) : List Byte :=
  (v.segBlocks i).flatMap fun pa => Memory.read d.blk.dram pa blockBytes

/-- Writes bytes to the bulk home from object byte `at_` on, a multiple of 4 KiB, in blocks. -/
def Dev.writeHome (v : Version) : Nat → Nat → List Byte → Dev → Dev
  | 0, _, _, d => d
  | n + 1, at_, l, d =>
    let b := l.take blockBytes
    Dev.writeHome v n (at_ + blockBytes) (l.drop blockBytes) ((d.writePa (v.objectByte at_) b).unpoison (v.objectByte at_) b.length)

/-- The first poisoned word of segment `i` in the bulk home. -/
def Dev.poisonedSegment (d : Dev) (v : Version) (i : Nat) : Option Nat :=
  (List.range ((v.segLen i + 63) / 64)).findSome? fun j => d.badIn (v.homeByte (unitBytes * i + 64 * j)) (min 64 (v.segLen i - 64 * j))

/-- The IV of segment `i` (R244). -/
def Version.iv (v : Version) (i : Nat) : List Byte := toBytes 8 v.nonce ++ toBytes 4 i

/-- A segment as the bulk home stores it, its words read without error and its hash right; the error where one fails. -/
def Dev.storedSegment (d : Dev) (v : Version) (i : Nat) : Except Nat (List Byte) :=
  match v.segs[i]? with
  | none => .error Config.signature
  | some s =>
    if (d.poisonedSegment v i).isSome then .error Config.eccUncorrected
    else if sha256 (d.homeSegment v i) = s.hash then .ok (d.homeSegment v i)
    else .error Config.signature

/-- A segment as an image holds it: checked against its hash, or decrypted under its tag; the error where it fails. -/
def Dev.openSegment (d : Dev) (v : Version) (i : Nat) : Except Nat (List Byte) :=
  if !v.encrypted then d.storedSegment v i
  else match v.segs[i]? with
    | none => .error Config.signature
    | some s =>
      if (d.poisonedSegment v i).isSome then .error Config.eccUncorrected
      else match v.key with
        | none => .error Config.decrypt
        | some k =>
          match gcmDecrypt (toBytes 32 k.toNat) (v.iv i) v.aad (d.homeSegment v i) (toBytes 16 s.tag.toNat) with
          | some p => .ok p
          | none => .error Config.decrypt

def Version.imageOn (v : Version) (die : Nat) : Option DieImage := (v.images.find? fun x : Nat × DieImage => x.1 = die).map (·.2)
def DieImage.unit (g : DieImage) (seg : Nat) : Option Nat := (g.pages.find? fun x => x.1 = seg).map (·.2)

/-- The read of segment `i` from its bulk home is asked for, once for all dies (R180, step 1): by the tier-move engines of `die`. -/
def Dev.askSegment (e : Env) (d : Dev) (n die i : Nat) (r : FixReq) : Dev :=
  ((d.ver n).segBlocks i).foldl (fun d pa => d.moved e die pa blockBytes r) d

/-- The image of segment `i` on a die is written in a 2 MiB page of the die, placed as R181 states, with its sealed leaf; none where the
die has no such page. -/
def Dev.writeSegment (e : Env) (d : Dev) (n die i : Nat) (plain : List Byte) (pinned : Bool) (r : FixReq) : Option Dev :=
  match d.takeUnit die i with
  | (none, _) => none
  | (some g, d) =>
    let v := d.ver n
    let d := ((d.moved e die (g * unitBytes) plain.length r).writePa (g * unitBytes) plain).unpoison (g * unitBytes) plain.length
    let img : DieImage := (v.imageOn die).getD { pinned := pinned, pages := [], complete := false, used := 0 }
    let img : DieImage := { img with pages := img.pages.filter (fun x => x.1 ≠ i) ++ [(i, g)] }
    let img := { img with complete := v.segs.length ≤ img.pages.length }
    some ((d.setVer n { v with images := Tab.put die img v.images }).setSealed die (v.region + i) (mkSealed g v.encrypted v.fmask))

/-- Open commands that a die runs. -/
def Dev.runningOn (d : Dev) (die : Nat) : List Nat := (d.opens.filter fun o => o.die = die).map (·.uid)

/-- Takes an image of a version off a die: its sealed leaves clear at once; its pages wait for the commands then running (R182). -/
def Dev.evict (d : Dev) (n die : Nat) (uids : List Nat) : Dev :=
  let v := d.ver n
  match v.imageOn die with
  | none => d
  | some g =>
    let d := (List.range v.units).foldl (fun d i => d.setSealed die (v.region + i) 0#64) d
    let d := d.holdSealed die v.region v.units uids
    d.setVer n { v with images := Tab.erase die v.images, evicted := v.evicted ++ [(die, g.pages.map (·.2), uids)] }

/-- Frees the pages of an image that was never complete or used (R180). -/
def Dev.freeImage (d : Dev) (n die : Nat) (segs : List Nat) : Dev :=
  let v := d.ver n
  match v.imageOn die with
  | none => d
  | some g =>
    let gone := g.pages.filter fun x : Nat × Nat => segs.contains x.1
    let d := gone.foldl (fun d x => (d.setSealed die (v.region + x.1) 0#64).setPages (unitPages x.2) .free) d
    let d := d.dropSealed die v.region v.units
    let left := g.pages.filter fun x => !segs.contains x.1
    d.setVer n { v with images := if left.isEmpty then Tab.erase die v.images else Tab.put die { g with pages := left, complete := false } v.images }

/-- Evicted pages whose commands have all ended become FREE (R182). -/
def Dev.freeEvicted (d : Dev) (n die : Nat) : Dev :=
  let v := d.ver n
  let live (l : List Nat) : Bool := l.any fun uid => (d.openOf uid).isSome
  let gone := v.evicted.filter fun x => x.1 = die && !live x.2.2
  if gone.isEmpty then d else
    let d := gone.foldl (fun d x => x.2.1.foldl (fun d g => d.setPages (unitPages g) .free) d) d
    let d := { d with blk := { d.blk with tlb := d.blk.tlb.filter fun t =>
      !(t.die = die && t.asid = 0 && v.region ≤ t.vpage && t.vpage < v.region + v.units && t.only.any (fun l => !live l)) } }
    d.setVer n { v with evicted := v.evicted.filter fun x => !(x.1 = die && !live x.2.2) }

/-- An entry that is FREE again: its pages freed, its content key erased; GEN grows when the entry is next used (R246, R250, R254). -/
def Dev.freeVersion (d : Dev) (n : Nat) : Dev :=
  let v := d.ver n
  let d := d.setPages v.pages .free
  let d := v.images.foldl (fun d x => x.2.pages.foldl (fun d p => (d.setSealed x.1 (v.region + p.1) 0#64).setPages (unitPages p.2) .free) d) d
  let d := v.evicted.foldl (fun d x => x.2.1.foldl (fun d g => d.setPages (unitPages g) .free) d) d
  let d := (List.range 4).foldl (fun d die => d.dropSealed die v.region v.units) d
  d.setVer n { gen := v.gen + 1 }

/-- The reads of the next segment of an IMAGE are asked for, by the engines of the first die that it goes to. -/
def Dev.askImage (e : Env) (d : Dev) (k : Nat) : Dev :=
  match (d.long k).kind with
  | .image n dies seg => if dies.isEmpty then d else d.askSegment e n (dies.headD 0) seg { who := some (.long k), pa := 0, n := 0 }
  | _ => d

/-- The open move of a long operation. -/
def Dev.longMove (d : Dev) (k : Nat) : Option Move := d.blk.moves.find? fun m => m.long = some k

/-- An open image, load, move or retirement that is cancelled has the effects of R141. A move that a reset finds after its switch is completed, and
reports DONE (R179). -/
def Dev.cancelLong (u : Fuses) (d : Dev) (k error : Nat) (result : Nat := 0) : Dev :=
  let l := d.long k
  match (if l.kind = .move && error = Config.cancelled then (d.longMove k).filter (·.switched) else none) with
  | some m => (d.abortMove u m).endLong k 0 m.bytes
  | none =>
  let d := d.withdraw (.long k)
  let d := match l.kind with
    | .move =>
      match d.longMove k with
      | some m => d.abortMove u m
      | none => d
    | .image n dies _ => dies.foldl (fun (d : Dev) (die : Nat) => d.freeImage n die ((l.written.filter fun x : Nat × Nat => x.1 = die).map fun x : Nat × Nat => x.2)) d
    | .objLoad n _ => d.freeVersion n
    | .objRetire n => d.modVer n fun v : Version => { v with st := if v.st = VerSt.retiring then VerSt.active else v.st }
  d.endLong k error result

/-- Open OBJ_LOADs end with ERR_CANCELLED: a reset of any domain does that (R250). -/
def Dev.endLoads (u : Fuses) (d : Dev) : Dev :=
  (List.range 1024).foldl (fun d k =>
    let l := d.long k
    match l.kind with
    | .objLoad .. => if l.used && !l.st.terminal then d.cancelLong u k Config.cancelled else d
    | _ => d) d

end Sys2Proof.Machine
end

