-- ==== Sys2Proof/Machine/Numerics.lean ====
section
/-!
DEFINITION. Number formats and exact accumulation (R100 to R110): a value is a special or an exact dyadic number, and every operation
computes exactly and rounds once, to nearest even.
-/
namespace Sys2Proof.Machine

/-- A number: NaN, an infinity, or (−1)^neg × m × 2^e exactly, with a sign for zero. -/
inductive Num where
  | nan
  | inf (neg : Bool)
  | fin (neg : Bool) (m : Nat) (e : Int)
deriving DecidableEq, Repr

/-- Which encodings of the top exponent are special: as IEEE 754, only S.1111.111 (E4M3), or none (R100). -/
inductive Special where
  | ieee | e4m3 | none
deriving DecidableEq, Repr

/-- A floating-point format (R100). -/
structure Fmt where
  exp : Nat
  man : Nat
  bias : Nat
  special : Special
deriving DecidableEq, Repr

def fp32 : Fmt := ⟨8, 23, 127, .ieee⟩
def bf16 : Fmt := ⟨8, 7, 127, .ieee⟩
def fp16 : Fmt := ⟨5, 10, 15, .ieee⟩
def e4m3 : Fmt := ⟨4, 3, 7, .e4m3⟩
def e5m2 : Fmt := ⟨5, 2, 15, .ieee⟩
def e2m3 : Fmt := ⟨2, 3, 1, .none⟩
def e3m2 : Fmt := ⟨3, 2, 3, .none⟩
def e2m1 : Fmt := ⟨2, 1, 1, .none⟩

/-- The exponent of the least bit of a subnormal. -/
def Fmt.qmin (f : Fmt) : Int := 1 - (f.bias : Int) - f.man

/-- The largest finite encoding. -/
def Fmt.maxCode (f : Fmt) : Nat :=
  match f.special with
  | .ieee => (2 ^ f.exp - 1) * 2 ^ f.man - 1
  | .e4m3 => 2 ^ (f.exp + f.man) - 2
  | .none => 2 ^ (f.exp + f.man) - 1

/-- The number a code of the format stands for (R100). -/
def Fmt.decode (f : Fmt) (code : Nat) : Num :=
  let neg := bitAt code (f.exp + f.man)
  let x := bitsAt code f.man f.exp
  let m := bitsAt code 0 f.man
  if f.special = .ieee && x = 2 ^ f.exp - 1 then (if m = 0 then .inf neg else .nan)
  else if f.special = .e4m3 && x = 2 ^ f.exp - 1 && m = 2 ^ f.man - 1 then .nan
  else if x = 0 then .fin neg m f.qmin
  else .fin neg (2 ^ f.man + m) (f.qmin + x - 1)

/-- m × 2^(−k) rounded to the nearest integer, ties to even. -/
def shiftRne (m k : Nat) : Nat :=
  let q := m >>> k
  let r := m % 2 ^ k
  if 2 * r > 2 ^ k || (2 * r = 2 ^ k && q % 2 = 1) then q + 1 else q

/-- m × 2^e as an integer, rounded to nearest even where e is negative. -/
def scaleRne (m : Nat) (e : Int) : Nat := if 0 ≤ e then m <<< e.toNat else shiftRne m (-e).toNat

/-- The magnitude code of m × 2^e rounded to nearest even, which may pass the largest finite code. -/
def Fmt.roundCode (f : Fmt) (m : Nat) (e : Int) : Nat :=
  if m = 0 then 0
  else
    let q := max (m.log2 + e - f.man) f.qmin
    (q - f.qmin).toNat * 2 ^ f.man + scaleRne m (e - q)

/-- The sign bit of a format. -/
def Fmt.signBit (f : Fmt) (neg : Bool) : Nat := bit neg * 2 ^ (f.exp + f.man)

/-- The FP32 code of a number, rounded once; NaN is canonical (R102). -/
def roundFp32 : Num → Nat
  | .nan => 0x7FC00000
  | .inf neg => fp32.signBit neg + 0x7F800000
  | .fin neg m e => fp32.signBit neg + min (fp32.roundCode m e) 0x7F800000

def fp32Num (w : Nat) : Num := fp32.decode w

def Num.neg : Num → Num
  | .nan => .nan
  | .inf n => .inf !n
  | .fin n m e => .fin (!n) m e

/-- m × 2^e as a signed multiple of 2^q, for q at most e. -/
def signedAt (neg : Bool) (m : Nat) (e q : Int) : Int :=
  let v : Int := (m <<< (e - q).toNat : Nat)
  if neg then -v else v

/-- The exact sum (IEEE 754: an exact zero sum is +0 unless both terms are negative). -/
def Num.add : Num → Num → Num
  | .nan, _ | _, .nan => .nan
  | .inf a, .inf b => if a = b then .inf a else .nan
  | .inf a, .fin .. => .inf a
  | .fin .., .inf b => .inf b
  | .fin n m e, .fin n' m' e' =>
    let q := min e e'
    let s := signedAt n m e q + signedAt n' m' e' q
    if s = 0 then .fin (n && n') 0 q else .fin (s < 0) s.natAbs q

/-- The exact product. -/
def Num.mul : Num → Num → Num
  | .nan, _ | _, .nan => .nan
  | .inf a, .inf b => .inf (a != b)
  | .inf a, .fin n m _ => if m = 0 then .nan else .inf (a != n)
  | .fin n m _, .inf b => if m = 0 then .nan else .inf (n != b)
  | .fin n m e, .fin n' m' e' => .fin (n != n') (m * m') (e + e')

/-- FP32 addition and fused multiply-add, rounded once (R102). -/
def fpAdd (a b : Nat) : Nat := roundFp32 ((fp32Num a).add (fp32Num b))
def fpMul (a b : Nat) : Nat := roundFp32 ((fp32Num a).mul (fp32Num b))
def fpFma (a b c : Nat) : Nat := roundFp32 (((fp32Num a).mul (fp32Num b)).add (fp32Num c))

def fpIsNan (a : Nat) : Bool := fp32Num a = .nan

/-- The order of FP32 codes as signed integers, −0 below +0. -/
def fpKey (a : Nat) : Int := if bitAt a 31 then -((bitsAt a 0 31 : Nat) : Int) - 1 else (bitsAt a 0 31 : Nat)

/-- MAX and MIN (R102): the canonical NaN if either source is NaN, −0 below +0. -/
def fpMax (a b : Nat) : Nat := if fpIsNan a || fpIsNan b then 0x7FC00000 else if fpKey a < fpKey b then b else a
def fpMin (a b : Nat) : Nat := if fpIsNan a || fpIsNan b then 0x7FC00000 else if fpKey b < fpKey a then b else a

/-- IEEE 754 order of two numbers that are not NaN, −0 equal to +0. -/
def fpLt (a b : Nat) : Bool := fpKey a < fpKey b && !(bitsAt a 0 31 = 0 && bitsAt b 0 31 = 0)
def fpEq (a b : Nat) : Bool := a = b || (bitsAt a 0 31 = 0 && bitsAt b 0 31 = 0)

/-- CMP by SUB (R81, R82): an unordered comparison holds only for NE. -/
def fpCmp (sub a b : Nat) : Bool :=
  if fpIsNan a || fpIsNan b then sub = 1
  else match sub with
    | 0 => fpEq a b
    | 1 => !fpEq a b
    | 2 => fpLt a b
    | 3 => fpLt a b || fpEq a b
    | 4 => fpLt b a
    | _ => fpLt b a || fpEq a b

/-! ### Conversions (R103) -/

/-- Narrowing to a floating-point format, with the NaN code and what overflow or infinity gives without SAT. -/
def narrowFp (f : Fmt) (nanCode : Nat) (ovf : Bool → Nat) (sat : Bool) (x : Num) : Nat :=
  let top (neg : Bool) : Nat := if sat then f.signBit neg + f.maxCode else ovf neg
  match x with
  | .nan => nanCode
  | .inf n => top n
  | .fin n m e => let c := f.roundCode m e; if f.maxCode < c then top n else f.signBit n + c

/-- The IEEE infinity of a format. -/
def Fmt.infCode (f : Fmt) (neg : Bool) : Nat := f.signBit neg + (2 ^ f.exp - 1) * 2 ^ f.man

/-- Narrowing to an `n`-bit integer: round to nearest even, out of range as R103 states. -/
def narrowInt (n : Nat) (sat : Bool) (x : Num) : Nat :=
  let least := 2 ^ (n - 1)
  let ovf (neg : Bool) : Nat := if sat && !neg then least - 1 else least
  match x with
  | .nan => if sat then 0 else least
  | .inf neg => ovf neg
  | .fin neg m e =>
    let v := scaleRne m e
    if neg then (if v ≤ least then (2 ^ n - v) % 2 ^ n else ovf true) else if v < least then v else ovf false

/-- CVT (R81, R103): SUB 0 BF16, 1 FP16, 2 E4M3, 3 E5M2, 4 INT8, 5 INT32. -/
def cvt (sub : Nat) (dir sat : Bool) (a : Nat) : Nat :=
  if !dir then
    let x := fp32Num a
    match sub with
    | 0 => narrowFp bf16 0x7FC0 bf16.infCode sat x
    | 1 => narrowFp fp16 0x7E00 fp16.infCode sat x
    | 2 => narrowFp e4m3 0x7F (fun n => e4m3.signBit n + 0x7F) sat x
    | 3 => narrowFp e5m2 0x7E e5m2.infCode sat x
    | 4 => narrowInt 8 sat x
    | _ => narrowInt 32 sat x
  else
    match sub with
    | 0 => roundFp32 (bf16.decode (a % 2 ^ 16))
    | 1 => roundFp32 (fp16.decode (a % 2 ^ 16))
    | 2 => roundFp32 (e4m3.decode (a % 2 ^ 8))
    | 3 => roundFp32 (e5m2.decode (a % 2 ^ 8))
    | 4 => let i := signedOf 8 a; roundFp32 (.fin (i < 0) i.natAbs 0)
    | _ => let i := signedOf 32 a; roundFp32 (.fin (i < 0) i.natAbs 0)

/-! ### Dot products (R104 to R107) -/

/-- Element width, pair count and register count of FMT (R32, R33, R100). -/
def dotWidth (fmt : Nat) : Nat := if fmt < 2 then 16 else if fmt = 6 || fmt = 7 then 6 else if fmt = 8 || fmt = 11 then 4 else 8
def dotPairs (fmt : Nat) : Nat := if fmt < 2 then 8 else if fmt = 6 || fmt = 7 || fmt = 8 || fmt = 11 then 32 else 16
def dotBytes (fmt : Nat) : Nat := if fmt = 6 || fmt = 7 then 24 else 16
/-- The formats with block scales. -/
def dotMx (fmt : Nat) : Bool := 4 ≤ fmt && fmt ≤ 9

/-- The value of an element code (R100). -/
def element (fmt code : Nat) : Num :=
  match fmt with
  | 0 => bf16.decode code
  | 1 => fp16.decode code
  | 2 | 4 => e4m3.decode code
  | 3 | 5 => e5m2.decode code
  | 6 => e2m3.decode code
  | 7 => e3m2.decode code
  | 8 => e2m1.decode code
  | 9 => let i := signedOf 8 code; .fin (i < 0) i.natAbs (-6)
  | 10 => let i := signedOf 8 code; .fin (i < 0) i.natAbs 0
  | _ => let i := signedOf 4 code; .fin (i < 0) i.natAbs 0

/-- The pairs of one stage: element e of each operand, by its width. -/
def dotElems (fmt stationary operand : Nat) : List (Num × Num) :=
  (List.range (dotPairs fmt)).map fun e =>
    (element fmt (bitsAt stationary (dotWidth fmt * e) (dotWidth fmt)), element fmt (bitsAt operand (dotWidth fmt * e) (dotWidth fmt)))

/-- A BF16 or FP16 stage (R104): products rounded, a fixed tree of additions, the chain added last. -/
def dotNarrow (pairs : List (Num × Num)) (accIn : Nat) : Nat :=
  let p := pairs.map fun x => roundFp32 (x.1.mul x.2)
  let g (i : Nat) : Nat := p.getD i 0
  let q (i : Nat) : Nat := fpAdd (g (2 * i)) (g (2 * i + 1))
  fpAdd accIn (fpAdd (fpAdd (q 0) (q 1)) (fpAdd (q 2) (q 3)))

/-- An open block (R105, R107): the exact sum in units of 2^-32, whether an element was NaN or an infinity met zero, and the signs of
infinite products. -/
structure Block where
  sum : Int := 0
  nan : Bool := false
  posInf : Bool := false
  negInf : Bool := false
deriving DecidableEq, Repr

/-- Adds one pair's product to the block; a finite product is exact in units of 2^-32. -/
def Block.add (b : Block) (x : Num × Num) : Block :=
  match x.1.mul x.2 with
  | .nan => { b with nan := true }
  | .inf neg => if neg then { b with negInf := true } else { b with posInf := true }
  | .fin neg m e => { b with sum := b.sum + signedAt neg m e (-32) }

/-- The close of a block (R106, R107): chain value `a`, exponent `k` of the two scales, `scaleNan` where a scale byte is 0xFF. -/
def Block.close (b : Block) (a : Nat) (k : Int) (scaleNan : Bool) : Nat :=
  let x := fp32Num a
  if x = .nan || b.nan || scaleNan then 0x7FC00000
  else if b.posInf && b.negInf || b.posInf && x = .inf true || b.negInf && x = .inf false then 0x7FC00000
  else if b.posInf then 0x7F800000
  else if b.negInf then 0xFF800000
  else match x with
    | .fin .. =>
      match x.add (.fin (b.sum < 0) b.sum.natAbs (k - 32)) with
      | .fin n m e => if m = 0 then 0 else roundFp32 (.fin n m e)
      | y => roundFp32 y
    | y => roundFp32 y

/-! ### The special-function stage (R110) -/

/-- A subnormal flushed to zero of the same sign. -/
def flush (a : Nat) : Nat := if bitsAt a 23 8 = 0 then bitsAt a 31 1 * 2 ^ 31 else a

/-- Whether |a|, finite, is above num / 10000. -/
def fpAbove (a num : Nat) : Bool :=
  match fp32Num a with
  | .fin _ m e => if 0 ≤ e then num < (m <<< e.toNat) * 10000 else num <<< (-e).toNat < m * 10000
  | _ => true

/-- The correctly rounded magnitude code of num / den. -/
def roundRatio (num den : Nat) (e : Int) : Nat :=
  let k := den.log2 + 30
  let q := (num <<< k) / den
  fp32.roundCode (2 * q + bit (q * den ≠ num <<< k)) (e - k - 1)

/-- The largest integer whose square is at most `n`, bit by bit from `2 ^ k`. -/
def isqrt (n : Nat) : Nat → Nat → Nat
  | 0, r => r
  | k + 1, r => isqrt n k (if (r + 2 ^ k) ^ 2 ≤ n then r + 2 ^ k else r)

/-- ln 2 in units of 2^-256. -/
def ln2 : Nat := 0xb17217f7d1cf79abc9e3b39803f2f6af40f343267298b62d8a0d175b8baafa2b

/-- e^r for r < 1, both in units of 2^-256: `n` terms of the series after the first `j`, from the inside. -/
def expSeries (r : Nat) : Nat → Nat → Nat
  | 0, _ => 2 ^ 256
  | n + 1, j => 2 ^ 256 + r * expSeries r n (j + 1) / 2 ^ 256 / j

/-- e^x for x in units of 2^-256, as a mantissa in the same units and a power of 2. -/
def expParts (x : Nat) : Nat × Nat := (expSeries (x % ln2) 50 1, x / ln2)

/-- e^-x in units of 2^-256, and the power of 2 that divides it. -/
def expInverse (x : Nat) : Nat × Nat :=
  let (m, k) := expParts x
  (2 ^ 512 / m, k)

/-- |a|, finite and at most 128, in units of 2^-256. -/
def unitsOf (m : Nat) (e : Int) : Nat := min (scaleRne m (e + 256)) (2 ^ 263)

/-- The correctly rounded result on a finite source that no special value of R110 fixes. -/
def sfExact (op a : Nat) : Nat :=
  match fp32Num a with
  | .fin n m e =>
    let x := unitsOf m e
    let (inv, k) := expInverse x
    let small := inv / 2 ^ k
    match op with
    | 0x10 =>
      if m = 0 then 0x3F800000
      else if n then roundRatio inv 1 (-256 - k) else let (y, j) := expParts x; min (roundRatio (2 * y + 1) 1 (j - 257)) 0x7F800000
    | 0x11 => fp32.signBit n + min (roundRatio (2 ^ 60) m (-e - 60)) 0x7F800000
    | 0x12 =>
      let m' := if e % 2 = 0 then m else 2 * m
      let e' := if e % 2 = 0 then e else e - 1
      roundRatio (2 ^ 170) (isqrt (m' * 2 ^ 240) 140 0) (-(e' / 2) - 50)
    | 0x13 => if n then roundRatio inv (2 ^ 256 + small) (-k) else roundRatio (2 ^ 256) (2 ^ 256 + small) 0
    | 0x14 =>
      let (inv2, k2) := expInverse (min (2 * x) (2 ^ 263))
      let y := inv2 / 2 ^ k2
      fp32.signBit n + (if m = 0 then 0 else roundRatio (2 ^ 256 - y) (2 ^ 256 + y) 0)
    | _ =>
      fp32.signBit n + (if m = 0 then 0
        else if n then (if 2 ^ 263 ≤ x then 0 else roundRatio (m * inv) (2 ^ 256 + small) (e - k))
        else if 2 ^ 263 ≤ x then a % 2 ^ 31 else roundRatio (m * 2 ^ 256) (2 ^ 256 + small) e)
  | _ => a

/-- Places of two FP32 codes on the number line, in units in the last place, and their distance. DESIGN CHOICE: infinity stands one place past the largest
finite number, so that a result within its limit of that may be infinite; R110 does not say (log entry 66). -/
def ulpPlace (a : Nat) : Int := if bitAt a 31 then -((bitsAt a 0 31 : Nat) : Int) else (bitsAt a 0 31 : Nat)
def ulpsApart (a b : Nat) : Nat := (ulpPlace a - ulpPlace b).natAbs

/-- Two finite codes lie at most 2^-22 apart. -/
def near22 (a b : Nat) : Bool :=
  match fp32Num a, fp32Num b with
  | .fin n m e, .fin n' m' e' => (signedAt n m e (-149) - signedAt n' m' e' (-149)).natAbs ≤ 2 ^ 127
  | _, _ => false

/-- A result within the error of R110 of the correctly rounded one; which of them is left open, a function of the source (log entry 7). -/
def sfOpen (op a : Nat) : Nat :=
  let c := sfExact op a
  let r := (Config.specialFn op (BitVec.ofNat 32 a)).toNat
  let most := if op = 0x11 || op = 0x12 then 1 else if op = 0x15 then 3 else 2
  if !fpIsNan r && (ulpsApart r c ≤ most || (op = 0x14 && near22 r c)) then r else c

/-- A special function of one lane (R82, R110). -/
def specialLane (op a : Nat) : Nat :=
  if fpIsNan a then 0x7FC00000
  else
    let a := flush a
    let neg := bitAt a 31
    let zero := bitsAt a 0 31 = 0
    let inf := bitsAt a 0 31 = 0x7F800000
    let r := match op with
      | 0x10 =>
        if inf then (if neg then 0 else 0x7F800000)
        else if !neg && fpAbove a 887228 then 0x7F800000
        else if neg && fpAbove a 873365 then 0
        else sfOpen op a
      | 0x11 =>
        if zero then fp32.infCode neg else if inf then fp32.signBit neg else sfOpen op a
      | 0x12 =>
        if zero then fp32.infCode neg else if neg then 0x7FC00000 else if inf then 0 else sfOpen op a
      | 0x13 => if inf then (if neg then 0 else 0x3F800000) else sfOpen op a
      | 0x14 => if inf then fp32.signBit neg + 0x3F800000 else sfOpen op a
      | _ => if inf then (if neg then 0x80000000 else 0x7F800000) else sfOpen op a
    flush r

/-- One level of the reduction tree of R34, its results flushed. -/
def treeLevel (f : Nat → Nat → Nat) : List Nat → List Nat
  | a :: b :: t => flush (f a b) :: treeLevel f t
  | l => l

/-- REDSUM and REDMAX over 16 lanes, subnormals flushed at every node (R34, R110). -/
def reduceLanes (f : Nat → Nat → Nat) (l : List Nat) : Nat :=
  ((treeLevel f (treeLevel f (treeLevel f (treeLevel f (l.map flush))))).headD 0)

end Sys2Proof.Machine
end

