-- ==== Sys2Proof/Machine/TrestleOps.lean ====
section
/-!
DEFINITION. The trestle units (R201 to R224): descriptors, contexts, accesses with walks, freezes and shadows, what each operation reads and
writes for one element, and the run of a TRESTLE up to its end, a walk or a freeze. The prefix table (R212 to R214) and the score lists
(R215 to R217) are here too.
-/
namespace Sys2Proof.Machine

/-! ### The command and its descriptor (R117, R205) -/

def trStacks (c : Command) : Nat := bitsAt (cmdField c 17 1) 0 5
def trDesc (c : Command) : Nat := cmdField c 24 8
def trAsid (c : Command) : Nat := cmdField c 32 2
def trDst (c : Command) : Nat := cmdField c 40 8
def trCount (c : Command) : Nat := cmdField c 48 4
def trOp (c : Command) : Nat := cmdField c 16 1

/-- The fields of R205. -/
structure TrDesc where
  a : Nat
  b : Nat
  c : Nat
  d : Nat
  elem : Nat
  p0 : Nat
  p1 : Nat
  sub : Nat
  fmtIn : Nat
  fmtOut : Nat
  flags : Nat
  alpha : Nat
  beta : Nat
  parent0 : Nat

def trDescOf (l : List Byte) : TrDesc :=
  { a := bytesAt l 0 8, b := bytesAt l 8 8, c := bytesAt l 16 8, d := bytesAt l 24 8, elem := bytesAt l 32 4, p0 := bytesAt l 36 4,
    p1 := bytesAt l 40 4, sub := bytesAt l 44 1, fmtIn := bytesAt l 45 1, fmtOut := bytesAt l 46 1, flags := bytesAt l 47 1,
    alpha := bytesAt l 48 4, beta := bytesAt l 52 4, parent0 := bytesAt l 56 8 }

def TrDesc.sat (x : TrDesc) : Bool := bitAt x.flags 0
def TrDesc.order (x : TrDesc) : Bool := bitAt x.flags 1
def TrDesc.packed (x : TrDesc) : Bool := bitAt x.flags 2

/-- Inner elements of a tile by FMT (R185); FMT 0 and 1 are the output formats. -/
def tileK (fmt : Nat) : Nat := if fmt < 2 then 32 else if fmt = 8 || fmt = 11 then 128 else 64
/-- Output tiles of an input tile (R211). -/
def tileR (fmtIn fmtOut : Nat) : Nat := tileK fmtIn / tileK fmtOut

/-- The ranges that a command is known at its start to write: base and length (R206, R207). -/
def trRanges (c : Command) (x : TrDesc) : List (Nat × Nat) :=
  let n := trCount c
  match trOp c with
  | 1 => [(trDst c, x.elem * n)]
  | 4 => [(trDst c, 4096 * n * tileR x.fmtIn x.fmtOut), (x.c, 256 * n * tileR x.fmtIn x.fmtOut)]
  | 5 | 6 => [(trDst c, 64 * n)]
  | 7 => [(trDst c, 8 * n)]
  | 9 => [(trDst c, 4096 * n)]
  | _ => []

/-! ### Contexts (R203, R206, R223) -/

/-- The units of the stacks of a command on a die: 32 × stack + unit. -/
def trUnits (die stackSet : Nat) : List Nat :=
  (bitList 5 stackSet).flatMap fun s => (List.range 32).map fun u => 32 * (5 * die + s) + u

def Dev.busyOf (d : Dev) (u : Nat) : Nat := (Tab.get 0#16 u d.btr.busy).toNat
/-- The lowest free context of a unit, of 0 to 14. -/
def Dev.freeCtx (d : Dev) (u : Nat) : Option Nat := (List.range 15).find? fun k => !bitAt (d.busyOf u) k
/-- Some unit of the stacks has no free context (R290). -/
def Dev.trestleFull (d : Dev) (die stackSet : Nat) : Bool := (trUnits die stackSet).any fun u => (d.freeCtx u).isNone

/-- Takes one context on every unit. -/
def Dev.takeCtxs (d : Dev) (units : List Nat) : Tab Nat × Dev :=
  units.foldl (fun (r : Tab Nat × Dev) u =>
    match r.2.freeCtx u with
    | none => r
    | some k => (r.1 ++ [(u, k)],
        { r.2 with btr := { r.2.btr with busy := Tab.put u (BitVec.ofNat 16 (putBit (r.2.busyOf u) k true)) r.2.btr.busy } })) ([], d)

def Dev.freeCtxs (d : Dev) (ctxs : Tab Nat) : Dev :=
  ctxs.foldl (fun d x => { d with btr := { d.btr with
    busy := Tab.set 0#16 x.1 (BitVec.ofNat 16 (putBit (d.busyOf x.1) x.2 false)) d.btr.busy
    frozen := Tab.set 0#16 x.1 (BitVec.ofNat 16 (putBit (Tab.get 0#16 x.1 d.btr.frozen).toNat x.2 false)) d.btr.frozen } }) d

def Dev.runOf (d : Dev) (uid : Nat) : Option TrestleRun := d.btr.runs.find? fun r => r.uid = uid
def Dev.setRun (d : Dev) (r : TrestleRun) : Dev :=
  { d with btr := { d.btr with runs := d.btr.runs.map fun x => if x.uid = r.uid then r else x } }
/-- Ends a run: its contexts are free again, its transfers that are not granted are withdrawn, and its last translations are gone. -/
def Dev.dropRun (d : Dev) (uid : Nat) : Dev :=
  match d.runOf uid with
  | none => d
  | some r =>
    let d := ((d.freeCtxs r.ctxs).withdraw (.command uid)).dropLast (· = .command uid)
    { d with btr := { d.btr with runs := d.btr.runs.filter fun x => x.uid ≠ uid } }

/-! ### Accesses -/

/-- What keeps an access from being made. -/
inductive TrStop where
  | walk (va : Nat) (write : Bool)
  | freeze (k : ResKind) (va : Nat) (write : Bool)
  | fault (i : FaultInfo)
  | busy
  | quota
  /-- A failed stack: the access waits for the tier deadline. -/
  | dead (pa va : Nat)

/-- The element that a run works on, for its fault records. -/
structure TrCtx where
  env : Env
  run : TrestleRun
  func : Nat
  /-- Ranges that the command is known at its start to write. -/
  ranges : List (Nat × Nat)

def TrCtx.access (t : TrCtx) (write : Bool) : Access :=
  { die := t.run.die, asid := t.run.asid, func := t.func, write := write, engine := true, pubKey := none }

/-- Whose transfers and last translation those of a command are. -/
def TrCtx.who (t : TrCtx) : Requester := .command t.run.uid

/-- A fault of the unit that serves a physical address; of the first unit where there is none. -/
def TrCtx.info (t : TrCtx) (error resource value limit va : Nat) (pa : Option Nat) : FaultInfo :=
  let unit := (pa.map fun p => 32 * stackOf p + portOf p).getD ((t.run.ctxs.head?.map (·.1)).getD 0)
  { error := error, resource := resource, engine := 0xF0, ctx := some (Tab.get 0 unit t.run.ctxs), value := value, limit := limit,
    addr := some va, firing := some t.run.k }

/-- The home of a VA, through the translations that the die and the command keep: a bonded page of the die, on a stack of STACKS that is in service. -/
def TrCtx.home (t : TrCtx) (d : Dev) (va : Nat) (write : Bool) : Except TrStop Nat :=
  match d.lookup t.env.fuse t.who t.run.uid (t.access write) va with
  | none => .error (.walk va write)
  | some (.fault x r v l) => .error (.fault (t.info x r v l va none))
  | some (.resolve k) => .error (.freeze k va write)
  | some (.pa p) =>
    if !(t.env.fuse.isBonded p && bondedDie p = t.run.die) then .error (.fault (t.info Config.pageFault 0x30 va p va none))
    else if !bitAt t.run.stackSet (stackOf p - 5 * t.run.die) then .error (.fault (t.info Config.overflow 0x31 va t.run.stackSet va (some p)))
    else if d.unitDead t.env.fuse p then .error (.dead p va)
    else .ok p

/-- An access of a run, with the physical ranges that it has read. -/
abbrev TrRead := StateT (List (Nat × Nat)) (Except TrStop)

/-- Where a piece of a page is read, byte by byte: what the command has written stands in its shadow (R207). -/
def TrCtx.places (t : TrCtx) (d : Dev) (va home n : Nat) : List Nat :=
  match (if va < sealedBase then d.shadowOf t.run.uid t.run.asid (va / pageBytes) else none) with
  | some s => s.places home (va % pageBytes) n
  | none => (List.range n).map (home + ·)

/-- The 64-byte transfers that serve some bytes. -/
def lineReads (l : List Nat) : List (Nat × Nat) := (l.map fun p => (p / 64 * 64, 64)).eraseDups

/-- Reads `n` bytes at VA, page by page. -/
def TrCtx.readFuel (t : TrCtx) (d : Dev) (va n : Nat) : Nat → TrRead (List Byte)
  | 0 => pure []
  | fuel + 1 =>
    if n = 0 then pure [] else do
      let home ← (t.home d va false : Except TrStop Nat)
      let k := pieceLen va n
      let l := t.places d va home k
      match l.findSome? fun p => d.badIn p 1 with
      | some w => throw (.fault (t.info Config.eccUncorrected 0x29 w 0 va (some home)))
      | none =>
        modify (· ++ lineReads l)
        let rest ← TrCtx.readFuel t d (va + k) (n - k) fuel
        return (l.map fun p => Memory.get d.blk.dram p) ++ rest

def TrCtx.read (t : TrCtx) (d : Dev) (va n : Nat) : TrRead (List Byte) := t.readFuel d va n (pieces n)

/-- Every page of a range may be written. -/
def TrCtx.mayWrite (t : TrCtx) (d : Dev) (va n : Nat) : Nat → Except TrStop Unit
  | 0 => .ok ()
  | fuel + 1 =>
    if n = 0 then .ok () else do
      let _ ← t.home d va true
      let k := pieceLen va n
      TrCtx.mayWrite t d (va + k) (n - k) fuel

/-- The transfers of a run in [pa, pa + n) enter the slot of the context it holds on the unit of their port (R202, R231); where it holds none, on a stack
that STACKS does not name, the spec gives them no requester (log entry 77). -/
def Dev.askTrestle (e : Env) (d : Dev) (r : TrestleRun) (pa n va : Nat) : Dev :=
  d.askRange e { who := some (.command r.uid), pa := pa, n := 0, va := some va } n fun _ p => (r.ctxs.find? fun x => x.1 = p).map (·.2)

/-- What a run has read at a port stands in the 4 KiB of staging of its context there, from its start: which data are staged, and where, is left open
(R201, log entry 77). -/
def Dev.stage (e : Env) (d : Dev) (r : TrestleRun) (pa n : Nat) : Dev :=
  let u := e.fuse.arbiterOf pa
  { d with btr := { d.btr with staging := Memory.write d.btr.staging (65536 * u + 4096 * Tab.get 0 u r.ctxs) ((Memory.read d.blk.dram pa n).take 4096) } }

/-- Writes bytes at VA into the shadows of their pages, which are taken at the first write (R207). -/
def TrCtx.write (t : TrCtx) (d : Dev) (va : Nat) (l : List Byte) : Nat → Except TrStop Dev
  | 0 => .ok d
  | fuel + 1 =>
    if l.isEmpty then .ok d else do
      let home ← t.home d va true
      let k := pieceLen va l.length
      match d.takeShadow t.env t.run.uid t.run.die t.run.asid (va / pageBytes) (home / pageBytes) (t.ranges.any fun r => holdsPage r (va / pageBytes)) with
      | .busy => .error .busy
      | .quota => .error .quota
      | .page g d =>
        let pa := g * pageBytes + va % pageBytes
        let d := (((d.writePa pa (l.take k)).unpoison pa k).shadowWrote t.run.uid t.run.asid (va / pageBytes) (va % pageBytes) k).askTrestle t.env t.run pa k va
        TrCtx.write t d (va + k) (l.drop k) fuel

/-- What one element does: the bytes it writes, what it adds to the result, and the free values it takes. -/
structure TrElem where
  writes : List (Nat × List Byte) := []
  result : Nat
  hits : Nat := 0
  misses : Nat := 0
  scored : Nat := 0

/-! ### Values (R209, R210) -/

/-- Bytes of a value of FMT_IN, and its value. -/
def valBytes (fmt : Nat) : Nat := if fmt = 0 then 4 else 2
def valNum (fmt v : Nat) : Num := if fmt = 0 then fp32Num v else bf16.decode v

/-- A sum rounded once to the element format. -/
def valRound (fmt : Nat) (sat : Bool) (x : Num) : Nat := if fmt = 0 then roundFp32 x else narrowFp bf16 0x7FC0 bf16.infCode sat x

/-- Two values combined by SUB of REDUCE: add, MAX, MIN (R102). -/
def valOp (fmt sub a b : Nat) : Nat :=
  let wide (v : Nat) : Nat := if fmt = 0 then v else roundFp32 (bf16.decode v)
  let narrow (v : Nat) : Nat := if fmt = 0 then v else narrowFp bf16 0x7FC0 bf16.infCode false (fp32Num v)
  match sub with
  | 0 => valRound fmt false ((valNum fmt a).add (valNum fmt b))
  | 1 => narrow (fpMax (wide a) (wide b))
  | _ => narrow (fpMin (wide a) (wide b))

/-- AXPBY and SET of one value (R210). -/
def valUpdate (x : TrDesc) (dst src : Nat) : Nat :=
  let wide (v : Nat) : Nat := if x.fmtIn = 0 then v else roundFp32 (bf16.decode v)
  let narrow (v : Nat) : Nat := if x.fmtIn = 0 then v else cvt 0 false x.sat v
  if x.sub = 1 then narrow x.alpha else narrow (fpFma x.alpha (wide dst) (fpMul x.beta (wide src)))

/-- Combines two byte strings value by value. -/
def zipVals (n : Nat) (f : Nat → Nat → Nat) (a b : List Byte) : List Byte :=
  (List.range (a.length / n)).flatMap fun i => toBytes n (f (bytesAt a (n * i) n) (bytesAt b (n * i) n))

/-- A list in an order that a free value picks. -/
def permute {α : Type} : Nat → Nat → List α → List α
  | 0, _, l => l
  | fuel + 1, x, l =>
    if l.isEmpty then [] else
      let i := x % l.length
      (l[i]?).toList ++ permute fuel (x / l.length) (l.eraseIdx i)

/-! ### DECODE (R211) -/

/-- Element e of row r of a tile as a number of FMT_IN. -/
def tileElem (fmt : Nat) (rowBytes : List Byte) (e : Nat) : Nat := bitsAt (ofBytes rowBytes) (dotWidth fmt * e) (dotWidth fmt)

/-- An element times its scale, narrowed to BF16 or FP16. -/
def scaled (fmtIn fmtOut : Nat) (sat : Bool) (code scale : Nat) : Nat :=
  let v := element fmtIn code
  let x := if fmtIn = 2 || fmtIn = 3 then v
    else if dotMx fmtIn then (if scale = 0xFF then .nan else match v with
      | .fin n m e => .fin n m (e + scale - 127)
      | y => y)
    else v.mul (fp32Num scale)
  if fmtOut = 0 then narrowFp bf16 0x7FC0 bf16.infCode sat x else narrowFp fp16 0x7E00 fp16.infCode sat x

/-- A number as an E4M3 code that represents it exactly. -/
def exactE4m3 (x : Num) : Nat := narrowFp e4m3 0x7F (fun n => e4m3.signBit n + 0x7E) true x

/-- Rows of an input tile: 64 bytes each, absent ones none. -/
def tileRows (packed : Bool) (mask : Nat) (payload : List Byte) : List (Option (List Byte)) :=
  (List.range 64).map fun r =>
    if !packed then some ((payload.drop (64 * r)).take 64)
    else if bitAt mask r then some ((payload.drop (64 * popCount r mask)).take 64) else none

/-- Output tile j of an input tile: payload and sidecar. -/
def decodeTile (x : TrDesc) (rows : List (Option (List Byte))) (side : List Byte) (j : Nat) : List Byte × List Byte :=
  let kOut := tileK x.fmtOut
  let blocks := tileK x.fmtIn / 32
  let pay := rows.zipIdx.flatMap fun rr =>
    let cells := (List.range kOut).flatMap fun i =>
      let e := kOut * j + i
      let code := match rr.1 with
        | some b => tileElem x.fmtIn b e
        | none => 0
      let scale := if dotMx x.fmtIn then bytesAt side (blocks * rr.2 + e / 32) 1 else bytesAt side 0 4
      if x.fmtOut = 4 then toBytes 1 (exactE4m3 (element x.fmtIn code)) else toBytes 2 (scaled x.fmtIn x.fmtOut x.sat code scale)
    cells ++ List.replicate (64 - cells.length) 0#8
  let sc := if x.fmtOut = 4 then
      (List.range 128).map (fun i => BitVec.ofNat 8 (bytesAt side (blocks * (i / 2) + 2 * j + i % 2) 1)) ++ List.replicate 128 0#8
    else List.replicate 256 0#8
  (pay, sc)

/-! ### Prefix tables (R212 to R214) -/

/-- An entry of 512 bytes matches hash, parent and tokens. -/
def pfxValid (e : List Byte) : Bool := bitAt (bytesAt e 32 1) 0
def pfxSame (e : List Byte) (hash parent : Nat) (toks : List Byte) : Bool :=
  pfxValid e && bytesAt e 0 8 = hash && bytesAt e 8 8 = parent && (e.drop 64).take 256 = toks
def pfxHash (e : List Byte) (hash : Nat) : Bool := pfxValid e && bytesAt e 0 8 = hash

/-- The eight entries of a bucket. -/
def pfxEntries (bucket : List Byte) : List (List Byte) := (List.range 8).map fun i => (bucket.drop (512 * i)).take 512

/-- The bytes of a new entry. -/
def pfxEntry (hash parent kv stamp : Nat) (toks : List Byte) : List Byte :=
  toBytes 8 hash ++ toBytes 8 parent ++ toBytes 8 kv ++ toBytes 8 stamp ++ [1#8] ++ List.replicate 31 0#8 ++ toks
    ++ List.replicate 192 0#8

/-- What an insert does to a bucket: the slot it writes, or none, and what it adds to inserted, collisions, replaced. -/
def pfxInsertAt (es : List (List Byte)) (hash parent : Nat) (toks : List Byte) : Option Nat × Nat :=
  if es.any fun e => pfxSame e hash parent toks then (none, 0)
  else if es.any fun e => pfxHash e hash then (none, 2 ^ 16)
  else match es.findIdx? fun e => !pfxValid e with
    | some i => (some i, 1)
    | none =>
      match firstBy (fun x y => bytesAt x.1 24 8 < bytesAt y.1 24 8) es.zipIdx with
      | some y => (some y.2, 1 + 2 ^ 32)
      | none => (none, 0)

/-- The KV address of the entry that matches, if one does. -/
def pfxFind (es : List (List Byte)) (hash parent : Nat) (toks : List Byte) : Option Nat :=
  (es.find? fun e => pfxSame e hash parent toks).map fun e => bytesAt e 16 8

/-! ### SCORE (R215 to R217) -/

/-- The 128 products of a query and a summary in units of 2^-18, or none where an element is NaN. -/
def scoreOf (q s : List Byte) : Option Int :=
  (q.zip s).foldl (fun a x =>
    match a, e4m3.decode x.1.toNat, e4m3.decode x.2.toNat with
    | some v, .fin n m e, .fin n' m' e' => some (v + signedAt (n != n') (m * m') (e + e') (-18))
    | _, _, _ => none) (some 0)

/-- One score ranks before another: a number before none, the greater before the less, the lower index on a tie. -/
def scoreLt (a b : Nat × Option Int) : Bool :=
  match a.2, b.2 with
  | some x, some y => y < x || (x = y && a.1 < b.1)
  | some _, none => true
  | none, some _ => false
  | none, none => a.1 < b.1

/-- Inserts a block into a list kept in rank order, at most `k` long. -/
def scoreInsert (k : Nat) (x : Nat × Option Int) : List (Nat × Option Int) → List (Nat × Option Int)
  | [] => [x].take k
  | y :: t => if scoreLt x y then (x :: y :: t).take k else y :: scoreInsert (k - 1) x t

/-- The chosen blocks in ascending index. -/
def scoreChoose (n k first last : Nat) (scores : List (Option Int)) : List Nat :=
  let keep (i : Nat) : Bool := i < first || n ≤ i + last
  let best := ((scores.zipIdx.map fun x => (x.2, x.1)).filter fun x => !keep x.1).foldl (fun l x => scoreInsert k x l) []
  (List.range n).filter fun i => keep i || best.any fun x => x.1 = i

/-- The 4 KiB list of a query. -/
def scoreList (chosen : List Nat) (handles : List Byte) : List Byte :=
  (chosen.flatMap fun i => (handles.drop (8 * i)).take 8 ++ toBytes 4 i ++ toBytes 4 0)
    ++ (List.replicate (256 - chosen.length) ([0#8, 0#8, 0#8, 0#8, 0#8, 0#8, 0#8, 0#8] ++ toBytes 4 0xFFFFFFFF ++ toBytes 4 0)).flatten

/-! ### One element of each operation -/

/-- Index k of the index list, within the limit. -/
def TrCtx.index (t : TrCtx) (d : Dev) (x : TrDesc) : TrRead Nat := do
  let b ← t.read d (x.b + 4 * t.run.k) 4
  let i := ofBytes b
  if x.p0 ≤ i then throw (.fault (t.info Config.overflow 0x32 i x.p0 (x.b + 4 * t.run.k) none)) else return i

/-- Element `t.run.k` of a command: what it writes. `rnd` is the free value that orders a fast reduction; `now` stamps a prefix entry. -/
def TrCtx.elem (t : TrCtx) (d : Dev) (c : Command) (x : TrDesc) (rnd now : Nat) : TrRead TrElem :=
  let k := t.run.k
  let dst := trDst c
  let n := valBytes x.fmtIn
  match trOp c with
  | 1 => do
    let i ← t.index d x
    let l ← t.read d (x.a + 64 * x.p1 * i) x.elem
    return { writes := [(dst + x.elem * k, l)], result := k + 1 }
  | 2 => do
    let i ← t.index d x
    let l ← t.read d (x.a + x.elem * k) x.elem
    return { writes := [(dst + 64 * x.p1 * i, l)], result := k + 1 }
  | 3 => do
    let i ← t.index d x
    let l ← t.read d (x.a + x.elem * k) x.elem
    let old ← t.read d (dst + 64 * x.p1 * i) x.elem
    return { writes := [(dst + 64 * x.p1 * i, zipVals n (valOp x.fmtIn 0) old l)], result := k + 1 }
  | 4 => do
    let mask ← if x.packed then t.read d (x.d + 8 * k) 8 else pure []
    let m := ofBytes mask
    let pay ← t.read d (x.a + 4096 * k) (if x.packed then 64 * popCount 64 m else 4096)
    let side ← t.read d (x.b + 256 * k) 256
    let r := tileR x.fmtIn x.fmtOut
    let rows := tileRows x.packed m pay
    let outs := (List.range r).map fun j => (r * k + j, decodeTile x rows side j)
    return { writes := outs.flatMap fun o => [(dst + 4096 * o.1, o.2.1), (x.c + 256 * o.1, o.2.2)], result := r * (k + 1) }
  | 5 => do
    let old ← t.read d (dst + 64 * k) 64
    let srcs ← (List.range x.p0).mapM fun s => t.read d (x.a + 64 * x.p1 * s + 64 * k) 64
    let srcs := if x.order then permute 64 rnd srcs else srcs
    return { writes := [(dst + 64 * k, srcs.foldl (fun a b => zipVals n (valOp x.fmtIn x.sub) a b) old)], result := k + 1 }
  | 6 => do
    if x.sub = 1 then
      let none := List.replicate 64 0#8
      return { writes := [(dst + 64 * k, zipVals n (valUpdate x) none none)], result := k + 1 }
    else
      let old ← t.read d (dst + 64 * k) 64
      let src ← t.read d (x.a + 64 * k) 64
      return { writes := [(dst + 64 * k, zipVals n (valUpdate x) old src)], result := k + 1 }
  | 7 => do
    let h ← t.read d (x.a + 8 * k) 8
    let par ← if k = 0 then pure (toBytes 8 x.parent0) else t.read d (x.a + 8 * (k - 1)) 8
    let toks ← t.read d (x.b + 256 * k) 256
    let bucket ← t.read d (x.c + 4096 * (ofBytes h % 2 ^ x.p0)) 4096
    match pfxFind (pfxEntries bucket) (ofBytes h) (ofBytes par) toks with
    | some kv =>
      let m := if t.run.result = k then k + 1 else t.run.result
      return { writes := [(dst + 8 * k, toBytes 8 (if t.run.result = k then kv else 0))], result := m, hits := 1 }
    | none => return { writes := [(dst + 8 * k, toBytes 8 0)], result := t.run.result, misses := 1 }
  | 8 => do
    let h ← t.read d (x.a + 8 * k) 8
    let par ← if k = 0 then pure (toBytes 8 x.parent0) else t.read d (x.a + 8 * (k - 1)) 8
    let toks ← t.read d (x.b + 256 * k) 256
    let base := x.c + 4096 * (ofBytes h % 2 ^ x.p0)
    let bucket ← t.read d base 4096
    let es := pfxEntries bucket
    if x.sub = 0 then
      let kv ← t.read d (x.d + 8 * k) 8
      match pfxInsertAt es (ofBytes h) (ofBytes par) toks with
      | (none, r) => return { result := t.run.result + r }
      | (some i, r) =>
        return { writes := [(base + 512 * i, pfxEntry (ofBytes h) (ofBytes par) (ofBytes kv) now toks)], result := t.run.result + r }
    else
      match es.findIdx? fun e => pfxSame e (ofBytes h) (ofBytes par) toks with
      | none => return { result := t.run.result }
      | some i =>
        let f := bytesAt (es.getD i []) 32 1
        return { writes := [(base + 512 * i + 32, toBytes 1 (putBit f 0 false))], result := t.run.result + 1 }
  | _ => do
    let q ← t.read d (x.a + 256 * k) 256
    let nb := bytesAt q 144 4
    let sums ← t.read d (bytesAt q 128 8) (128 * nb)
    let hs ← t.read d (bytesAt q 136 8) (8 * nb)
    let scores := (List.range nb).map fun i => scoreOf (q.take 128) ((sums.drop (128 * i)).take 128)
    let chosen := scoreChoose nb (bytesAt q 148 4) (bytesAt q 152 2) (bytesAt q 154 2) scores
    return { writes := [(dst + 4096 * k, scoreList chosen hs)], result := t.run.result + chosen.length, scored := nb }

/-! ### The run -/

/-- Every page that an element writes may be written, and then the element writes them all. -/
def TrCtx.apply (t : TrCtx) (d : Dev) (ws : List (Nat × List Byte)) : Except TrStop Dev := do
  let _ ← ws.mapM fun w => t.mayWrite d w.1 w.2.length (pieces w.2.length)
  ws.foldlM (fun d w => t.write d w.1 w.2 (pieces w.2.length)) d

/-- How a run goes on: all its elements have finished, or it waits for a walk or a resolution, or it ends. -/
inductive TrEnd where
  | waits
  | stop (x : TrStop)

/-- A run stops at its element: it waits for a walk or for a failed stack, or `x` says what comes of it. -/
def TrCtx.stopped (t : TrCtx) (d : Dev) (x : TrStop) : TrEnd × Dev :=
  match x with
  | .walk va w => (.waits, (d.askWalk t.env (some t.who) (t.access w) va).setRun { t.run with walk := some (va, w) })
  | .dead pa va => (.waits, d.setRun { t.run with stall := some (pa, va, t.env.now) })
  | x => (.stop x, d.setRun t.run)

/-- Runs the elements of a TRESTLE until they have finished or one cannot be served; `fuel` bounds their number. -/
def runElems (e : Env) (o : OpenCmd) : Nat → Dev → TrestleRun → TrEnd × Dev
  | 0, d, r => (.waits, d.setRun r)
  | fuel + 1, d, r =>
    if trCount o.cmd ≤ r.k then (.waits, d.setRun { r with done := true })
    else
      let x := trDescOf r.desc
      let t : TrCtx := { env := e, run := r, func := o.func, ranges := trRanges o.cmd x }
      let (rnd, d') := if trOp o.cmd = 5 && x.order then d.free 512 else (0#512, d)
      match (t.elem d' o.cmd x rnd.toNat e.now).run [] with
      | .error s => t.stopped d s
      | .ok (el, reads) =>
        match t.apply d' el.writes with
        | .error s => t.stopped d' s
        | .ok d =>
          let d := reads.foldl (fun d y => (d.askTrestle e r y.1 y.2 y.1).stage e r y.1 y.2) d
          let d := { d with btr := { d.btr with
            pfxHit := Tab.put r.die (satAdd 32 (Tab.get 0 r.die d.btr.pfxHit) el.hits) d.btr.pfxHit
            pfxMiss := Tab.put r.die (satAdd 32 (Tab.get 0 r.die d.btr.pfxMiss) el.misses) d.btr.pfxMiss
            scored := Tab.put r.die (satAdd 64 (Tab.get 0 r.die d.btr.scored) el.scored) d.btr.scored } }
          runElems e o fuel d { r with k := r.k + 1, result := el.result }

/-- Runs on from where a run stands, its walk or freeze over. -/
def Dev.runTrestle (e : Env) (d : Dev) (o : OpenCmd) (r : TrestleRun) : TrEnd × Dev :=
  runElems e o (trCount o.cmd + 1) d { r with walk := none, frozen := none }

/-! ### Resolutions (R191, R192) -/

/-- A segment is imaged for the die of the fault alone; a page is moved for every die that waits for it (R192). -/
def ResKind.ofDie : ResKind → Bool
  | .segment .. => true
  | _ => false

/-- The resolution of a fault of a die: the one under way for the same page, or a new one. -/
def Dev.resolution (d : Dev) (die : Nat) (k : ResKind) : Nat × Dev :=
  match d.blk.resolutions.find? fun r => (!k.ofDie || r.die = die) && r.kind = k && r.failed.isNone with
  | some r => (r.id, d)
  | none =>
    let id := d.nextUid
    (id, { d with nextUid := id + 1, blk := { d.blk with resolutions := d.blk.resolutions ++ [{ id := id, die := die, kind := k }] } })

/-- The unit whose context shows a freeze at VA: that of the page, where it lies on the die, else the command's first unit. -/
def Dev.frozenUnit (u : Fuses) (d : Dev) (r : TrestleRun) (a : Access) (va : Nat) : Nat :=
  match leafOf u d a va with
  | some leaf =>
    let p := leafPa leaf + va % pageBytes
    if va < sealedBase && u.isBonded p && bondedDie p = r.die && r.ctxs.any (fun x => x.1 = 32 * stackOf p + portOf p) then 32 * stackOf p + portOf p
    else (r.ctxs.head?.map (·.1)).getD 0
  | none => (r.ctxs.head?.map (·.1)).getD 0

/-- Freezes a run on a resolvable fault (R219). -/
def Dev.freezeRun (u : Fuses) (now : Nat) (d : Dev) (uid func : Nat) (k : ResKind) (va : Nat) (write : Bool) : Dev :=
  match d.runOf uid with
  | none => d
  | some r =>
    let (id, d) := d.resolution r.die k
    let unit := d.frozenUnit u r { die := r.die, asid := r.asid, func := func, write := write } va
    let c := Tab.get 0 unit r.ctxs
    let d := { d with btr := { d.btr with
      frozen := Tab.put unit (BitVec.ofNat 16 (putBit (Tab.get 0#16 unit d.btr.frozen).toNat c true)) d.btr.frozen } }
    d.setRun { r with walk := none, frozen := some { va := va, write := write, since := now, resolution := id } }

end Sys2Proof.Machine
end

