-- ==== Sys2Proof/Machine/SeqOps.lean ====
section
/-!
DEFINITION. Sequences and serving steps (R259 to R287): the plan, KV blocks, parking and rejoining, prefix entries, demand images, the fold of a
round, verification, and what the commit of a step does.
-/
namespace Sys2Proof.Machine

/-! ### Accesses of the runtime -/

/-- The runtime on a pier core reads and writes for a function in an address space. -/
def rtAccess (die asid func : Nat) (write : Bool) : Access := { die := die, asid := asid, func := func, write := write, engine := false }

def Dev.rtRead (d : Dev) (u : Fuses) (die asid func va n : Nat) : Except Trans (List Byte) := d.readVa u (rtAccess die asid func false) va n

/-- The runtime walks to each page of a range that it reads: it keeps no translation (R175, R218; log entry 80). -/
def Dev.rtWalk (e : Env) (d : Dev) (die asid func va n : Nat) : Dev :=
  (List.range (if n = 0 then 0 else (va + n - 1) / pageBytes + 1 - va / pageBytes)).foldl (fun d i =>
    d.askWalk e none (rtAccess die asid func false) (if i = 0 then va else (va / pageBytes + i) * pageBytes)) d

/-- Where a write of the runtime to a VA goes: its home, and for a page of an open move also the destination page that has been copied, so that what
is written stands whether the move switches or not: the effect of the wait of R190. -/
def Dev.rtHomes (u : Fuses) (d : Dev) (a : Access) (va : Nat) : Option (List Nat) :=
  match translate u d a va with
  | .pa p => some [p]
  | .resolve (.movingPage asid vpage) =>
    (leafOf u d a va).map fun leaf => (leafPa leaf + va % pageBytes) :: d.blk.moves.flatMap fun m =>
      if m.asid = asid then (m.pages.filter fun p => p.va / pageBytes = vpage && p.dst.isSome).map fun p => p.dst.getD 0 * pageBytes + va % pageBytes else []
  | _ => none

/-- Writes bytes at VA to their home pages; none where a page may not be written. -/
def rtWriteFuel (e : Env) (a : Access) : Nat → Dev → Nat → List Byte → Option Dev
  | 0, d, _, _ => some d
  | fuel + 1, d, va, l =>
    if l.isEmpty then some d else
      match d.rtHomes e.fuse a va with
      | some ps =>
        let k := pieceLen va l.length
        rtWriteFuel e a fuel (ps.foldl (fun d p => (d.writePa p (l.take k)).unpoison p k) (d.askWalk e none a va)) (va + k) (l.drop k)
      | none => none

def Dev.rtWrite (d : Dev) (e : Env) (die asid func va : Nat) (l : List Byte) : Option Dev :=
  rtWriteFuel e (rtAccess die asid func true) (pieces l.length) d va l

/-- The fault record of a page that the runtime could not read for a command. -/
def rtFault (t : Trans) (va : Nat) : FaultInfo :=
  match t with
  | .fault x r v l => { error := x, resource := r, engine := 0xF2, value := v, limit := l, addr := some va }
  | _ => { error := Config.pageFault, resource := 0x20, engine := 0xF2, value := va, addr := some va }

/-! ### The plan (R267) -/

structure Bucket where
  rows : Nat
  cost : Nat
  spans : List Nat
  dspans : List Nat
deriving DecidableEq, Repr

structure Plan where
  base : Nat
  draft : Nat
  blockBytes : Nat
  pfxLog2 : Nat
  pfxTable : Nat
  scratch : Nat
  buckets : List Bucket
deriving DecidableEq, Repr

/-- A bucket record, its fields in range and its reserved bytes 0. -/
def readBucket (draft : Nat) (l : List Byte) : Option Bucket :=
  let n := bytesAt l 8 1
  let m := bytesAt l 9 1
  let hs (at_ k : Nat) : List Nat := (List.range k).map fun i => bytesAt l (at_ + 4 * i) 4
  if 1 ≤ n && n ≤ 6 && m ≤ 6 && (draft ≠ 0 || m = 0) && bytesAt l 10 6 = 0 && bytesAt l 0 4 ≠ 0 && bytesAt l 0 4 % 64 = 0 then
    some { rows := bytesAt l 0 4, cost := bytesAt l 4 4, spans := hs 16 n, dspans := hs 40 m }
  else none

/-- The plan in 64 × 9 bytes: the header and up to eight bucket records, in ascending ROWS. -/
def readPlanBytes (l : List Byte) : Option Plan :=
  let n := bytesAt l 20 1
  let draft := bytesAt l 8 8
  let bb := bytesAt l 16 4
  let bs := ((List.range n).map fun i => (l.drop (64 + 64 * i)).take 64).mapM (readBucket draft)
  match bs with
  | none => none
  | some bs =>
    if 1 ≤ n && n ≤ 8 && bb ≠ 0 && bb % pageBytes = 0 && bytesAt l 21 1 ≤ 24 && bytesAt l 22 2 = 0 && bytesAt l 40 24 = 0
        && (bs.zip (bs.drop 1)).all (fun x => x.1.rows < x.2.rows) then
      some { base := bytesAt l 0 8, draft := draft, blockBytes := bb, pfxLog2 := bytesAt l 21 1, pfxTable := bytesAt l 24 8,
             scratch := bytesAt l 32 8, buckets := bs }
    else none

/-- The plan at an address: an error of the access, no valid plan, or the plan. -/
def Dev.readPlan (d : Dev) (u : Fuses) (die asid func va : Nat) : Except Trans (Option Plan) := do
  let h ← d.rtRead u die asid func va 64
  let b ← d.rtRead u die asid func (va + 64) (64 * min 8 (bytesAt h 20 1))
  return readPlanBytes (h ++ b)

/-- The smallest bucket not smaller than `t` rows (R154). -/
def Plan.bucket (p : Plan) (t : Nat) : Option Bucket := p.buckets.find? fun b => t ≤ b.rows
def Plan.lastRows (p : Plan) : Nat := (p.buckets.getLast?.map (·.rows)).getD 0

/-! ### Blocks (R259, R260) -/

def Seq.target (s : Seq) : Nat := min ((max s.len s.promptLen + 63) / 64 + 4) ((s.maxLen + 63) / 64)
/-- Blocks that hold a stored position. -/
def Seq.filled (s : Seq) : Nat := (s.len + 63) / 64
def Seq.blockPages (s : Seq) : Nat := s.blockBytes / pageBytes
/-- The function that admitted the sequence, in its handle (R261). -/
def seqHandle (n : Nat) (s : Seq) : Nat := n + s.die * 2 ^ 16 + s.gen % 2 ^ 14 * 2 ^ 18

/-- The sequence that a handle names (R261). -/
def Dev.seqOf (d : Dev) (h : Nat) : Option Nat :=
  let n := bitsAt h 0 16
  let s := d.seq n
  if s.st ≠ .free && bitsAt h 16 2 = s.die && bitsAt h 18 14 = s.gen % 2 ^ 14 then some n else none

/-- The address of the level-1 entry of a VA, present or not, where the tables reach down to it. -/
def Dev.leafSlot (u : Fuses) (d : Dev) (asid va : Nat) : Option Nat :=
  let root := d.asidEntry asid
  if asid = 0 || !asidValid root || !u.isBonded (asidRoot root) then none else
    [4, 3, 2].foldl (fun (t : Option Nat) level =>
      match t with
      | none => none
      | some a =>
        let v := d.entryAt (a + 8 * tableIndex va level)
        let next := bitsAt v 8 40 * 256
        if bitAt v 0 && bitsAt v 1 7 = 0 && bitsAt v 48 16 = 0 && u.isBonded next then some next else none) (some (asidRoot root))
      |>.map fun a => a + 8 * tableIndex va 1

/-- Maps a page of a sequence at a VA, writable. -/
def Dev.mapPage (u : Fuses) (d : Dev) (asid va page : Nat) : Dev :=
  match d.leafSlot u asid va with
  | some pa => (d.setEntry pa (3 + page * 2 ^ 16)).dropTlb asid (va / pageBytes) 1
  | none => d

/-- The page now at home at a VA: the leaf's, where it names a MUTABLE page, else the one recorded. -/
def Dev.pageAt (u : Fuses) (d : Dev) (asid va page : Nat) : Nat :=
  match d.leafSlot u asid va with
  | some pa => let v := d.entryAt pa; if bitAt v 0 && d.pageState (leafPa v / pageBytes) = .mutable then leafPa v / pageBytes else page
  | none => page

def Seq.blockVa (s : Seq) (b i : Nat) : Nat := s.kvVa + s.blockBytes * b + pageBytes * i

/-- Takes `n` more blocks for a sequence from the bonded pool of its die, maps them, and adds them to its reserve. -/
def Dev.takeBlocks (u : Fuses) (d : Dev) (k : Nat) : Nat → Dev
  | 0 => d
  | n + 1 =>
    let s := d.seq k
    let b := s.blocks.length
    let (pages, d) := (List.range s.blockPages).foldl (fun (r : List Nat × Dev) i =>
      match r.2.takeSpread s.die (s.blockPages * b + i) .mutable with
      | (some g, d) => (r.1 ++ [g], d.mapPage u s.asid (s.blockVa b i) g)
      | (none, d) => (r.1, d)) ([], d)
    Dev.takeBlocks u (d.modSeq k fun s => { s with blocks := s.blocks ++ [pages] }) k n

/-- Frees the blocks of a sequence from block `keep` on: pages FREE, leaves not present. -/
def Dev.freeBlocks (u : Fuses) (d : Dev) (k keep : Nat) : Dev :=
  let s := d.seq k
  let d := ((s.blocks.zipIdx).drop keep).foldl (fun d x => x.1.zipIdx.foldl (fun d y =>
    let va := s.blockVa x.2 y.2
    let d := d.setPage (d.pageAt u s.asid va y.1) .free
    match d.leafSlot u s.asid va with
    | some pa => (d.setEntry pa 0).dropTlb s.asid (va / pageBytes) 1
    | none => d) d) d
  d.modSeq k fun s => { s with blocks := s.blocks.take keep }

/-- Moves the first `n` blocks of a sequence into pages that `take` finds, with the steps of R178, by the tier-move engines of its die. -/
def Dev.relocate (e : Env) (d : Dev) (k n : Nat) (take : Dev → Nat → Option Nat × Dev) : Dev :=
  let s := d.seq k
  let (blocks, d) := (s.blocks.take n).zipIdx.foldl (fun (r : List (List Nat) × Dev) x =>
    let (pages, d) := x.1.zipIdx.foldl (fun (q : List Nat × Dev) y =>
      let va := s.blockVa x.2 y.2
      let old := q.2.pageAt e.fuse s.asid va y.1
      match take q.2 (s.blockPages * x.2 + y.2) with
      | (some g, d) =>
        (q.1 ++ [g], ((d.moverCopy e s.die (old * pageBytes) (g * pageBytes) pageBytes).mapPage e.fuse s.asid va g).setPage old .free)
      | (none, d) => (q.1 ++ [old], d)) ([], r.2)
    (r.1 ++ [pages], d)) ([], d)
  d.modSeq k fun s => { s with blocks := blocks ++ s.blocks.drop n }

/-! ### Prefix entries (R283 to R285) -/

/-- The SipHash key of a base and an adapter. -/
def pfxKey (d : Dev) (s : Seq) : List Byte :=
  let h (n : Nat) : List Byte := toBytes 32 (d.ver n).manifestHash.toNat
  (sha256Bytes (h s.base ++ (match s.adapter with | some n => h n | none => List.replicate 32 0#8))).take 16

/-- The hashes of the whole blocks of a prompt, given as its bytes. -/
def promptHashes (key : List Byte) : Nat → Nat → List Byte → List Quad
  | 0, _, _ => []
  | n + 1, parent, l =>
    let h := sipHash24 key (toBytes 8 parent ++ l.take 256)
    let h := if h = 0 then 1 else h
    BitVec.ofNat 64 h :: promptHashes key n h (l.drop 256)

def Seq.parentOf (s : Seq) (i : Nat) : Nat := if i = 0 then 0 else ((s.hashes[i - 1]?).map (·.toNat)).getD 0
def Seq.hashOf (s : Seq) (i : Nat) : Nat := ((s.hashes[i]?).map (·.toNat)).getD 0

/-- The place of a bucket of a plan's prefix table. -/
def Plan.bucketVa (p : Plan) (hash : Nat) : Nat := p.pfxTable + 4096 * (hash % 2 ^ p.pfxLog2)

/-- Inserts block `i` of a sequence's prompt into its plan's table (R214, R285). -/
def Dev.pfxInsert (e : Env) (d : Dev) (p : Plan) (s : Seq) (i : Nat) : Dev :=
  let va := p.bucketVa (s.hashOf i)
  match d.rtRead e.fuse s.die s.asid s.func va 4096, d.rtRead e.fuse s.die s.asid s.func (s.tokVa + 256 * i) 256 with
  | .ok bucket, .ok toks =>
    match pfxInsertAt (pfxEntries bucket) (s.hashOf i) (s.parentOf i) toks with
    | (some slot, _) =>
      (d.rtWrite e s.die s.asid s.func (va + 512 * slot) (pfxEntry (s.hashOf i) (s.parentOf i) (s.kvVa + s.blockBytes * i) e.now toks)).getD d
    | (none, _) => d
  | _, _ => d

/-- Removes the entries that name blocks of a sequence (R285). -/
def Dev.pfxRemoveAll (e : Env) (d : Dev) (k : Nat) : Dev :=
  let s := d.seq k
  match d.readPlan e.fuse s.die s.asid s.func s.plan with
  | .ok (some p) =>
    if p.pfxLog2 = 0 then d else
      (List.range s.hashes.length).foldl (fun d i =>
        let va := p.bucketVa (s.hashOf i)
        match d.rtRead e.fuse s.die s.asid s.func va 4096 with
        | .ok bucket =>
          match (pfxEntries bucket).findIdx? fun e => pfxHash e (s.hashOf i) && bytesAt e 16 8 = s.kvVa + s.blockBytes * i with
          | some slot =>
            let f := bytesAt bucket (512 * slot + 32) 1
            (d.rtWrite e s.die s.asid s.func (va + 512 * slot + 32) (toBytes 1 (putBit f 0 false))).getD d
          | none => d
        | .error _ => d) d
  | _ => d

/-! ### States (R262, R266, R273, R274) -/

/-- Releases a sequence: its prefix entries and blocks go, its references are dropped, its entry is FREE (R266). -/
def Dev.retireSeq (e : Env) (d : Dev) (k : Nat) : Dev :=
  let d := (d.pfxRemoveAll e k).freeBlocks e.fuse k 0
  d.setSeq k { gen := (d.seq k).gen + 1 }

/-- Parks a sequence (R273); answers it in place where the bulk pool lacks the pages. -/
def Dev.parkSeq (e : Env) (d : Dev) (k : Nat) : Dev :=
  let d := (d.pfxRemoveAll e k).freeBlocks e.fuse k (d.seq k).filled
  let s := d.seq k
  let inPlace := d.freeBulk < s.filled * s.blockPages
  let d := if inPlace then d else d.relocate e k s.filled fun d _ => d.takePage d.blk.poolBulk .mutable
  d.modSeq k fun s => { s with st := .parked, inPlace := inPlace }

/-- Pages that a joiner needs of its die's bonded pool (R272, R274). -/
def Seq.joinPages (s : Seq) : Nat := (s.target - (if s.inPlace then s.blocks.length else 0)) * s.blockPages

/-- A joiner rejoins: its filled blocks move back, its target is topped up (R274). -/
def Dev.rejoinSeq (e : Env) (d : Dev) (k : Nat) : Dev :=
  let s := d.seq k
  let d := if s.inPlace then d else d.relocate e k s.blocks.length fun d i => d.takeSpread s.die i .mutable
  let d := d.takeBlocks e.fuse k (s.target - s.blocks.length)
  d.modSeq k fun s => { s with st := .ready, inPlace := false }

/-! ### Rows and folds (R275 to R278, R282) -/

/-- The draft length of a DECODE entry (R282). -/
def draftLen (p : Plan) (s : Seq) (draftMax : Nat) : Nat :=
  if p.draft = 0 then 0 else min (min s.ctrl draftMax) (s.maxLen - s.len - 1)

/-- Rows that an entry gives (R275). -/
def StepEntry.rows (x : StepEntry) : Nat := if x.phase = 1 then x.tokens else 1 + x.d

/-- A fold row: entry of the step, position, input token, the position whose sample it takes. -/
structure FoldRow where
  entry : StepEntry
  pos : Nat
  token : Option Word
  draft : Bool
  sample : Option Nat

/-- Entries in fold order: by adapter entry, none first, then by sequence entry. -/
def Dev.foldOrder (d : Dev) (l : List StepEntry) : List StepEntry :=
  let key (x : StepEntry) : Nat := (match (d.seq x.seq).adapter with | none => 0 | some a => a + 1) * 2 ^ 16 + x.seq
  l.foldl (fun acc x => (acc.takeWhile fun y => key y ≤ key x) ++ x :: (acc.dropWhile fun y => key y ≤ key x)) []

/-- The rows of a round: round 0 the main launch, round r ≥ 1 the r-th draft round. -/
def Dev.foldRows (d : Dev) (u : Fuses) (r : StepRun) (func round : Nat) : List FoldRow :=
  (d.foldOrder (r.entries.filter (·.ran))).flatMap fun x =>
    let s := d.seq x.seq
    if round = 0 then
      if x.phase = 1 then
        let toks := match d.rtRead u r.die r.asid func x.tokVa (4 * x.tokens) with
          | .ok l => l
          | .error _ => []
        (List.range x.tokens).map fun j =>
          { entry := x, pos := s.len + j, token := some (BitVec.ofNat 32 (bytesAt toks (4 * j) 4)), draft := false,
            sample := if s.len + j + 1 = s.promptLen then some s.promptLen else none }
      else (List.range (1 + x.d)).map fun j =>
        { entry := x, pos := s.len + j, token := if j = 0 then some s.lastTok else x.drafts[j - 1]?, draft := false, sample := some (s.len + j + 1) }
    else if x.phase = 0 && round ≤ x.d then
      [{ entry := x, pos := s.len + round - 1, token := if round = 1 then some s.lastTok else x.drafts[round - 2]?, draft := true,
         sample := some (s.len + round) }]
    else []

/-- The base of the fold of a round (R276). -/
def Plan.foldVa (p : Plan) (round : Nat) : Nat := if round = 0 then p.scratch else p.scratch + 32 * p.lastRows

/-- The FP32 uniform value of a Philox word (R114). -/
def uniform (x : Nat) : Nat := roundFp32 (.fin false (x / 256) (-24))

/-- DRAW of a row: the draw of R278, or none where no rule gives one (a greedy draft sample, a row that samples nothing). -/
def drawOf (s : Seq) (row : FoldRow) : Option Nat :=
  match row.sample with
  | none => none
  | some q => if row.draft && row.entry.sample = 0 then none
    else some (uniform (philoxDraw s.seed.toNat q 0 (if row.draft then 2 else 0)))

/-- Writes the fold of a round: its rows and the padding rows of its bucket. A field that no rule gives a value takes a free value; TOKEN_OUT is
left to the last span. None where the scratch pages cannot be written. -/
def Dev.writeFold (e : Env) (d : Dev) (r : StepRun) (func : Nat) (p : Plan) (round : Nat) : Option Dev :=
  let rows := d.foldRows e.fuse r func round
  match p.bucket rows.length with
  | none => none
  | some b =>
    let put (d : Dev) (i : Nat) (head : List Byte) : Option Dev :=
      match d.rtWrite e r.die r.asid func (p.foldVa round + 32 * i) head with
      | none => none
      | some d => d.rtWrite e r.die r.asid func (p.foldVa round + 32 * i + 24) (toBytes 8 0)
    let d := rows.zipIdx.foldl (fun (d : Option Dev) x =>
      match d with
      | none => none
      | some d =>
        let s := d.seq x.1.entry.seq
        let (f, d) := d.free 32
        let draw := (drawOf s x.1).getD f.toNat
        let arg := match s.adapter with
          | some a => (d.ver a).region * 512
          | none => 0
        put d x.2 (toBytes 4 x.1.entry.seq ++ toBytes 4 x.1.pos ++ toBytes 4 (x.1.token.getD 0#32).toNat ++ toBytes 4 draw ++ toBytes 4 arg)) (some d)
    (List.range (b.rows - rows.length)).foldl (fun (d : Option Dev) i =>
      match d with
      | none => none
      | some d =>
        let (f, d) := d.free 96
        put d (rows.length + i) (toBytes 4 0xFFFFFFFF ++ toBytes 12 f.toNat ++ toBytes 4 0)) d

/-- What the runtime could not read, and where. -/
abbrev Unread := Trans × Nat

/-- TOKEN_OUT of row `i` of a round. -/
def Dev.tokenOut (u : Fuses) (d : Dev) (r : StepRun) (func : Nat) (p : Plan) (round i : Nat) : Except Unread Word :=
  let va := p.foldVa round + 32 * i + 20
  match d.rtRead u r.die r.asid func va 4 with
  | .ok l => .ok (BitVec.ofNat 32 (ofBytes l))
  | .error t => .error (t, va)

/-- After a draft round: its token joins the drafts of each entry it carried. -/
def Dev.harvestDraft (u : Fuses) (d : Dev) (r : StepRun) (func : Nat) (p : Plan) (round : Nat) : Except Unread StepRun := do
  let rows := (d.foldRows u r func round).zipIdx
  let l ← r.entries.mapM fun x =>
    match rows.find? fun y => y.1.entry.seq = x.seq with
    | some y => (d.tokenOut u r func p round y.2).map fun t => { x with drafts := x.drafts ++ [t] }
    | none => pure x
  return { r with entries := l }

/-- The accepted count of R280: drafts x(LEN+1), …; samples y(LEN+1), …. -/
def acceptCount : List Word → List Word → Nat
  | x :: t, y :: t' => if x = y then 1 + acceptCount t t' else 0
  | _, _ => 0

/-- What an entry that ran emits, given the samples of its rows (R280). -/
def StepEntry.verified (x : StepEntry) (ys : List Word) : StepEntry :=
  if x.phase = 1 then { x with emitted := ys, accepted := 0 }
  else
    let a := acceptCount x.drafts ys
    { x with accepted := a, emitted := ys.take (a + 1) }

/-- Verification (R280): what each entry that ran emits. -/
def Dev.verifyStep (u : Fuses) (d : Dev) (r : StepRun) (func : Nat) (p : Plan) : Except Unread StepRun := do
  let rows := (d.foldRows u r func 0).zipIdx
  let l ← r.entries.mapM fun x =>
    if !x.ran then pure x else
      ((rows.filter fun y => y.1.entry.seq = x.seq && y.1.sample.isSome).mapM fun y => d.tokenOut u r func p 0 y.2).map x.verified
  return { r with computed := true, entries := l }

/-- A PREFILL entry whose token ids the runtime cannot read. -/
def Dev.unreadToks (d : Dev) (u : Fuses) (die asid func : Nat) (l : List StepEntry) : Option Unread :=
  (l.filter fun x => x.ran && x.phase = 1).findSome? fun x =>
    match d.rtRead u die asid func x.tokVa (4 * x.tokens) with
    | .ok _ => none
    | .error t => some (t, x.tokVa)

/-- The launch arguments of a round of a step (R276). -/
def Dev.stepArgs (u : Fuses) (d : Dev) (r : StepRun) (func : Nat) (p : Plan) (round : Nat) : List Word :=
  let base := match r.entries.head? with
    | some x => (d.ver (d.seq x.seq).base).region * 512
    | none => 0
  let va := p.foldVa round
  [BitVec.ofNat 32 (d.foldRows u r func round).length, BitVec.ofNat 32 base, BitVec.ofNat 32 va, BitVec.ofNat 32 (va / 2 ^ 32), 0#32, 0#32, 0#32, 0#32]

/-! ### The commit of a step (R270, R271, R281, R282, R285) -/

/-- The controller after a committed step: value, zero steps in a row, SPEC_REJECT_ALL. -/
def controller (value d a zeros rejects : Nat) : Nat × Nat × Nat :=
  if d = 0 then
    if value = 0 then (if zeros + 1 = 8 then (1, 0, rejects) else (0, zeros + 1, rejects)) else (value, 0, rejects)
  else if a = 0 then (value / 2, 0, min (2 ^ 32 - 1) (rejects + 1))
  else if a = d then (min 15 (max 1 (2 * value)), 0, rejects)
  else (value, 0, rejects)

/-- A sequence after a committed step of an entry that ran (R281, R282). -/
def Seq.afterStep (s : Seq) (x : StepEntry) : Seq :=
  if x.phase = 1 then
    { s with st := .ready, len := s.len + x.tokens, lastTok := x.emitted.getLast?.getD s.lastTok, lastRows := some x.rows }
  else
    let (v, z, j) := controller s.ctrl x.d x.accepted s.zeroSteps s.rejectAll
    { s with st := .ready, len := s.len + x.accepted + 1, lastTok := x.emitted.getLast?.getD s.lastTok, lastRows := some x.rows,
             ctrl := v, zeroSteps := z, rejectAll := j }

/-- The output record of an entry, given its sequence after the step; one that did not run has LEN as the boundary found it (R270). -/
def stepRecord (x : StepEntry) (s : Seq) : List Byte :=
  let done := x.ran && x.phase = 1 && !x.emitted.isEmpty
  let flags := bit x.parked + 2 * bit x.joined + 4 * bit x.left + 8 * bit done + 16 * bit x.inPlace
  let status := if x.parked || x.refused then Config.quota else Config.ok
  let head := toBytes 1 status ++ toBytes 1 flags
  if !x.ran then head ++ List.replicate 6 0#8 ++ toBytes 4 x.len ++ List.replicate 116 0#8
  else
    head ++ toBytes 1 x.emitted.length ++ toBytes 1 x.accepted ++ toBytes 1 x.d ++ toBytes 1 s.ctrl ++ toBytes 2 0 ++ toBytes 4 s.len
      ++ toBytes 4 s.rejectAll ++ toBytes 16 0 ++ (x.emitted.flatMap fun t => toBytes 4 t.toNat)
      ++ List.replicate (4 * (16 - x.emitted.length) + 32) 0#8

/-- Prompt blocks that a step completed for a sequence: those that end past the old LEN and within the new (R285). -/
def completedBlocks (s : Seq) (old : Nat) : List Nat :=
  (List.range (s.promptLen / 64)).filter fun i => old < 64 * (i + 1) && 64 * (i + 1) ≤ s.len

/-- RESULT of a step (R271). -/
def StepRun.result (r : StepRun) : Nat :=
  let n (p : StepEntry → Bool) : Nat := r.entries.countP p
  n (·.ran) + n (·.parked) * 2 ^ 16 + n (·.refused) * 2 ^ 32 + n (·.left) * 2 ^ 48

/-- The effects of a committed step: its sequences move on and are READY, its records are written, and completed prompt blocks of sharing
sequences enter the prefix table. -/
def Dev.commitStep (e : Env) (d : Dev) (r : StepRun) (func : Nat) : Dev :=
  let d := r.entries.zipIdx.foldl (fun d x =>
    let old := d.seq x.1.seq
    let d := if x.1.ran then d.setSeq x.1.seq (old.afterStep x.1) else d
    (d.rtWrite e r.die r.asid func (r.out + 128 * x.2) (stepRecord x.1 (d.seq x.1.seq))).getD d) d
  match d.readPlan e.fuse r.die r.asid func r.plan with
  | .ok (some p) =>
    if p.pfxLog2 = 0 then d else
      r.entries.foldl (fun d x =>
        let s := d.seq x.seq
        if x.ran && x.phase = 1 && s.pfxShare then
          (completedBlocks s (s.len - x.tokens)).foldl (fun d i => d.pfxInsert e p s i) d
        else d) d
  | _ => d

/-- A step that ends without a commit: its RUNNING sequences are READY again, nothing else changes (R262, R271). -/
def Dev.unrunStep (d : Dev) (r : StepRun) : Dev :=
  r.entries.foldl (fun d x => if x.ran then d.modSeq x.seq fun s => { s with st := .ready } else d) d

def Dev.stepOf (d : Dev) (uid : Nat) : Option StepRun := d.steps.find? fun r => r.uid = uid
def Dev.setStep (d : Dev) (r : StepRun) : Dev := { d with steps := d.steps.map fun x => if x.uid = r.uid then r else x }
def Dev.dropStep (d : Dev) (uid : Nat) : Dev := { d with steps := d.steps.filter fun x => x.uid ≠ uid }

/-- Steps of a die that have started and not ended (R277, R290): those whose STEP_COMMIT is still to come. -/
def Dev.stepsUnder (d : Dev) (die : Nat) : List StepRun := d.steps.filter fun r => r.die = die && !((d.openOf r.uid).any (·.held))

/-- RELEASEs that waited for the end of a step: the sequences they name are released, and their commands complete (R266). -/
def Dev.releaseWaiting (e : Env) (d : Dev) (r : StepRun) : Dev :=
  r.entries.foldl (fun d x =>
    match (d.seq x.seq).leaver with
    | some uid =>
      if (d.seq x.seq).st = .free || !x.ran then d
      else
        let d := d.retireSeq e x.seq
        match d.openOf uid with
        | some o => (d.charge o 0).complete uid Config.ok 0
        | none => d
    | none => d) d

/-! ### Demand images (R256) -/

/-- Demand images of a die that no step under way uses, least recently used first. -/
def Dev.evictable (d : Dev) (die : Nat) (keep : List Nat) : List Nat :=
  let l := d.vers.filter fun x => x.2.kind = 2 && !keep.contains x.1 && (match x.2.imageOn die with | some g => !g.pinned | none => false)
  let used (x : Nat × Version) : Nat := ((x.2.imageOn die).map (·.used)).getD 0
  (l.foldl (fun (acc : List (Nat × Version)) x =>
    (acc.takeWhile fun y => used y ≤ used x) ++ x :: (acc.dropWhile fun y => used y ≤ used x)) []).map (·.1)

/-- Free 2 MiB units of the bonded pool of a die. -/
def Dev.freeUnits (d : Dev) (die : Nat) : Nat :=
  let p := d.bondedPool die
  (List.range (poolSize p)).countP fun i => d.unitFree (poolBase p + i)

/-- Evicts demand images in order until `n` units are free. -/
def evictFor (die n : Nat) (uids : List Nat) : Dev → List Nat → Dev
  | d, [] => d
  | d, v :: t => if n ≤ d.freeUnits die then d else evictFor die n uids ((d.evict v die uids).freeEvicted v die) t

/-- Units that a version lacks on a die. -/
def Dev.missingUnits (d : Dev) (n die : Nat) : Nat :=
  (d.ver n).units - (((d.ver n).imageOn die).map (·.pages.length)).getD 0

/-- Images the segments of a version that a die lacks; the error of the first that fails, with the place of the word that it met. -/
def imageAll (e : Env) (n die : Nat) (pinned : Bool) : List Nat → Dev → Except (Nat × Nat) Dev
  | [], d => .ok d
  | i :: t, d =>
    let v := d.ver n
    if (v.imageOn die).any fun g => (g.unit i).isSome then imageAll e n die pinned t d
    else match d.openSegment v i with
      | .error x => .error (x, (d.poisonedSegment v i).getD 0)
      | .ok plain =>
        match (d.askSegment e n die i { pa := 0, n := 0 }).writeSegment e n die i plain pinned { pa := 0, n := 0 } with
        | none => .error (Config.quota, 0)
        | some d => imageAll e n die pinned t d

/-- The adapters of a step's entries. -/
def Dev.stepAdapters (d : Dev) (l : List StepEntry) : List Nat := (l.filterMap fun x => (d.seq x.seq).adapter).eraseDups

/-- Adapters that steps under way on a die use. -/
def Dev.adaptersInUse (d : Dev) (die : Nat) : List Nat :=
  (d.steps.filter fun r => r.die = die).flatMap fun r => d.stepAdapters r.entries

/-- The adapters of a step get their images on its die, demand images of others evicted in order where the pool lacks pages. DESIGN CHOICE: the pages of
those are FREE at once, so that the step has them; the spec does not say that the step waits for commands that still read them (log entry 79). -/
def Dev.demandImages (e : Env) (d : Dev) (die : Nat) (adapters : List Nat) : Except (Nat × Nat) Dev :=
  adapters.foldl (fun (r : Except (Nat × Nat) Dev) n =>
    match r with
    | .error e => .error e
    | .ok d =>
      let need := d.missingUnits n die
      let d := evictFor die need [] d (d.evictable die (adapters ++ d.adaptersInUse die))
      match imageAll e n die false (List.range (d.ver n).segs.length) d with
      | .error e => .error e
      | .ok d => .ok (d.modVer n fun v => match v.imageOn die with
          | some g => { v with images := Tab.put die { g with used := e.now } v.images }
          | none => v)) (.ok d)

/-- The demand images of a step have room: free units and those of images that may go suffice. -/
def Dev.demandFits (d : Dev) (die : Nat) (adapters : List Nat) : Bool :=
  let need := (adapters.map fun n => d.missingUnits n die).sum
  let spare := ((d.evictable die (adapters ++ d.adaptersInUse die)).map fun n => (((d.ver n).imageOn die).map (·.pages.length)).getD 0).sum
  need ≤ d.freeUnits die + spare

end Sys2Proof.Machine
end

