-- ==== Sys2Proof/Machine/Image.lean ====
section
/-!
DEFINITION. The span image (R70 to R73), its instruction words (R74 to R95) and the checks that SPAN_LOAD makes of its contents (R98,
R146). Reading answers the decoded image, or nothing where a check gives ERR_BAD_FIELD.
-/
namespace Sys2Proof.Machine

/-- Goes on only where `b` holds. -/
def ensure (b : Bool) : Option Unit := if b then some () else none

def wordOp (w : Nat) : Nat := bitsAt w 58 6

/-! ### Compute engines (R75 to R85) -/

/-- The inputs a phase enables for its stages: vector inputs that are not stationary loads, and scalar inputs. -/
structure PhaseIn where
  vin : Nat
  sin : Nat

/-- A source code names an enabled input or a register, chain, IMM or zero (R80). -/
def sourceOk (p : PhaseIn) (vq sq code : Nat) : Bool :=
  if code = 9 then bitAt p.vin vq else if code = 10 then bitAt p.sin sq else code ≤ 12

/-- An ALU or special-function word (R81). -/
def readAlu (p : PhaseIn) (w : Nat) : Option StageOp :=
  let op := wordOp w
  let a := bitsAt w 49 4
  let b := bitsAt w 45 4
  let c := bitsAt w 41 4
  let used := if op = 0x0A then [a, b, c] else if op = 0x0B || op = 0x0C || op = 0x0F then [a, b] else [a]
  let vq := bitsAt w 39 2
  let sq := bitsAt w 38 1
  let rd := bitsAt w 54 3
  let sub := bitsAt w 35 3
  let wreg := bitAt w 57
  let keep := bitAt w 53
  let imm := bitsAt w 0 32
  let takesSub := op = 0x0D || op = 0x0F
  do
    ensure (used.all (sourceOk p vq sq))
    ensure (used.length = 3 || c = 0)
    ensure (2 ≤ used.length || b = 0)
    ensure (used.contains 9 || vq = 0)
    ensure (used.contains 10 || sq = 0)
    ensure (used.contains 11 || imm = 0)
    ensure (wreg || keep || rd = 0)
    ensure (if takesSub then sub ≤ 5 else sub = 0)
    ensure (op = 0x0D || bitsAt w 33 2 = 0)
    ensure (!bitAt w 32)
    return .alu op wreg keep rd a b c vq sq sub (bitAt w 34) (bitAt w 33) (BitVec.ofNat 32 imm)

/-- Element counts that decide where a block closes: pairs of a stage by FMT (R32). -/
def stagePairs (fmt : Nat) : Nat := if fmt < 2 then 8 else if fmt = 6 || fmt = 7 || fmt = 8 || fmt = 11 then 32 else 16

/-- A DOT word (R83, R84), but for its place in a block. -/
def readDot (p : PhaseIn) (fastOrder : Bool) (w : Nat) : Option StageOp :=
  let fmt := bitsAt w 54 4
  let opq := bitsAt w 52 2
  let opoff := bitsAt w 49 3
  let acc := bitsAt w 47 2
  let cq := bitsAt w 45 2
  let close := bitAt w 44
  let ssq := bitsAt w 43 1
  let ssb := bitsAt w 41 2
  let stsb := bitsAt w 39 2
  let fast := bitAt w 38
  let mx := 4 ≤ fmt && fmt ≤ 9
  do
    ensure (fmt ≤ 11 && bitsAt w 0 38 = 0 && acc ≠ 3)
    ensure (bitAt p.vin opq)
    ensure (8 * opoff + (if fmt = 6 || fmt = 7 then 24 else 16) ≤ 64)
    ensure (close || 2 ≤ fmt)
    ensure (acc ≠ 2 || bitAt p.vin cq)
    ensure (acc = 2 || cq = 0)
    ensure (close || (acc = 0 && cq = 0))
    ensure (if close && mx then bitAt p.sin ssq else ssq = 0 && ssb = 0 && stsb = 0)
    ensure (!fast || fastOrder)
    return .dot fmt opq opoff acc cq close ssq ssb stsb fast

/-- A stage word at stage `s` (R74, R82). -/
def readStage (p : PhaseIn) (fastOrder sfEn : Bool) (sfStage s w : Nat) : Option StageOp :=
  let op := wordOp w
  let sf := sfEn && s = sfStage
  if op = 0x08 then (do ensure (bitsAt w 0 58 = 0); return .snop)
  else if op = 0x09 then (do ensure (!sf); readDot p fastOrder w)
  else if 0x0A ≤ op && op ≤ 0x0F then (do ensure (!sf); readAlu p w)
  else if 0x10 ≤ op && op ≤ 0x17 then (do ensure sf; readAlu p w)
  else none

/-- Every block closes after exactly 32 elements, and an open stage is followed by a DOT of the same FMT with ACC_IN 0 (R84). `opened` is
the open format with its count. -/
def blocksOk : Option (Nat × Nat) → List StageOp → Bool
  | none, [] => true
  | some _, [] => false
  | opened, .dot fmt _ _ acc _ close _ _ _ _ :: t =>
    if fmt < 2 then opened.isNone && blocksOk none t
    else
      let before := match opened with
        | some x => x.2
        | none => 0
      let fits := match opened with
        | some x => x.1 = fmt && acc = 0
        | none => true
      fits && (if close then before + stagePairs fmt = 32 && blocksOk none t
        else before + stagePairs fmt < 32 && blocksOk (some (fmt, before + stagePairs fmt)) t)
  | none, _ :: t => blocksOk none t
  | some _, _ :: _ => false

/-- Maps a reader over words with their index. -/
def readAll {α : Type} (f : Nat → Nat → Option α) : Nat → List Nat → Option (List α)
  | _, [] => some []
  | i, w :: t =>
    match f i w with
    | none => none
    | some x =>
      match readAll f (i + 1) t with
      | none => none
      | some l => some (x :: l)

/-- The phase of a FIRE word with its eight stage words (R76). -/
def readPhase (fastOrder sfEn : Bool) (sfStage n w : Nat) (stages : List Nat) : Option Phase :=
  let vin := bitsAt w 32 4
  let sin := bitsAt w 30 2
  let ldst := bitsAt w 24 4
  do
    ensure (wordOp w = 0x02 && bitsAt w 56 2 = n && bitsAt w 0 18 = 0)
    ensure (ldst &&& vin = ldst)
    let ops ← readAll (readStage { vin := vin - ldst, sin := sin } fastOrder sfEn sfStage) 0 stages
    ensure (blocksOk none ops)
    return { first := bitsAt w 36 20, vin := vin, sin := sin, cin := bitsAt w 28 2, ldst := ldst, vout := bitsAt w 22 2,
             sout := bitAt w 21, cout := bitAt w 20, ldn := bitsAt w 18 2, stages := ops }

/-- The FIRST values rise strictly from 0 and stay below F (R76). -/
def firstsOk (f : Nat) : Option Nat → List Phase → Bool
  | _, [] => true
  | none, p :: t => p.first = 0 && firstsOk f (some 0) t
  | some x, p :: t => x < p.first && p.first < f && firstsOk f (some p.first) t

/-- Phase 0 covers firing 0 only. -/
def firstPhaseAlone (f : Nat) : List Phase → Bool
  | [_] => f = 1
  | _ :: p :: _ => p.first = 1
  | [] => false

/-- The rules of steering (R85). -/
def steerOk (steer tap f : Nat) (ps : List Phase) : Bool :=
  steer = 0 ||
  (tap = 0 && firstPhaseAlone f ps && ps.all (fun p => p.stages.headD .snop = .snop)
    && (ps.zipIdx.all fun x => x.1.cin = (if x.2 = 0 then 1 else 0) && x.1.vin = (if steer = 1 then 1 else 3)
      && x.1.vout = (if steer = 1 then 3 else 1)))

/-- `n` chunks of eight words. -/
def chunks8 : Nat → List Nat → List (List Nat)
  | 0, _ => []
  | n + 1, l => l.take 8 :: chunks8 n (l.drop 8)

/-- A CE block and what follows it (R73, R75). -/
def readCe (fastOrder : Bool) : List Nat → Option (EngProg × List Nat)
  | [] => none
  | w :: t =>
    let f := bitsAt w 24 20
    let n := bitsAt w 56 2 + 1
    let sfEn := bitAt w 53
    let sfStage := bitsAt w 50 3
    let steer := bitsAt w 48 2
    let tap := bitsAt w 45 3
    let arg := bitAt w 23
    do
      ensure (wordOp w = 0x01)
      if f = 0 then
        ensure (bitsAt w 0 58 = 0)
        return (.unused, t)
      else
        ensure (steer ≠ 3 && !bitAt w 44 && (!arg || bitsAt w 3 20 = 0))
        ensure (9 * n ≤ t.length)
        let pairs := ((t.take n).zip (chunks8 n (t.drop n)))
        let ps ← (pairs.zipIdx.mapM fun x => readPhase fastOrder sfEn sfStage x.2 x.1.1 x.1.2)
        ensure (firstsOk f none ps)
        ensure (steerOk steer tap f ps)
        return (.ce { ordered := bitAt w 55, serial := bitAt w 54, sfEn := sfEn, sfStage := sfStage, steer := steer, tap := tap,
                      firings := f, iterArg := arg, iters := if arg then bitsAt w 0 3 else bitsAt w 0 23, phases := ps },
                t.drop (9 * n))

/-! ### Memory engines (R86 to R94) -/

/-- The dispenser a VBASE names (R146). -/
def dispOf (vbase : Nat) : Option Nat :=
  if dispWindow ≤ vbase && vbase < dispWindow + 0x400 then some ((vbase - dispWindow) / 64) else none

def CtxProg.tier (c : CtxProg) : Bool := 2 ≤ c.role

/-- The dispenser of a dispense context (R146). -/
def CtxProg.disp (c : CtxProg) : Option Nat := if c.tier then dispOf c.vbase else none

/-- Trip count of level `i`; levels at or above NLEV count 1 (R88). -/
def CtxProg.count (c : CtxProg) (args : List Word) (i : Nat) : Nat :=
  match c.loops[i]? with
  | none => 1
  | some l => if l.carg then ((args.map (·.toNat)).getD (l.count % 8) 0) else l.count

/-- Product of the trip counts of levels [a, b). -/
def CtxProg.product (c : CtxProg) (args : List Word) (a b : Nat) : Nat :=
  ((List.range b).drop a).foldl (fun p i => p * c.count args i) 1

/-- Firings of an iteration, and iterations of a launch (R90). -/
def CtxProg.firings (c : CtxProg) (args : List Word) : Nat := c.product args 0 c.ilev
def CtxProg.iterations (c : CtxProg) (args : List Word) : Nat := c.product args c.ilev 6

/-- A level at or above ILEV takes its count from an argument (R97). -/
def CtxProg.argsAbove (c : CtxProg) : List Nat := ((c.loops.drop c.ilev).filter (·.carg)).map (·.count % 8)

/-- The rules for a dispense context (R146). -/
def CtxProg.dispOk (c : CtxProg) : Bool :=
  c.disp.isNone ||
  (c.role = 2 && c.ilev = 0 && c.gate = 0 && !c.vargEn && c.istride = 0 && c.loops.all (fun l => l.tstride = 0 && !l.carg)
    && c.lstride = 1 && !c.leadEn && c.iterations [] < 2 ^ 32)

/-- A LOOP word of a context (R88). DESIGN CHOICE: with CARG, COUNT[15:3] is ignored; the spec does not call it reserved (log entry 65). -/
def readLoop (ctx role level w : Nat) : Option LoopLevel :=
  let ts := signedOf 16 (bitsAt w 0 16)
  let carg := bitAt w 51
  do
    ensure (wordOp w = 0x22 && bitsAt w 55 3 = ctx && bitsAt w 52 3 = level)
    ensure (carg || 1 ≤ bitsAt w 35 16)
    ensure (2 ≤ role || ts = 0)
    return { carg := carg, count := bitsAt w 35 16, sstride := signedOf 19 (bitsAt w 16 19), tstride := ts }

/-- A bound context: STREAM, LOOP, ADDR and, for tier roles, VBASE (R87 to R89). -/
def readCtx (k : Nat) : List Nat → Option (CtxProg × List Nat)
  | [] => none
  | w :: t =>
    let role := bitsAt w 53 2
    let nlev := bitsAt w 50 3
    let ilev := bitsAt w 47 3
    let tok2 := bitAt w 46
    let out := bitsAt w 45 1
    let laneb := bitsAt w 43 2
    let vin := bitsAt w 42 1
    let gate := bitsAt w 40 2
    let gq := bitsAt w 39 1
    let lstride := bitsAt w 31 8
    let leadEn := bitAt w 30
    let lead := bitsAt w 27 3
    let sout := bitAt w 25
    let inplace := bitAt w 24
    do
      ensure (wordOp w = 0x21 && bitsAt w 55 3 = k && bitsAt w 0 24 = 0)
      ensure (1 ≤ nlev && nlev ≤ 6 && ilev ≤ nlev && gate ≠ 3 && laneb ≠ 3)
      ensure (1 ≤ lstride && (role < 2 || lstride = 1))
      ensure (role = 0 || (!tok2 && out = 0 && !sout))
      ensure (role = 1 || (laneb = 0 && vin = 0))
      ensure (role = 3 || !inplace)
      ensure (!(tok2 && sout) && (out = 0 || !(tok2 || sout)))
      ensure (gate ≠ 0 || gq = 0)
      ensure (leadEn || lead = 0)
      let loops ← readAll (readLoop k role) 0 (t.take nlev)
      ensure (loops.length = nlev)
      match t.drop nlev with
      | [] => none
      | a :: rest =>
        ensure (wordOp a = 0x23 && bitsAt a 55 3 = k && bitsAt a 0 16 = 0)
        let mk (vb : Nat) : CtxProg :=
          { role := role, nlev := nlev, ilev := ilev, tok2 := tok2, out := out, laneb := laneb, vin := vin, gate := gate, gq := gq,
            lstride := lstride, leadEn := leadEn, lead := lead, sig := bitAt w 26, sout := sout, inplace := inplace, loops := loops,
            sbase := bitsAt a 38 17, istride := bitsAt a 20 18, vargEn := bitAt a 19, varg := bitsAt a 16 3, vbase := vb }
        if role < 2 then return (mk 0, rest)
        else match rest with
          | [] => none
          | v :: rest =>
            ensure (wordOp v = 0x24 && bitsAt v 55 3 = k && bitsAt v 52 3 = 0 && bitsAt v 0 6 = 0)
            ensure (mk (bitsAt v 6 46 * 64)).dispOk
            return (mk (bitsAt v 6 46 * 64), rest)

/-- The bound contexts of a mask in ascending order. -/
def readCtxs : List Nat → List Nat → Option (List (Nat × CtxProg) × List Nat)
  | [], ws => some ([], ws)
  | k :: ks, ws =>
    match readCtx k ws with
    | none => none
    | some (c, ws) =>
      match readCtxs ks ws with
      | none => none
      | some (l, ws) => some ((k, c) :: l, ws)

def MeProg.ctx? (p : MeProg) (k : Nat) : Option CtxProg := (p.ctxs.find? fun x => x.1 = k).map (·.2)

/-- Leaders are bound and distinct, with equal iterations where both are fixed; one SIG at most (R94, R97, R98). -/
def leadersOk (cs : List (Nat × CtxProg)) : Bool :=
  cs.all (fun x => !x.2.leadEn || (x.2.lead ≠ x.1 && match (cs.find? fun y => y.1 = x.2.lead) with
    | none => false
    | some y => !x.2.argsAbove.isEmpty || !y.2.argsAbove.isEmpty || x.2.iterations [] = y.2.iterations []))
  && cs.countP (·.2.sig) ≤ 1

/-- An ME block and what follows it (R73, R86). -/
def readMe : List Nat → Option (EngProg × List Nat)
  | [] => none
  | w :: t =>
    let steer := bitsAt w 55 2
    let mask := bitsAt w 47 8
    let window := bitsAt w 26 13
    let sf := bitsAt w 6 20
    do
      ensure (wordOp w = 0x20 && steer ≠ 3 && bitsAt w 0 6 = 0)
      if mask = 0 && steer = 0 then
        ensure (bitsAt w 0 58 = 0)
        return (.unused, t)
      else
        ensure (window ≤ 6144 && (if steer = 0 then sf = 0 else 1 ≤ sf && mask = 0))
        let (cs, rest) ← readCtxs (bitList 8 mask) t
        ensure (leadersOk cs)
        return (.me { ordered := bitAt w 57, steer := steer, budget := bitsAt w 39 8, window := window, sfirings := sf, ctxs := cs }, rest)

/-! ### Routes (R95) -/

def netOf (n : Nat) : Net := if n = 0 then .scalar else if n = 1 then .vector else .control
def netCode : Net → Nat
  | .scalar => 0
  | .vector => 1
  | .control => 2

/-- Input ports and output ports of an engine on a network (R39). -/
def inPorts (eng net : Nat) : Nat := if net = 1 && eng < 4 then 4 else 2
def outPorts (net : Nat) : Nat := if net = 1 then 2 else 1

/-- A destination field of ROUTE. -/
def readDst (net v : Nat) : Option VEnd :=
  if bitsAt v 5 7 = 0x7F then (do ensure (net = 1); return .handoff (bitsAt v 0 5))
  else do
    ensure (bitsAt v 0 2 < inPorts (bitsAt v 2 3) net)
    return .port (bitsAt v 5 7) (bitsAt v 2 3) (bitsAt v 0 2)

/-- A ROUTE word in the section of core `core`. -/
def readRoute (core w : Nat) : Option VRoute :=
  let net := bitsAt w 56 2
  let n := bitsAt w 48 2 + 1
  do
    ensure (wordOp w = 0x30 && net ≠ 3)
    ensure ((List.range 4).all fun k => k < n || bitsAt w (12 * k) 12 = 0)
    let dsts ← (List.range n).mapM fun k => readDst net (bitsAt w (12 * k) 12)
    if bitAt w 55 then
      ensure (net = 1)
      ensure (match dsts with
        | .port c _ _ :: _ => c = core
        | _ => false)
      return { net := net, src := .handoff (bitsAt w 50 5), dsts := dsts }
    else
      ensure (!bitAt w 50 && bitsAt w 51 1 < outPorts net)
      return { net := net, src := .port core (bitsAt w 52 3) (bitsAt w 51 1), dsts := dsts }

/-! ### The image -/

/-- A core section, decoded. -/
structure ImgCore where
  idx : Nat
  progs : List EngProg
  routes : List VRoute
deriving DecidableEq, Repr

/-- A span image, decoded: handoff slots with their direction (true: receive). -/
structure Img where
  part : Nat
  igzon : Nat
  clusters : Nat
  cores : List ImgCore
  hands : List (Nat × Bool)
deriving DecidableEq, Repr

def readEngines (fastOrder : Bool) : Nat → List Nat → Option (List EngProg × List Nat)
  | 0, ws => some ([], ws)
  | n + 1, ws =>
    match (if 4 < n + 1 then readCe fastOrder ws else readMe ws) with
    | none => none
    | some (p, ws) =>
      match readEngines fastOrder n ws with
      | none => none
      | some (l, ws) => some (p :: l, ws)

/-- A core section of exactly the words its entry gives (R73). -/
def readSection (fastOrder : Bool) (idx : Nat) (ws : List Nat) : Option ImgCore := do
  let (progs, rest) ← readEngines fastOrder 8 ws
  ensure (rest.length ≤ 48)
  let routes ← rest.mapM (readRoute idx)
  return { idx := idx, progs := progs, routes := routes }

def Img.prog (i : Img) (core eng : Nat) : EngProg :=
  match i.cores.find? fun c => c.idx = core with
  | some c => c.progs.getD eng .unused
  | none => .unused

def Img.routes (i : Img) : List VRoute := i.cores.flatMap (·.routes)

/-- An end of a route exists: a port of a used engine of a core of the span, or a handoff slot of the right direction. -/
def Img.endOk (i : Img) (recv : Bool) : VEnd → Bool
  | .port c e _ => i.prog c e ≠ .unused
  | .handoff s => i.hands.contains (s, recv)

/-- No end listed twice. -/
def noTwice (l : List (Nat × VEnd)) : Bool := l.Nodup

/-- An output port of an engine sources a route. -/
def Img.leaves (i : Img) (core eng net port : Nat) : Bool :=
  i.routes.any fun r => r.net = net && r.src = .port core eng port

/-- An engine from which no route leaves (R96). -/
def Img.isSink (i : Img) (core eng : Nat) : Bool :=
  !(i.routes.any fun r => match r.src with
    | .port c e _ => c = core && e = eng
    | .handoff _ => false)

/-- The output ports an engine's program writes all have a route (R79, R98). -/
def Img.outputsOk (i : Img) (core eng : Nat) : EngProg → Bool
  | .unused => true
  | .ce p => p.phases.all fun x =>
      (bitList 2 x.vout).all (i.leaves core eng 1) && (!x.sout || i.leaves core eng 0 0) && (!x.cout || i.leaves core eng 2 0)
  | .me p => p.ctxs.all fun x =>
      (x.2.role ≠ 0 || (if x.2.tok2 then i.leaves core eng 1 0 && i.leaves core eng 1 1
        else if x.2.sout then i.leaves core eng 0 0 else i.leaves core eng 1 x.2.out))
      && (!x.2.sig || i.leaves core eng 2 0)

/-- A CE that is a sink has an iteration count; a steering ME is no sink (R85, R98). -/
def Img.sinkOk (i : Img) (core eng : Nat) : EngProg → Bool
  | .unused => true
  | .ce p => !i.isSink core eng || p.iterArg || p.iters ≠ 0
  | .me p => p.steer = 0 || !i.isSink core eng

/-- The checks that need the whole image (R98). DESIGN CHOICE: two routes into one handoff send slot are refused as a queue fed twice, though an endpoint
has no queue (R48; log entry 64). -/
def Img.ok (i : Img) : Bool :=
  i.cores.all (fun c => c.progs.zipIdx.all fun x => i.outputsOk c.idx x.2 x.1 && i.sinkOk c.idx x.2 x.1)
  && i.routes.all (fun r => i.endOk true r.src && r.dsts.all (i.endOk false))
  && noTwice (i.routes.map fun r => (r.net, r.src))
  && noTwice (i.routes.flatMap fun r => r.dsts.map fun x => (r.net, x))

/-- The 64-bit words of a part of the image. -/
def wordsAt (l : List Byte) (at_ : Nat) : Nat → List Nat
  | 0 => []
  | n + 1 => bytesAt l at_ 8 :: wordsAt l (at_ + 8) n

/-- Strictly rising. -/
def rising : List Nat → Bool
  | a :: b :: t => a < b && rising (b :: t)
  | _ => true

/-- The core sections stand in the order of the core table, each after the end of the one before, from `at_` on (R70, R98; log entry 31). -/
def sectionsOk : Nat → List Nat → Bool
  | _, [] => true
  | at_, w :: t => at_ ≤ bitsAt w 32 32 && sectionsOk (bitsAt w 32 32 + 8 * bitsAt w 16 16) t

/-- Reads and checks the payload of a span image of a part (R70 to R73, R98). DESIGN CHOICE: a handoff table that names a SLOT twice is refused, as an
inconsistent table; R98 names no such refusal (log entry 63). -/
def readImage (part payloadLen : Nat) (l : List Byte) : Option Img :=
  let clusters := bytesAt l 9 1
  let n := bytesAt l 10 2
  let h := bytesAt l 12 2
  let table := bytesAt l 16 8
  let len := bytesAt l 24 8
  let fast := bitAt (bytesAt l 7 1) 0
  let entries := wordsAt l table n
  let hands := wordsAt l (table + 8 * n) h
  let bodyAt := table + 8 * n + 8 * h
  do
    ensure (bytesAt l 0 4 = 0x4E50534B && bytesAt l 4 2 = 1 && bytesAt l 7 1 < 2 && bytesAt l 8 1 = part)
    ensure (1 ≤ clusters && clusters ≤ 4 && 1 ≤ n && n ≤ 120 && h ≤ 32)
    ensure (bytesAt l 14 2 = 0 && bytesAt l 32 32 = 0)
    ensure (64 ≤ table && table % 8 = 0 && bodyAt ≤ len)
    ensure (payloadLen = (len + 4095) / 4096 * 4096 && (l.drop len).all (· = 0#8))
    ensure (rising (entries.map fun w => bitsAt w 0 7))
    ensure (hands.all (fun w => bitsAt w 6 58 = 0) && (hands.map fun w => bitsAt w 0 5).Nodup)
    ensure (entries.all fun w => bitsAt w 0 7 < 30 * clusters && bitsAt w 7 9 = 0 && bitsAt w 32 32 % 8 = 0
      && bitsAt w 32 32 + 8 * bitsAt w 16 16 ≤ len)
    ensure (sectionsOk bodyAt entries)
    let cores ← entries.mapM fun w => readSection fast (bitsAt w 0 7) (wordsAt l (bitsAt w 32 32) (bitsAt w 16 16))
    let i : Img := { part := part, igzon := bytesAt l 6 1, clusters := clusters, cores := cores,
                     hands := hands.map fun w => (bitsAt w 0 5, bitAt w 5) }
    ensure i.ok
    return i

end Sys2Proof.Machine
end

