-- ==== Sys2Proof/Machine/SpanOps.lean ====
section
/-!
DEFINITION. Shared operations on spans: the flush and the release of a span's cores (R55, R131), handoff pairs (R62, R125), dispensers
(R149, R150), the placement of routes on truss links (R40, R43), and the release of a launch's sources (R129).
-/
namespace Sys2Proof.Machine

/-- Span slot key as die and slot. -/
def slotRef (k : Nat) : Nat × Nat := (k / 64, k % 64)

/-! ### Engines and cores -/

/-- STATE of an engine (R67). -/
def stIdle : BitVec 3 := 0#3
def stLoaded : BitVec 3 := 1#3
def stRunning : BitVec 3 := 2#3
def stDraining : BitVec 3 := 3#3
def stDrained : BitVec 3 := 4#3
def stFault : BitVec 3 := 5#3

/-- An engine with its queues, output buffers, iterations and contexts empty; program, stage registers and counters stay. -/
def Eng.empty (x : Eng) (st : BitVec 3) : Eng :=
  { x with st := st, queues := [], outs := [], base := 0, iters := [], ctxs := [], limit := 0, keyOut := false, keyIn := false }

/-- The eight engines of a core, each through `f`. -/
def Core.mapEngs (c : Core) (f : Eng → Eng) : Core :=
  { c with engs := (List.range 8).map fun e => (e, f (Tab.get {} e c.engs)) }

def Core.nextEpoch (c : Core) : Core := { c with epoch := c.epoch + 1#4 }

/-- A core that holds no span any more: DRAINED, its queues empty. -/
def Core.drained (c : Core) : Core := { c.mapEngs (·.empty stDrained) with span := none }

/-- A core that has been reset: IDLE, its registers at their reset values; the epoch stays (R55, R344). -/
def Core.idled (c : Core) : Core := { epoch := c.epoch }

/-- The same of a core whose span stays loaded and waits for its reload (R338). -/
def Core.wiped (c : Core) : Core := { epoch := c.epoch, span := c.span }

def Dev.onCores (d : Dev) (l : List CoreRef) (f : Core → Core) : Dev := l.foldl (fun d r => d.modCore r.cl r.phys f) d

/-- The clusters of span `k` have been at work until now (R360). -/
def Dev.markIdle (d : Dev) (now k : Nat) : Dev :=
  (d.span k).cores.foldl (fun d r => d.setSleep r.cl { d.sleep r.cl with idleSince := now }) d

/-- A stream context of one of some cores. -/
def streamOn (p : Nat → Nat → Bool) : Requester → Bool
  | .stream cl ph _ _ => p cl ph
  | _ => false

/-- The transfers of stream contexts are gone: their own slots at the arbiters are free again, their waits for a dynamic slot and their walks end, and
they keep no translation (R232, R236). -/
def Dev.freeStreams (d : Dev) (p : Nat → Nat → Bool) : Dev :=
  let d := (d.withdrawBy (streamOn p)).dropLast (streamOn p)
  Dev.freeHomes { d with arb := { d.arb with
    slots := d.arb.slots.filter fun x => match x.2.owner with
      | .stream cl ph _ _ => !p cl ph
      | _ => true
    waiting := d.arb.waiting.filter fun w => !p w.cl w.phys } }

/-- Uncorrected words of the near tier of some cores are no more: a flush discards them (R189). -/
def Dev.dropNearBad (d : Dev) (p : Nat → Nat → Bool) : Dev :=
  { d with blk := { d.blk with nearBad := d.blk.nearBad.filter fun w => !p (8 * w / 0x200000 / 32) (8 * w / 0x200000 % 32) } }

def srcOn (s : RouteSrc) (p : Nat → Nat → Bool) : Bool :=
  match s with
  | .port x => p x.cl x.phys
  | .recvEp .. => false
def dstOn (s : RouteDst) (p : Nat → Nat → Bool) : Bool :=
  match s with
  | .port x => p x.cl x.phys
  | .sendEp .. => false

/-- Tokens and credits on their way to or from the cores named are gone. -/
def Dev.dropFlights (d : Dev) (p : Nat → Nat → Bool) : Dev :=
  { d with
    flights := d.flights.filter fun f => !(srcOn f.src p || dstOn f.dst p)
    creditMsgs := d.creditMsgs.filter fun f => !(srcOn f.src p || dstOn f.dst p) }

/-- Whether a list of cores holds core (cl, phys). -/
def hasCore (l : List CoreRef) (cl ph : Nat) : Bool := l.any fun r => r.cl = cl && r.phys = ph

/-! ### Handoff pairs (R62, R125) -/

def Pair.touches (p : Pair) (k : Nat) : Bool := p.sSpan = some (slotRef k) || p.rSpan = some (slotRef k)
def Pair.full (p : Pair) : Bool := p.sSpan.isSome && p.rSpan.isSome
/-- A pair whose buffer is discarded, with the keystones of the ends that span `k` holds: one that waits at the other end stays (R134). -/
def Pair.clear (k : Nat) (p : Pair) : Pair :=
  let s : Bool := p.sSpan ≠ some (slotRef k)
  let r : Bool := p.rSpan ≠ some (slotRef k)
  { p with buf := [], bridge := [], credit := 64, sKey := p.sKey && s, sDone := p.sDone && s, rKey := p.rKey && r, rDone := p.rDone && r }

/-- Slot keys of the spans linked with span `k` (R133). -/
def Dev.linkedOf (d : Dev) (k : Nat) : List Nat :=
  (d.pairs.filter fun p => p.full && p.touches k).filterMap fun p =>
    match p.sSpan, p.rSpan with
    | some s, some r => if s = slotRef k then some (64 * r.1 + r.2) else some (64 * s.1 + s.2)
    | _, _ => none

/-- The buffers of the pairs of span `k` are discarded (R63, R133). -/
def Dev.clearPairs (d : Dev) (k : Nat) : Dev := { d with pairs := d.pairs.map fun p => if p.touches k then p.clear k else p }

/-- Span `k` lets go of its endpoints: each of its pairs dissolves into the half of the other end, which keeps what is buffered for it
(R125, R130). -/
def Dev.dissolve (d : Dev) (k : Nat) : Dev :=
  { d with pairs := (d.pairs.map fun p =>
      let p := if p.sSpan = some (slotRef k) then { p with sSpan := none, sKey := false, sDone := false } else p
      if p.rSpan = some (slotRef k) then { p.clear k with rSpan := none } else p).filter fun p => p.sSpan.isSome || p.rSpan.isSome }

/-- A span that sends to span `k` holds its end of the pair still (R63). -/
def Dev.hasSender (d : Dev) (k : Nat) : Bool := d.pairs.any fun p => p.rSpan = some (slotRef k) && p.sSpan.isSome

/-- A handoff slot of span `k` whose pair is not formed (R129, R143); while the span loads, none is. -/
def Dev.unpaired (d : Dev) (k : Nat) : Bool :=
  ((d.span k).st = .loading && !(d.span k).hands.isEmpty) || d.pairs.any fun p => p.touches k && !p.full

/-! ### Dispensers (R149, R150) -/

/-- Dispensers of span `k` lose their owner and their programmed values. -/
def Dev.dropDisps (d : Dev) (k : Nat) : Dev :=
  { d with disps := d.disps.map fun x =>
      if x.2.owner = some (k % 64) && x.1 / 64 = k / 64 then
        (x.1, { x.2 with owner := none, pStart := 0#32, pLimit := 0#32, set := false }) else x }

/-- NEXT and LIMIT take the programmed values at the start of a launch. -/
def Dev.resetDisps (d : Dev) (k : Nat) : Dev :=
  (d.span k).disps.foldl (fun d x =>
    let v := d.disp x.1 x.2.1
    d.setDisp x.1 x.2.1 { v with next := v.pStart, limit := v.pLimit, exhausted := false }) d

/-! ### Flush and release (R55, R130, R131) -/

/-- Every queue, output buffer and handoff buffer of span `k` is emptied, with the tokens on their way; the engines stand at `st`. -/
def Dev.emptySpan (d : Dev) (k : Nat) (st : BitVec 3) : Dev :=
  let cs := (d.span k).cores
  ((((d.onCores cs fun c => c.mapEngs (·.empty st)).dropFlights (hasCore cs)).freeStreams (hasCore cs)).dropNearBad (hasCore cs)).clearPairs k

/-- The cores of span `k` and its slot advance their epoch by 1 mod 16. -/
def Dev.advance (d : Dev) (k : Nat) : Dev :=
  (d.onCores (d.span k).cores Core.nextEpoch).modSpan k fun s => { s with epoch := s.epoch + 1#4 }

/-- The span is flushed and stays loaded at the next epoch (R131); `st` is the state its slot takes. -/
def Dev.flushSpan (d : Dev) (k : Nat) (st : SpanSt) : Dev :=
  ((d.emptySpan k stLoaded).advance k).modSpan k fun s => { s with st := st, keyed := false }

/-- The cores of span `k` become DRAINED, its dispensers, pairs and routes are let go, and its slot becomes FREE; the epochs stay as
they are. -/
def Dev.releaseSlot (d : Dev) (k : Nat) : Dev :=
  let cs := (d.span k).cores
  let d := ((d.onCores cs Core.drained).dropFlights (hasCore cs)).freeStreams (hasCore cs)
  let d := (d.dropDisps k).dissolve k
  { d with routes := d.routes.filter fun r => r.slot ≠ k, spans := Tab.erase k d.spans }

/-! ### Resets of cores (R338, R344) -/

/-- The contents of cores are gone: registers, queues, link slots and near tier. -/
def Dev.wipeCores (d : Dev) (p : Nat → Nat → Bool) (f : Core → Core) : Dev :=
  let near (a : Nat) : Bool := p (a / 0x200000 / 32) (a / 0x200000 % 32)
  let d := d.dropFlights p
  let d : Dev := { d with
    cores := d.cores.map fun x => if p (x.1 / 32) (x.1 % 32) then (x.1, f x.2) else x
    blk := { d.blk with near := d.blk.near.filter fun c => !near c.1 } }
  (d.dropNearBad p).freeStreams p

/-- A reset is under way that covers a target. -/
def Dev.coveredBy (d : Dev) (t : ResetTarget) : Bool :=
  d.ras.resetting.any fun x => match x.1, t with
    | .package, _ => true
    | .die a, .die b => a = b
    | .die a, .cluster b => b / 4 = a
    | .die a, .core b _ => b / 4 = a
    | .cluster a, .cluster b => a = b
    | .cluster a, .core b _ => a = b
    | .core a p, .core b q => a = b && p = q
    | _, _ => false

/-- The reset is entered, with what its self-tests will test; smaller ones that it covers are part of it. -/
def Dev.enterReset (d : Dev) (e : Env) (t : ResetTarget) (tests : List ResetTarget) (inside : ResetTarget → Bool) : Dev :=
  { d with ras := { d.ras with
    resetting := (d.ras.resetting.filter fun x => !inside x.1) ++ [(t, e.now)]
    testing := (d.ras.testing.filter fun x => !inside x) ++ tests } }

/-- Usable clusters that a reset reaches are clocked. -/
def Dev.wakeFor (d : Dev) (e : Env) (p : Nat → Bool) : Dev :=
  ((List.range 16).filter fun c => p c && e.kf.usable c).foldl (fun d c =>
    d.setSleep c { d.sleep c with st := .active, waking := false, idleSince := e.now }) d

/-- A core is reset: its contents go, and its self-test follows (R338, R344). -/
def Dev.restartCore (e : Env) (d : Dev) (cl ph : Nat) (code : Nat) (f : Core → Core) : Dev :=
  let d := (d.wipeCores (fun c p => c = cl && p = ph) f).wakeFor e fun c => c = cl
  (d.enterReset e (.core cl ph) [.core cl ph] fun x => x = .core cl ph).rasEvent e 2 code cl ph 1

/-! ### Routes on truss links (R40, R43) -/

/-- Place of a physical core in its die's grid of 16 × 8 trusses, row 0 the southernmost. -/
def gridX (cl ph : Nat) : Nat := 8 * (cl % 4 % 2) + ph % 8
def gridY (cl ph : Nat) : Nat := 4 * (cl % 4 / 2) + ph / 8
/-- The core at a place of the grid of a die. -/
def gridCl (die x y : Nat) : Nat := 4 * die + x / 8 + 2 * (y / 4)
def gridPh (x y : Nat) : Nat := x % 8 + 8 * (y % 4)

/-- The truss that a link leads to. -/
def GridLink.next (l : GridLink) : Option (Nat × Nat) :=
  match l.dir with
  | .north => if l.y < 7 then some (l.x, l.y + 1) else none
  | .east => if l.x < 15 then some (l.x + 1, l.y) else none
  | .south => if 0 < l.y then some (l.x, l.y - 1) else none
  | .west => if 0 < l.x then some (l.x - 1, l.y) else none

/-- Routes that use a link direction of a network of a die. -/
def linkUse (routes : List Route) (die : Nat) (net : Net) (l : GridLink) : Nat :=
  routes.countP fun r => r.die = die && r.net = net && r.links.contains l

/-- A link direction that a route may take: it leads to a core that is not fenced, and has a free slot or carries the route already. -/
def linkOk (k : Kf) (routes : List Route) (die : Nat) (net : Net) (mine : List GridLink) (l : GridLink) : Bool :=
  match l.next with
  | none => false
  | some (x, y) => !k.coreFenced (gridCl die x y) (gridPh x y) && (mine.contains l || linkUse routes die net l < 4)

/-- The links along the row and then along the column. -/
def xyPath (x y tx ty : Nat) : List GridLink :=
  (if x ≤ tx then (List.range (tx - x)).map fun i => { x := x + i, y := y, dir := .east }
    else (List.range (x - tx)).map fun i => { x := x - i, y := y, dir := .west }) ++
  (if y ≤ ty then (List.range (ty - y)).map fun i => { x := tx, y := y + i, dir := .north }
    else (List.range (y - ty)).map fun i => { x := tx, y := y - i, dir := .south })

/-- The links that leave a truss, in the order that a free value picks. -/
def linksFrom (tie : Nat) (x y : Nat) : List GridLink :=
  let l : List GridLink := [⟨x, y, .north⟩, ⟨x, y, .east⟩, ⟨x, y, .south⟩, ⟨x, y, .west⟩]
  let l := if bitAt tie 2 then l.reverse else l
  l.drop (tie % 4) ++ l.take (tie % 4)

/-- A shortest path over links that `ok` holds of: breadth first, `fuel` rounds, each reached truss once. -/
def shortest (ok : GridLink → Bool) (tie : Nat) (goal : Nat × Nat) :
    Nat → List (Nat × Nat) → List ((Nat × Nat) × List GridLink) → Option (List GridLink)
  | 0, _, _ => none
  | fuel + 1, seen, front =>
    match front.find? fun f => f.1 = goal with
    | some f => some f.2.reverse
    | none =>
      let step := front.foldl (fun (a : List (Nat × Nat) × List ((Nat × Nat) × List GridLink)) f =>
        (linksFrom tie f.1.1 f.1.2).foldl (fun a l =>
          match l.next with
          | none => a
          | some t => if a.1.contains t || !ok l then a else (t :: a.1, a.2 ++ [(t, l :: f.2)])) a) (seen, [])
      if step.2.isEmpty then none else shortest ok tie goal fuel step.1 step.2

/-- The path of one destination: the row-then-column path where it serves, else a shortest one (R43). -/
def findPath (ok : GridLink → Bool) (tie x y tx ty : Nat) : Option (List GridLink) :=
  let p := xyPath x y tx ty
  if p.all ok then some p else shortest ok tie (tx, ty) 128 [(x, y)] [((x, y), [])]

/-- The links of a route on a die: none between an endpoint and a core. -/
def routeLinks (k : Kf) (routes : List Route) (die : Nat) (net : Net) (tie : Nat) (src : RouteSrc) :
    List RouteDst → List GridLink → Option (List GridLink)
  | [], acc => some acc
  | .sendEp .. :: t, acc => routeLinks k routes die net tie src t acc
  | .port q :: t, acc =>
    match src with
    | .recvEp .. => routeLinks k routes die net tie src t acc
    | .port p =>
      match findPath (linkOk k routes die net acc) tie (gridX p.cl p.phys) (gridY p.cl p.phys) (gridX q.cl q.phys) (gridY q.cl q.phys) with
      | none => none
      | some l => routeLinks k routes die net tie src t (acc ++ l.filter fun x => !acc.contains x)

/-- The core of a span at core index `i`. -/
def Span.coreAt (s : Span) (i : Nat) : Option CoreRef := s.cores.find? fun r => r.idx = i

/-- A source or destination of the image as the span's cores and endpoints give it. -/
def Span.srcOf (s : Span) (die : Nat) (net : Net) : VEnd → Option RouteSrc
  | .port c e p => (s.coreAt c).map fun r => .port { cl := r.cl, phys := r.phys, eng := e, net := net, port := p }
  | .handoff h => (s.hands.find? fun x => x.slot = h && x.recv).map fun x => .recvEp die x.ep
def Span.dstOf (s : Span) (die : Nat) (net : Net) : VEnd → Option RouteDst
  | .port c e p => (s.coreAt c).map fun r => .port { cl := r.cl, phys := r.phys, eng := e, net := net, port := p }
  | .handoff h => (s.hands.find? fun x => x.slot = h && !x.recv).map fun x => .sendEp die x.ep

/-- Places one route of a span beside those placed; none where it has no path. -/
def placeRoute (k : Kf) (slot : Nat) (s : Span) (tie : Nat) (v : VRoute) (placed : List Route) : Option Route :=
  let die := slot / 64
  let net := netOf v.net
  let dsts := v.dsts.filterMap (s.dstOf die net)
  match s.srcOf die net v.src with
  | none => none
  | some src => (routeLinks k placed die net tie src dsts []).map fun l =>
      { slot := slot, die := die, net := net, src := src, dsts := dsts, links := l, free := dsts.map fun _ => 8, bases := dsts.map fun _ => 0 }

/-- Places the routes of a span one after the other beside those placed, but keeps a route it has that `bad` does not name; none where one has
no path. -/
def placeAll (k : Kf) (slot : Nat) (s : Span) (tie : Nat) (bad : Route → Bool) : List (VRoute × Option Route) → List Route → Option (List Route)
  | [], _ => some []
  | (v, old) :: t, placed =>
    match old.filter fun r => !bad r with
    | some r => (placeAll k slot s tie bad t placed).map (r :: ·)
    | none =>
      match placeRoute k slot s tie v placed with
      | none => none
      | some r => (placeAll k slot s tie bad t (placed ++ [r])).map (r :: ·)

/-- Places the routes of the span in slot `slot` that `bad` names anew under the core maps, all of them where it has none yet, or answers none
(ERR_QUOTA). Its other routes stay as they are (R20). -/
def Dev.placeRoutes (d : Dev) (k : Kf) (slot : Nat) (bad : Route → Bool) : Option Dev :=
  let (x, d) := d.free 3
  let others := d.routes.filter fun r => r.slot ≠ slot
  let mine := d.routes.filter fun r => r.slot = slot
  let l := (d.span slot).vroutes.zipIdx.map fun v : VRoute × Nat => (v.1, mine[v.2]?)
  (placeAll k slot (d.span slot) x.toNat bad l (others ++ mine.filter fun r => !bad r)).map fun r => { d with routes := others ++ r }

/-! ### Launches (R50, R129) -/

def Dev.routeFrom (d : Dev) (s : RouteSrc) : Option Route := d.routes.find? fun r => r.src = s
def Dev.routeTo (d : Dev) (t : RouteDst) : Option Route := d.routes.find? fun r => r.dsts.contains t

/-- A truss input of an engine of a network and port as its queue number. -/
def queueKey (net : Net) (port : Nat) : Nat := 4 * netCode net + port

/-- An engine of the span from which no route leaves (R96). -/
def Dev.isSink (d : Dev) (cl ph e : Nat) : Bool :=
  !(d.routes.any fun r => match r.src with
    | .port p => p.cl = cl && p.phys = ph && p.eng = e
    | .recvEp .. => false)

/-- The inputs of an engine that a route feeds. -/
def Dev.fedInputs (d : Dev) (cl ph e : Nat) : List (Net × Nat) :=
  d.routes.flatMap fun r => r.dsts.filterMap fun t => match t with
    | .port p => if p.cl = cl && p.phys = ph && p.eng = e then some (p.net, p.port) else none
    | .sendEp .. => none

/-- Launch counts and trip counts of an engine for the arguments of a launch; without arguments those that a program gives itself. -/
def Eng.counted (x : Eng) (args : List Word) : Eng :=
  match x.prog with
  | .unused => { x with limit := 0 }
  | .ce p => { x with limit := if p.iterArg then (args.map (·.toNat)).getD (p.iters % 8) 0 else p.iters }
  | .me p => { x with limit := 0, ctxs := p.ctxs.map fun q => (q.1, { counts := (List.range q.2.nlev).map (q.2.count args) }) }

/-- An engine as a drain finds it: one that no launch has started since its load works on what reaches it by the counts of its program. -/
def Eng.atDrain (x : Eng) : Eng := if x.limit = 0 && x.ctxs.isEmpty && x.base = 0 then x.counted [] else x

/-- A launch starts: dispensers take their programmed values, every engine stands at extended iteration 0 and RUNNING, its contexts at
firing 0 with the trip counts of this launch; a sender's view of each input starts at base 0. -/
def Dev.startEngines (d : Dev) (k : Nat) (args : List Word) : Dev :=
  let cs := (d.span k).cores
  let d := d.resetDisps k
  let d := d.onCores cs fun c => c.mapEngs fun x => ({ x with st := stRunning, base := 0, iters := [], ctxs := [], fillBytes := 0 } : Eng).counted args
  { d with routes := d.routes.map fun r =>
      if r.slot ≠ k then r else { r with
        free := r.dsts.map fun t => match t with
          | .port p => 8 - (Tab.get {} (queueKey p.net p.port) (d.eng p.cl p.phys p.eng).queues).toks.length
              - d.flights.countP (fun f => f.dst = t && f.tok.kind ≠ .keystone)
          | .sendEp .. => 8
        bases := r.dsts.map fun _ => 0 }
           creditMsgs := d.creditMsgs.filter fun f => !(srcOn f.src (hasCore cs) || dstOn f.dst (hasCore cs)) }

/-! ### Launch arguments (R97) -/

/-- Every argument that a span's programs take, with the range it must lie in. -/
def Span.argRanges (s : Span) : List (Nat × Nat) :=
  s.progs.flatMap fun c => c.2.flatMap fun p => match p with
    | .unused => []
    | .ce p => if p.iterArg then [(p.iters % 8, 8388607)] else []
    | .me p => p.ctxs.flatMap fun x => (x.2.loops.filter (·.carg)).map fun l => (l.count % 8, 65535)

/-- The lowest argument that a leader and its follower take, where their iterations differ. -/
def Span.leadArg (s : Span) (args : List Word) : Option Nat :=
  let bad := s.progs.flatMap fun c => c.2.flatMap fun p => match p with
    | .me p => p.ctxs.flatMap fun x =>
        match (if x.2.leadEn then p.ctx? x.2.lead else none) with
        | some y => if x.2.iterations args = y.iterations args then [] else x.2.argsAbove ++ y.argsAbove
        | none => []
    | _ => []
  if bad.isEmpty then none else some (minList 8 bad)

/-- The offset of the field with which R97 refuses a launch. -/
def Span.argError (s : Span) (args : List Word) : Option Nat :=
  let v (i : Nat) : Nat := (args.map (·.toNat)).getD i 0
  let out := (s.argRanges.filter fun r => v r.1 = 0 || r.2 < v r.1).map (·.1)
  match (if out.isEmpty then s.leadArg args else some (minList 8 out)) with
  | some k => some (24 + 4 * k)
  | none => none

end Sys2Proof.Machine
end

