-- ==== Sys2Proof/Machine/Ends.lean ====
section
/-!
DEFINITION. How commands end: the work list that ends commands with or without an error, flushes and releases spans with those linked to them
(R55, R131 to R134), decides groups with their votes (R137, R328 to R332), and starts what waited.
-/
namespace Sys2Proof.Machine

/-- What is still to be done when something has ended. -/
inductive Todo where
  /-- A command ends with an error. -/
  | fail (uid status result : Nat)
  /-- A command has done its work. -/
  | done (uid result : Nat)
  /-- A span is flushed and stays loaded (R131). -/
  | flush (slot : Nat)
  /-- A span linked with a flushed one is treated as R133 states; `force` where SPAN_LOAD with FORCE released that one (R134). -/
  | linked (slot : Nat) (force : Bool)
  /-- A span is lost: its commands end with the status, its cores advance their epoch and become DRAINED, its slot is FREE. -/
  | lose (slot status result : Nat) (drainOk : Bool) (force : Bool := false)
  /-- The next waiting launch or drain of a span starts. -/
  | next (slot : Nat)
  /-- The next launch of a serving step starts. -/
  | stepOn (uid : Nat)
  /-- The next serving step of a die begins. -/
  | stepBegin (die : Nat)
  /-- A group fails, by a part or a COMMIT (uid) with its own status, or by nothing that completes here. -/
  | groupFail (func num : Nat) (own : Option (Nat × Nat × Nat))
  /-- A group may have come to its decision. -/
  | groupTry (func num : Nat)
  /-- A vote has decided a group. -/
  | groupDecide (func num : Nat) (commit : Bool)
  /-- A cause of the parapet state is detected. -/
  | parapet (cause code : Nat)
deriving DecidableEq, Repr

/-! ### Small parts -/

/-- Span slot that a SPAN_LAUNCH or SPAN_DRAIN names. -/
def cmdSlot (c : Command) : Nat := handleSlot (cmdField c 16 4)

def OpenCmd.opcode (o : OpenCmd) : Nat := cmdOpcode o.cmd
def OpenCmd.group (o : OpenCmd) : Nat := cmdGroup o.cmd

/-- The open group of a function under a number; a committed one is closed. -/
def Dev.groupOf (d : Dev) (func num : Nat) : Option Group := d.groups.find? fun g => g.func = func && g.num = num && !g.committed
/-- The latest group under the number has committed (R137: what ABORT answers). -/
def Dev.groupCommitted (d : Dev) (func num : Nat) : Bool := d.groups.any fun g => g.func = func && g.num = num && g.committed
def Dev.setGroup (d : Dev) (g : Group) : Dev :=
  if d.groups.any fun x => x.func = g.func && x.num = g.num then
    { d with groups := d.groups.map fun x => if x.func = g.func && x.num = g.num then g else x }
  else { d with groups := d.groups ++ [g] }
def Dev.closeGroup (d : Dev) (func num : Nat) : Dev := { d with groups := d.groups.filter fun x => !(x.func = func && x.num = num) }

/-- Parts of a group that have started, ended ones among them (R137). -/
def Dev.countedParts (d : Dev) (func num : Nat) : Nat :=
  d.opens.countP fun o => o.func = func && cmdGroup o.cmd = num && cmdOpcode o.cmd ≠ opCommit
/-- Open parts of a group that have not ended. -/
def Dev.runningParts (d : Dev) (func num : Nat) : List Nat :=
  (d.opens.filter fun o => o.func = func && o.group = num && !o.held && o.opcode ≠ opCommit).map (·.uid)

/-- GROUP of a COMMIT or an ABORT (R117). -/
def cmdNamedGroup (c : Command) : Nat := cmdField c 16 4
def commitParts (c : Command) : Nat := cmdField c 20 2
def commitRemote (c : Command) : Nat := cmdField c 22 1
def commitCoord (c : Command) : Bool := bitAt (cmdField c 24 1) 0

/-- Logical coordinate of the coordinator of a group (R328). -/
def groupCoord (num : Nat) : Nat := bitsAt num 28 4 * 16 + bitsAt num 24 4
/-- Physical coordinate of the coordinator, through VIA_LMAP. -/
def Dev.coordPhys (d : Dev) (num : Nat) : Nat := bitsAt (d.via.lmapOf (groupCoord num)) 0 8

/-- The SPAN_LAUNCH arguments (R117). -/
def launchArgs (c : Command) : List Word := (List.range 8).map fun k => BitVec.ofNat 32 (cmdField c (24 + 4 * k) 4)

/-- Whether a waiting item starts something. -/
def Todo.starts : Todo → Bool
  | .next _ => true
  | _ => false

/-- Barrier that a BARRIER names, and the participants that wait at one, in the order in which they started (R136). -/
def barNumber (c : Command) : Nat := cmdField c 16 1
def Dev.atBarrier (d : Dev) (f n : Nat) : List OpenCmd := d.opens.filter fun o => o.func = f && o.opcode = opBarrier && barNumber o.cmd = n

/-- A waiting command of a span is off its lists. Where it was the drain of a LOADING slot, the launches that came after it wait as launches
again, up to the next drain. -/
def Span.drop (s : Span) (uid : Nat) : Span :=
  let s := { s with waiting := s.waiting.filter (· ≠ uid), late := s.late.filter (·.1 ≠ uid) }
  if s.drain = some uid then
    let go := s.late.takeWhile fun x => !x.2
    let rest := s.late.drop go.length
    { s with waiting := s.waiting ++ go.map (·.1), drain := rest.head?.map (·.1), late := rest.tail }
  else s

/-- An engine launch count that an ending without LAUNCH_END leaves open: cycles from the release to the stop (R293). -/
def Dev.failedCharge (d : Dev) (k : Nat) : Nat × Dev :=
  let (x, d) := d.free 64
  ((d.span k).ncores * x.toNat, d)

/-! ### Transfers (R323 to R325) -/

def Dev.sendOf (d : Dev) (uid : Nat) : Option ViaSend := d.via.sends.find? fun x => x.uid = uid
def Dev.recvOf (d : Dev) (uid : Nat) : Option ViaRecv := d.via.recvs.find? fun x => x.uid = uid

/-- XFER_ABORT to the other side of a transfer. -/
def Dev.sendAbort (d : Dev) (u : Fuses) (dst xfer reason : Nat) : Dev :=
  (d.sendFlit u (d.mkFlit dst 3 0 xfer .xferAbort [BitVec.ofNat 8 reason])).2

/-- REASON of the XFER_ABORT for a status (R310). -/
def abortReason (status : Nat) : Nat := if status = Config.link then 1 else if status = Config.hang then 2 else 3

/-- A transfer of an ending VIA_SEND or VIA_RECV is given up, and the other side hears of it. -/
def Dev.dropTransfer (u : Fuses) (d : Dev) (uid status : Nat) (tell : Bool) : Dev :=
  let reason := abortReason status
  let d := match d.sendOf uid with
    | some x => if tell then d.sendAbort u x.dst x.xfer reason else d
    | none => match d.recvOf uid with
      | some x => match x.matched with
        | some (src, xfer, _) => if tell then d.sendAbort u src xfer reason else d
        | none => d
      | none => d
  let d := d.withdraw (.command uid)
  { d with via := { d.via with sends := d.via.sends.filter fun x => x.uid ≠ uid, recvs := d.via.recvs.filter fun x => x.uid ≠ uid } }

/-! ### Votes (R329 to R332) -/

/-- A flit of the vote on VC 0 about a group (R310). -/
def Dev.sendVote (d : Dev) (u : Fuses) (dst num : Nat) (kind : FlitKind) (yes : Option Bool) : Dev :=
  let tail := match yes with
    | some b => [BitVec.ofNat 8 (bit b)]
    | none => []
  (d.sendFlit u (d.mkFlit dst 0 0 0 kind (toBytes 4 num ++ tail))).2

/-- A participant votes NO: the vote is kept until its DECISION arrives, and sent again every 100 µs (R329). -/
def Dev.voteNo (d : Dev) (e : Env) (func num : Nat) : Dev :=
  let l := d.via.noVotes.filter fun x => !(x.func = func && x.group = num)
  Dev.sendVote { d with via := { d.via with noVotes := l ++ [{ func := func, group := num, sentAt := e.now }] } } e.fuse (d.coordPhys num) num .vote (some false)

/-- The coordinator logs its decision for the voters whose acknowledgement it awaits, and sends it to them. -/
def Dev.decide (u : Fuses) (d : Dev) (g : Group) (commit : Bool) : Dev :=
  let d := if g.voters.isEmpty then d else
    { d with via := { d.via with log := d.via.log ++ [{ func := g.func, group := g.num, commit := commit, await := g.voters }] } }
  g.voters.foldl (fun d v => d.sendVote u (bitsAt (d.via.lmapOf v) 0 8) g.num .decision (some commit)) d

/-! ### Ends -/

/-- The charge of a launch that never reached LAUNCH_END (R293); that of a serving step's launch is part of the step's one charge (R292). -/
def Dev.chargeStopped (d : Dev) (o : OpenCmd) (k : Nat) : Dev :=
  let (n, d) := d.failedCharge k
  match (if o.opcode = opSeqStep then d.stepOf o.uid else none) with
  | some r => d.setStep { r with charge := r.charge + n }
  | none => d.charge o n

/-- A command that ends outside its group posts its completion; a part of a group that is not decided brings the group down. -/
def endWith (d : Dev) (o : OpenCmd) (status result : Nat) : Dev × List Todo :=
  match (if o.group = 0 then none else d.groupOf o.func o.group) with
  | some g => if g.aborted then (d.complete o.uid status result, []) else (d, [.groupFail o.func o.group (some (o.uid, status, result))])
  | none => (d.complete o.uid status result, [])

/-- The outputs of a command become visible (R29). -/
def commitOutputs (e : Env) (d : Dev) (o : OpenCmd) : Dev :=
  if o.opcode = opSeqStep then
    match d.stepOf o.uid with
    | some r => (((d.commitShadows e o.uid).commitStep e r o.func).releaseWaiting e r).dropStep o.uid
    | none => d
  else (d.commitShadows e o.uid).dropRun o.uid

/-- The outputs of a command are gone, and what it held besides (R29, R207, R271). -/
def discardOutputs (e : Env) (d : Dev) (uid : Nat) : Dev :=
  let d := (d.dropShadows uid).dropRun uid
  match d.stepOf uid with
  | some r => ((d.unrunStep r).releaseWaiting e r).dropStep uid
  | none => d

/-- A command ends with an error: what it held is given up, and what that means for others is listed. A passed deadline at a barrier ends every
participant that waits there; their RESULT names the one record (R136; log entry 67). -/
def failCmd (e : Env) (d : Dev) (o : OpenCmd) (status result : Nat) : Dev × List Todo :=
  let op := o.opcode
  let fin (d : Dev) : Dev × List Todo := endWith d o status result
  if o.held then
    match d.groupOf o.func o.group with
    | some g => if g.inDoubt then (d, []) else (d, [.groupFail o.func o.group (some (o.uid, status, result))])
    | none => (d.complete o.uid status result, [])
  else if op = opSpanLoad then
    match d.spans.find? fun x => x.2.loadCmd = some o.uid with
    | some (k, _) => (d.complete o.uid status result, [.lose k Config.badHandle 16 false])
    | none => (d.complete o.uid status result, [])
  else if op = opSpanLaunch then
    let k := cmdSlot o.cmd
    let s := d.span k
    if s.running = some o.uid then
      let d := (d.chargeStopped o k).modSpan k fun s => { s with running := none }
      let (d, l) := fin (d.dropShadows o.uid)
      (d, .flush k :: l)
    else
      fin ((if s.st = .free then d else d.modSpan k fun s => s.drop o.uid).dropShadows o.uid)
  else if op = opSpanDrain then
    let k := cmdSlot o.cmd
    let s := d.span k
    let d := d.complete o.uid status result
    if s.st = .free then (d, [])
    else if s.drain = some o.uid && s.keyed then (d, [.lose k Config.badHandle 16 false])
    else (d.modSpan k fun s => let t := s.drop o.uid
      { t with st := if s.drain = some o.uid && s.st = .draining then (if s.running.isSome then .running else .loaded) else s.st }, [])
  else if op = opTrestle then fin ((d.dropRun o.uid).dropShadows o.uid)
  else if op = opViaSend || op = opViaRecv then fin ((d.dropTransfer e.fuse o.uid status true).dropShadows o.uid)
  else if op = opSeqStep then
    match d.stepOf o.uid with
    | some r =>
      let (d, l) : Dev × List Todo := match r.current with
        | some (_, k) =>
          if (d.span k).running = some o.uid then
            ((d.chargeStopped o k).modSpan k fun s => { s with running := none }, [Todo.flush k])
          else if (d.span k).st = SpanSt.free then (d, [])
          else (d.modSpan k fun s => s.drop o.uid, [])
        | none => (d, [])
      let d := d.charge o (((d.stepOf o.uid).map (·.charge)).getD 0)
      let (d, l') := fin (discardOutputs e d o.uid)
      (d, l ++ l' ++ [.stepBegin r.die])
    | none => fin d
  else if op = opCommit then (d, [.groupFail o.func (cmdNamedGroup o.cmd) (some (o.uid, status, result))])
  else if op = opMove then
    match d.moveOf o.uid with
    | some m => (((d.abortMove e.fuse m)).complete o.uid status result, [])
    | none => (d.complete o.uid status result, [])
  else if op = opBarrier && status = Config.hang then
    ((d.atBarrier o.func (barNumber o.cmd)).foldl (fun d x => d.complete x.uid status result) d, [])
  else if op = opRelease then
    (({ d with seqs := d.seqs.map fun x : Nat × Seq => if x.2.leaver = some o.uid then (x.1, { x.2 with leaver := none }) else x }).complete o.uid status result, [])
  else
    (({ d with longs := d.longs.map fun x : Nat × LongOp => (x.1, { x.2 with waiters := x.2.waiters.filter (· ≠ o.uid) }) }).complete o.uid status result, [])

/-- A group fails (R137, R329, R332): its ended parts and its COMMIT end with ERR_PEER_ABORT, but for the one with its own status; its running
parts end at their safe point; packages of the vote hear of it. A participant in doubt only withdraws. -/
def failGroup (e : Env) (d : Dev) (func num : Nat) (own : Option (Nat × Nat × Nat)) : Dev × List Todo :=
  match d.groupOf func num with
  | none => (d, [])
  | some g =>
    if g.inDoubt then
      (d.sendVote e.fuse (d.coordPhys num) num .withdraw none, [])
    else
      let stat (uid : Nat) : Nat × Nat := match own with
        | some (x, s, r) => if x = uid then (s, r) else (Config.peerAbort, 0)
        | none => (Config.peerAbort, 0)
      let d := match g.commit with
        | none => d
        | some _ =>
          if g.remote = 0 then d
          else if g.coord then d.decide e.fuse g false
          else d.voteNo e func num
      let running := (d.runningParts func num).filter fun uid => (own.map (·.1)) ≠ some uid
      let d := d.setGroup { g with aborted := true, held := [] }
      let d := match own with
        | some (uid, s, r) => if g.commit = some uid || g.held.any (fun h => h.1 = uid) then d
            else (discardOutputs e d uid).complete uid s r
        | none => d
      let d := g.held.foldl (fun d h => (discardOutputs e d h.1).complete h.1 (stat h.1).1 (stat h.1).2) d
      let d := match g.commit with
        | some c => (d.complete c (stat c).1 (stat c).2)
        | none => d
      (d, running.map (fun uid => .fail uid Config.peerAbort 0) ++ [.groupTry func num])

/-- A COMMIT that its coordinator decides past its deadline completes with ERR_HANG, and the fault record of the deadline (R122, R329). -/
def Dev.completeCommit (d : Dev) (e : Env) (g : Group) (uid : Nat) : Dev :=
  match d.openOf uid with
  | none => d
  | some o =>
    let us := d.deadlineUs o.cmd
    if g.coord && g.remote ≠ 0 && o.start + us * Config.usTicks < e.now then
      let (n, d) := d.recordFault e o.func o.queue (cmdId o.cmd)
        { error := Config.hang, resource := 0x41, engine := 0xF2, value := (e.now - o.start) / Config.usTicks, limit := us }
      d.complete uid Config.hang n
    else d.complete uid Config.ok 0

/-- All outputs of a group become visible together, its parts complete with OK and then its COMMIT (R137). -/
def commitGroup (e : Env) (d : Dev) (g : Group) : Dev :=
  let d := g.held.foldl (fun d h => match d.openOf h.1 with
    | some o => commitOutputs e d o
    | none => d) d
  let d := g.held.foldl (fun d h => d.complete h.1 Config.ok h.2.toNat) d
  let d := match g.commit with
    | some c => d.completeCommit e g c
    | none => d
  d.setGroup { func := g.func, num := g.num, committed := true }

/-- A group whose parts have all ended: it commits, or votes, or, at the coordinator, waits for its votes (R137, R329). A group that has
failed is closed once its COMMIT has completed. -/
def tryGroup (e : Env) (d : Dev) (func num : Nat) : Dev :=
  match d.groupOf func num with
  | none => d
  | some g =>
    if g.aborted then (if g.commit.isSome then d.closeGroup func num else d)
    else
      match g.commit, g.need with
      | some _, some n =>
        if g.held.length < n then d
        else if g.remote = 0 then commitGroup e d g
        else if g.coord then
          if g.yes.length < g.remote then d else commitGroup e (d.decide e.fuse g true) g
        else if g.voted then d
        else (d.setGroup { g with voted := true, inDoubt := true, voteAt := e.now, queryAt := e.now }).sendVote e.fuse (d.coordPhys num) num .vote (some true)
      | _, _ => d

/-- A decision reaches a participant in doubt (R329, R331). -/
def decideGroup (e : Env) (d : Dev) (func num : Nat) (commit : Bool) : Dev × List Todo :=
  match d.groupOf func num with
  | none => (d, [])
  | some g =>
    if commit then (commitGroup e d g, [])
    else
      let d := d.setGroup { g with inDoubt := false, remote := 0 }
      (d, [.groupFail func num none])

/-! ### Spans -/

/-- The keystone of span `k` waits at a receive endpoint of it, and its send endpoint has none yet. -/
def Pair.handKey (k : Nat) (p : Pair) : Pair :=
  { p with rKey := p.rKey || decide (p.rSpan = some (slotRef k)), sDone := p.sDone && !decide (p.sSpan = some (slotRef k)) }

/-- The span in a slot is handed its keystones: drain step 2 (R130). -/
def Dev.handKeystones (d : Dev) (k : Nat) : Dev :=
  let s := d.span k
  let d := s.cores.foldl (fun d r => (List.range 8).foldl (fun d n =>
    d.modEng r.cl r.phys n fun x =>
      { x.atDrain with st := stDraining, keyOut := false, keyIn := x.prog ≠ .unused && (d.fedInputs r.cl r.phys n).isEmpty }) d) d
  let d : Dev := { d with pairs := d.pairs.map (Pair.handKey k) }
  d.modSpan k fun s => { s with st := .draining, keyed := true }

/-- The sequencer's record of the slot's epoch differs from that of a core of the span (R340, bit 4). -/
def Dev.epochAstray (d : Dev) (k : Nat) : Bool := (d.span k).cores.any fun r => (d.core r.cl r.phys).epoch ≠ (d.span k).epoch

/-- The next waiting launch of a loaded span starts, or its drain once none is left (R129, R130). A launch whose span has lost a handoff partner is
refused (R133). -/
def nextOnSpan (_ : Env) (d : Dev) (k : Nat) : Dev × List Todo :=
  let s := d.span k
  if s.st = .free || s.st = .loading || s.running.isSome || s.reload || s.keyed then (d, [])
  else match s.waiting with
    | uid :: rest =>
      match d.openOf uid with
      | none => (d.modSpan k fun s => { s with waiting := rest }, [.next k])
      | some o =>
        let d := d.modSpan k fun s => { s with waiting := rest }
        if d.funcResetting o.func then (d, [.fail uid Config.functionReset 0, .next k])
        else if d.epochAstray k then (d, [.parapet 4 Config.epoch])
        else if d.unpaired k then (d, [.fail uid Config.busy 16, .next k])
        else
          let args := if o.opcode = opSeqStep then
              ((d.stepOf uid).map (·.args)).getD []
            else launchArgs o.cmd
          (((d.modSpan k fun s => { s with running := some uid, st := if s.drain.isSome then .draining else .running, args := args, asid := o.asid }).startEngines
            k args), [])
    | [] =>
      if s.drain.isNone then (d, [])
      else if d.epochAstray k then (d, [.parapet 4 Config.epoch])
      else (d.handKeystones k, [])

/-- A span is flushed (R131): the drain that waits goes on, a drain whose keystones travel ends the span, and linked spans follow (R133). Under a
reset of its function it is flushed as R55 states, and its release advances the epochs (R301, R302; DEDUCED). -/
def flushAll (d : Dev) (k : Nat) : Dev × List Todo :=
  let s := d.span k
  if s.st = .free || s.st = .loading then (d, [])
  else if s.keyed then
    let links := d.linkedOf k
    let d := (d.emptySpan k stLoaded).advance k
    let drain := s.drain
    (d.releaseSlot k, (drain.map fun uid => Todo.fail uid Config.peerAbort 0).toList ++ links.map fun x => Todo.linked x false)
  else
    let links := d.linkedOf k
    let st : SpanSt := if s.drain.isSome then .draining else .loaded
    let d := if d.funcResetting s.func then (d.emptySpan k stLoaded).modSpan k fun s => { s with st := st } else d.flushSpan k st
    (d, (links.map fun x => Todo.linked x false) ++ [.next k])

/-- A span is lost: flushed whole, its slot FREE, every command of it ended (R20, R21, R132). -/
def loseSpan (d : Dev) (k status result : Nat) (drainOk : Bool) (force : Bool := false) : Dev × List Todo :=
  let s := d.span k
  if s.st = .free then (d, [])
  else
    let links := d.linkedOf k
    let d := match s.running.bind d.openOf with
      | some o => d.chargeStopped o k
      | none => d
    let d := (d.emptySpan k stLoaded).advance k
    let ep := ((d.span k).epoch).toNat
    let d := (d.releaseSlot k)
    let ends := (s.running.toList ++ s.waiting ++ s.late.map (·.1)).map fun uid => Todo.fail uid status result
    let drain := s.drain.toList.map fun uid => if drainOk then Todo.done uid ep else Todo.fail uid status result
    let load := s.loadCmd.toList.map fun uid => Todo.fail uid status result
    (d, ends ++ drain ++ load ++ links.map fun x => Todo.linked x force)

/-! ### Serving steps -/

/-- The next step of a die begins once the one before it has had its STEP_COMMIT or is gone (R277). -/
def beginSteps (d : Dev) (die : Nat) : Dev × List Todo :=
  match (d.stepsUnder die).head? with
  | some r => if r.begun then (d, []) else (d.setStep { r with begun := true }, [.stepOn r.uid])
  | none => (d, [])

/-- The runtime could not read something for a command, which ends. -/
def Dev.unread (e : Env) (d : Dev) (o : OpenCmd) (x : Unread) : Dev × List Todo :=
  let i := rtFault x.1 x.2
  let (n, d) := d.recordFault e o.func o.queue (cmdId o.cmd) i
  (d, [.fail o.uid i.error n])

/-- The fold of a round of a step is formed where it does not stand yet, after the drafts of the round before are taken in (R276, R277). -/
def Dev.formFold (e : Env) (d : Dev) (r : StepRun) (func : Nat) (p : Plan) (round : Nat) : Except Unread (StepRun × Dev) := do
  if r.round = some round then return (r, d)
  let r ← match r.round with
    | some 0 | none => pure r
    | some r0 => d.harvestDraft e.fuse r func p r0
  match (if round = 0 then d.unreadToks e.fuse r.die r.asid func r.entries else none), d.writeFold e r func p round with
  | some x, _ => throw x
  | none, some d => return (r, d)
  | none, none =>
    let va := p.foldVa round
    match translate e.fuse d (rtAccess r.die r.asid func true) va with
    | .pa _ => throw (.fault Config.pageFault 0x20 va 0, va)
    | t => throw (t, va)

/-- The next launch of a step, with its fold and arguments (R276, R277). -/
def stepOnward (e : Env) (d : Dev) (uid : Nat) : Dev × List Todo :=
  match d.stepOf uid, d.openOf uid with
  | some r, some o =>
    let d := d.rtWalk e r.die r.asid o.func r.plan 64
    match d.readPlan e.fuse r.die r.asid o.func r.plan, r.todo with
    | .ok (some p), (round, k) :: rest =>
      match d.formFold e r o.func p round with
      | .error x => d.unread e o x
      | .ok (r, d) =>
        let d := d.setStep { r with todo := rest, round := some round, current := some (round, k), args := d.stepArgs e.fuse r o.func p round }
        let st := (d.span k).st
        if st = .free || st = .draining || (d.span k).drain.isSome then (d, [.fail uid Config.badHandle 16])
        else (d.modSpan k fun s => { s with waiting := s.waiting ++ [uid] }, [.next k])
    | .ok (some _), [] => (d.setStep { r with computed := true }, [])
    | .ok none, _ => (d, [.fail uid Config.badField 16])
    | .error t, _ => d.unread e o (t, r.plan)
  | _, _ => (d, [])

/-! ### The parapet state (R340, R341) -/

/-- Every open command, group, move, transfer and resolution is gone with nothing committed, and no completion or record is written; a move that
has switched stays (R179). -/
def Dev.dropAll (e : Env) (d : Dev) : Dev :=
  let d := d.steps.foldl (fun d r => (d.unrunStep r).dropStep r.uid) d
  let d := d.blk.moves.foldl (fun d m => if m.switched then d else d.abortMove e.fuse m) d
  let d := d.opens.foldl (fun d o => (d.dropShadows o.uid).dropRun o.uid) d
  { d with
    opens := []
    groups := []
    longs := d.longs.map fun x : Nat × LongOp => (x.1, { x.2 with quiet := true, waiters := [] })
    spans := d.spans.map fun x : Nat × Span => (x.1, { x.2 with waiting := [], running := none, drain := none, late := [], loadCmd := none })
    seqs := d.seqs.map fun x : Nat × Seq => (x.1, { x.2 with leaver := none })
    via := { d.via with sends := [], recvs := [], rts := [] }
    blk := { d.blk with resolutions := [] }
    sec := if d.sec.submitBusy && d.sec.submitPhase = 1#2 then
        { d.sec with submitBusy := false, submitPhase := 0#2, submitErr := BitVec.ofNat 8 Config.cancelled } else d.sec }

/-- The draw falls to the brake floor, without ballast (R366, R367, R369). -/
def Dev.hardFloor (d : Dev) : Dev :=
  { d with pwr := { d.pwr with ceiling := 100 * bitsAt d.pwr.brakeFloor.toNat 0 16, floor := 0, ballast := false, ballastShort := false, hard := true } }

/-- A cause of R340 is detected: it is latched, and a package that is not in the parapet state enters it. A package-warm reset that it cuts short is
not repeated by itself (R352). -/
def Dev.parapet (e : Env) (d : Dev) (cause code : Nat) : Dev :=
  let mark (r : Ras) : Ras := { r with cause := r.cause ||| BitVec.ofNat 8 (2 ^ cause), latched := r.latched ||| BitVec.ofNat 8 (2 ^ cause) }
  if d.ras.st = .parapet || d.ras.st = .retired then { d with ras := mark d.ras }
  else
    let cut := d.ras.resetting.any fun x => x.1 = .package
    let d := Dev.dropAll e d
    let r : Ras := { d.ras with
      st := .parapet, latched := 0#8, lastCode := BitVec.ofNat 8 code, lastTime := BitVec.ofNat 64 e.now, resetting := [], coldReset := false, testing := [], toFence := []
      supplyHard := false, noAuto := cut }
    let kept := d.blk.selfRef.filter fun x => x.2 = 1
    (({ d with ras := mark r, blk := { d.blk with selfRef := kept } }).faultSets.hardFloor).rasEvent e 1 code

/-! ### The work list -/

/-- One item: the state after it, and the items it adds. -/
def todoStep (e : Env) (d : Dev) (seen : List Nat) (t : Todo) : Dev × List Nat × List Todo :=
  let keep (r : Dev × List Todo) : Dev × List Nat × List Todo := (r.1, seen, r.2)
  match t with
  | .fail uid status result =>
    match d.openOf uid with
    | none => (d, seen, [])
    | some o => keep (failCmd e d o status result)
  | .done uid result =>
    match d.openOf uid with
    | none => (d, seen, [])
    | some o =>
      if o.group = 0 || o.opcode = opCommit then (((commitOutputs e d o).complete uid Config.ok result), seen, [])
      else
        let d : Dev := { d with opens := d.opens.map fun x : OpenCmd => if x.uid = uid then { x with held := true } else x }
        match d.groupOf o.func o.group with
        | some g => if g.aborted then keep ((discardOutputs e d uid).complete uid Config.peerAbort 0, [])
            else (d.setGroup { g with held := g.held ++ [(uid, BitVec.ofNat 64 result)] }, seen, [.groupTry o.func o.group])
        | none => (d, seen, [])
  | .flush k => if seen.contains k then (d, seen, []) else let r := flushAll (d.markIdle e.now k) k; (r.1, k :: seen, r.2)
  | .linked k force =>
    let s := d.span k
    if seen.contains k || (force && s.keyed) then (d, seen, [])
    else match s.running.bind d.openOf with
      | some o => (d, seen, [.fail o.uid Config.peerAbort 0])
      | none => (d, seen, [.flush k])
  | .lose k status result ok force => let r := loseSpan (d.markIdle e.now k) k status result ok force; (r.1, k :: seen, r.2)
  | .next k => let r := nextOnSpan e d k; (r.1, if (r.1.span k).running.isSome then seen.filter (· ≠ k) else seen, r.2)
  | .stepOn uid => keep (stepOnward e d uid)
  | .stepBegin die => keep (beginSteps d die)
  | .groupFail f n own => keep (failGroup e d f n own)
  | .groupTry f n => (tryGroup e d f n, seen, [])
  | .groupDecide f n c => keep (decideGroup e d f n c)
  | .parapet cause code => (Dev.parapet e d cause code, seen, [])

/-- Works a list of items off in order, those an item adds before the rest; what starts, starts after everything that ends. `fuel` bounds the
number of items. -/
def settleFuel (e : Env) : Nat → Dev → List Nat → List Todo → Dev
  | 0, d, _, _ => d
  | _, d, _, [] => d
  | fuel + 1, d, seen, t :: rest =>
    let r := todoStep e d seen t
    settleFuel e fuel r.1 r.2.1 (r.2.2.filter (fun t => !t.starts) ++ rest ++ r.2.2.filter (·.starts))

/-- Every item adds items only for commands and spans it ends, so this many steps work any list off. -/
def Dev.settle (d : Dev) (e : Env) (l : List Todo) : Dev :=
  settleFuel e (64 * (d.opens.length + d.groups.length + d.spans.length + l.length + 256)) d [] l

/-- Ends a command with a run-time error and the fault record that names it. -/
def Dev.failFault (d : Dev) (e : Env) (o : OpenCmd) (i : FaultInfo) : Dev :=
  let (n, d) := d.recordFault e o.func o.queue (cmdId o.cmd) i
  d.settle e [.fail o.uid i.error n]

end Sys2Proof.Machine
end

