-- ==== Sys2Proof/Machine/Start.lean ====
section
/-!
DEFINITION. How a Control ISA command starts: when the head of a queue may start (R121), the checks in the order of R120, a part's group (R137),
the commands that are held, and the choice of the dispatcher (R290 to R292).
-/
namespace Sys2Proof.Machine

/-- A refusal: error code and byte offset (R120). -/
abbrev Reject := Nat × Nat

/-! ### The head of a queue (R121) -/

/-- The queue is held by an open WAIT or BARRIER. -/
def Dev.queueHeld (d : Dev) (f q : Nat) : Bool :=
  d.opens.any fun o => o.func = f && o.queue = q && (o.opcode = opWait || o.opcode = opBarrier)
/-- Every command of the queue that has started has completed. -/
def Dev.queueClear (d : Dev) (f q : Nat) : Bool := !(d.opens.any fun o => o.func = f && o.queue = q)
/-- FENCE is set, or the command acts as if it were. -/
def cmdFenced (c : Command) : Bool := cmdFence c || cmdOpcode c = opSignal || cmdOpcode c = opBarrier
/-- The head of the queue is held by WAIT, BARRIER or FENCE (R297: BLOCKED). -/
def Dev.queueBlocked (d : Dev) (f q : Nat) : Bool :=
  d.queueHeld f q || (match (d.queue f q).fetched.head? with | some x => cmdFenced x.cmd && !d.queueClear f q | none => false)

/-- The command `c` at the head of a queue of a live function, where R121 lets it start. -/
def Dev.headOf (d : Dev) (f q : Nat) (c : Command) : Option Fetched :=
  if d.inService && d.funcLive f && (d.queue f q).st ≠ .unbound && !d.queueBlocked f q then
    match (d.queue f q).fetched.head? with
    | some x => if x.cmd = c then some x else none
    | none => none
  else none

/-- A number that no open command has. -/
def Dev.freshUid (d : Dev) : Nat := (d.opens.map fun o => o.uid + 1).foldl max d.nextUid

/-- Takes the head of a queue as an open command. -/
def Dev.openHead (d : Dev) (e : Env) (f q : Nat) (x : Fetched) (owner : Bool) : OpenCmd × Dev :=
  let u := d.queue f q
  let o : OpenCmd := { uid := d.freshUid, die := u.dieOf, func := f, queue := q, asid := u.asid, cmd := x.cmd, sqHead := x.sqHead,
                       start := e.now, ownerStarted := owner, wasHeld := u.exec.isSome }
  (o, { d.setQueue f q { u with fetched := u.fetched.tail, heldSince := none, exec := none } with
        nextUid := d.freshUid + 1, opens := d.opens ++ [o] })

/-! ### Checks (R28, R120) -/

/-- A check fails with an offset, or with a code of its own. -/
abbrev Bad := Bool × Nat

def firstBad (code : Nat) (l : List Bad) : Option Reject := (l.find? (·.1)).map fun x => (code, x.2)

/-- The first failing check: reserved bits and then field values, each at the lowest offset, handles, permissions with the class of R288 first, absent units, and what comes
after. On a die without a usable cluster every command but NOP and TIMESTAMP ends as an absent unit (R22), whatever else is wrong with it. A command that
was held keeps the class it was held with (R303). -/
def Dev.checks (d : Dev) (e : Env) (o : OpenCmd) (fields : List Bad := []) (handles : List Bad := []) (perms : List Bad := [])
    (absent : List Bad := []) (rest : List (Option Reject) := []) : Option Reject :=
  let parts := o.group ≠ 0 && (match d.groupOf o.func o.group with
    | some g => !g.aborted && (match g.need with | some n => n < d.countedParts o.func o.group | none => false)
    | none => false)
  let values := ((fields ++ [((parts, 12) : Bad)]).filter fun x : Bad => x.1).map fun x : Bad => x.2
  let bad := if (reservedBytes o.cmd).isEmpty then values else reservedBytes o.cmd
  let hub := o.opcode = opNop || o.opcode = opTimestamp
  let noClass : Bad := (!o.wasHeld && !bitAt (d.funcClasses o.func) (cmdClass o.cmd), 8)
  if !hub && e.kf.dieDead o.die then some (Config.unitAbsent, 0)
  else if bad.isEmpty then
    [firstBad Config.badHandle handles,
     firstBad Config.noPermission (noClass :: perms),
     firstBad Config.unitAbsent absent].findSome? id
      |>.orElse fun _ => rest.findSome? id
  else some (Config.badField, minList 0 bad)

/-- A check whose failure has a code of its own. -/
def fails (b : Bool) (code off : Nat) : Option Reject := if b then some (code, off) else none

/-! ### Address spaces that a command names (R172) -/

/-- An ASID that no field may hold, one that is not in use, and one of another function. -/
def badAsid (a : Nat) : Bool := a = 0 || 4095 < a
def Dev.deadAsid (d : Dev) (a : Nat) : Bool := !asidValid (d.asidEntry a)
def Dev.foreignAsid (d : Dev) (a func : Nat) : Bool := asidFunc (d.asidEntry a) ≠ func

/-- A range of the sealed region holds a page of an encrypted version (R184). -/
def Dev.rangeConfidential (d : Dev) (va n : Nat) : Bool :=
  n ≠ 0 && d.vers.any fun x => x.2.st ≠ .free && x.2.encrypted
    && va < sealedBase + unitBytes * (x.2.region + (x.2.payloadLen + unitBytes - 1) / unitBytes) && sealedBase + unitBytes * x.2.region < va + n

/-! ### The start -/

/-- Starts the head of a queue: it is refused by its checks, ends with a group that waits for its COMMIT, or runs. -/
def startCmd (e : Env) (d : Dev) (f q : Nat) (x : Fetched) (owner : Bool) (check : Env → Dev → OpenCmd → Option Reject)
    (run : Env → Dev → OpenCmd → Dev) : Dev :=
  let (o, d) := d.openHead e f q x owner
  match check e d o with
  | some (code, off) => d.complete o.uid code off
  | none =>
    if o.group = 0 then run e d o
    else match d.groupOf o.func o.group with
      | some g => if g.aborted then d.complete o.uid Config.peerAbort 0 else run e d o
      | none => run e (d.setGroup { func := o.func, num := o.group }) o

/-- The row of a command without an executor. -/
def startRow (e : Env) (d : Dev) (f q : Nat) (c : Command) (check : Env → Dev → OpenCmd → Option Reject)
    (run : Env → Dev → OpenCmd → Dev) : Dev :=
  match d.headOf f q c with
  | some x => startCmd e d f q x false check run
  | none => d

/-! ### Executors and held commands (R290, R292) -/

def Dev.lookahead (d : Dev) : Nat := bitsAt d.sch.lookahead.toNat 0 5

/-- Launches that wait on a span (R129, R143), and launches of it started and not ended. -/
def Span.waits (s : Span) : Nat := s.waiting.length + s.late.countP fun x => !x.2
def Span.launches (s : Span) : Nat := s.waits + bit s.running.isSome

/-- The executor of a command bound to a die, where it has one: none for a handle that names no loaded span. -/
def Dev.executor (d : Dev) (e : Env) (die : Nat) (c : Command) : Option Executor :=
  if e.kf.dieDead die then none
  else if cmdOpcode c = opSpanLaunch then
    if cmdField c 16 4 < 256 && (d.span (cmdSlot c)).st ≠ .free then some (.span (cmdSlot c)) else none
  else if cmdOpcode c = opSeqStep then some .steps
  else if cmdOpcode c = opTrestle && e.fuse.hasTrestle then some .trestle
  else none

/-- Whether the executor is full for a command. -/
def Dev.full (d : Dev) (die : Nat) (x : Executor) (c : Command) : Bool :=
  match x with
  | .span k => d.lookahead ≤ (d.span k).launches
  | .steps => d.lookahead ≤ (d.stepsUnder die).length
  | .trestle => d.trestleFull die (trStacks c)

/-- The queues of a die whose heads are held, with function and queue number. -/
def Dev.held (d : Dev) (die : Nat) : List (Nat × Queue) := d.hif.queues.filter fun x => x.2.exec.isSome && x.2.dieOf = die
def Queue.headClass (u : Queue) : Nat := (u.fetched.head?.map fun x : Fetched => cmdClass x.cmd).getD 0

/-- A head becomes held: the virtual time of a class that had nothing on the die is raised (R292). -/
def Dev.hold (d : Dev) (e : Env) (f q die : Nat) (c : Command) (x : Executor) : Dev :=
  let k := cmdClass c
  let held := d.held die
  let had := held.any (fun y => y.2.headClass = k) || d.opens.any fun o => o.die = die && cmdClass o.cmd = k
  let vts := held.map fun y => d.vt die y.2.headClass
  let d := if had || held.isEmpty then d
    else { d with sch := { d.sch with vt := Tab.put (16 * die + k) (max (d.vt die k) (minList 0 vts)) d.sch.vt } }
  d.modQueue f q fun u => { u with heldSince := some e.now, exec := some x }

/-! ### The choice of the dispatcher (R291, R295) -/

/-- Clusters that the places of a span name. -/
def Span.placeClusters (s : Span) (die : Nat) : List Nat := (List.range s.nplace).map fun k => 4 * die + bitsAt s.places.toNat (2 * k) 2

/-- Class and clusters of the owner of the slot that runs. -/
def Dev.slotOwner (d : Dev) (e : Env) : Option (Nat × List Nat) :=
  if !d.sch.inCycle then none
  else
    let v := ((d.sch.cycle[d.sch.slot]?).getD 0#64).toNat
    let cl := (bitList 16 (bitsAt v 32 16)).filter fun c => e.kf.usable c
    if cl.isEmpty then none else some (bitsAt v 16 4, cl)

/-- The clusters of the spans of the plan that a SEQ_STEP names. -/
def Dev.planClusters (u : Fuses) (d : Dev) (die func : Nat) (c : Command) : List Nat :=
  let asid := cmdField c 32 2
  match d.rtRead u die asid func (cmdField c 16 8) 64 with
  | .error _ => []
  | .ok l =>
    match d.readPlan u die asid func (bytesAt l 0 8) with
    | .ok (some p) => (p.buckets.flatMap fun b => b.spans ++ b.dspans).flatMap fun h => (d.span (handleSlot h)).placeClusters (handleSlot h / 64)
    | _ => []

/-- The command is of the class that owns the slot, and the clusters of its executor meet the owned ones. -/
def Dev.owned (d : Dev) (e : Env) (die func : Nat) (x : Executor) (c : Command) : Bool :=
  match d.slotOwner e with
  | none => false
  | some (k, cl) => cmdClass c = k && (match x with
    | .span n => ((d.span n).placeClusters (n / 64)).any cl.contains
    | .steps => (d.planClusters e.fuse die func c).any cl.contains
    | .trestle => false)

/-- The head that the dispatcher starts next on an executor, of those held whose command finds it not full: key 64 × function + queue, and whether
it is owner-started. -/
def Dev.choice (d : Dev) (e : Env) (die : Nat) (x : Executor) : Option (Nat × Bool) :=
  let cands := (d.held die).filter fun y => y.2.exec = some x && (match y.2.fetched.head? with
    | some h => !d.full die x h.cmd && !d.queueBlocked (y.1 / 64) (y.1 % 64) && d.funcLive (y.1 / 64)
    | none => false)
  let own := cands.filter fun y => match y.2.fetched.head? with
    | some h => d.owned e die (y.1 / 64) x h.cmd
    | none => false
  let pick (l : List (Nat × Queue)) : Option Nat :=
    (firstBy (fun a b : Nat × Queue =>
      (a.2.heldSince.getD 0) < (b.2.heldSince.getD 0) || (a.2.heldSince.getD 0 = b.2.heldSince.getD 0 && a.1 < b.1)) l).map (·.1)
  if own.isEmpty then
    let shared := cands.filter fun y => d.share y.2.headClass ≠ 0
    let l := if shared.isEmpty then cands else shared
    match firstBy (fun a b : Nat => d.vt die a < d.vt die b || (d.vt die a = d.vt die b && a < b)) (l.map (·.2.headClass)) with
    | none => none
    | some k => (pick (l.filter fun y => y.2.headClass = k)).map fun n => (n, false)
  else (pick own).map fun n => (n, true)

/-- The head that a row lets start, with whether it is owner-started: one that needs no executor; one that is not held, where the executor has room for it
and for nothing that is held; and a held one that is the dispatcher's choice. -/
def Dev.mayStart (d : Dev) (e : Env) (f q : Nat) (c : Command) : Option (Fetched × Bool) :=
  match d.headOf f q c with
  | none => none
  | some h =>
    let u := d.queue f q
    let die := u.dieOf
    match u.exec, d.executor e die c with
    | _, none => some (h, false)
    | some x, some _ =>
      match d.choice e die x with
      | some (n, owner) => if n = 64 * f + q then some (h, owner) else none
      | none => none
    | none, some x => if d.full die x c || (d.choice e die x).isSome then none else some (h, d.owned e die f x c)

/-- The executor for which the head of a queue, not held yet, becomes held. -/
def Dev.mayHold (d : Dev) (e : Env) (f q : Nat) (c : Command) : Option Executor :=
  if (d.headOf f q c).isSome && (d.queue f q).exec.isNone && (d.mayStart e f q c).isNone then d.executor e (d.queue f q).dieOf c else none

/-- The row of a command with an executor: its head starts, becomes held, or waits. -/
def startHeld (e : Env) (d : Dev) (f q : Nat) (c : Command) (check : Env → Dev → OpenCmd → Option Reject)
    (run : Env → Dev → OpenCmd → Dev) : Dev :=
  match d.mayStart e f q c with
  | some (h, owner) => startCmd e d f q h owner check run
  | none => match d.mayHold e f q c with
    | some x => d.hold e f q (d.queue f q).dieOf c x
    | none => d

end Sys2Proof.Machine
end

