-- ==== Sys2Proof/WellFormed.lean ====
section
/-!
DEFINITION. Which terms of `Instr` are commands of the hardware: a Control ISA row carries its own opcode, a flit row its own KIND, a unit's
number lies in its range. A meaning refuses every other term by the name `illFormed`.
-/
namespace Sys2Proof

open Sys2Proof.Machine

/-- The command carries the opcode of its row (R117). -/
def cmdIs (op : Nat) (c : Command) : Bool := cmdOpcode c = op

/-- OP of a TRESTLE (R117, R206). -/
def trestleOp (c : Command) : Nat := cmdField c 16 1

/-- A TRESTLE of operation `op`; the GATHER row takes the codes that R206 does not assign as well, which its checks refuse. -/
def trestleIs (op : Nat) (c : Command) : Bool :=
  cmdOpcode c = opTrestle && (trestleOp c = op || (op = 1 && (trestleOp c = 0 || 9 < trestleOp c)))

/-- An opcode that R117 does not assign (R437). -/
def cmdUnassigned (c : Command) : Bool := !opAssigned (cmdOpcode c)

/-- A port of an engine that exists (R39). -/
def EngPort.wf (p : EngPort) : Bool := p.cl < 16 && p.phys < 32 && p.eng < 8 && p.port < 4

def RouteSrc.wf : RouteSrc → Bool
  | .port p => p.wf
  | .recvEp d e => d < 4 && e < 32

def RouteDst.wf : RouteDst → Bool
  | .port p => p.wf
  | .sendEp d e => d < 4 && e < 32

def KeySite.wf : KeySite → Bool
  | .engine c p e => c < 16 && p < 32 && e < 8
  | .sendEp d e => d < 4 && e < 32
  | .recvEp d e => d < 4 && e < 32

def Requester.wf : Requester → Bool
  | .stream c p m x => c < 16 && p < 32 && m < 4 && x < 8
  | .command _ => true
  | .long s => s < 1024

def Executor.wf : Executor → Bool
  | .span k => k < 256
  | .steps => true
  | .trestle => true

def ResetTarget.wf : ResetTarget → Bool
  | .core c p => c < 16 && p < 32
  | .cluster c => c < 16
  | .die d => d < 4
  | .package => true

/-- A flit of KIND `k`, every field in its width (R309). -/
def Flit.wf (k : FlitKind) (f : Flit) : Bool :=
  f.kind = k && f.dstX < 16 && f.dstY < 16 && f.srcX < 16 && f.srcY < 16 && f.srcLX < 16 && f.srcLY < 16 && f.vc < 4
    && f.tag < 2 ^ 32 && f.xfer < 2 ^ 12 && f.lseq < 1024 && f.cvc < 4 && f.credits < 64 && f.payload.length ≤ 240

/-- An owner record of operation `op` (R404); the CLAIM row takes the codes that R404 does not assign as well. -/
def recordIs (op : Nat) (l : List Byte) : Bool :=
  bytesAt l 4 1 = op || (op = 1 && (bytesAt l 4 1 = 0 || 7 < bytesAt l 4 1))

/-- A value of RAS_RESET with DOMAIN `d` (R354). -/
def resetIs (d : Nat) (v : Quad) : Bool := bitsAt v.toNat 0 3 = d

/-- A value of RAS_FENCE with WHOLE as given (R354). -/
def fenceIs (whole : Bool) (v : Quad) : Bool := bitAt v.toNat 9 = whole

/-- A BAR2 access of PCIe: it has bytes, at most `n`, and does not cross 4 KiB (R374). -/
def barAccess (off len n : Nat) : Bool := 1 ≤ len && len ≤ n && off % 4096 + len ≤ 4096

/-- Commands fetched at once: 1 to 8 (R382). -/
def fetchWf (l : List Command) : Bool := 1 ≤ l.length && l.length ≤ 8

/-- The junction temperatures of R372: one for each of the six sensors. -/
def Measured.wf (m : Measured) : Bool := m.temps.length = 6

/-- The terms that are commands of the hardware. -/
def Instr.wf : Instr → Bool
  | .nop _ _ c => cmdIs opNop c
  | .badOpcode _ _ c => cmdUnassigned c
  | .spanLoad _ _ c => cmdIs opSpanLoad c
  | .spanLaunch _ _ c => cmdIs opSpanLaunch c
  | .spanDrain _ _ c => cmdIs opSpanDrain c
  | .dispenseSet _ _ c => cmdIs opDispenseSet c
  | .move _ _ c => cmdIs opMove c
  | .image _ _ c => cmdIs opImage c
  | .evictImage _ _ c => cmdIs opEvictImage c
  | .gather _ _ c => trestleIs 1 c
  | .scatter _ _ c => trestleIs 2 c
  | .scatterAdd _ _ c => trestleIs 3 c
  | .decode _ _ c => trestleIs 4 c
  | .reduce _ _ c => trestleIs 5 c
  | .update _ _ c => trestleIs 6 c
  | .pfxLookup _ _ c => trestleIs 7 c
  | .pfxInsert _ _ c => trestleIs 8 c
  | .score _ _ c => trestleIs 9 c
  | .wait _ _ c => cmdIs opWait c
  | .signal _ _ c => cmdIs opSignal c
  | .barrier _ _ c => cmdIs opBarrier c
  | .commit _ _ c => cmdIs opCommit c
  | .abort _ _ c => cmdIs opAbort c
  | .viaSend _ _ c => cmdIs opViaSend c
  | .viaRecv _ _ c => cmdIs opViaRecv c
  | .seqStep _ _ c => cmdIs opSeqStep c
  | .admitSession _ _ c => cmdIs opAdmit c
  | .release _ _ c => cmdIs opRelease c
  | .timestamp _ _ c => cmdIs opTimestamp c
  | .longSuspend _ _ c => cmdIs opLongSuspend c
  | .longResume _ _ c => cmdIs opLongResume c
  | .longCancel _ _ c => cmdIs opLongCancel c
  | .longQuery _ _ c => cmdIs opLongQuery c
  | .objLoad _ _ c _ => cmdIs opObjLoad c
  | .objRetire _ _ c => cmdIs opObjRetire c
  | .commandFetch _ _ l => fetchWf l
  | .dispatch _ x => x.wf
  | .tokenArrival d _ => d.wf
  | .tokenSend r => r.wf
  | .creditReturn r => r.wf
  | .keystoneForward k => k.wf
  | .tierDeadlineExpiry r => r.wf
  | .pageWalkDone r _ => r.wf
  | .faultDeadlineExpiry r => r.wf
  | .resetCore _ v => resetIs 1 v
  | .resetCluster _ v => resetIs 2 v
  | .resetDie _ v => resetIs 3 v
  | .resetPackageWarm _ v => resetIs 4 v
  | .resetComplete t => t.wf
  | .fenceCore _ v => fenceIs false v
  | .fenceCluster _ v => fenceIs true v
  | .selfTestDone t _ _ => t.wf
  | .bridgeEcc _ l => l.all Requester.wf
  | .governorPeriod m => m.wf
  | .vfFlr f => f ≠ 0
  | .bar2Read _ off len => barAccess off len 4096
  | .bar2Write _ off l _ => barAccess off l.length 512
  | .idle _ f => f.wf .idle
  | .data _ f => f.wf .data
  | .rts _ f => f.wf .rts
  | .cts _ f => f.wf .cts
  | .nack _ f => f.wf .nack
  | .endAck _ f => f.wf .endAck
  | .linkFail _ f => f.wf .linkFail
  | .xferAbort _ f => f.wf .xferAbort
  | .vote _ f => f.wf .vote
  | .decision _ f => f.wf .decision
  | .query _ f => f.wf .query
  | .decisionAck _ f => f.wf .decisionAck
  | .heartbeat _ f => f.wf .heartbeat
  | .ident _ f => f.wf .ident
  | .withdraw _ f => f.wf .withdraw
  | .lretry _ f => f.wf .lretry
  | .claim l => recordIs 1 l
  | .ownerRelease l => recordIs 2 l
  | .pubEnrol l => recordIs 3 l
  | .pubRemove l => recordIs 4 l
  | .reqEnrol l => recordIs 5 l
  | .reqRemove l => recordIs 6 l
  | .policy l => recordIs 7 l
  | .loadComplete .. | .launchEnd .. | .drainComplete .. | .moveChunk .. | .moveComplete .. | .imageSegment .. | .evictPagesFree .. => true
  | .trestleDone .. | .stepCommit .. | .objLoadSegment .. | .retireTeardown .. | .retirePagesFree .. => true
  | .sqDoorbell .. | .cqDoorbell .. | .fetchFault .. | .cycleStart | .slotStart | .ceFiring .. | .meFiring .. => true
  | .handoffReceive .. | .arbRound .. | .dynamicSlotGrant .. | .tierTransferDone .. | .faultResolutionStart .. => true
  | .faultResolutionDone .. | .scrubRead .. | .tlbInv .. | .tlbInvDone | .poolLock .. | .arbClear .. | .eventWrite .. => true
  | .counterReadClear .. | .registerWrite .. | .retirementRecordWrite | .spanReload .. | .rasUnretire .. => true
  | .coreWatchdogExpiry .. | .commandDeadlineExpiry .. | .pierWatchdogExpiry .. | .hubWatchdogExpiry => true
  | .dieResetWatchdogExpiry .. | .coreControlEcc .. | .clusterControlEcc .. | .hubControlEcc | .cePolicyFence .. | .autoReset => true
  | .powerOn | .powerRemoval | .perstAssert | .perstRelease .. | .bootReady .. | .supplyUndervoltage | .supplyOvervoltage => true
  | .regulatorFault | .refclkLoss | .epoAssert | .brakeAssert | .brakeRelease | .thermalTrip | .thermalForcedFloor => true
  | .heartbeatTimeout | .pwrHeartbeat .. | .clusterNap .. | .clusterDeep .. | .clusterWake .. | .clusterWakeDone .. | .clkWake .. => true
  | .queueEnable .. | .queueDisable .. | .queueDrainDone .. | .funcDisable .. | .vfDisable .. | .pfFlr => true
  | .funcResetComplete .. | .linkLoss | .portTrainingAttempt .. | .trainingTimeout .. => true
  | .portTrain .. | .mapout .. | .mapoutClr .. | .peerStateWrite .. | .laneLockLoss .. | .linkSilenceExpiry .. => true
  | .viaHeartbeatSend | .peerFaultReceived .. | .peerFaultClear .. | .rtsResend .. | .voteResend .. | .querySend .. => true
  | .imageBoot .. | .imageWriteFlash .. | .flashWriteDone | .registerReadMessage .. | .registerWriteMessage .. => true
  | .getPdrRepositoryInfo | .getPdr .. | .getSensorReading .. | .getStateSensorReadings .. | .getNumericEffecterValue .. => true
  | .setNumericEffecterValue .. | .pollForPlatformEventMessage | .setEndpointId .. | .getEndpointId | .getMctpVersionSupport .. => true
  | .getMessageTypeSupport | .getVendorDefinedMessageSupport .. | .entdaa .. | .setnewda .. | .rstdaa | .getpid | .getbcr => true
  | .getdcr | .getmrl | .getmwl | .setmrl .. | .setmwl .. | .spdmGetCertificate .. | .spdmChallenge .. | .spdmGetMeasurements .. => true
  | .spdmKeyExchange .. | .spdmHeartbeat .. | .spdmEndSession .. | .epoRelease | .thermtripRelease => true
  | .inputWithinOperatingRange | .refclkPresent | .flitCrcFailure .. | .msixUnmask .. | .stackFailure .. | .spdmGetVersion => true
  | .spdmGetCapabilities | .spdmNegotiateAlgorithms | .spdmGetDigests | .spdmFinish .. | .pldmBaseDiscovery => true

end Sys2Proof
end

