-- ==== Sys2Proof/Machine/Control.lean ====
section
/-!
DEFINITION. Control ISA commands that synchronise queues, decide groups and steer long operations (R123, R135 to R141, R437).
-/
namespace Sys2Proof.Machine

/-- A command that has done its work at its start. -/
def Dev.finish (d : Dev) (o : OpenCmd) (result : Nat) : Dev := d.complete o.uid Config.ok result

/-! ### NOP, TIMESTAMP and unassigned opcodes (R123, R437) -/

/-- A command whose header and reserved bytes are all that is checked. -/
def bareCheck (e : Env) (d : Dev) (o : OpenCmd) : Option Reject := d.checks e o

def execNop (f : FuncId) (q : QueueId) (c : Command) (s : State) : Res :=
  guarded (cmdIs opNop c) (onDev s fun e d => startRow e d f q c bareCheck fun _ d o => d.finish o 0)

def execTimestamp (f : FuncId) (q : QueueId) (c : Command) (s : State) : Res :=
  guarded (cmdIs opTimestamp c) (onDev s fun e d => startRow e d f q c bareCheck fun e d o => d.finish o e.now)

/-- The opcode is the first thing that is checked; an opcode that is not assigned is refused there. -/
def execBadOpcode (f : FuncId) (q : QueueId) (c : Command) (s : State) : Res :=
  guarded (cmdUnassigned c) (onDev s fun e d => startRow e d f q c (fun _ _ _ => some (Config.badOpcode, 0)) fun _ d _ => d)

/-! ### Event counters (R135) -/

def cmdEvent (c : Command) : Nat := cmdField c 16 2
def cmdCond (c : Command) : Nat := cmdField c 18 1
def cmdValue (c : Command) : Nat := cmdField c 24 8

/-- A counter value meets the condition of a WAIT. -/
def waitMet (c : Command) (v : Nat) : Bool := if cmdCond c = 1 then v = cmdValue c else cmdValue c ≤ v

/-- An event counter takes a value, and the WAITs that it satisfies complete. -/
def Dev.setCounter (d : Dev) (f i : Nat) (v : Quad) : Dev :=
  let d := d.setEvent f i v
  (d.opens.filter fun o => o.func = f && o.opcode = opWait && cmdEvent o.cmd = i && waitMet o.cmd v.toNat).foldl
    (fun d o => d.finish o v.toNat) d

def eventCheck (e : Env) (d : Dev) (o : OpenCmd) : Option Reject :=
  d.checks e o (fields := [(1023 < cmdEvent o.cmd, 16), (1 < cmdCond o.cmd, 18)])

def runWait (_ : Env) (d : Dev) (o : OpenCmd) : Dev :=
  let v := (d.event o.func (cmdEvent o.cmd)).toNat
  if waitMet o.cmd v then d.finish o v else d

def execWait (f : FuncId) (q : QueueId) (c : Command) (s : State) : Res :=
  guarded (cmdIs opWait c) (onDev s fun e d => startRow e d f q c eventCheck runWait)

/-- What a SIGNAL leaves in a counter: VALUE for OP 1, the sum mod 2^64 for OP 0. -/
def signalled (c : Command) (old : Quad) : Quad := BitVec.ofNat 64 (if cmdCond c = 1 then cmdValue c else old.toNat + cmdValue c)

def runSignal (_ : Env) (d : Dev) (o : OpenCmd) : Dev :=
  let v := signalled o.cmd (d.event o.func (cmdEvent o.cmd))
  (d.setCounter o.func (cmdEvent o.cmd) v).finish o v.toNat

def execSignal (f : FuncId) (q : QueueId) (c : Command) (s : State) : Res :=
  guarded (cmdIs opSignal c) (onDev s fun e d => startRow e d f q c eventCheck runSignal)

/-! ### Barriers (R136) -/

def barCount (c : Command) : Nat := cmdField c 17 1

def barrierCheck (e : Env) (d : Dev) (o : OpenCmd) : Option Reject :=
  let first := (d.atBarrier o.func (barNumber o.cmd)).head?
  let other := match first with
    | some x => barCount x.cmd ≠ barCount o.cmd
    | none => false
  d.checks e o (fields := [(barCount o.cmd < 2 || 64 < barCount o.cmd || other, 17)])

def runBarrier (_ : Env) (d : Dev) (o : OpenCmd) : Dev :=
  let l := d.atBarrier o.func (barNumber o.cmd)
  if barCount o.cmd ≤ l.length then l.foldl (fun d x => d.finish x 0) d else d

def execBarrier (f : FuncId) (q : QueueId) (c : Command) (s : State) : Res :=
  guarded (cmdIs opBarrier c) (onDev s fun e d => startRow e d f q c barrierCheck runBarrier)

/-! ### Groups (R137, R328 to R332) -/

/-- The state of the coordinator's entry as a participant's COMMIT needs it: none where VIA_LMAP has no valid entry (R326). -/
def Dev.coordPeer (d : Dev) (num : Nat) : Option Nat :=
  let m := d.via.lmapOf (groupCoord num)
  if bitAt m 8 then some (d.via.peer (bitsAt m 0 8)) else none

/-- Entries of the decision log in use, with those that the coordinator COMMITs not decided yet will need (R330). -/
def Dev.logNeeded (d : Dev) : Nat :=
  d.via.log.length + d.groups.countP fun g => g.coord && g.remote ≠ 0 && g.commit.isSome && !g.committed && !g.aborted

def commitCheck (e : Env) (d : Dev) (o : OpenCmd) : Option Reject :=
  let c := o.cmd
  let n := cmdNamedGroup c
  let own := groupCoord n = d.via.logical
  let remote := commitRemote c
  let g := d.groupOf o.func n
  let live := g.any fun g => !g.aborted
  let participant := remote ≠ 0 && !commitCoord c
  d.checks e o
    (fields := [(n = 0 || (commitCoord c && !own) || (participant && own), 16),
                (commitParts c = 0 || 4096 < commitParts c || (live && commitParts c < d.countedParts o.func n), 20),
                (95 < remote || (participant && remote ≠ 1), 22)])
    (absent := [(remote ≠ 0 && e.fuse.part = .kpv4S, 22), (participant && (d.coordPeer n = none || d.coordPeer n = some 0), 16)])
    (rest := [fails (g.any fun g => g.commit.isSome) Config.busy 16,
              fails (remote ≠ 0 && commitCoord c && 4096 ≤ d.logNeeded) Config.quota 16])

/-- A COMMIT of a group that has failed completes and closes it; the other packages hear of it. -/
def commitAborted (e : Env) (d : Dev) (o : OpenCmd) (g : Group) : Dev :=
  let d := if commitRemote o.cmd = 0 then d
    else if commitCoord o.cmd then d.decide e.fuse g false
    else d.voteNo e g.func g.num
  (d.complete o.uid Config.peerAbort 0).closeGroup g.func g.num

def runCommit (e : Env) (d : Dev) (o : OpenCmd) : Dev :=
  let n := cmdNamedGroup o.cmd
  let g : Group := (d.groupOf o.func n).getD { func := o.func, num := n }
  if g.aborted then commitAborted e d o g
  else
    let d := d.setGroup { g with
      commit := some o.uid, need := some (commitParts o.cmd), remote := commitRemote o.cmd, coord := commitCoord o.cmd }
    if commitRemote o.cmd ≠ 0 && !commitCoord o.cmd && d.coordPeer n ≠ some 2 then d.settle e [.fail o.uid Config.link 0]
    else d.settle e [.groupTry o.func n]

def execCommit (f : FuncId) (q : QueueId) (c : Command) (s : State) : Res :=
  guarded (cmdIs opCommit c) (onDev s fun e d => startRow e d f q c commitCheck runCommit)

def abortCheck (e : Env) (d : Dev) (o : OpenCmd) : Option Reject := d.checks e o (fields := [(cmdNamedGroup o.cmd = 0, 16)])

def runAbort (e : Env) (d : Dev) (o : OpenCmd) : Dev :=
  let n := cmdNamedGroup o.cmd
  match d.groupOf o.func n with
  | none => d.finish o (bit (d.groupCommitted o.func n))
  | some g => if g.aborted then (d.closeGroup o.func n).finish o 0 else (d.settle e [.groupFail o.func n none]).finish o 0

def execAbort (f : FuncId) (q : QueueId) (c : Command) (s : State) : Res :=
  guarded (cmdIs opAbort c) (onDev s fun e d => startRow e d f q c abortCheck runAbort)

/-! ### Long operations (R138 to R141) -/

def cmdLong (c : Command) : Nat := cmdField c 16 8
def longSlot (c : Command) : Nat := bitsAt (cmdLong c) 0 16

/-- A handle that names the slot's operation by its generation. -/
def longNames (l : LongOp) (c : Command) : Bool := l.used && bitsAt (cmdLong c) 24 40 = l.gen % 2 ^ 40 && bitsAt (cmdLong c) 16 5 = l.func

def longCheck (e : Env) (d : Dev) (o : OpenCmd) : Option Reject :=
  let l := d.long (longSlot o.cmd)
  d.checks e o
    (fields := [(bitsAt (cmdLong o.cmd) 21 3 ≠ 0, 16)])
    (handles := [(1024 ≤ longSlot o.cmd || !longNames l o.cmd, 16)])
    (perms := [(l.func ≠ o.func, 16)])

/-- The retirement's teardown has begun, and it can no longer be held or undone (R254). -/
def Dev.longFixed (d : Dev) (l : LongOp) : Bool :=
  match l.kind with
  | .objRetire n => (d.ver n).torn.isSome
  | _ => false
/-- OBJ_RETIRE has no chunks (R141). -/
def LongOp.chunked (l : LongOp) : Bool :=
  match l.kind with
  | .objRetire _ => false
  | _ => true

/-- Completes a LONG_ command with the status word as it stands. -/
def Dev.longStatus (d : Dev) (o : OpenCmd) : Dev := d.finish o (d.long (longSlot o.cmd)).status

/-- The LONG_ command waits for the next chunk boundary. -/
def Dev.longWait (d : Dev) (o : OpenCmd) : Dev := d.modLong (longSlot o.cmd) fun l => { l with waiters := l.waiters ++ [o.uid] }

def runLongSuspend (_ : Env) (d : Dev) (o : OpenCmd) : Dev :=
  let k := longSlot o.cmd
  let l := d.long k
  if l.st ≠ .running || d.longFixed l then d.longStatus o
  else if l.chunked then (d.modLong k fun l => { l with suspendPending := true }).longWait o
  else (d.modLong k fun l => { l with st := .suspended }).longStatus o

def execLongSuspend (f : FuncId) (q : QueueId) (c : Command) (s : State) : Res :=
  guarded (cmdIs opLongSuspend c) (onDev s fun e d => startRow e d f q c longCheck runLongSuspend)

/-- A long operation runs on: its next chunk or segment is asked for. -/
def Dev.resumeLong (e : Env) (d : Dev) (k : Nat) : Dev :=
  let d := d.modLong k fun l => { l with st := .running }
  match d.longMove k with
  | some m => if m.waiting then d else d.askChunk e m
  | none => d.askImage e k

def runLongResume (e : Env) (d : Dev) (o : OpenCmd) : Dev :=
  let k := longSlot o.cmd
  (if (d.long k).st = .suspended then d.resumeLong e k else d).longStatus o

def execLongResume (f : FuncId) (q : QueueId) (c : Command) (s : State) : Res :=
  guarded (cmdIs opLongResume c) (onDev s fun e d => startRow e d f q c longCheck runLongResume)

def runLongCancel (e : Env) (d : Dev) (o : OpenCmd) : Dev :=
  let k := longSlot o.cmd
  let l := d.long k
  if (l.st ≠ .running && l.st ≠ .suspended) || d.longFixed l then d.longStatus o
  else if l.st = .suspended || !l.chunked then
    ((d.modLong k fun l => { l with st := .cancelling }).cancelLong e.fuse k Config.cancelled).longStatus o
  else (d.modLong k fun l => { l with st := .cancelling }).longWait o

def execLongCancel (f : FuncId) (q : QueueId) (c : Command) (s : State) : Res :=
  guarded (cmdIs opLongCancel c) (onDev s fun e d => startRow e d f q c longCheck runLongCancel)

def runLongQuery (_ : Env) (d : Dev) (o : OpenCmd) : Dev :=
  let k := longSlot o.cmd
  let free := (d.long k).st.terminal
  let d := d.longStatus o
  if free then d.modLong k fun l => { l with used := false } else d

def execLongQuery (f : FuncId) (q : QueueId) (c : Command) (s : State) : Res :=
  guarded (cmdIs opLongQuery c) (onDev s fun e d => startRow e d f q c longCheck runLongQuery)

end Sys2Proof.Machine
end

