-- ==== Sys2Proof/Machine/EngineOps.lean ====
section
/-!
DEFINITION. Engines at work (R46 to R60, R75 to R94): the units that keep iterations, their inputs and outputs, void iterations and the base, joint
queues and credit returns, the stages of a CE, the addresses of a stream context, and what an engine's fault does (R55).
-/
namespace Sys2Proof.Machine

/-! ### Joint queues and output buffers -/

def keyNet (key : Nat) : Net := netOf (key / 4)
def keyPort (key : Nat) : Nat := key % 4
def portAt (cl ph e key : Nat) : EngPort := { cl := cl, phys := ph, eng := e, net := keyNet key, port := keyPort key }

/-- A token of iteration `n`: its tag is n mod 16 (R44). -/
def token (kind : TokKind) (n : Nat) (epoch : BitVec 4) (payload : BitVec 512) : Token :=
  { kind := kind, tag := BitVec.ofNat 4 n, iter := n, epoch := epoch, payload := payload }

/-- The oldest token of a tag. -/
def JointQueue.of (q : JointQueue) (tag : Nat) : Option Token := q.toks.find? fun t => t.tag.toNat = tag
/-- The queue without the oldest token of a tag. -/
def JointQueue.take (q : JointQueue) (tag : Nat) : JointQueue := { q with toks := q.toks.eraseP fun t => t.tag.toNat = tag }
/-- The queue without any token of a tag. -/
def JointQueue.discard (q : JointQueue) (tag : Nat) : JointQueue := { q with toks := q.toks.filter fun t => t.tag.toNat ≠ tag }

def tokBit (t : Token) : Bool := t.payload.getLsbD 0
def tokWord (t : Token) (l : Nat) : Nat := bitsAt t.payload.toNat (32 * l) 32

/-- Output buffers of an engine hold 16 tokens (R47). -/
def roomFor (outs : Tab (List Token)) (key : Nat) : Bool := (Tab.get [] key outs).length < 16
def pushTok (outs : Tab (List Token)) (key : Nat) (t : Token) : Tab (List Token) := Tab.put key (Tab.get [] key outs ++ [t]) outs

/-! ### Units: what keeps iteration state (R50, R93) -/

/-- A CE, an ME in steering mode, or a bound context: firings of an iteration, iterations of a launch (0: no limit), steering mode, whether
iterations start in order, the inputs of firing j, how many tokens an iteration takes from an input, the inputs it enables, and the outputs that
carry its VOIDs. -/
structure EngUnit where
  firings : Nat
  limit : Nat
  steer : Nat := 0
  ordered : Bool := false
  ins : Nat → List Nat
  full : Nat → Nat
  keys : List Nat
  outs : List Nat

def CeProg.phaseAt (p : CeProg) (j : Nat) : Option Phase := (p.phases.filter fun x : Phase => x.first ≤ j).getLast?
def Phase.inputs (x : Phase) : List Nat :=
  (bitList 4 x.vin).map (4 + ·) ++ bitList 2 x.sin ++ (bitList 2 x.cin).map (8 + ·)
def Phase.outputs (x : Phase) : List Nat :=
  (bitList 2 x.vout).map (4 + ·) ++ (if x.sout then [0] else []) ++ (if x.cout then [8] else [])

/-- Firings of each phase. -/
def CeProg.lens (p : CeProg) : List (Phase × Nat) :=
  p.phases.zip ((p.phases.drop 1).map (·.first) ++ [p.firings]) |>.map fun x : Phase × Nat => (x.1, x.2 - x.1.first)

def CeProg.unit (p : CeProg) (limit : Nat) : EngUnit :=
  { firings := p.firings, limit := limit, steer := p.steer, ordered := p.ordered || p.serial
    ins := fun j => match p.phaseAt j with
      | some x => x.inputs
      | none => []
    full := fun key => (p.lens.map fun x => if x.1.inputs.contains key then x.2 else 0).sum
    keys := (p.phases.flatMap (·.inputs)).eraseDups
    outs := [4, 5, 0, 8] }

/-- An ME in steering mode (R85). -/
def MeProg.steerUnit (p : MeProg) : EngUnit :=
  let data := if p.steer = 2 then [4, 5] else [4]
  { firings := p.sfirings, limit := 0, steer := p.steer
    ins := fun j => (if j = 0 then [8] else []) ++ data
    full := fun key => if key = 8 then 1 else p.sfirings
    keys := 8 :: data
    outs := [4, 5, 0, 8] }

/-- Product of a list of trip counts. -/
def prod (l : List Nat) : Nat := l.foldl (· * ·) 1

def CtxProg.inputs (c : CtxProg) (j : Nat) : List Nat :=
  (if c.role = 1 then [4 + c.vin] else []) ++ (if c.gate = 1 && j = 0 then [8 + c.gq] else []) ++ (if c.gate = 2 then [c.gq] else [])
/-- Outputs that the context's tokens take. -/
def CtxProg.outKeys (c : CtxProg) : List Nat :=
  if c.role ≠ 0 then [] else if c.tok2 then [4, 5] else if c.sout then [0] else [4 + c.out]

def CtxProg.unit (c : CtxProg) (ordered : Bool) (counts : List Nat) : EngUnit :=
  let f := prod (counts.take c.ilev)
  { firings := f, limit := prod (counts.drop c.ilev), ordered := ordered
    ins := c.inputs
    full := fun key => if key = 8 + c.gq && c.gate = 1 then 1 else f
    keys := c.inputs 0
    outs := c.outKeys ++ (if c.sig then [8] else []) }

/-! ### Iterations in the window -/

/-- What a unit and its engine's queues hold while iterations are settled; `freed` counts the slots freed by input, `voided` lists the iterations
found void. -/
structure Settling where
  base : Nat
  iters : Tab Iter
  queues : Tab JointQueue
  outs : Tab (List Token)
  freed : Tab Nat
  voided : List Nat := []

def Settling.iter (s : Settling) (n : Nat) : Iter := Tab.get {} n s.iters
def Settling.queue (s : Settling) (key : Nat) : JointQueue := Tab.get {} key s.queues

/-- Iterations of the window within the launch (R50). -/
def EngUnit.window (u : EngUnit) (base : Nat) : List Nat :=
  [base, base + 1, base + 2, base + 3].filter fun n => u.limit = 0 || n < u.limit

/-- The control value of iteration `n`: held, or that of the control token that waits. -/
def Settling.ctl (s : Settling) (n : Nat) : Option Bool :=
  match (s.iter n).ctl with
  | some b => some b
  | none => match (s.queue 8).of (n % 16) with
    | some t => if t.kind = .data then some (tokBit t) else none
    | none => none

/-- Discards every token of iteration `n` on an input, counting what it delivered. -/
def Settling.discard (s : Settling) (n key : Nat) : Settling :=
  let q := s.queue key
  let gone := q.toks.filter fun t => t.tag.toNat = n % 16
  if gone.isEmpty then s else
    let it := s.iter n
    let it := { it with
      got := Tab.put key (Tab.get 0 key it.got + gone.countP fun t => t.kind = .data) it.got
      voidIn := if gone.any (fun t => t.kind = .void) then key :: it.voidIn else it.voidIn }
    { s with
      iters := Tab.put n it s.iters
      queues := Tab.put key (q.discard (n % 16)) s.queues
      freed := Tab.put key (Tab.get 0 key s.freed + gone.length) s.freed }

/-- A data input of a merge that its control value does not name (R59). -/
def unnamed (ctl : Option Bool) (key : Nat) : Bool := (key = 4 || key = 5) && ctl ≠ some (decide (key = 5))

/-- The inputs whose VOID makes iteration `n` void: all that are enabled, of a merge's data inputs the named one (R57, R59). -/
def EngUnit.voidKeys (u : EngUnit) (s : Settling) (n : Nat) : List Nat :=
  if u.steer = 2 then u.keys.filter fun k => !unnamed (s.ctl n) k else u.keys

/-- A VOID of iteration `n` stands in an input's queue, behind DATA of its tag or not. -/
def Settling.voidAt (s : Settling) (n key : Nat) : Bool := (s.queue key).toks.any fun t => t.tag.toNat = n % 16 && t.kind = .void

/-- Every enabled input has delivered a VOID or its full count (R57, R59). -/
def EngUnit.delivered (u : EngUnit) (it : Iter) : Bool := u.keys.all fun key => it.voidIn.contains key || u.full key ≤ Tab.get 0 key it.got

/-- Outputs on which a void iteration sends its VOID: a select has already sent the one of the output not named (R57, R58). -/
def EngUnit.voidOuts (u : EngUnit) (it : Iter) (routed : List Nat) : List Nat :=
  (u.outs.filter routed.contains).filter fun k => match it.ctl with
    | some b => u.steer ≠ 1 || k ≠ 4 + bit (!b)
    | none => true

/-- Output slots reserved for signals: iterations other than `n` whose firings have all started and whose signal is still to come (R47, R94). -/
def EngUnit.signals (u : EngUnit) (s : Settling) (n : Nat) : Nat :=
  (u.window s.base).countP fun m => m ≠ n && !(s.iter m).complete && !(s.iter m).void && u.firings ≤ (s.iter m).fired

/-- A VOID of iteration `n` finds a slot on an output: on a signal's, beside those reserved (R47). -/
def EngUnit.voidRoom (u : EngUnit) (sig : Bool) (s : Settling) (n key : Nat) : Bool :=
  (Tab.get [] key s.outs).length + (if sig && key = 8 then u.signals s n else 0) < 16

/-- A void iteration: its tokens are discarded; its VOIDs go out once every enabled input has delivered, of a merge at once, its other input
notwithstanding; then it completes when every input has delivered (R57, R59). -/
def EngUnit.settleVoid (u : EngUnit) (vtok : Token) (routed : List Nat) (open_ : Nat → Bool) (sig : Bool) (s : Settling) (n : Nat) : Settling :=
  let s := { s with iters := Tab.put n { s.iter n with void := true } s.iters
                    voided := if s.voided.contains n then s.voided else s.voided ++ [n] }
  let s := u.keys.foldl (fun s k => s.discard n k) s
  let it := s.iter n
  let outs := u.voidOuts it routed
  let whole := u.delivered it && !open_ n
  let send := !it.voidSent && (u.steer = 2 || whole) && outs.all (u.voidRoom sig s n)
  let s := if send then { s with iters := Tab.put n { it with voidSent := true } s.iters, outs := outs.foldl (fun o k => pushTok o k vtok) s.outs } else s
  let it := s.iter n
  if whole && it.voidSent then { s with iters := Tab.put n { it with complete := true } s.iters } else s

/-- Settles iteration `n`: it becomes void, discards its tokens, and completes; a merge discards its other input (R57 to R59). `open_` holds of
an iteration whose transfers are still under way. -/
def EngUnit.settleIter (u : EngUnit) (epoch : BitVec 4) (routed : List Nat) (open_ : Nat → Bool) (sig : Bool) (s : Settling) (n : Nat) : Settling :=
  if (s.iter n).complete then s
  else if (s.iter n).void || (u.voidKeys s n).any (s.voidAt n) then u.settleVoid (token .void n epoch 0#512) routed open_ sig s n
  else
    let s := match u.steer, (s.iter n).ctl with
      | 2, some b => s.discard n (4 + bit (!b))
      | _, _ => s
    if u.firings ≤ (s.iter n).fired && u.delivered (s.iter n) && !open_ n then
      let stok : Token := token .data n epoch 1#512
      { s with iters := Tab.put n { s.iter n with complete := true } s.iters
               outs := if sig && routed.contains 8 then pushTok s.outs 8 stok else s.outs }
    else s

/-- The base passes every completed iteration (R52); `fuel` bounds the passes. -/
def Settling.advance (s : Settling) : Nat → Settling
  | 0 => s
  | fuel + 1 =>
    if (s.iter s.base).complete then Settling.advance { s with base := s.base + 1, iters := Tab.erase s.base s.iters } fuel else s

/-- Settles a unit until nothing more completes; `fuel` bounds the rounds. -/
def EngUnit.settle (u : EngUnit) (epoch : BitVec 4) (routed : List Nat) (open_ : Nat → Bool) (sig : Bool) : Nat → Settling → Settling
  | 0, s => s
  | fuel + 1, s =>
    let t := ((u.window s.base).foldl (u.settleIter epoch routed open_ sig) s).advance 4
    if t.base = s.base then t else EngUnit.settle u epoch routed open_ sig fuel t

/-! ### The firing rule (R51 to R53, R58, R59) -/

/-- Inputs of the next firing of iteration `n`; none while a merge waits for its control token. -/
def EngUnit.nextIns (u : EngUnit) (s : Settling) (n : Nat) : Option (List Nat) :=
  let j := (s.iter n).fired
  if u.steer = 2 then (s.ctl n).map fun b => (u.ins j).filter fun k => !unnamed (some b) k else some (u.ins j)

/-- An iteration none of whose earlier iterations has firings to start, or one that need not wait for them (R53, R78). -/
def EngUnit.inOrder (u : EngUnit) (s : Settling) (n : Nat) : Bool :=
  !u.ordered || (List.range (n - s.base)).all fun i =>
    let it := s.iter (s.base + i)
    it.void || it.complete || u.firings ≤ it.fired

/-- Iteration `n` has a firing to start whose inputs are there; `outs` answers the outputs it writes. -/
def EngUnit.ready (u : EngUnit) (s : Settling) (outs : Nat → List Nat) (n : Nat) : Bool :=
  let it := s.iter n
  !it.void && !it.complete && it.fired < u.firings && u.inOrder s n
  && (match u.nextIns s n with
    | some l => l.all fun k => match (s.queue k).of (n % 16) with
        | some t => t.kind = .data
        | none => false
    | none => false)
  && (outs n).all (roomFor s.outs)

/-- Takes the inputs of a firing of iteration `n`: the tokens by input, and what is left. -/
def Settling.consume (s : Settling) (n : Nat) (ins : List Nat) : Tab Token × Settling :=
  ins.foldl (fun (r : Tab Token × Settling) k =>
    match (r.2.queue k).of (n % 16) with
    | none => r
    | some t =>
      let it := r.2.iter n
      (r.1 ++ [(k, t)],
        { r.2 with
          iters := Tab.put n { it with got := Tab.put k (Tab.get 0 k it.got + 1) it.got } r.2.iters
          queues := Tab.put k ((r.2.queue k).take (n % 16)) r.2.queues
          freed := Tab.put k (Tab.get 0 k r.2.freed + 1) r.2.freed })) ([], s)

def Settling.fire (s : Settling) (n : Nat) : Settling := { s with iters := Tab.put n { s.iter n with fired := (s.iter n).fired + 1 } s.iters }

/-! ### The engine of a core -/

/-- Output ports of an engine from which a route leaves. -/
def Dev.routedOuts (d : Dev) (cl ph e : Nat) : List Nat :=
  [0, 4, 5, 8].filter fun k => (d.routeFrom (.port (portAt cl ph e k))).isSome

/-- Credit returns of an engine to the senders of the inputs named, with slots freed and base (R48). -/
def Dev.sendCredits (d : Dev) (cl ph e : Nat) (l : List (Nat × Nat × Nat)) : Dev :=
  { d with creditMsgs := d.creditMsgs ++ l.filterMap fun x =>
      let t : RouteDst := .port (portAt cl ph e x.1)
      (d.routeTo t).map fun r => { src := r.src, dst := t, slots := x.2.1, base := x.2.2 } }

/-- A context follows another, and a context leads. -/
def MeProg.leaderOf (p : MeProg) (k : Nat) : Option Nat := (p.ctx? k).bind fun c => if c.leadEn then some c.lead else none
def MeProg.followers (p : MeProg) (k : Nat) : List Nat := (p.ctxs.filter fun x : Nat × CtxProg => x.2.leadEn && x.2.lead = k).map fun x : Nat × CtxProg => x.1

/-- The write generator serves SRAM writes and tier fills (R37). -/
def CtxProg.writeGen (c : CtxProg) : Bool := c.role = 1 || c.role = 2

/-- A tier context issues its transfers in ascending order of L (R226). -/
def MeProg.ctxUnit (p : MeProg) (c : CtxProg) (x : Ctx) : EngUnit := c.unit ((p.ordered && c.writeGen) || c.tier) x.counts

/-- The unit by whose window and launch count a token on an input is judged, with its base. DESIGN CHOICE: of several contexts that enable one input of
an ME the lowest-numbered one, since R93 gives each its own window and names none (log entry 60). -/
def Eng.unitAt (x : Eng) (key : Nat) : Option (EngUnit × Nat) :=
  match x.prog with
  | .unused => none
  | .ce p => some (p.unit x.limit, x.base)
  | .me p =>
    if p.steer ≠ 0 then some (p.steerUnit, x.base)
    else (p.ctxs.find? fun y : Nat × CtxProg => (y.2.inputs 0).contains key).map fun y : Nat × CtxProg =>
      let c : Ctx := Tab.get {} y.1 x.ctxs
      (p.ctxUnit y.2 c, c.base)

def Eng.keyBase (x : Eng) (key : Nat) : Nat := match x.unitAt key with
  | some u => u.2
  | none => x.base

/-- Iteration `n` of a context has transfers under way. -/
def Ctx.busyIter (x : Ctx) (firings n : Nat) : Bool := x.outst.any fun t => t.lin / (max firings 1) = n

/-- Settles one context of an ME: what its leader voided is void for it too (R94). -/
def settleCtx (p : MeProg) (epoch : BitVec 4) (routed : List Nat) (r : Eng × Tab Nat) (kc : Nat × CtxProg) : Eng × Tab Nat :=
  let (x, freed) := r
  let c : Ctx := Tab.get {} kc.1 x.ctxs
  let u := p.ctxUnit kc.2 c
  let led : List Nat := match p.leaderOf kc.1 with
    | some l => (Tab.get {} l x.ctxs : Ctx).voided
    | none => []
  let iters := (u.window c.base).foldl (fun (t : Tab Iter) n =>
    if led.contains n then Tab.put n { (Tab.get {} n t : Iter) with void := true } t else t) c.iters
  let s := u.settle epoch routed (c.busyIter u.firings) kc.2.sig 16
    { base := c.base, iters := iters, queues := x.queues, outs := x.outs, freed := freed }
  let c := { c with base := s.base, iters := s.iters
                    voided := if (p.followers kc.1).isEmpty then [] else (c.voided ++ s.voided).eraseDups }
  ({ x with ctxs := Tab.put kc.1 c x.ctxs, queues := s.queues, outs := s.outs }, s.freed)

/-- Voided iterations that every follower has passed are forgotten. -/
def pruneVoided (p : MeProg) (x : Eng) : Eng :=
  { x with ctxs := x.ctxs.map fun y : Nat × Ctx =>
      let low := minList y.2.base ((p.followers y.1).map fun k => (Tab.get {} k x.ctxs : Ctx).base)
      (y.1, { y.2 with voided := y.2.voided.filter (low ≤ ·) }) }

/-- Settles the contexts of an ME; void iterations pass from leaders to followers within eight rounds. -/
def settleCtxs (p : MeProg) (epoch : BitVec 4) (routed : List Nat) (x : Eng) : Eng × Tab Nat :=
  let r := (List.range 8).foldl (fun r _ => p.ctxs.foldl (settleCtx p epoch routed) r) (x, [])
  (pruneVoided p r.1, r.2)

/-- What an engine does without a firing: void iterations, completions, the base (R52, R57, R59, R94). -/
def Eng.settle (x : Eng) (epoch : BitVec 4) (routed : List Nat) : Eng × Tab Nat :=
  let one (u : EngUnit) : Eng × Tab Nat :=
    let s := u.settle epoch routed (fun _ => false) false 16 { base := x.base, iters := x.iters, queues := x.queues, outs := x.outs, freed := [] }
    ({ x with base := s.base, iters := s.iters, queues := s.queues, outs := s.outs }, s.freed)
  match x.prog with
  | .unused => (x, [])
  | .ce p => one (p.unit x.limit)
  | .me p => if p.steer ≠ 0 then one p.steerUnit else settleCtxs p epoch routed x

def addTab (a b : Tab Nat) : Tab Nat := b.foldl (fun t x => Tab.put x.1 (Tab.get 0 x.1 t + x.2) t) a

/-- Stores an engine after a change, settles it, and sends the credits of every input whose slots or base changed. `freed` are the slots the
change itself freed, `old` the engine before it. -/
def Dev.putEng (d : Dev) (cl ph e : Nat) (old x : Eng) (freed : Tab Nat) : Dev :=
  let (x, more) := x.settle (d.core cl ph).epoch (d.routedOuts cl ph e)
  let freed := addTab freed more
  let d := d.setEng cl ph e x
  d.sendCredits cl ph e ((List.range 12).filterMap fun key =>
    if Tab.get 0 key freed ≠ 0 || x.keyBase key ≠ old.keyBase key then some (key, Tab.get 0 key freed, x.keyBase key) else none)

/-- An engine of a core has fired: the count of the core's progress watchdog returns to 0 (R339). -/
def Dev.fired (d : Dev) (cl ph : Nat) : Dev := d.modCore cl ph fun c => { c with still := 0 }

/-! ### Faults of an engine (R55, R131) -/

/-- Place of an ME's SRAM byte in the near tier (R166). -/
def nearAt (cl ph me b : Nat) : Nat := 0x200000 * (32 * cl + ph) + 0x80000 * me + b


/-- An engine raises an error: a fault record is written, the command of the span ends with it, and the span is flushed; after ERR_EPOCH it is
released, a drain that waits on the launch completes, and the failing core is reset (R131, R337). -/
def Dev.engFault (d : Dev) (e : Env) (cl ph eng : Nat) (i : FaultInfo) : Dev :=
  match (d.core cl ph).span with
  | none => d
  | some (die, slot) =>
    let k := 64 * die + slot
    let s := d.span k
    let i := { i with core := some (cl, ph), engine := eng, span := slotHandle k }
    let d := if i.resource = 0x2B then d.nearUncorrected (nearAt cl ph (eng - 4) i.value) else d
    let uid := if s.keyed then s.drain else s.running
    let reset (d : Dev) : Dev := (Dev.restartCore e d cl ph Config.epoch Core.idled).endLoads e.fuse
    match uid.bind d.openOf with
    | none =>
      let (_, d) := d.recordFault e s.func 0 0 i
      if i.error = Config.epoch then reset (d.settle e [.lose k Config.badHandle 16 true]) else d.settle e [.flush k]
    | some o =>
      if i.error = Config.epoch then
        let (n, d) := d.recordFault e o.func o.queue (cmdId o.cmd) i
        let d := if s.keyed then d.settle e [.fail o.uid i.error n]
          else ((d.chargeStopped o k).modSpan k fun s => { s with running := none }).settle e [.fail o.uid i.error n, .lose k Config.badHandle 16 true]
        reset d
      else d.failFault e o i

/-! ### A CE firing (R77 to R85) -/

/-- Register of a stage in a lane. -/
def Eng.reg (x : Eng) (stage r lane : Nat) : Nat := (Tab.get 0#32 ((8 * stage + r) * 16 + lane) x.regs).toNat
def setReg (regs : Tab Word) (stage r lane v : Nat) : Tab Word := Tab.set 0#32 ((8 * stage + r) * 16 + lane) (BitVec.ofNat 32 v) regs

def inTok (ins : Tab Token) (key : Nat) : Token := Tab.get (token .void 0 0#4 0#512) key ins

/-- Value of a source code in a lane (R80). -/
def sourceVal (x : Eng) (stage : Nat) (ins : Tab Token) (chain : List Nat) (vq sq : Nat) (imm : Word) (lane code : Nat) : Nat :=
  if code < 8 then x.reg stage code lane
  else if code = 8 then chain.getD lane 0
  else if code = 9 then tokWord (inTok ins (4 + vq)) lane
  else if code = 10 then tokWord (inTok ins sq) 0
  else if code = 11 then imm.toNat
  else 0

/-- Result of an ALU or special-function word in every lane (R82). -/
def aluResult (op sub : Nat) (dir sat : Bool) (a b c : List Nat) : List Nat :=
  let get (l : List Nat) (i : Nat) : Nat := l.getD i 0
  if op = 0x16 then reduceLanes fpAdd a :: List.replicate 15 0
  else if op = 0x17 then reduceLanes fpMax a :: List.replicate 15 0
  else (List.range 16).map fun i =>
    let x := get a i
    let y := get b i
    match op with
    | 0x0A => fpFma x y (get c i)
    | 0x0B => fpMax x y
    | 0x0C => fpMin x y
    | 0x0D => cvt sub dir sat x
    | 0x0E => x
    | 0x0F => bit (fpCmp sub x y)
    | _ => specialLane op x

/-- The chain through the stages, with open blocks and the registers written. -/
structure Pipe where
  chain : List Nat
  blocks : List Block
  taps : List (List Nat)
  regs : Tab Word

/-- One stage of a firing (R79 to R84): sources are read from the registers `x` as earlier firings left them. -/
def stageStep (x : Eng) (ins : Tab Token) (s : Pipe) (st : Nat × StageOp) : Pipe :=
  let k := st.1
  match st.2 with
  | .snop => { s with taps := s.taps ++ [s.chain] }
  | .alu op wreg keep rd sa sb sc vq sq sub dir sat imm =>
    let v (code : Nat) : List Nat := (List.range 16).map fun l => sourceVal x k ins s.chain vq sq imm l code
    let r := aluResult op sub dir sat (v sa) (v sb) (v sc)
    let regs := if wreg || keep then r.zipIdx.foldl (fun t y => setReg t k rd y.2 y.1) s.regs else s.regs
    let chain := if keep then s.chain else r
    { s with chain := chain, taps := s.taps ++ [chain], regs := regs }
  | .dot fmt opq opoff accIn cq close ssq ssb stsb _ =>
    let operand := bitsAt (inTok ins (4 + opq)).payload.toNat (64 * opoff) (8 * dotBytes fmt)
    let acc (l : Nat) : Nat := if accIn = 0 then s.chain.getD l 0 else if accIn = 1 then 0 else tokWord (inTok ins (4 + cq)) l
    let stat (l : Nat) : Nat := (List.range (dotBytes fmt / 4)).foldl (fun a r => a + x.reg k r l * 2 ^ (32 * r)) 0
    if fmt < 2 then
      let chain := (List.range 16).map fun l => dotNarrow (dotElems fmt (stat l) operand) (acc l)
      { s with chain := chain, taps := s.taps ++ [chain] }
    else
      let blocks := (List.range 16).map fun l => (dotElems fmt (stat l) operand).foldl Block.add (s.blocks.getD l {})
      if close then
        let v := bitsAt (tokWord (inTok ins ssq) 0) (8 * ssb) 8
        let chain := (List.range 16).map fun l =>
          let u := bitsAt (x.reg k (if fmt = 6 || fmt = 7 then 6 else 4) l) (8 * stsb) 8
          if dotMx fmt then (blocks.getD l {}).close (acc l) ((u : Int) + v - 254) (u = 0xFF || v = 0xFF)
          else (blocks.getD l {}).close (acc l) 0 false
        { s with chain := chain, blocks := [], taps := s.taps ++ [chain] }
      else { s with blocks := blocks, taps := s.taps ++ [s.chain] }

/-- A stationary load: word l of the token fills lane l of a register of a stage (R77). -/
def loadReg (n q : Nat) (t : Token) (regs : Tab Word) : Tab Word :=
  (List.range 16).foldl (fun r l => setReg r (q / n) (q % n) l (tokWord t l)) regs

def lanesTok (l : List Nat) : BitVec 512 := BitVec.ofNat 512 (l.zipIdx.foldl (fun a x => a + x.1 % 2 ^ 32 * 2 ^ (32 * x.2)) 0)

/-- What a firing of a CE gives: result tokens by output, the registers, the load count; or a stationary load beyond the registers. -/
inductive CeOut where
  | done (toks : List (Nat × BitVec 512)) (regs : Tab Word) (loads : Nat)
  | overflow (q limit : Nat)

/-- The stages of firing `j` of a CE on its input tokens; `q` is the load count of the phase, `steered` the data token of a steering CE. A merge
consumes one of its data inputs, and only a consumed token is a load. -/
def ceCompute (x : Eng) (p : CeProg) (ph : Phase) (ins : Tab Token) (q : Nat) (steered : Option Token) : CeOut :=
  let n := 4 + ph.ldn
  let loads := (bitList 4 ph.ldst).filterMap fun i => (ins.find? fun y => y.1 = 4 + i && y.2.kind = .data).map (·.2)
  if !loads.isEmpty && 8 * n < q + loads.length then .overflow (max q (8 * n)) (8 * n)
  else
    let chain := match steered with
      | some t => (List.range 16).map (tokWord t)
      | none => List.replicate 16 0
    let regs := loads.zipIdx.foldl (fun r y => loadReg n (q + y.2) y.1 r) x.regs
    let s := (ph.stages.zipIdx.map fun y : StageOp × Nat => (y.2, y.1)).foldl (stageStep x ins) { chain := chain, blocks := [], taps := [], regs := regs }
    let last := s.chain
    let toks := if p.steer ≠ 0 then [(4, lanesTok last)]
      else (if bitAt ph.vout 0 then [(4, lanesTok last)] else [])
        ++ (if bitAt ph.vout 1 then [(5, lanesTok (s.taps.getD p.tap []))] else [])
        ++ (if ph.sout then [(0, BitVec.ofNat 512 (last.getD 0 0))] else [])
        ++ (if ph.cout then [(8, BitVec.ofNat 512 (last.getD 0 0 % 2))] else [])
    .done toks s.regs (q + loads.length)

/-- Outputs that the next firing of iteration `n` writes. DESIGN CHOICE: in a steering CE a phase's SOUT and COUT carry no data token, only the VOIDs of void
iterations, since R85 says nothing of them (log entry 61). -/
def EngUnit.nextOuts (u : EngUnit) (s : Settling) (phaseOuts : Nat → List Nat) (routed : List Nat) (n : Nat) : List Nat :=
  let j := (s.iter n).fired
  let l := match u.steer with
    | 0 => phaseOuts j
    | 1 => match s.ctl n with
      | some b => if j = 0 then [4, 5] else [4 + bit b]
      | none => [4, 5]
    | _ => [4]
  l.filter routed.contains

/-- The tokens of a steering firing: the data token on the output named and, with the first firing of a select, a VOID on the other. -/
def steerToks (steer : Nat) (first : Bool) (b : Bool) (payload : BitVec 512) (n : Nat) (epoch : BitVec 4) : List (Nat × Token) :=
  let data : Token := token .data n epoch payload
  let void : Token := token .void n epoch 0#512
  if steer = 1 then (4 + bit b, data) :: (if first then [(4 + bit (!b), void)] else []) else [(4, data)]

/-! ### A stream context's addresses (R90, R91) -/

/-- Digits of a linear index in the radices of a context. -/
def digits (l : Nat) : List Nat → List Nat
  | [] => []
  | c :: t => l % (max c 1) :: digits (l / (max c 1)) t

/-- SRAM word address of a firing. -/
def CtxProg.word (c : CtxProg) (ds : List Nat) (x : Nat) : Int :=
  (c.sbase : Int) + ((c.loops.zip ds).map fun y : LoopLevel × Nat => (y.2 : Int) * y.1.sstride).sum + (if c.role < 2 then (x * c.istride : Int) else 0)

/-- Tier address of a firing. -/
def CtxProg.tierVa (c : CtxProg) (args : List Word) (ds : List Nat) (x : Nat) : Int :=
  let unit (i : Nat) : Int := if i < 3 then 64 else 65536
  (c.vbase : Int) + (if c.vargEn then 4096 * ((args.map (·.toNat)).getD c.varg 0 : Nat) else 0 : Int)
    + (((c.loops.zip ds).zipIdx).map fun y : (LoopLevel × Nat) × Nat => unit y.2 * (y.1.2 : Int) * y.1.1.tstride).sum + (64 * x * c.istride : Int)

/-- Byte ranges that a firing accesses in the SRAM: address and length of each word or lane. -/
def CtxProg.touches (c : CtxProg) (a : Int) : List (Int × Nat) :=
  match c.role with
  | 0 => if c.sout then [(a, 4)] else (List.range (if c.tok2 then 32 else 16)).map fun (t : Nat) => (a + 4 * t * c.lstride, 4)
  | 1 => let b : Nat := if c.laneb = 0 then 4 else if c.laneb = 1 then 2 else 1
         (List.range 16).map fun (l : Nat) => (a + (b * l * c.lstride : Nat), b)
  | _ => (List.range 16).map fun (t : Nat) => (a + 4 * t, 4)

/-- The first byte outside the window. -/
def outside (limit : Nat) (l : List (Int × Nat)) : Option Int :=
  l.findSome? fun x => if x.1 < 0 then some x.1 else if (limit : Int) < x.1 + x.2 then some (max x.1 limit) else none

/-- Conflict cycles: the largest number of distinct words in one bank, minus 1. -/
def conflictCycles (l : List (Int × Nat)) : Nat :=
  let ws := (l.map fun x => x.1.toNat / 4).eraseDups
  maxList 0 ((List.range 32).map fun b => ws.countP fun w => w % 32 = b) - 1

end Sys2Proof.Machine
end

