-- ==== Sys2Proof/Machine/ArbOps.lean ====
section
/-!
DEFINITION. The rounds of the bonded ports and bulk channels, and the dynamic slots of the stream contexts with their deadlines (R231 to R236).
-/
namespace Sys2Proof.Machine

/-- A port or channel that is fitted (R237). -/
def Fuses.arbFitted (u : Fuses) (p : Nat) : Bool := if p < 640 then p / 32 < u.stackCount else p < 640 + u.channels

/-- The dynamic slots of a port (R231). -/
def dynSlots (p : Nat) : List Nat := if p < 640 then (List.range 42).map (22 + ·) else (List.range 46).map (18 + ·)

/-- The slot that a requester holds at a port. -/
def Dev.slotHeldBy (d : Dev) (p : Nat) (o : SlotOwner) : Option Nat := (List.range 64).find? fun k => (d.arbSlot p k).owner = o
/-- The lowest free dynamic slot. -/
def Dev.freeSlot (d : Dev) (p : Nat) : Option Nat := (dynSlots p).find? fun k => (d.arbSlot p k).owner = .free

/-- Clock of a port in units of 100 MHz (R231, R233). -/
def Dev.portClock (d : Dev) (p : Nat) : Nat :=
  if p < 640 then 20 else if (Tab.get ({} : Channel) (p - 640) d.blk.channels).st = 2#2 then 8 else 10

/-- Latest-service cycle of a stream context's request (R233); `recent` are the bytes its ME's SRAM reads took in the last 1,024 cycles. -/
def Dev.streamD (d : Dev) (port : Nat) (x : Eng) (p : MeProg) (k recent : Nat) : Word :=
  let unpaired := bitsAt d.arb.slack2.toNat 16 16
  let slack := match p.ctx? k with
    | none => unpaired
    | some c =>
      if c.role = 2 && !(p.followers k).isEmpty then
        if x.fillBytes = 0 then 0 else if recent = 0 then 65535
        else min 65535 (x.fillBytes * 1024 / recent * d.portClock port / 15)
      else if c.role = 3 && c.leadEn then 0
      else unpaired
  d.arbNow port + BitVec.ofNat 32 slack

/-- A transfer enters the arbiter through the slot its context holds or takes, or waits at the die for one, by its deadline as it stands then (R232). -/
def Dev.enterPort (d : Dev) (now port cl ph me ctx : Nat) (dl : Word) : Option Nat × Dev :=
  let o : SlotOwner := .stream cl ph me ctx
  let take (k : Nat) : Dev :=
    let s := d.arbSlot port k
    if s.ready then d else d.setArbSlot port k { owner := o, ready := true, d := dl, lost := 0, arrived := d.arbNow port }
  match d.slotHeldBy port o with
  | some k => (some now, take k)
  | none =>
    let waits := d.arb.waiting.any fun w => w.port = port
    match (if waits then none else d.freeSlot port) with
    | some k => (some now, take k)
    | none => (none, { d with arb := { d.arb with
        waiting := d.arb.waiting ++ [{ port := port, cl := cl, phys := ph, me := me, ctx := ctx, d := dl }] } })

/-- The oldest transfer of a context that waits for its grant at a port. -/
def Ctx.nextXfer (c : Ctx) (port : Nat) : Option Xfer := c.outst.find? fun t => t.port = port && !t.granted && t.since.isSome

def Dev.streamCtx (d : Dev) (cl ph me ctx : Nat) : Ctx := Tab.get {} ctx (d.eng cl ph (4 + me)).ctxs
def Dev.modCtx (d : Dev) (cl ph me ctx : Nat) (f : Ctx → Ctx) : Dev :=
  d.modEng cl ph (4 + me) fun x => { x with ctxs := Tab.put ctx (f (Tab.get {} ctx x.ctxs)) x.ctxs }

/-- One signed 32-bit deadline comes before another (R233). -/
def before (a b : Word) : Bool := (a - b).msb

/-- The slot that wins a round: the earliest effective deadline, the lower slot on a tie (R234). -/
def Dev.winner (d : Dev) (p : Nat) : Option Nat :=
  let step := bitsAt d.arb.ageStep.toNat 0 16
  ((List.range 64).foldl (fun (b : Option (Nat × Word)) k =>
    let s := d.arbSlot p k
    if !s.ready then b else
      let e := s.d - BitVec.ofNat 32 (s.lost * step)
      match b with
      | none => some (k, e)
      | some x => if before e x.2 then some (k, e) else b) none).map (·.1)

/-- A grant to slot `k`: the counters, and the next request of its requester (R234). -/
def Dev.grant (e : Env) (d : Dev) (p k : Nat) : Dev :=
  let s := d.arbSlot p k
  let key := 64 * p + k
  let others := (List.range 64).filter fun j => j ≠ k && (d.arbSlot p j).ready
  let d := { d with arb := { d.arb with
    grants := satPut 64 key (Tab.get 0 key d.arb.grants + 1) d.arb.grants
    maxWait := Tab.put key (max (Tab.get 0 key d.arb.maxWait) (d.arbNow p - s.arrived).toNat) d.arb.maxWait
    waits := others.foldl (fun t j => satPut 64 (64 * p + j) (Tab.get 0 (64 * p + j) t + 1) t) d.arb.waits } }
  let d := others.foldl (fun d j => let x := d.arbSlot p j; d.setArbSlot p j { x with lost := min 65535 (x.lost + 1) }) d
  match s.owner with
  | .stream cl ph me ctx =>
    match (d.streamCtx cl ph me ctx).nextXfer p with
    | none => d.setArbSlot p k { s with ready := false, lost := 0 }
    | some t =>
      let d := d.modCtx cl ph me ctx fun c => { c with outst := c.outst.map fun y => if y.lin = t.lin then { y with granted := true } else y }
      match (d.streamCtx cl ph me ctx).nextXfer p with
      | some y => d.setArbSlot p k { s with ready := true, d := y.deadline, lost := 0, arrived := y.arrived }
      | none => d.setArbSlot p k { s with ready := false, lost := 0 }
  | _ => d.servedFixed e p k

/-- Every requester of a fixed slot presents its oldest transfer (R231). -/
def Dev.presentAll (e : Env) (d : Dev) (p : Nat) : Dev := (fixedSlots p).foldl (fun d k => d.present e.now p k) d

/-- The grant of a round, where a slot is ready. -/
def Dev.roundGrant (e : Env) (d : Dev) (p : Nat) : Dev :=
  match d.winner p with
  | some k => d.grant e p k
  | none => d

/-- One round of a port (R234). -/
def Dev.arbRound (e : Env) (d : Dev) (p : Nat) : Dev :=
  let d := (d.presentAll e p).roundGrant e p
  { d with arb := { d.arb with now := Tab.put p (d.arbNow p + 1#32) d.arb.now } }

/-- The waiting transfer that a freed slot of a port goes to: the earliest deadline, then cluster, core, ME, context (R232). -/
def Dev.nextWait (d : Dev) (p : Nat) : Option SlotWait :=
  let key (w : SlotWait) : Nat := ((w.cl * 32 + w.phys) * 4 + w.me) * 8 + w.ctx
  firstBy (fun a b : SlotWait => before a.d b.d || (a.d = b.d && key a < key b)) (d.arb.waiting.filter fun w => w.port = p)

/-- The deadline with which the transfers of a context enter an arbiter now; what its ME's reads took of late is left open (R233, log entry 39). -/
def Dev.deadlineNow (d : Dev) (p cl ph me ctx : Nat) : Word × Dev :=
  let (x, d) := d.free 32
  match (d.eng cl ph (4 + me)).prog with
  | .me m => (d.streamD p (d.eng cl ph (4 + me)) m ctx x.toNat, d)
  | _ => (d.arbNow p, d)

/-- A free dynamic slot goes to a waiting context, whose transfers at the port enter the arbiter: their latest-service cycle is fixed now (R232, R233). -/
def Dev.slotGrant (d : Dev) (now p : Nat) : Dev :=
  match d.freeSlot p, d.nextWait p with
  | some k, some w =>
    let (dl, d) := d.deadlineNow p w.cl w.phys w.me w.ctx
    let mine (v : SlotWait) : Bool := v.port = p && v.cl = w.cl && v.phys = w.phys && v.me = w.me && v.ctx = w.ctx
    let d := { d with arb := { d.arb with waiting := d.arb.waiting.filter fun v => !mine v } }
    let d := d.modCtx w.cl w.phys w.me w.ctx fun c => { c with outst := c.outst.map fun y =>
      if y.port = p && y.since.isNone then { y with since := some now, deadline := dl, arrived := d.arbNow p } else y }
    match (d.streamCtx w.cl w.phys w.me w.ctx).nextXfer p with
    | some y => d.setArbSlot p k { owner := .stream w.cl w.phys w.me w.ctx, ready := true, d := y.deadline, lost := 0, arrived := y.arrived }
    | none => d
  | _, _ => d

/-- A context lets go of its slot at a port once it has no transfer there (R232). -/
def Dev.leavePort (d : Dev) (p cl ph me ctx : Nat) : Dev :=
  if (d.streamCtx cl ph me ctx).outst.any fun t => t.port = p then d
  else match d.slotHeldBy p (.stream cl ph me ctx) with
    | some k => d.setArbSlot p k {}
    | none => d

end Sys2Proof.Machine
end

