-- ==== Sys2Proof/Machine/Fabric.lean ====
section
/-!
DEFINITION. Events of the engine fabric: tokens and credits on the trusses (R44 to R54), firings of CEs and MEs (R51, R64, R65), keystones (R60, R63),
handoffs (R62), and tier transfers of stream contexts with arbitration (R226 to R234).
-/
namespace Sys2Proof.Machine

/-- A core whose engines may act: the package runs, the core is not fenced, and its cluster is ACTIVE (R359). -/
def Dev.coreLive (d : Dev) (e : Env) (cl ph : Nat) : Bool :=
  d.running && e.fuse.clusterFitted cl && !e.kf.coreFenced cl ph && (d.sleep cl).st = .active

/-- Engines fire while a launch runs; in a drain, those that a route feeds work on what still reaches them (R60, R62). -/
def Eng.fires (x : Eng) : Bool := x.st = stRunning || (x.st = stDraining && !x.keyIn && !x.keyOut)

/-! ### Tokens (R44, R45, R48, R54) -/

/-- A token that passes every arrival check is written into its joint queue. -/
def Dev.writeToken (d : Dev) (p : EngPort) (key : Nat) (t : Token) : Dev :=
  let x := d.eng p.cl p.phys p.eng
  let q : JointQueue := Tab.get {} key x.queues
  let q : JointQueue := if t.kind = .keystone then { q with key := true, seen := true } else { q with toks := q.toks ++ [t] }
  d.putEng p.cl p.phys p.eng x { x with queues := Tab.put key q x.queues } []

/-- The arrival checks in order (R54), and that of the launch count (R99). -/
def arrivalFault (d : Dev) (p : EngPort) (key : Nat) (t : Token) (ecc : Ecc) : Option FaultInfo :=
  let x := d.eng p.cl p.phys p.eng
  let q : JointQueue := Tab.get {} key x.queues
  let core := d.core p.cl p.phys
  let tag := t.tag.toNat
  let base := x.keyBase key
  let n := base + (tag + 16 - base % 16) % 16
  let keystone : Bool := t.kind = .keystone
  if ecc = .uncorrected then some { error := Config.eccUncorrected, resource := 0x0B, value := netCode p.net }
  else if t.epoch ≠ core.epoch || (!keystone && q.seen) then
    some { error := Config.epoch, resource := 0x0A, value := t.epoch.toNat, limit := core.epoch.toNat }
  else if keystone then (if q.key then some { error := Config.overflow, resource := 0x02, value := 2, limit := 1 } else none)
  else if base + 4 ≤ n then some { error := Config.tagWindow, resource := 0x09, value := tag, limit := base }
  else if 8 ≤ q.toks.length || (q.toks.length = 7 && n ≠ base) then
    some { error := Config.overflow, resource := 0x01, value := tag, limit := q.toks.length, iter := some n }
  else match x.unitAt key with
    | some (u, _) =>
      if t.kind = .data && u.limit ≠ 0 && u.limit ≤ n then
        some { error := Config.overflow, resource := 0x06, value := n, limit := u.limit, iter := some n }
      else none
    | none => none

/-- A token or keystone reaches a send endpoint: tokens go onto the bridge, a keystone waits there to be forwarded (R62, R63). -/
def Dev.reachEndpoint (d : Dev) (die ep : Nat) (f : Flight) : Dev :=
  { d with pairs := d.pairs.map fun (p : Pair) =>
      if p.sDie = die && p.sEp = ep && p.sSpan.isSome then
        if f.tok.kind = .keystone then { p with sKey := true }
        else { p with bridge := p.bridge ++ [.tok f.tok.iter f.tok.kind f.tok.payload] }
      else p }

/-- TRS_ECC_CORR counts a corrected token that is written, TRS_ECC_UNCORR one that is refused as uncorrectable (R45, R66). -/
def Dev.countArrival (d : Dev) (p : EngPort) (b : Bool) (f : Core → Core) : Dev := if b then d.modCore p.cl p.phys f else d

/-- The oldest token on its way to a destination arrives. -/
def tokenArrives (e : Env) (d : Dev) (dst : RouteDst) (ecc : Ecc) : Dev :=
  match d.flights.find? fun f => f.dst = dst with
  | none => d
  | some f =>
    let rest := { d with flights := d.flights.eraseP fun f => f.dst = dst }
    match dst with
    | .sendEp die ep => if d.running then rest.reachEndpoint die ep f else d
    | .port p =>
      if !d.coreLive e p.cl p.phys then d else
        let key := queueKey p.net p.port
        match arrivalFault rest p key f.tok ecc with
        | some i => (rest.countArrival p (ecc = .uncorrected) fun c => { c with eccUncorr := min (2 ^ 32 - 1) (c.eccUncorr + 1) }).engFault e p.cl p.phys p.eng i
        | none => (rest.countArrival p (ecc = .corrected) fun c => { c with eccCorr := min (2 ^ 32 - 1) (c.eccCorr + 1) }).writeToken p key f.tok

def execTokenArrival (dst : RouteDst) (ecc : Ecc) (s : State) : Res := guarded dst.wf (onDev s fun e d => tokenArrives e d dst ecc)

/-- A pair by its send endpoint, and by its receive endpoint. -/
def Dev.pairFrom (d : Dev) (die ep : Nat) : Option Pair := d.pairs.find? fun p => p.sDie = die && p.sEp = ep && p.sSpan.isSome
def Dev.pairInto (d : Dev) (die ep : Nat) : Option Pair := d.pairs.find? fun p => p.rDie = die && p.rEp = ep && p.rSpan.isSome

/-- A sender's view of a destination lets a token of a tag go (R48). -/
def Dev.mayGo (d : Dev) (dst : RouteDst) (free base tag : Nat) : Bool :=
  match dst with
  | .sendEp die ep => match d.pairFrom die ep with
    | some p => 1 ≤ p.credit
    | none => false
  | .port _ => (tag + 16 - base % 16) % 16 < 4 && (2 ≤ free || (free = 1 && tag = base % 16))

/-- Puts a token on a route: one flight to each destination, and the sender's view of each with one slot less. -/
def Dev.sendToken (d : Dev) (r : Route) (t : Token) : Dev :=
  let takes := t.kind ≠ .keystone
  let d := { d with flights := d.flights ++ r.dsts.map fun x => { src := r.src, dst := x, tok := t } }
  if !takes then d else
    { d with
      routes := d.routes.map fun y => if y.src = r.src then { y with free := y.free.map (· - 1) } else y
      pairs := d.pairs.map fun (p : Pair) => if r.dsts.contains (.sendEp p.sDie p.sEp) && p.sSpan.isSome then { p with credit := p.credit - 1 } else p }

/-- Destinations of a route with the sender's view of each. -/
def Route.views (r : Route) : List (RouteDst × Nat × Nat) := (r.dsts.zip (r.free.zip r.bases))

/-- An engine's output buffer sends its oldest token. -/
def Dev.portSends (d : Dev) (e : Env) (p : EngPort) (r : Route) : Dev :=
  if !d.coreLive e p.cl p.phys then d else
    let key := queueKey p.net p.port
    let x := d.eng p.cl p.phys p.eng
    match Tab.get [] key x.outs with
    | [] => d
    | t :: rest =>
      if t.kind = .keystone || r.views.all (fun v => d.mayGo v.1 v.2.1 v.2.2 t.tag.toNat) then
        let d := d.putEng p.cl p.phys p.eng x { x with outs := Tab.put key rest x.outs } []
        d.sendToken r t
      else d

/-- An iteration lies in the window of a destination as its sender last learned it; a send endpoint has no window (R48). -/
def inWindow (dst : RouteDst) (base n : Nat) : Bool :=
  match dst with
  | .sendEp .. => true
  | .port _ => base ≤ n && n < base + 4

/-- The buffered token that a receive endpoint presents on a route: that of the lowest iteration which lies in the window of every destination (R48, R62). -/
def Pair.next (p : Pair) (r : Route) : Option (Nat × TokKind × BitVec 512) :=
  firstBy (fun a b : Nat × TokKind × BitVec 512 => a.1 < b.1) (p.buf.filterMap fun i => match i with
    | .tok ext kind pay => if r.views.all fun v => inWindow v.1 v.2.2 ext then some (ext, kind, pay) else none
    | .endMark => none)

/-- A receive endpoint sends the token that it presents (R48, R62). -/
def Dev.endpointSends (d : Dev) (die ep : Nat) (r : Route) : Dev :=
  match d.pairInto die ep with
  | none => d
  | some p =>
    match p.rSpan with
    | none => d
    | some (rd, rs) =>
      let s := d.span (64 * rd + rs)
      if !(d.running && (s.running.isSome || s.keyed)) then d else
        match p.next r with
        | none => d
        | some (ext, kind, pay) =>
          if !(r.views.all fun v => d.mayGo v.1 v.2.1 v.2.2 (ext % 16)) then d else
          let d := { d with pairs := d.pairs.map fun (y : Pair) =>
            if y.rDie = die && y.rEp = ep && y.rSpan.isSome then { y with buf := y.buf.erase (.tok ext kind pay), credit := min 64 (y.credit + 1) } else y }
          d.sendToken r (token kind ext s.epoch pay)

def execTokenSend (src : RouteSrc) (s : State) : Res :=
  guarded src.wf (onDev s fun e d => match d.routeFrom src with
    | none => d
    | some r => match src with
      | .port p => d.portSends e p r
      | .recvEp die ep => d.endpointSends die ep r)

/-- The oldest credit return to a sender reaches it (R48). -/
def Dev.learnCredit (d : Dev) (src : RouteSrc) : Dev :=
  match d.creditMsgs.find? fun m => m.src = src with
  | none => d
  | some m =>
    { d with
      creditMsgs := d.creditMsgs.eraseP fun m => m.src = src
      routes := d.routes.map fun r =>
        if r.src = src then
          { r with
            free := (r.dsts.zip r.free).map fun y => if y.1 = m.dst then min 8 (y.2 + m.slots) else y.2
            bases := (r.dsts.zip r.bases).map fun y => if y.1 = m.dst then m.base else y.2 }
        else r }

def execCreditReturn (src : RouteSrc) (s : State) : Res :=
  guarded src.wf (onDev s fun _ d => if d.running then d.learnCredit src else d)

/-! ### CE firings (R51, R52, R64) -/

/-- What the iterations of an engine are settled on. -/
def Eng.settling (x : Eng) : Settling := { base := x.base, iters := x.iters, queues := x.queues, outs := x.outs, freed := [] }

/-- The lowest iteration of the window that has a firing ready. -/
def EngUnit.pick (u : EngUnit) (s : Settling) (outs : Nat → List Nat) : Option Nat := (u.window s.base).find? (u.ready s outs)

def Settling.holdCtl (s : Settling) (n : Nat) (b : Bool) : Settling := { s with iters := Tab.put n { s.iter n with ctl := some b } s.iters }

/-- The input that carries the data token of a steering firing with control value `b` (R58, R59). -/
def EngUnit.named (u : EngUnit) (b : Bool) : Nat := if u.steer = 1 then 4 else 4 + bit b

/-- A steering firing of iteration `n` (R58, R59, R85): whether it is the first, the control value, the tokens it takes, and what is left. -/
def takeSteered (u : EngUnit) (s : Settling) (n : Nat) : Option (Bool × Bool × Tab Token × Settling) :=
  match s.ctl n, u.nextIns s n with
  | some b, some ins =>
    let first := (s.iter n).fired = 0
    let (toks, s) := s.consume n ins
    some (first, b, toks, (s.holdCtl n b).fire n)
  | _, _ => none

/-- The tokens that the stages of a steering firing may name: in a merge a word may name the data input that the firing does not consume, whose word
the spec leaves open (log entry 61). -/
def stageToks (u : EngUnit) (b : Bool) (toks : Tab Token) (other : BitVec 512) : Tab Token :=
  if u.steer = 2 then toks ++ [(4 + bit (!b), token .void 0 0#4 other)] else toks

/-- An iteration's count of load tokens in its phase (R77). -/
def Settling.setLoads (s : Settling) (n q : Nat) : Settling := { s with iters := Tab.put n { s.iter n with loads := q } s.iters }

/-- One firing of a CE. -/
def ceFire (e : Env) (d : Dev) (cl ph ce : Nat) (p : CeProg) : Dev :=
  let x := d.eng cl ph ce
  let u := p.unit x.limit
  let s := x.settling
  let routed := d.routedOuts cl ph ce
  let phaseOuts (j : Nat) : List Nat := match p.phaseAt j with
    | some h => h.outputs
    | none => []
  let epoch := (d.core cl ph).epoch
  match u.pick s (u.nextOuts s phaseOuts routed) with
  | none => d
  | some n =>
    let j := (s.iter n).fired
    match p.phaseAt j with
    | none => d
    | some h =>
      let q := if j = h.first then 0 else (s.iter n).loads
      let beyond (q limit : Nat) : FaultInfo := { error := Config.overflow, resource := 0x05, iter := some n, value := q, limit := limit, firing := some j }
      let put (d : Dev) (t : Settling) (regs : Tab Word) (toks : List (Nat × Token)) : Dev :=
        let outs := toks.foldl (fun o y => if routed.contains y.1 then pushTok o y.1 y.2 else o) t.outs
        (d.putEng cl ph ce x { x with iters := t.iters, queues := t.queues, outs := outs, regs := regs, firings := x.firings + 1 } t.freed).fired cl ph
      if p.steer ≠ 0 then
        match takeSteered u s n with
        | none => d
        | some (first, b, ins, t) =>
          let (other, d) := d.free 512
          match ceCompute x p h (stageToks u b ins other) q (some (inTok ins (u.named b))) with
          | .overflow q limit => d.engFault e cl ph ce (beyond q limit)
          | .done toks regs q => put d (t.setLoads n q) regs (steerToks p.steer first b (Tab.get 0#512 4 toks) n epoch)
      else
        let (ins, t) := s.consume n ((u.nextIns s n).getD [])
        match ceCompute x p h ins q none with
        | .overflow q limit => d.engFault e cl ph ce (beyond q limit)
        | .done toks regs q => put d ((t.fire n).setLoads n q) regs (toks.map fun y => (y.1, token .data n epoch y.2))

def execCeFiring (cl : ClusterId) (p : CoreId) (e : Fin 4) (s : State) : Res :=
  onDev s fun v d =>
    let x := d.eng cl p e
    match x.prog with
    | .ce q => if d.coreLive v cl p && x.fires then ceFire v d cl p e q else d
    | _ => d

/-! ### ME firings (R65, R90 to R94, R146 to R148, R226) -/

/-- A steering firing of an ME. -/
def meSteer (d : Dev) (cl ph eng : Nat) (p : MeProg) : Dev :=
  let x := d.eng cl ph eng
  let u := p.steerUnit
  let s := x.settling
  let routed := d.routedOuts cl ph eng
  match u.pick s (u.nextOuts s (fun _ => []) routed) with
  | none => d
  | some n =>
    match takeSteered u s n with
    | none => d
    | some (first, b, ins, s) =>
      let outs := (steerToks p.steer first b (inTok ins (u.named b)).payload n (d.core cl ph).epoch).foldl
        (fun o y => if routed.contains y.1 then pushTok o y.1 y.2 else o) s.outs
      (d.putEng cl ph eng x { x with iters := s.iters, queues := s.queues, outs := outs } s.freed).fired cl ph

/-- A partner has had its last firing of iteration `n`: by its start where both are on one generator, else once it is performed (R94). -/
def partnerDone (p : MeProg) (x : Eng) (mine : CtxProg) (k n : Nat) : Bool :=
  match p.ctx? k with
  | none => true
  | some c =>
    let y : Ctx := Tab.get {} k x.ctxs
    let it : Iter := Tab.get {} n y.iters
    n < y.base || it.complete || it.void || y.voided.contains n
      || (c.writeGen = mine.writeGen && (p.ctxUnit c y).firings ≤ it.fired)

/-- R94 lets a context start iteration `n`. -/
def pairAllows (p : MeProg) (x : Eng) (k : Nat) (c : CtxProg) (n : Nat) : Bool :=
  (match p.leaderOf k with
    | some l => partnerDone p x c l n
    | none => true)
  && (n = 0 || (p.followers k).all fun f => partnerDone p x c f (n - 1))

def Eng.ctxSettling (x : Eng) (c : Ctx) : Settling := { base := c.base, iters := c.iters, queues := x.queues, outs := x.outs, freed := [] }

/-- Outputs of the next firing of a context: a signal's slot is taken with the last firing of the iteration. -/
def ctxOuts (u : EngUnit) (c : CtxProg) (s : Settling) (n : Nat) : List Nat :=
  c.outKeys ++ (if c.sig && (s.iter n).fired + 1 = u.firings then [8] else [])

/-- A context may fire: a launch runs, or, in a drain, an enabled input brings it work (R60, R62). -/
def Eng.ctxRuns (x : Eng) (c : CtxProg) : Bool := x.st = stRunning || !(c.inputs 0).isEmpty

/-- The iteration for which a context has a firing, or a void, to start. -/
def ctxReady (p : MeProg) (x : Eng) (kc : Nat × CtxProg) : Option Nat :=
  let y : Ctx := Tab.get {} kc.1 x.ctxs
  let u := p.ctxUnit kc.2 y
  let s := x.ctxSettling y
  let pend := (u.window s.base).countP fun n => !(s.iter n).complete && u.firings ≤ (s.iter n).fired
  let sigRoom := !kc.2.sig || (Tab.get [] 8 x.outs).length + pend < 16
  if !x.ctxRuns kc.2 || y.frozen.isSome || y.walk.isSome || (kc.2.tier && 64 ≤ y.outst.length) then none
  else if y.voiding then (u.window s.base).find? fun n => !(s.iter n).void && !(s.iter n).complete
  else (u.window s.base).find? fun n => u.ready s (ctxOuts u kc.2 s) n && pairAllows p x kc.1 kc.2 n && sigRoom

/-- The lowest-numbered ready context of a generator goes first (R37). -/
def genFree (p : MeProg) (x : Eng) (kc : Nat × CtxProg) : Bool :=
  !(p.ctxs.any fun z : Nat × CtxProg => z.1 < kc.1 && z.2.writeGen = kc.2.writeGen && (ctxReady p x z).isSome)

/-- What a firing works on. -/
structure Firing where
  cl : Nat
  ph : Nat
  me : Nat
  k : Nat
  c : CtxProg
  n : Nat
  lin : Nat
  a : Int
  va : Int
  ds : List Nat
  uid : Nat
  asid : Nat
  func : Nat
  pubKey : Nat

def Firing.info (f : Firing) (error resource value limit : Nat) (addr : Option Nat := none) : FaultInfo :=
  { error := error, resource := resource, ctx := some f.k, iter := some f.n, value := value, limit := limit, addr := addr, firing := some f.lin }

/-- Address of the accessed bytes in the near tier. -/
def Firing.near (f : Firing) (a : Int) : Nat := nearAt f.cl f.ph f.me a.toNat

/-- An access outside the window, conflict cycles over the budget, or an uncorrected word that is read. DESIGN CHOICE: a firing over its budget makes none
of its accesses, those before the first cycle over it among them; R29 leaves the near tier after a failed command open (log entry 62). -/
def sramFault (d : Dev) (p : MeProg) (f : Firing) (reads : Bool) (ecc : Ecc) : Option FaultInfo :=
  let l := f.c.touches f.a
  match outside (64 * p.window) l with
  | some b => some (f.info Config.overflow 0x03 (unsignedOf 64 b) (64 * p.window) (some (unsignedOf 64 b)))
  | none =>
    if p.budget ≠ 0 && p.budget < conflictCycles l then some (f.info Config.overflow 0x04 (p.budget + 1) p.budget)
    else if !reads then none
    else match l.find? fun x => d.blk.nearBad.contains (f.near x.1 / 8) with
      | some x => some (f.info Config.eccUncorrected 0x2B (8 * (x.1.toNat / 8)) 0)
      | none => if ecc = .uncorrected then some (f.info Config.eccUncorrected 0x2B (8 * (f.a.toNat / 8)) 0) else none

/-- A corrected word that a firing reads is counted; an uncorrected one ends its command. -/
def Dev.countNear (d : Dev) (f : Firing) (reads : Bool) (ecc : Ecc) : Dev := if reads && ecc = .corrected then d.nearEcc (f.cl / 4) 1 0 else d

/-- Writes bytes to the SRAM; words written whole are good again. -/
def Dev.nearWrite (d : Dev) (at_ : Nat) (l : List Byte) : Dev :=
  { d with blk := { d.blk with
    near := Memory.write d.blk.near at_ l
    nearBad := d.blk.nearBad.filter fun w => 8 * w < at_ || at_ + l.length < 8 * w + 8 } }

/-- Bytes that a firing reads, word by word in order. -/
def Firing.bytes (d : Dev) (f : Firing) : List Byte := (f.c.touches f.a).flatMap fun x => Memory.read d.blk.near (f.near x.1) x.2

/-- The output tokens of an SRAM read. -/
def Firing.tokens (f : Firing) (l : List Byte) : List (Nat × BitVec 512) :=
  if f.c.sout then [(0, BitVec.ofNat 512 (bytesAt l 0 4))]
  else if f.c.tok2 then [(4, BitVec.ofNat 512 (bytesAt l 0 64)), (5, BitVec.ofNat 512 (bytesAt l 64 64))]
  else [(4 + f.c.out, BitVec.ofNat 512 (bytesAt l 0 64))]

/-- The context after the inputs of a firing of iteration `n` are taken and the firing is started. -/
def startFiring (x : Eng) (y : Ctx) (k n : Nat) (ins : List Nat) : Tab Token × Eng × Tab Nat :=
  let (toks, s) := (x.ctxSettling y).consume n ins
  let s := s.fire n
  (toks, { x with ctxs := Tab.put k { y with iters := s.iters } x.ctxs, queues := s.queues, outs := s.outs }, s.freed)

/-- The record of a dispense read (R147). -/
def dispRecord (i : Nat) (counts : List Nat) : List Byte :=
  (toBytes 4 i ++ ((digits i counts) ++ List.replicate (6 - counts.length) 0).flatMap fun x => toBytes 4 x) ++ List.replicate 36 0#8

/-- An access of a stream context. -/
def Firing.access (f : Firing) (write : Bool) : Access :=
  { die := f.cl / 4, asid := f.asid, func := f.func, write := write, engine := true, pubKey := some f.pubKey }

/-- The context of a firing as a requester of the tiers. -/
def Firing.who (f : Firing) : Requester := .stream f.cl f.ph f.me f.k

/-- Where a tier access goes: the home, or the shadow of its page (R29). -/
inductive Placed where
  | pa (p : Nat) (d : Dev)
  | refused (error : Nat)

/-- The page an access of a firing is made to: a spill with INPLACE reaches its home, others' writes and the reads of a page they shadow the shadow. -/
def Dev.placeAccess (e : Env) (d : Dev) (f : Firing) (va home : Nat) : Placed :=
  if sealedBase ≤ va || (f.c.role = 3 && f.c.inplace) then .pa home d
  else if f.c.role = 3 then
    match d.takeShadow e f.uid (f.cl / 4) f.asid (va / pageBytes) (home / pageBytes) false with
    | .busy => .refused Config.busy
    | .quota => .refused Config.quota
    | .page g d => .pa (g * pageBytes + va % pageBytes) d
  else match d.shadowOf f.uid f.asid (va / pageBytes) with
    | some s => .pa (s.page * pageBytes + va % pageBytes) d
    | none => .pa home d

/-- Freezes a context on a resolvable fault (R191). -/
def Dev.freezeCtx (d : Dev) (now cl ph me k lin va : Nat) (write : Bool) (r : ResKind) : Dev :=
  let (id, d) := d.resolution (cl / 4) r
  d.modCtx cl ph me k fun y => { y with lin := lin, walk := none, frozen := some { va := va, write := write, since := now, resolution := id } }

/-- A tier firing: its transfer is issued (R226), or the context waits for a walk, freezes, or ends its command. -/
def tierFire (e : Env) (d : Dev) (x : Eng) (p : MeProg) (f : Firing) (recent : Nat) (ecc : Ecc) (start : Eng → Eng × Tab Nat) : Dev :=
  let spill : Bool := f.c.role = 3
  let eng := 4 + f.me
  let fault (d : Dev) (i : FaultInfo) : Dev := d.engFault e f.cl f.ph eng i
  if f.va < 0 || 2 ^ 52 ≤ f.va then fault d (f.info Config.pageFault 0x24 (unsignedOf 64 f.va) 0 (some (unsignedOf 64 f.va)))
  else
    let va := f.va.toNat
    if dispWindow ≤ va then fault d (f.info Config.overflow 0x08 va 0 (some va))
    else match sramFault d p f spill ecc with
      | some i => fault (d.countNear f spill ecc) i
      | none =>
        match d.lookup e.fuse f.who f.uid (f.access spill) va with
        | none => (d.modCtx f.cl f.ph f.me f.k fun y => { y with lin := f.lin, walk := some (va, spill) }).askWalk e (some f.who) (f.access spill) va
        | some (.fault er r v l) => fault d (f.info er r v l (some va))
        | some (.resolve k) => d.freezeCtx e.now f.cl f.ph f.me f.k f.lin va spill k
        | some (.pa home) =>
          match (d.keepLast f.who f.uid (f.cl / 4) f.asid va).placeAccess e f va home with
          | .refused er => d.settle e [.fail f.uid er 16]
          | .pa pa d =>
            let port := e.fuse.arbiterOf pa
            let dl := d.streamD port x p f.k recent
            let (since, d) := d.enterPort e.now port f.cl f.ph f.me f.k dl
            let d := d.countNear f spill ecc
            let data := if spill then f.bytes d else []
            let (y, freed) := start x
            let t : Xfer := { lin := f.lin, va := va, pa := pa, sram := f.a.toNat, write := spill, port := port, deadline := dl, arrived := d.arbNow port, since := since, data := data }
            let y := { y with ctxs := Tab.put f.k { (Tab.get ({} : Ctx) f.k y.ctxs) with outst := (Tab.get ({} : Ctx) f.k y.ctxs).outst ++ [t], lin := f.lin + 1 } y.ctxs }
            (d.putEng f.cl f.ph eng x y freed).fired f.cl f.ph

/-- A dispense read (R147), or the first read at or past LIMIT, after which the context voids what is left (R148). -/
def dispFire (e : Env) (d : Dev) (x : Eng) (p : MeProg) (f : Firing) (k grid : Nat) (counts : List Nat) (start : Eng → Eng × Tab Nat) : Dev :=
  let v := d.disp f.cl k
  let eng := 4 + f.me
  if v.next.toNat < v.limit.toNat then
    let i := v.next.toNat
    let d := d.setDisp f.cl k { v with next := v.next + 1#32 }
    if grid ≤ i then d.engFault e f.cl f.ph eng { f.info Config.overflow 0x07 i grid with firing := some f.lin }
    else match sramFault d p f false .good with
      | some j => d.engFault e f.cl f.ph eng j
      | none =>
        let d := d.nearWrite (f.near f.a) (dispRecord i counts)
        let (y, freed) := start x
        (d.putEng f.cl f.ph eng x { y with fillBytes := y.fillBytes + 64 } freed).fired f.cl f.ph
  else
    let d := d.setDisp f.cl k { v with exhausted := true }
    let y : Ctx := Tab.get {} f.k x.ctxs
    let y := { y with voiding := true, iters := Tab.put f.n { (Tab.get ({} : Iter) f.n y.iters) with void := true } y.iters }
    d.putEng f.cl f.ph eng x { x with ctxs := Tab.put f.k y x.ctxs } []

/-- One firing, or one void, of a stream context. -/
def ctxFire (e : Env) (d : Dev) (cl ph me : Nat) (p : MeProg) (kc : Nat × CtxProg) (recent : Nat) (ecc : Ecc) : Dev :=
  let eng := 4 + me
  let x := d.eng cl ph eng
  let c := kc.2
  let y : Ctx := Tab.get {} kc.1 x.ctxs
  let u := p.ctxUnit c y
  match (d.core cl ph).span, ctxReady p x kc with
  | some (die, slot), some n =>
    let sp := d.span (64 * die + slot)
    if y.voiding then
      d.putEng cl ph eng x { x with ctxs := Tab.put kc.1 { y with iters := Tab.put n { (Tab.get ({} : Iter) n y.iters) with void := true } y.iters } x.ctxs } []
    else
      let j := (Tab.get ({} : Iter) n y.iters).fired
      let lin := n * u.firings + j
      let ds := digits lin y.counts
      let (toks, _, _) := startFiring x y kc.1 n (c.inputs j)
      let g := if c.gate = 2 then tokWord (inTok toks c.gq) 0 else 0
      let f : Firing := { cl := cl, ph := ph, me := me, k := kc.1, c := c, n := n, lin := lin, a := 4 * c.word ds g, va := c.tierVa sp.args ds g, ds := ds,
                          uid := sp.running.getD 0, asid := sp.asid, func := sp.func, pubKey := sp.pubKey }
      let start (x : Eng) : Eng × Tab Nat := let (_, x, freed) := startFiring x y kc.1 n (c.inputs j); (x, freed)
      match c.disp with
      | some k => dispFire e d x p f k u.limit y.counts start
      | none =>
        if c.tier then tierFire e d x p f recent ecc start
        else
          let reads : Bool := c.role = 0
          match sramFault d p f reads ecc with
          | some i =>
            let d := d.countNear f reads ecc
            (d.modEng cl ph eng fun x => { x with conflicts := x.conflicts + (if i.resource = 0x04 then p.budget + 1 else 0) }).engFault e cl ph eng i
          | none =>
            let d := d.countNear f reads ecc
            let (x', freed) := start x
            let x' := { x' with conflicts := x'.conflicts + conflictCycles (c.touches f.a) }
            if reads then
              let l := f.bytes d
              let epoch := (d.core cl ph).epoch
              let outs := (f.tokens l).foldl (fun o z => pushTok o z.1 (token .data n epoch z.2)) x'.outs
              (d.putEng cl ph eng x { x' with outs := outs, fillBytes := x'.fillBytes - l.length } freed).fired cl ph
            else
              let t := inTok toks (4 + c.vin)
              let d := ((c.touches f.a).zipIdx).foldl (fun d z => d.nearWrite (f.near z.1.1) (toBytes z.1.2 (tokWord t z.2))) d
              (d.putEng cl ph eng x x' freed).fired cl ph
  | _, _ => d

def execMeFiring (cl : ClusterId) (p : CoreId) (e : Fin 4) (ctx : Fin 8) (recent : Nat) (ecc : Ecc) (s : State) : Res :=
  onDev s fun v d =>
    let x := d.eng cl p (4 + e)
    if !(d.coreLive v cl p && x.fires) then d
    else match x.prog with
      | .me q =>
        if q.steer ≠ 0 then (if ctx.val = 0 then meSteer d cl p (4 + e) q else d)
        else match q.ctx? ctx with
          | some c => if genFree q x (ctx, c) then ctxFire v d cl p e q (ctx, c) recent ecc else d
          | none => d
      | _ => d

/-- A context has a firing, or a void, whose inputs are all there: it starts, or waits only for an output-buffer slot. -/
def ctxHeld (p : MeProg) (x : Eng) (kc : Nat × CtxProg) : Bool :=
  let y : Ctx := Tab.get {} kc.1 x.ctxs
  let u := p.ctxUnit kc.2 y
  let s := x.ctxSettling y
  if y.frozen.isSome || y.walk.isSome || !x.ctxRuns kc.2 then false
  else (u.window s.base).any fun n =>
    if y.voiding then !(s.iter n).void && !(s.iter n).complete else u.ready s (fun _ => []) n && pairAllows p x kc.1 kc.2 n

/-- An engine has a firing that starts or waits only for an output-buffer slot (R339). -/
def Eng.held (x : Eng) : Bool :=
  x.fires && match x.prog with
    | .unused => false
    | .ce p => ((p.unit x.limit).pick x.settling fun _ => []).isSome
    | .me p => if p.steer ≠ 0 then (p.steerUnit.pick x.settling fun _ => []).isSome else p.ctxs.any (ctxHeld p x)

/-! ### Keystones and handoffs (R60 to R63) -/

/-- An engine that holds keystones on all fed inputs, with every earlier token consumed, every write performed, and a slot of every output buffer free
(R47, R60). -/
def Dev.keystoneReady (d : Dev) (cl ph n : Nat) (x : Eng) : Bool :=
  let fed := d.fedInputs cl ph n
  x.prog ≠ .unused && x.st = stDraining && !x.keyOut
  && (if fed.isEmpty then x.keyIn else fed.all fun y => let q : JointQueue := Tab.get {} (queueKey y.1 y.2) x.queues; q.key && q.toks.isEmpty)
  && (x.ctxs.all fun y => y.2.outst.isEmpty) && (d.routedOuts cl ph n).all (roomFor x.outs)

/-- An engine forwards its keystone on every output with a route, or reports it where it is a sink. -/
def Dev.engKeystone (d : Dev) (cl ph n : Nat) : Dev :=
  let x := d.eng cl ph n
  let t : Token := token .keystone 0 (d.core cl ph).epoch 0#512
  d.setEng cl ph n { x with
    keyOut := true, keyIn := false
    queues := x.queues.map fun q : Nat × JointQueue => (q.1, { q.2 with key := false })
    outs := (d.routedOuts cl ph n).foldl (fun o k => pushTok o k t) x.outs }

/-- A send endpoint puts an end marker on the bridge and reports (R63). -/
def Dev.sendKeystone (d : Dev) (die ep : Nat) : Dev :=
  { d with pairs := d.pairs.map fun (p : Pair) =>
      if p.sDie = die && p.sEp = ep && p.sSpan.isSome && p.sKey then
        { p with sKey := false, sDone := true, bridge := if p.rSpan.isSome then p.bridge ++ [.endMark] else p.bridge }
      else p }

/-- A receive endpoint's keystone may go: every token before the end marker is delivered; without a sender, every token. -/
def Pair.mayForward (p : Pair) : Bool :=
  p.rKey && (p.buf.head? = some .endMark || (p.sSpan.isNone && p.buf.isEmpty && p.bridge.isEmpty))

/-- A receive endpoint forwards its keystone to the destinations of its route (R63). -/
def Dev.recvKeystone (d : Dev) (die ep : Nat) : Dev :=
  match d.pairInto die ep with
  | none => d
  | some p =>
    match p.rSpan with
    | none => d
    | some (rd, rs) =>
      if !p.mayForward then d else
        let d := { d with pairs := d.pairs.map fun (y : Pair) =>
          if y.rDie = die && y.rEp = ep && y.rSpan.isSome then { y with rKey := false, rDone := true, buf := y.buf.drop 1 } else y }
        match d.routeFrom (.recvEp die ep) with
        | none => d
        | some r => d.sendToken r (token .keystone 0 (d.span (64 * rd + rs)).epoch 0#512)

def execKeystoneForward (site : KeySite) (s : State) : Res :=
  guarded site.wf (onDev s fun e d => match site with
    | .engine cl ph n => if d.coreLive e cl ph && d.keystoneReady cl ph n (d.eng cl ph n) then d.engKeystone cl ph n else d
    | .sendEp die ep => if d.running then d.sendKeystone die ep else d
    | .recvEp die ep => if d.running then d.recvKeystone die ep else d)

/-- The oldest item on the bridge enters the pair's buffer at the receiving die (R62, R63). -/
def Dev.bridgeItem (d : Dev) (die ep : Nat) : Dev :=
  { d with pairs := d.pairs.map fun (p : Pair) =>
      if p.rDie = die && p.rEp = ep then match p.bridge with
        | [] => p
        | i :: t => { p with bridge := t, buf := p.buf ++ [i] }
      else p }

def execHandoffReceive (d : DieId) (ep : Fin 32) (s : State) : Res := onDev s fun _ v => if v.running then v.bridgeItem d ep else v

/-! ### Tier transfers (R226, R232, R234) -/

def execArbRound (port : Fin 672) (s : State) : Res :=
  onDev s fun e d => if d.running && e.fuse.arbFitted port && !d.portDead port then d.arbRound e port else d

def execDynamicSlotGrant (port : Fin 672) (s : State) : Res :=
  onDev s fun e d => if d.running && e.fuse.arbFitted port then d.slotGrant e.now port else d

/-- The uncorrected word of a transfer: the poisoned one that it meets, else one that is left open. -/
def Dev.badOf (d : Dev) (pa : Nat) : Nat × Dev :=
  match d.badIn pa 64 with
  | some w => (w, d)
  | none => let (x, d) := d.free 3; (pa + 8 * x.toNat, d)

/-- A granted transfer of a context completes: fill data go to the SRAM, a spill's data to the tier; an uncorrected word ends the command. -/
def xferDone (e : Env) (d : Dev) (cl ph me ctx : Nat) (t : Xfer) (ecc : Ecc) : Dev :=
  let x := d.eng cl ph (4 + me)
  let y : Ctx := Tab.get {} ctx x.ctxs
  let firings := match x.prog with
    | .me p => match p.ctx? ctx with
      | some c => (p.ctxUnit c y).firings
      | none => 1
    | _ => 1
  let x' := { x with ctxs := Tab.put ctx { y with outst := y.outst.filter fun z => z.lin ≠ t.lin } x.ctxs }
  if t.write then
    let d := (d.writePa t.pa t.data).unpoison t.pa 64
    ((d.putEng cl ph (4 + me) x x' []).leavePort t.port cl ph me ctx).freeHomes
  else if ecc = .uncorrected || (d.badIn t.pa 64).isSome then
    let (w, d) := d.badOf t.pa
    d.engFault e cl ph (4 + me)
      { error := Config.eccUncorrected, resource := if e.fuse.isBonded t.pa then 0x29 else 0x2A, ctx := some ctx, iter := some (t.lin / max firings 1),
        value := w, addr := some t.va, firing := some t.lin }
  else
    let d := if ecc = .corrected then d.countEcc e.fuse t.pa 1 0 0 else d
    let d := d.nearWrite (nearAt cl ph me t.sram) (Memory.read d.blk.dram t.pa 64)
    ((d.putEng cl ph (4 + me) x { x' with fillBytes := x'.fillBytes + 64 } []).leavePort t.port cl ph me ctx).freeHomes

def execTierTransferDone (cl : ClusterId) (p : CoreId) (e : Fin 4) (ctx : Fin 8) (lin : Nat) (ecc : Ecc) (s : State) : Res :=
  onDev s fun v d =>
    match (d.streamCtx cl p e ctx).outst.find? fun t => t.lin = lin && t.granted with
    | some t => if d.running && (d.sleep cl).st = .active && !d.unitDead v.fuse t.pa then xferDone v d cl p e ctx t ecc else d
    | none => d

end Sys2Proof.Machine
end

