-- ==== Sys2Proof/Machine/Serving.lean ====
section
/-!
DEFINITION. Serving: ADMIT with its time check and prefix reuse (R263 to R265, R284), RELEASE (R266), SEQ_STEP with its boundary (R267 to R277)
and the commit of a step (R271, R280 to R285).
-/
namespace Sys2Proof.Machine

/-- ASID of SEQ_STEP and ADMIT, and the address of their descriptor. -/
def seqAsid (c : Command) : Nat := cmdField c 32 2
def seqDesc (c : Command) : Nat := cmdField c 16 8

/-- The address space may be read for the command's function. -/
def Dev.ownAsid (d : Dev) (a func : Nat) : Bool := !badAsid a && !d.deadAsid a && !d.foreignAsid a func

/-! ### Versions that a descriptor names (R253) -/

/-- What a version field names: no version, no current version of a model, or an entry. -/
inductive Named where
  | bad
  | stale
  | entry (n : Nat)
deriving DecidableEq, Repr

/-- The version of a kind that a field names, by handle or by MODEL_ID. -/
def Dev.namedVersion (d : Dev) (kind v : Nat) (byId : Bool) : Named :=
  if byId then
    match d.current v with
    | some n => if (d.ver n).kind = kind then .entry n else .bad
    | none => .stale
  else match d.verOf v with
    | some n => if (d.ver n).st = .loading || (d.ver n).kind ≠ kind then .bad else .entry n
    | none => .bad

def Named.isBad (x : Named) : Bool := x = .bad
def Named.isStale (d : Dev) (x : Named) : Bool :=
  match x with
  | .stale => true
  | .entry n => (d.ver n).st = .retiring
  | .bad => false
def Named.entry? : Named → Option Nat
  | .entry n => some n
  | _ => none
/-- A version that the function may not read (R248). -/
def Named.barred (d : Dev) (func : Nat) (x : Named) : Bool :=
  match x with
  | .entry n => !bitAt (d.ver n).fmask func
  | _ => false

/-- Every span handle of a plan. -/
def Plan.handles (p : Plan) : List Nat := p.buckets.flatMap fun b => b.spans ++ b.dspans

/-- The span slot that a handle of a plan names. -/
def planSpan (u : Fuses) (h : Nat) : Option Nat := if h < 256 && u.dieFitted (h % 4) then some (handleSlot h) else none

/-! ### ADMIT -/

/-- The admission descriptor (R263). -/
structure Admission where
  base : Nat
  adapter : Nat
  plan : Nat
  kvVa : Nat
  promptLen : Nat
  maxLen : Nat
  tokVa : Nat
  seed : Nat
  chunk : Nat
  flags : Nat
  reserved : Nat

def readAdmission (l : List Byte) : Admission :=
  { base := bytesAt l 0 8, adapter := bytesAt l 8 8, plan := bytesAt l 16 8, kvVa := bytesAt l 24 8, promptLen := bytesAt l 32 4,
    maxLen := bytesAt l 36 4, tokVa := bytesAt l 40 8, seed := bytesAt l 48 8, chunk := bytesAt l 56 4, flags := bytesAt l 60 1,
    reserved := bytesAt l 61 3 }

def Admission.rangesOk (a : Admission) : Bool :=
  a.plan % 4096 = 0 && a.kvVa % pageBytes = 0 && a.tokVa % 64 = 0 && 2 ≤ a.maxLen && a.maxLen ≤ 2 ^ 20 && 1 ≤ a.promptLen && a.promptLen < a.maxLen
    && 1 ≤ a.chunk && a.chunk ≤ 65536 && a.flags < 16 && a.reserved = 0

/-- What ADMIT reads before it checks: the descriptor, and the plan it names. -/
def Dev.admitView (d : Dev) (u : Fuses) (o : OpenCmd) : Except (Trans × Nat) (Admission × Option Plan) :=
  match d.rtRead u o.die (seqAsid o.cmd) o.func (seqDesc o.cmd) 64 with
  | .error t => .error (t, seqDesc o.cmd)
  | .ok l =>
    let a := readAdmission l
    if a.plan % 4096 ≠ 0 then .ok (a, none)
    else match d.readPlan u o.die (seqAsid o.cmd) o.func a.plan with
      | .error t => .error (t, a.plan)
      | .ok p => .ok (a, p)

/-- The view, where the command's own fields allow it. -/
def Dev.admitSeen (d : Dev) (u : Fuses) (o : OpenCmd) : Option (Admission × Option Plan) :=
  if seqDesc o.cmd % 64 = 0 && d.ownAsid (seqAsid o.cmd) o.func then (d.admitView u o).toOption else none

def Dev.namedBase (d : Dev) (a : Admission) : Named := d.namedVersion 1 a.base (bitAt a.flags 0)
def Dev.namedAdapter (d : Dev) (a : Admission) : Option Named := if a.adapter = 0 then none else some (d.namedVersion 2 a.adapter (bitAt a.flags 1))
def Dev.namedDraft (d : Dev) (p : Plan) : Option Named := if p.draft = 0 then none else some (d.namedVersion 1 p.draft false)

/-- The KV region is covered by page tables down to level 1, every leaf not present. -/
def Dev.kvUnmapped (d : Dev) (u : Fuses) (asid va bytes : Nat) : Bool :=
  (List.range (bytes / pageBytes)).all fun i => match d.leafSlot u asid (va + pageBytes * i) with
    | some pa => !bitAt (d.entryAt pa) 0
    | none => false

/-- The adapter is bound to the base (R255). -/
def Dev.bindsTo (d : Dev) (adapter base : Nat) : Bool :=
  (d.ver adapter).baseId = (d.ver base).modelId && (d.ver adapter).baseVersion = (d.ver base).version

/-- A descriptor error of ADMIT (R264, first row). -/
def admitBad (u : Fuses) (d : Dev) (o : OpenCmd) (a : Admission) (p : Option Plan) : Bool :=
  !a.rangesOk || (match p with
    | none => true
    | some p =>
      let bytes := p.blockBytes * ((a.maxLen + 63) / 64)
      sealedBase < a.kvVa + bytes || !d.kvUnmapped u (seqAsid o.cmd) a.kvVa bytes
        || (match (d.namedBase a).entry? with
          | none => false
          | some b => p.base ≠ verHandle b (d.ver b) || (match d.namedAdapter a with
            | some (.entry x) => !d.bindsTo x b
            | _ => false)))

/-- The last step's rows of a sequence, or its CHUNK. -/
def Seq.lastOrChunk (s : Seq) : Nat := s.lastRows.getD s.chunk

/-- Rows of the time check: the READY and RUNNING sequences of the class on the die, and the new CHUNK. -/
def Dev.classRows (d : Dev) (die cls chunk : Nat) : Nat :=
  ((d.seqs.filter fun x => x.2.die = die && x.2.cls = cls && (x.2.st = .ready || x.2.st = .running)).map fun x => x.2.lastOrChunk).sum + chunk

def Dev.budgetUs (d : Dev) (k : Nat) : Nat := bitsAt (d.schClass k).toNat 16 32

def Dev.freeSeq (d : Dev) (point : Nat) : Option Nat := findRound (fun n => (d.seq n).st = .free) 0 65536 point

/-- Pages of a new sequence's target. -/
def admitPages (a : Admission) (p : Plan) : Nat :=
  ({ promptLen := a.promptLen, maxLen := a.maxLen } : Seq).target * (p.blockBytes / pageBytes)

def admitCheck (e : Env) (d : Dev) (o : OpenCmd) : Option Reject :=
  let c := o.cmd
  let view := d.admitSeen e.fuse o
  let on (f : Admission → Plan → Bool) : Bool := match view with
    | some (a, some p) => f a p
    | _ => false
  let names (a : Admission) (p : Plan) : List Named := d.namedBase a :: ((d.namedAdapter a).toList ++ (d.namedDraft p).toList)
  let rows (a : Admission) : Nat := d.classRows o.die (cmdClass c) a.chunk
  d.checks e o
    (fields := [(seqDesc c % 64 ≠ 0 || view.any fun x => admitBad e.fuse d o x.1 x.2, 16), (badAsid (seqAsid c), 32)])
    (handles := [(d.deadAsid (seqAsid c), 32),
                 (on fun a p => (names a p).any Named.isBad || p.handles.any fun h => match planSpan e.fuse h with
                   | some k => (d.span k).st = .free
                   | none => true, 16)])
    (perms := [(d.foreignAsid (seqAsid c) o.func, 32), (on fun a p => (names a p).any (Named.barred d o.func), 16)])
    (rest := [fails (on fun a p => (names a p).any (Named.isStale d)) Config.versionRetired 16,
              fails (on fun a p => !d.blk.locked || (d.freeSeq 0).isNone || d.freeBonded o.die < admitPages a p || (p.bucket (rows a)).isNone)
                Config.quota 16,
              fails (on fun a p => d.budgetUs (cmdClass c) ≠ 0 && (match p.bucket (rows a) with
                | some b => d.budgetUs (cmdClass c) < b.cost
                | none => false)) Config.deadline 16])

/-- What the prefix table holds of the blocks of a prompt: the KV address of each that hits (R213). -/
def Dev.pfxLook (d : Dev) (u : Fuses) (s : Seq) (p : Plan) (toks : List Byte) : Except Unread (List (Option Nat)) :=
  (List.range s.hashes.length).mapM fun i =>
    let va := p.bucketVa (s.hashOf i)
    match d.rtRead u s.die s.asid s.func va 4096 with
    | .ok b => .ok (pfxFind (pfxEntries b) (s.hashOf i) (s.parentOf i) ((toks.drop (256 * i)).take 256))
    | .error t => .error (t, va)

/-- Copies the KV of a hit block into block `b` of a sequence; none where it cannot be read. -/
def Dev.copyBlock (e : Env) (d : Dev) (k b kv : Nat) : Except Unread Dev :=
  let s := d.seq k
  (List.range s.blockPages).foldl (fun (r : Except Unread Dev) i =>
    match r with
    | .error x => .error x
    | .ok d =>
      let va := kv + pageBytes * i
      match translate e.fuse d (rtAccess s.die s.asid s.func false) va with
      | .pa pa => .ok ((d.askWalk e none (rtAccess s.die s.asid s.func false) va).moverCopy e s.die pa ((((s.blocks.getD b []).getD i 0)) * pageBytes) pageBytes)
      | t => .error (t, va)) (.ok d)

/-- The prefix lookup of an admitted sequence (R284): each block counts as a hit or a miss of its own (R223). -/
def Dev.reusePrefix (e : Env) (d : Dev) (k : Nat) (p : Plan) (toks : List Byte) : Except Unread Dev := do
  let s := d.seq k
  let found ← d.pfxLook e.fuse s p toks
  let d := (List.range s.hashes.length).foldl (fun d i => d.rtWalk e s.die s.asid s.func (p.bucketVa (s.hashOf i)) 4096) d
  let hits := (found.takeWhile Option.isSome).filterMap id
  let m := min hits.length ((s.promptLen - 1) / 64)
  let d := if !e.fuse.hasTrestle then d else { d with btr := { d.btr with
    pfxHit := Tab.put s.die (satAdd 32 (Tab.get 0 s.die d.btr.pfxHit) (found.countP Option.isSome)) d.btr.pfxHit
    pfxMiss := Tab.put s.die (satAdd 32 (Tab.get 0 s.die d.btr.pfxMiss) (found.countP Option.isNone)) d.btr.pfxMiss } }
  let d ← (hits.take m).zipIdx.foldlM (fun d x => d.copyBlock e k x.2 x.1) d
  return d.modSeq k fun s => { s with len := 64 * m }

/-- The entry of an admitted sequence (R265, steps 1 and 5). -/
def newSeq (d : Dev) (o : OpenCmd) (a : Admission) (p : Plan) (gen : Nat) : Seq :=
  { st := .ready, gen := gen, die := o.die, func := o.func, cls := cmdClass o.cmd, asid := seqAsid o.cmd,
    base := (d.namedBase a).entry?.getD 0, adapter := (d.namedAdapter a).bind Named.entry?, draft := (d.namedDraft p).bind Named.entry?,
    plan := a.plan, kvVa := a.kvVa, blockBytes := p.blockBytes, promptLen := a.promptLen, maxLen := a.maxLen, tokVa := a.tokVa,
    seed := BitVec.ofNat 64 a.seed, chunk := a.chunk, pfxUse := bitAt a.flags 2, pfxShare := bitAt a.flags 3 }

def runAdmit (e : Env) (d : Dev) (o : OpenCmd) : Dev :=
  match d.admitView e.fuse o with
  | .error (t, va) => d.failFault e o (rtFault t va)
  | .ok (_, none) => d.complete o.uid Config.badField 16
  | .ok (a, some p) =>
    let hashed := p.pfxLog2 ≠ 0 && (bitAt a.flags 2 || bitAt a.flags 3)
    match (if hashed then d.rtRead e.fuse o.die (seqAsid o.cmd) o.func a.tokVa (4 * a.promptLen) else .ok []) with
    | .error t => d.failFault e o (rtFault t a.tokVa)
    | .ok toks =>
      let w (d : Dev) (va n : Nat) : Dev := d.rtWalk e o.die (seqAsid o.cmd) o.func va n
      let (x, d') := (w (w (w d (seqDesc o.cmd) 64) a.plan 64) a.tokVa (if hashed then 4 * a.promptLen else 0)).free 16
      let k := (d'.freeSeq x.toNat).getD 0
      let s := newSeq d' o a p (d'.seq k).gen
      let s := { s with hashes := promptHashes (pfxKey d' s) (if hashed then a.promptLen / 64 else 0) 0 toks }
      let d' := (d'.setSeq k s).takeBlocks e.fuse k s.target
      match (if p.pfxLog2 ≠ 0 && s.pfxUse then d'.reusePrefix e k p toks else .ok d') with
      | .error (t, va) => d.failFault e o (rtFault t va)
      | .ok d' => d'.complete o.uid Config.ok (seqHandle k s + (d'.seq k).len * 2 ^ 32)

def execAdmit (f : FuncId) (q : QueueId) (c : Command) (s : State) : Res :=
  guarded (cmdIs opAdmit c) (onDev s fun e d => startRow e d f q c admitCheck runAdmit)

/-! ### The step descriptor (R268) -/

structure StepItem where
  handle : Nat
  phase : Nat
  draftMax : Nat
  sample : Nat
  tokens : Nat
  adapter : Nat
  tokVa : Nat
  seed : Nat
  reserved : Nat

def readItem (l : List Byte) : StepItem :=
  { handle := bytesAt l 0 4, phase := bytesAt l 4 1, draftMax := bytesAt l 5 1, sample := bytesAt l 6 1, tokens := bytesAt l 8 4,
    adapter := bytesAt l 12 2, tokVa := bytesAt l 16 8, seed := bytesAt l 24 8, reserved := bytesAt l 7 1 + bytesAt l 14 2 }

structure StepDesc where
  plan : Nat
  out : Nat
  reserved : Nat
  items : List StepItem

def stepCount (c : Command) : Nat := cmdField c 24 2

/-- The descriptor, and the plan it names. -/
def Dev.stepView (d : Dev) (u : Fuses) (die func : Nat) (c : Command) : Except (Trans × Nat) (StepDesc × Option Plan) :=
  let n := stepCount c
  match d.rtRead u die (seqAsid c) func (seqDesc c) (64 + 32 * n) with
  | .error t => .error (t, seqDesc c)
  | .ok l =>
    let s : StepDesc := { plan := bytesAt l 0 8, out := bytesAt l 8 8, reserved := bytesAt l 16 48,
                          items := (List.range n).map fun i => readItem ((l.drop (64 + 32 * i)).take 32) }
    match d.readPlan u die (seqAsid c) func s.plan with
    | .error t => .error (t, s.plan)
    | .ok p => .ok (s, p)

def Dev.stepSeen (d : Dev) (u : Fuses) (o : OpenCmd) : Option (StepDesc × Option Plan) :=
  if 1 ≤ stepCount o.cmd && stepCount o.cmd ≤ 4096 && d.ownAsid (seqAsid o.cmd) o.func then (d.stepView u o.die o.func o.cmd).toOption else none

/-- An entry has a field out of range, or does not agree with its sequence (R268, R269). -/
def itemBad (d : Dev) (o : OpenCmd) (plan : Nat) (x : StepItem) : Bool :=
  let prefill := x.phase = 1
  2 < x.phase || 15 < x.draftMax || 1 < x.sample || x.reserved ≠ 0 || (!prefill && (x.tokens ≠ 0 || x.tokVa ≠ 0))
    || (match d.seqOf x.handle with
      | none => false
      | some k =>
        let s := d.seq k
        s.die ≠ o.die || s.plan ≠ plan || x.seed ≠ s.seed.toNat || x.adapter ≠ s.adapter.getD 0xFFFF
          || (x.phase = 0 && (s.len < s.promptLen || s.maxLen < s.len + 1))
          || (prefill && (s.promptLen ≤ s.len || x.tokens = 0 || s.promptLen - s.len < x.tokens)))

/-- The entry of a running step that an item becomes. -/
def StepItem.toEntry (d : Dev) (x : StepItem) : StepEntry :=
  { seq := (d.seqOf x.handle).getD 0, phase := x.phase, draftMax := x.draftMax, sample := x.sample, tokens := x.tokens, tokVa := x.tokVa,
    len := (d.seq ((d.seqOf x.handle).getD 0)).len }

/-- The draft lengths that R282 would choose. -/
def withDraft (d : Dev) (p : Plan) (x : StepEntry) : StepEntry := if x.phase = 0 then { x with d := draftLen p (d.seq x.seq) x.draftMax } else x

/-- Sequence groups of a fold: one for each adapter, and one for the rows without (R275). -/
def Dev.groupCount (d : Dev) (l : List StepEntry) : Nat := (l.map fun x => (d.seq x.seq).adapter).eraseDups.length

def seqStepCheck (e : Env) (d : Dev) (o : OpenCmd) : Option Reject :=
  let c := o.cmd
  let view := d.stepSeen e.fuse o
  let bad (x : StepDesc × Option Plan) : Bool :=
    x.2.isNone || x.1.reserved ≠ 0 || x.1.out % 128 ≠ 0 || x.1.items.any (itemBad d o x.1.plan) || !decide (x.1.items.map (·.handle)).Nodup
  let on (f : StepDesc → Plan → Bool) : Bool := match view with
    | some (s, some p) => f s p
    | _ => false
  let spans (p : Plan) : List (Option Nat) := p.handles.map (planSpan e.fuse)
  let seqs (s : StepDesc) : List Seq := s.items.filterMap fun x => (d.seqOf x.handle).map d.seq
  let going (s : StepDesc) (p : Plan) : List StepEntry := (s.items.filter fun x => x.phase ≠ 2).map fun x => withDraft d p (x.toEntry d)
  d.checks e o
    (fields := [(view.any bad, 16), (stepCount c = 0 || 4096 < stepCount c, 24), (badAsid (seqAsid c), 32)])
    (handles := [(d.deadAsid (seqAsid c), 32),
                 (on fun s p => s.items.any (fun x => (d.seqOf x.handle).isNone) || (spans p).any fun x => match x with
                   | some k => let st := (d.span k).st; st = .free || st = .loading || st = .draining
                   | none => true, 16)])
    (perms := [(d.foreignAsid (seqAsid c) o.func, 32),
               (on fun s p => (seqs s).any (fun x => x.func ≠ o.func) || (spans p).any fun x => match x with
                 | some k => (d.span k).func ≠ o.func
                 | none => false, 16)])
    (rest := [fails (on fun s _ => (seqs s).any fun x => x.st = .running) Config.busy 16,
              fails (on fun s p => let l := going s p
                (p.bucket (l.map StepEntry.rows).sum).isNone || 256 < d.groupCount l || !d.demandFits o.die (d.stepAdapters l)) Config.quota 16])

/-! ### The boundary (R272 to R274) -/

/-- Entries in ascending ENTRY of their sequences, each with its place in the step. -/
def byEntry (l : List StepEntry) : List (StepEntry × Nat) :=
  l.zipIdx.foldl (fun acc x => (acc.takeWhile fun y => y.1.seq ≤ x.1.seq) ++ x :: (acc.dropWhile fun y => y.1.seq ≤ x.1.seq)) []

/-- Stage 1: a leaver is retired, and a RELEASE that waited for it completes. -/
def boundaryLeave (e : Env) (d : Dev) (x : StepEntry) : Dev × StepEntry :=
  let wait := (d.seq x.seq).leaver
  let d := d.retireSeq e x.seq
  let d := match wait with
    | some uid => (match d.openOf uid with
      | some o => (d.charge o 0).complete uid Config.ok 0
      | none => d)
    | none => d
  (d, { x with left := true })

/-- Stage 2: a continuing sequence is brought to its target, or parked. -/
def boundaryKeep (e : Env) (d : Dev) (x : StepEntry) : Dev × StepEntry :=
  let s := d.seq x.seq
  let held := s.blocks.length
  if s.target < held then (d.freeBlocks e.fuse x.seq s.target, { x with ran := true })
  else if d.freeBonded s.die < (s.target - held) * s.blockPages then
    let d := d.parkSeq e x.seq
    (d, { x with parked := true, inPlace := (d.seq x.seq).inPlace })
  else (d.takeBlocks e.fuse x.seq (s.target - held), { x with ran := true })

/-- Stage 3: a joiner comes back where its die has the pages. -/
def boundaryJoin (e : Env) (d : Dev) (x : StepEntry) : Dev × StepEntry :=
  let s := d.seq x.seq
  if d.freeBonded s.die < s.joinPages then (d, { x with refused := true })
  else (d.rejoinSeq e x.seq, { x with ran := true, joined := true })

/-- One stage over the entries that it is for. -/
def stage (act : Dev → StepEntry → Dev × StepEntry) (sel : Dev → StepEntry → Bool) (r : Dev × List StepEntry) : Dev × List StepEntry :=
  ((byEntry r.2).filter fun x => sel r.1 x.1).foldl (fun r x => let y := act r.1 x.1; (y.1, r.2.set x.2 y.2)) r

/-- The four stages; the entries that stay are RUNNING, with their draft lengths. -/
def boundaryRun (e : Env) (d : Dev) (p : Plan) (l : List StepEntry) : Dev × List StepEntry :=
  let fresh (x : StepEntry) : Bool := !x.left && !x.parked && !x.ran && !x.refused
  let r := stage (boundaryLeave e) (fun _ x => x.phase = 2) (d, l)
  let r := stage (boundaryLeave e) (fun d x => fresh x && (d.seq x.seq).leaver.isSome) r
  let was := r.1
  let r := stage (boundaryKeep e) (fun _ x => fresh x && (was.seq x.seq).st = .ready) r
  let r := stage (boundaryJoin e) (fun _ x => fresh x && (was.seq x.seq).st = .parked) r
  let l := r.2.map fun x => if x.ran then withDraft r.1 p x else x
  (l.foldl (fun d x => if x.ran then d.modSeq x.seq fun s => { s with st := .running } else d) r.1, l)

/-- The launches of a step: the draft rounds, then the main spans (R277). -/
def stepLaunches (p : Plan) (l : List StepEntry) : List (Nat × Nat) :=
  let run := l.filter (·.ran)
  let t := (run.map StepEntry.rows).sum
  let rounds := maxList 0 (run.map (·.d))
  let draft := (List.range rounds).flatMap fun i =>
    match p.bucket (run.countP fun x => x.phase = 0 && i + 1 ≤ x.d) with
    | some b => b.dspans.map fun h => (i + 1, handleSlot h)
    | none => []
  if run.isEmpty then [] else draft ++ (match p.bucket t with
    | some b => b.spans.map fun h => (0, handleSlot h)
    | none => [])

/-- A failed demand image ends its step: with a fault record, which names the word of the bulk home, where the error is one of run time. -/
def demandFailed (e : Env) (d : Dev) (o : OpenCmd) (code pa : Nat) : Dev :=
  if 0x10 ≤ code then d.failFault e o { error := code, resource := 0x2A, engine := 0xF2, value := pa }
  else d.settle e [.fail o.uid code 16]

def runSeqStep (e : Env) (d : Dev) (o : OpenCmd) : Dev :=
  match d.stepView e.fuse o.die o.func o.cmd with
  | .error (t, va) => d.failFault e o (rtFault t va)
  | .ok (_, none) => d.settle e [.fail o.uid Config.badField 16]
  | .ok (s, some p) =>
    let w (d : Dev) (va n : Nat) : Dev := d.rtWalk e o.die (seqAsid o.cmd) o.func va n
    let (d, l) := boundaryRun e (w (w d (seqDesc o.cmd) (64 + 32 * stepCount o.cmd)) s.plan 64) p (s.items.map fun x => x.toEntry d)
    let r : StepRun := { uid := o.uid, die := o.die, asid := seqAsid o.cmd, plan := s.plan, out := s.out, entries := l, todo := stepLaunches p l }
    let d := { d with steps := d.steps ++ [r] }
    match d.unreadToks e.fuse o.die (seqAsid o.cmd) o.func l with
    | some (t, va) => d.failFault e o (rtFault t va)
    | none =>
      match d.demandImages e o.die (d.stepAdapters (l.filter (·.ran))) with
      | .error x => demandFailed e d o x.1 x.2
      | .ok d => d.settle e [.stepBegin o.die]

/-! ### RELEASE (R266) -/

/-- A fetched SEQ_STEP of the die, not started, names a sequence. -/
def Dev.pendingStep (d : Dev) (u : Fuses) (die handle : Nat) : Bool :=
  d.hif.queues.any fun x => x.2.dieOf = die && x.2.fetched.any fun y => cmdOpcode y.cmd = opSeqStep && stepCount y.cmd ≤ 4096
    && (match d.stepView u die (x.1 / 64) y.cmd with
      | .ok (s, _) => s.items.any fun i => i.handle = handle
      | .error _ => false)

/-- Sequences whose RELEASE waited for a step that is no longer to come are released, and the RELEASE completes. -/
def Dev.sweepLeavers (d : Dev) (e : Env) : Dev :=
  (d.seqs.filter fun x => x.2.leaver.isSome && (x.2.st = .ready || x.2.st = .parked) && !d.pendingStep e.fuse x.2.die (seqHandle x.1 x.2)).foldl
    (fun d x => (boundaryLeave e d { seq := x.1, phase := 2, draftMax := 0, sample := 0, tokens := 0, tokVa := 0 }).1) d

def execSeqStep (f : FuncId) (q : QueueId) (c : Command) (s : State) : Res :=
  guarded (cmdIs opSeqStep c) (onDev s fun e d => (startHeld e d f q c seqStepCheck runSeqStep).sweepLeavers e)

def releaseHandle (c : Command) : Nat := cmdField c 16 4

def releaseCheck (e : Env) (d : Dev) (o : OpenCmd) : Option Reject :=
  let k := d.seqOf (releaseHandle o.cmd)
  let s := d.seq (k.getD 0)
  d.checks e o (handles := [(k.isNone || s.leaver.isSome, 16)]) (perms := [(s.func ≠ o.func, 16)])

/-- A sequence that runs, or that a fetched step names, waits for it; any other is released at once. -/
def runRelease (e : Env) (d : Dev) (o : OpenCmd) : Dev :=
  let k := (d.seqOf (releaseHandle o.cmd)).getD 0
  let s := d.seq k
  if s.st = .running || d.pendingStep e.fuse s.die (releaseHandle o.cmd) then d.modSeq k fun s => { s with leaver := some o.uid }
  else (d.retireSeq e k).complete o.uid Config.ok 0

def execRelease (f : FuncId) (q : QueueId) (c : Command) (s : State) : Res :=
  guarded (cmdIs opRelease c) (onDev s fun e d => startRow e d f q c releaseCheck runRelease)

/-! ### STEP_COMMIT (R271, R280 to R285) -/

/-- The step of a die whose launches have ended and whose commit comes next. -/
def Dev.stepToCommit (d : Dev) (die : Nat) : Option (StepRun × OpenCmd) :=
  (d.steps.filter fun r => r.die = die && r.computed).findSome? fun r => match d.openOf r.uid with
    | some o => if o.held then none else some (r, o)
    | none => none

/-- The first output record of a step that cannot be written; a page of an open move can (R190). -/
def Dev.badRecord (d : Dev) (u : Fuses) (r : StepRun) (func : Nat) : Option Unread :=
  (List.range r.entries.length).findSome? fun i =>
    match translate u d (rtAccess r.die r.asid func true) (r.out + 128 * i) with
    | .pa _ => none
    | .resolve _ => none
    | t => some (t, r.out + 128 * i)

def stepDone (e : Env) (d : Dev) (r : StepRun) (o : OpenCmd) : Dev :=
  match d.badRecord e.fuse r o.func with
  | some (t, va) => d.failFault e o (rtFault t va)
  | none => (d.charge o r.charge).settle e [.done o.uid r.result, .stepBegin r.die]

def execStepCommit (d : DieId) (s : State) : Res :=
  onDev s fun e v => match v.stepToCommit d with
    | some (r, o) => if v.running then stepDone e v r o else v
    | none => v

end Sys2Proof.Machine
end

