-- ==== Sys2Proof/Machine/Functions.lean ====
section
/-!
DEFINITION. Resets of functions (R299 to R303): the trigger, the safe points of the commands, the end that clears a function's state, and the loss of
the link (R391).
-/
namespace Sys2Proof.Machine

/-! ### The start (R300, steps 1 and 2; R301) -/

/-- Commands fetched and not started end with ERR_FUNCTION_RESET. -/
def Dev.dropFetched (d : Dev) (f : Nat) (writes : Bool) : Dev :=
  (d.hif.queues.filter fun x => x.1 / 64 = f).foldl (fun d x =>
    let q := x.1 % 64
    let d := if writes then x.2.fetched.foldl (fun d y => d.post f q y.cmd y.sqHead Config.functionReset 0 0) d else d
    d.modQueue f q fun u => { u with fetched := [], heldSince := none, exec := none }) d

/-- A SPAN_LOAD that reads its image from the bulk tier. -/
def Dev.bulkLoad (d : Dev) (uid : Nat) : Bool :=
  d.spans.any fun x : Nat × Span => x.2.loadCmd = some uid && x.2.fromBulk

/-- Commands that a function reset ends at once; the others run to their end. -/
def Dev.stopsAtReset (d : Dev) (o : OpenCmd) : Bool :=
  let op := o.opcode
  op = opSpanLaunch || op = opSeqStep || op = opTrestle || op = opWait || op = opBarrier || op = opViaSend || op = opViaRecv
    || (op = opSpanLoad && d.bulkLoad o.uid)

/-- A long operation under a reset of its function is cancelled; one that has no boundary to reach ends at once. -/
def Dev.resetLong (u : Fuses) (d : Dev) (k : Nat) : Dev :=
  let l := d.long k
  if !l.used || l.st.terminal || d.longFixed l then d
  else
    let now := l.st = .suspended || !l.chunked
    let d := d.modLong k fun l => { l with st := .cancelling, byReset := true, suspendPending := false }
    if now then d.cancelLong u k Config.cancelled else d

/-- No completion is written for a function's commands any more. -/
def Dev.silence (d : Dev) (f : Nat) : Dev :=
  { d with
    opens := d.opens.map fun o : OpenCmd => if o.func = f then { o with quiet := true } else o
    longs := d.longs.map fun x : Nat × LongOp => if x.2.func = f then (x.1, { x.2 with quiet := true }) else x }

/-- The commands and the COMMIT of a group in doubt: they wait for the decision and complete without an entry (R332). -/
def Dev.silenceDoubt (d : Dev) (f : Nat) : Dev :=
  let doubt := (d.groups.filter fun g => g.func = f && g.inDoubt).flatMap fun g => g.commit.toList ++ g.held.map (·.1)
  { d with opens := d.opens.map fun o : OpenCmd => if doubt.contains o.uid then { o with quiet := true } else o }

/-- A submission that is read and checked ends without effect (R411). -/
def Dev.endSubmission (d : Dev) (code : Nat) : Dev :=
  if d.sec.submitBusy && d.sec.submitPhase = 1#2 then
    { d with sec := { d.sec with submitBusy := false, submitPhase := 0#2, submitErr := BitVec.ofNat 8 code } }
  else d

/-- A trigger of R299 for a function: a second one merges with the first. -/
def Dev.resetFunc (e : Env) (d : Dev) (f : Nat) (writes : Bool) : Dev :=
  let silent (d : Dev) : Dev := if writes then d else d.silence f
  if d.funcResetting f then
    silent { d with hif := { d.hif with fresets := d.hif.fresets.map fun x : Nat × Bool => if x.1 = f then (f, x.2 && writes) else x } }
  else
    let d := if f = 0 then d.endSubmission Config.functionReset else d
    let d := silent (({ d with hif := { d.hif with fresets := d.hif.fresets ++ [(f, writes)] } }).dropFetched f writes)
    let d := d.silenceDoubt f
    let groups := (d.groups.filter fun g => g.func = f && !g.committed).map fun g => Todo.groupFail f g.num none
    let stops := (d.opens.filter fun o => o.func = f && !o.held && d.stopsAtReset o).map fun o => Todo.fail o.uid Config.functionReset 0
    let d := d.settle e (groups ++ stops)
    let d := (List.range 1024).foldl (fun d k => if (d.long k).func = f then d.resetLong e.fuse k else d) d
    d.sweepLeavers e

/-! ### The end (R300, step 4; R302) -/

/-- Every command of the function has ended, and, where the physical function was reset by PCIe, no virtual function's reset is under way. -/
def Dev.funcQuiet (d : Dev) (f : Nat) : Bool :=
  !(d.opens.any fun o => o.func = f)
    && !(d.longs.any fun x => x.2.used && x.2.func = f && !x.2.st.terminal && !d.longFixed x.2)
    && (f ≠ 0 || !(d.hif.fresets.any fun x => x.1 = 0 && !x.2) || !(d.hif.fresets.any fun x => x.1 ≠ 0))

/-- What a function reset clears in the host interface: queues, BAR2 map, doorbell errors, and after a PCIe reset its MSI-X vectors. -/
def Hif.clearFunc (h : Hif) (f : Nat) (pcie : Bool) : Hif :=
  { h with
    queues := h.queues.filter fun x => x.1 / 64 ≠ f
    bar2Map := Tab.erase f h.bar2Map
    bar2Base := if f = 0 then 0#64 else h.bar2Base
    dbErr := Tab.erase f h.dbErr
    dbErrQueue := Tab.erase f h.dbErrQueue
    unmasked := if pcie then h.unmasked.filter fun x => x / 64 ≠ f else h.unmasked
    pba := if pcie then h.pba.filter fun x => x / 64 ≠ f else h.pba
    fresets := h.fresets.filter fun x => x.1 ≠ f
    reenable := h.reenable.filter (· ≠ f)
    fetchRound := h.fetchRound.filter fun x => x / 64 ≠ f }

/-- A function's state is cleared as R302 states; its fault log too, unless a package reset made the function reset. -/
def Dev.clearFunc (e : Env) (d : Dev) (f : Nat) (pcie keepLog : Bool) : Dev :=
  let d := d.settle e ((d.spans.filter fun x => x.2.st ≠ .free && x.2.func = f).map fun x => Todo.lose x.1 Config.functionReset 0 false)
  let again := d.hif.reenable.contains f
  { d with
    hif := d.hif.clearFunc f pcie
    events := d.events.filter fun x => x.1 / 1024 ≠ f
    groups := d.groups.filter fun g => g.func ≠ f
    longs := d.longs.map fun x : Nat × LongOp => if x.2.func = f then (x.1, { gen := x.2.gen }) else x
    sch := { d.sch with
      acctFunc := Tab.erase f d.sch.acctFunc
      funcs := if again then Tab.put f (BitVec.ofNat 64 (putBit (d.schFunc f).toNat 23 true)) d.sch.funcs else d.sch.funcs }
    ras := if keepLog then d.ras else { d.ras with
      faultLog := d.ras.faultLog.filter fun x => x.1 / 256 ≠ f
      faultSeq := Tab.erase f d.ras.faultSeq } }

def execFuncResetComplete (f : FuncId) (s : State) : Res :=
  onDev s fun e d =>
    if d.pins.powered && d.funcResetting f && d.funcQuiet f then
      Dev.clearFunc e d f (d.hif.fresets.any fun x => x.1 = f.val && !x.2) false
    else d

/-! ### The triggers (R299) -/

/-- SCH_FUNC[f].ENABLE is written 0. -/
def Dev.disableFunc (e : Env) (d : Dev) (f : Nat) : Dev :=
  Dev.resetFunc e (d.setSchFunc f (BitVec.ofNat 64 (putBit (d.schFunc f).toNat 23 false))) f true

def execFuncDisable (f : FuncId) (s : State) : Res := onDev s fun e d => if d.hostOpen then Dev.disableFunc e d f else d

def execVfFlr (f : FuncId) (s : State) : Res :=
  guarded (f ≠ 0) (onDev s fun e d => if d.busUp then Dev.resetFunc e d f false else d)

/-- NumVFs, or VF Enable with 0, is written: the virtual functions above the new number are removed, as far as the old one named them. -/
def Dev.removeVfs (e : Env) (d : Dev) (n : Nat) : Dev :=
  let d := (List.range 32).foldl (fun d' f => if n < f && f ≤ d.hif.numVfs then Dev.resetFunc e d' f false else d') d
  { d with hif := { d.hif with numVfs := n } }

def execVfDisable (numVfs : Fin 32) (s : State) : Res := onDev s fun e d => if d.busUp then Dev.removeVfs e d numVfs else d

/-- A function-level reset of the physical function: every function is reset, VF Enable clears. -/
def Dev.resetAllFuncs (e : Env) (d : Dev) : Dev :=
  let d := ((List.range 32).drop 1 ++ [0]).foldl (fun d f => Dev.resetFunc e d f false) d
  { d with hif := { d.hif with numVfs := 0 } }

def execPfFlr (s : State) : Res := onDev s fun e d => if d.busUp then Dev.resetAllFuncs e d else d

/-! ### Link loss (R391) -/

/-- The link trains again by itself; the rate and width it comes to are left open. -/
def Dev.retrain (d : Dev) : Dev :=
  let (x, d) := d.free 8
  let gen := 1 + x.toNat % 8 % 7
  { d with hif := { d.hif with gen := BitVec.ofNat 4 gen, width := BitVec.ofNat 4 (2 ^ (x.toNat / 8 % 4)), flit := 6 ≤ gen } }

def linkLost (e : Env) (d : Dev) : Dev :=
  let d := Dev.resetAllFuncs e d
  let d := d.endLoads e.fuse
  ({ d with hif := { d.hif with
    downCount := min (d.hif.downCount + 1) 65535
    bar2Base := 0#64, bar2Map := [], bar2Log2 := 30, dbErr := [], dbErrQueue := [], unmasked := [], pba := [] } }).retrain

def execLinkLoss (s : State) : Res := onDev s fun e d => if d.busUp then linkLost e d else d

end Sys2Proof.Machine
end

