-- ==== Sys2Proof/Machine/Clock.lean ====
section
/-!
DEFINITION. LOCAL_TIME as it passes, and the progress watchdog of the cores, which counts with it (R339, R358).
-/
namespace Sys2Proof.Machine

/-- The progress watchdog of a core counts: a running span occupies it, a joint queue holds a token, no engine starts a firing or waits only for
an output-buffer slot, and no context of it is frozen or has a transfer outstanding. -/
def Dev.coreCounts (d : Dev) (cl ph : Nat) : Bool :=
  let c := d.core cl ph
  (match c.span with
    | some (die, slot) => let s := d.span (64 * die + slot); s.running.isSome || s.keyed
    | none => false)
  && c.engs.any (fun x => x.2.queues.any fun q => !q.2.toks.isEmpty || q.2.key)
  && c.engs.all (fun x => !x.2.held && x.2.ctxs.all fun y => y.2.frozen.isNone && y.2.outst.isEmpty && y.2.walk.isNone)

/-- The cores whose watchdog counts count `n` further units of LOCAL_TIME. -/
def Dev.countCores (d : Dev) (n : Nat) : Dev :=
  { d with cores := d.cores.map fun x : Nat × Core => if d.coreCounts (x.1 / 32) (x.1 % 32) then (x.1, { x.2 with still := x.2.still + n }) else x }

/-- LOCAL_TIME passes up to `t`, where it has not reached it (log entry 2), and the watchdogs count with it. -/
def State.passTo (s : State) (t : Nat) : State :=
  { s.timeTo t with dev := s.dev.countCores ((s.timeTo t).time.toNat - s.time.toNat) }

/-- The outcome of a row whose term is a command of the hardware, at LOCAL_TIME `t` or later. -/
def onDevAt (s : State) (t : Nat) (f : Env → Dev → Dev) : Res := .next ((s.passTo t).onDev f)

end Sys2Proof.Machine
end

