-- ==== Sys2Proof/Machine/Trestle.lean ====
section
/-!
DEFINITION. The TRESTLE commands (R201 to R222): the checks of a command with its descriptor and records, the start on free contexts, and the end.
-/
namespace Sys2Proof.Machine

/-! ### Checks (R204 to R206) -/

def trCountMax : Nat → Nat
  | 4 => 65536
  | 7 | 8 => 1024
  | 9 => 64
  | _ => 16777216

/-- Bytes that a command alone says it writes at DST, whatever its descriptor holds (R206). -/
def trWritten (c : Command) : Nat :=
  match trOp c with
  | 5 | 6 => 64 * trCount c
  | 7 => 8 * trCount c
  | 9 => 4096 * trCount c
  | _ => 0

/-- The fields of the command alone that are wrong. -/
def trFields (c : Command) : List Bad :=
  let op := trOp c
  let tiles := op = 4 || op = 9
  [(op = 0 || 9 < op, 16), (trStacks c = 0, 17), (trDesc c % 64 ≠ 0, 24), (badAsid (trAsid c), 32),
   (trDst c % (if tiles then 4096 else 64) ≠ 0 || (op = 8 && trDst c ≠ 0) || sealedBase ≤ trDst c || sealedBase < trDst c + trWritten c, 40),
   (trCount c = 0 || trCountMax op < trCount c, 48)]
  ++ (List.range 12).map fun i => ((cmdField c (52 + i) 1 ≠ 0, 52 + i) : Bad)

/-- Fields of the descriptor that an operation uses, as masks of its 64 bytes, low byte first. -/
def trUsed (op : Nat) : Nat :=
  let a := maskBits 0 64
  let b := maskBits 8 64
  let c := maskBits 16 64
  let dd := maskBits 24 64
  let elem := maskBits 32 32
  let p0 := maskBits 36 32
  let p1 := maskBits 40 32
  let sub := maskBits 44 8
  let fin := maskBits 45 8
  let fout := maskBits 46 8
  match op with
  | 1 | 2 => a + b + elem + p0 + p1
  | 3 => a + b + elem + p0 + p1 + fin
  | 4 => a + b + c + dd + fin + fout + 5 * 2 ^ 376
  | 5 => a + p0 + p1 + sub + fin + 2 * 2 ^ 376
  | 6 => a + sub + fin + maskBits 48 64 + 2 ^ 376
  | 7 => a + b + c + p0 + maskBits 56 64
  | 8 => a + b + c + dd + p0 + sub + maskBits 56 64
  | _ => a

/-- A pair of formats that DECODE accepts (R211). -/
def decodePair (i o : Nat) : Bool := 2 ≤ i && i ≤ 11 && (o < 2 || (o = 4 && (i = 6 || i = 7 || i = 8)))

/-- A range reaches the sealed region. -/
def reachesSealed (r : Nat × Nat) : Bool := r.2 ≠ 0 && sealedBase < r.1 + r.2

/-- A descriptor with a field that R205, R206, R211 or R212 refuses. -/
def trDescBad (c : Command) (l : List Byte) : Bool :=
  let op := trOp c
  let x := trDescOf l
  let v := ofBytes l
  v &&& trUsed op ≠ v
  || (op ≤ 3 && (x.elem % 64 ≠ 0 || x.elem = 0 || 4096 < x.elem))
  || ((op = 3 || op = 5 || op = 6) && 1 < x.fmtIn)
  || (op = 4 && (!decodePair x.fmtIn x.fmtOut || (!x.packed && x.d ≠ 0)))
  || (op = 5 && (x.p0 = 0 || 64 < x.p0 || 2 < x.sub))
  || (op = 6 && 1 < x.sub)
  || ((op = 7 || op = 8) && (x.p0 = 0 || 24 < x.p0 || x.c % 4096 ≠ 0))
  || (op = 8 && (1 < x.sub || reachesSealed (x.c, 4096 * 2 ^ x.p0)))
  || (trRanges c x).any reachesSealed

/-- A query record that R215 refuses. -/
def queryBad (l : List Byte) : Bool :=
  let n := bytesAt l 144 4
  let k := bytesAt l 148 4
  n = 0 || 1048576 < n || k = 0 || 256 < k || 256 < k + bytesAt l 152 2 + bytesAt l 154 2 || bytesAt l 156 100 ≠ 0

/-- Ranges that a descriptor names to be read; what an index list reaches is checked at the access. -/
def trReads (c : Command) (x : TrDesc) (records : List Byte) : List (Nat × Nat) :=
  let n := trCount c
  match trOp c with
  | 1 => [(x.b, 4 * n)]
  | 2 | 3 => [(x.a, x.elem * n), (x.b, 4 * n)]
  | 4 => [(x.a, 4096 * n), (x.b, 256 * n), (x.d, if x.packed then 8 * n else 0)]
  | 5 => (List.range x.p0).map fun s => (x.a + 64 * x.p1 * s, 64 * n)
  | 6 => [(x.a, if x.sub = 0 then 64 * n else 0)]
  | 7 => [(x.a, 8 * n), (x.b, 256 * n), (x.c, 4096 * 2 ^ x.p0)]
  | 8 => [(x.a, 8 * n), (x.b, 256 * n), (x.c, 4096 * 2 ^ x.p0), (x.d, if x.sub = 0 then 8 * n else 0)]
  | _ => (x.a, 256 * n) :: (List.range n).flatMap fun q =>
      let r := records.drop (256 * q)
      [(bytesAt r 128 8, 128 * bytesAt r 144 4), (bytesAt r 136 8, 8 * bytesAt r 144 4)]

/-- Two ranges share a 64 KiB page. -/
def sharePage (r s : Nat × Nat) : Bool :=
  r.2 ≠ 0 && s.2 ≠ 0 && r.1 / pageBytes ≤ (s.1 + s.2 - 1) / pageBytes && s.1 / pageBytes ≤ (r.1 + r.2 - 1) / pageBytes

/-- A page of a range is one that another open TRESTLE writes: by its ranges while it runs, by its shadows as long as it is open (R206). -/
def Dev.trestleTaken (d : Dev) (asid : Nat) (r : Nat × Nat) : Bool :=
  (d.btr.runs.any fun run => run.asid = asid && match d.openOf run.uid with
    | some o => (trRanges o.cmd (trDescOf run.desc)).any (sharePage r)
    | none => false)
  || d.blk.shadows.any fun s => s.asid = asid && sharePage r (s.vpage * pageBytes, pageBytes) && (d.openOf s.uid).any fun o => o.opcode = opTrestle

/-- The runtime reads the descriptor of a command, and its query records. -/
def Dev.trDescRead (d : Dev) (u : Fuses) (o : OpenCmd) : Except Trans (List Byte) := d.rtRead u o.die (trAsid o.cmd) o.func (trDesc o.cmd) 64
def trRecords (c : Command) (x : TrDesc) : Nat × Nat := (x.a, if trOp c = 9 then 256 * min 64 (trCount c) else 0)
def Dev.trRecordRead (d : Dev) (u : Fuses) (o : OpenCmd) (x : TrDesc) : Except Trans (List Byte) :=
  d.rtRead u o.die (trAsid o.cmd) o.func (trRecords o.cmd x).1 (trRecords o.cmd x).2

/-- What is refused in the contents that DESC reaches, in the order of R120. Where query records cannot be read, they and what comes after are not
checked: the run ends with that fault. -/
def trContents (e : Env) (d : Dev) (o : OpenCmd) : Option Reject :=
  match d.trDescRead e.fuse o with
  | .error _ => none
  | .ok l =>
    let c := o.cmd
    let x := trDescOf l
    let seen := (d.trRecordRead e.fuse o x).toOption
    let records := seen.getD []
    let badRec := trOp c = 9 && seen.isSome && (List.range (trCount c)).any fun q => queryBad ((records.drop (256 * q)).take 256)
    [fails (trDescBad c l || badRec) Config.badField 24,
     fails ((trReads c x records).any fun r => d.rangeConfidential r.1 r.2) Config.noPermission 24,
     fails (seen.isSome && (trRanges c x).any (d.trestleTaken (trAsid c))) Config.busy 40,
     fails (seen.isSome && !d.blk.locked) Config.quota 40].findSome? id

def trestleCheck (e : Env) (d : Dev) (o : OpenCmd) : Option Reject :=
  let a := trAsid o.cmd
  (d.checks e o (fields := trFields o.cmd) (handles := [(d.deadAsid a, 32)])
    (perms := [(d.rangeConfidential (trDesc o.cmd) 64, 24), (d.foreignAsid a o.func, 32)])
    (absent := [(!e.fuse.hasTrestle, 0)])).orElse fun _ => trContents e d o

/-! ### The run (R207, R219, R220) -/

/-- Goes on from where the elements of a run stopped; a run that waits stays as it is. -/
def afterRun (e : Env) (o : OpenCmd) (r : TrEnd × Dev) : Dev :=
  match r.1 with
  | .waits => r.2
  | .stop (.fault i) => r.2.failFault e o i
  | .stop (.freeze k va w) => r.2.freezeRun e.fuse e.now o.uid o.func k va w
  | .stop .busy => r.2.settle e [.fail o.uid Config.busy 40]
  | .stop .quota => r.2.settle e [.fail o.uid Config.quota 40]
  | .stop (.walk ..) => r.2
  | .stop (.dead ..) => r.2

/-- A run goes on once its walk or its resolution is over. -/
def Dev.resumeRun (e : Env) (d : Dev) (uid : Nat) : Dev :=
  match d.openOf uid, d.runOf uid with
  | some o, some r => afterRun e o (d.runTrestle e o r)
  | _, _ => d

def runTrestleCmd (e : Env) (d : Dev) (o : OpenCmd) : Dev :=
  match d.trDescRead e.fuse o with
  | .error t => d.failFault e o (rtFault t (trDesc o.cmd))
  | .ok l =>
    let x := trDescOf l
    match d.trRecordRead e.fuse o x with
    | .error t => d.failFault e o (rtFault t x.a)
    | .ok _ =>
      let w (d : Dev) (va n : Nat) : Dev := d.rtWalk e o.die (trAsid o.cmd) o.func va n
      let (ctxs, d) := (w (w d (trDesc o.cmd) 64) (trRecords o.cmd x).1 (trRecords o.cmd x).2).takeCtxs (trUnits o.die (trStacks o.cmd))
      let r : TrestleRun := { uid := o.uid, die := o.die, stackSet := trStacks o.cmd, asid := trAsid o.cmd, ctxs := ctxs, desc := l }
      ({ d with btr := { d.btr with runs := d.btr.runs ++ [r] } }).resumeRun e o.uid

/-- The row of a TRESTLE. -/
def trestleRow (f : FuncId) (q : QueueId) (c : Command) (e : Env) (d : Dev) : Dev := startHeld e d f q c trestleCheck runTrestleCmd

def execGather (f : FuncId) (q : QueueId) (c : Command) (s : State) : Res := guarded (trestleIs 1 c) (onDev s (trestleRow f q c))
def execScatter (f : FuncId) (q : QueueId) (c : Command) (s : State) : Res := guarded (trestleIs 2 c) (onDev s (trestleRow f q c))
def execScatterAdd (f : FuncId) (q : QueueId) (c : Command) (s : State) : Res := guarded (trestleIs 3 c) (onDev s (trestleRow f q c))
def execDecode (f : FuncId) (q : QueueId) (c : Command) (s : State) : Res := guarded (trestleIs 4 c) (onDev s (trestleRow f q c))
def execReduce (f : FuncId) (q : QueueId) (c : Command) (s : State) : Res := guarded (trestleIs 5 c) (onDev s (trestleRow f q c))
def execUpdate (f : FuncId) (q : QueueId) (c : Command) (s : State) : Res := guarded (trestleIs 6 c) (onDev s (trestleRow f q c))
def execPfxLookup (f : FuncId) (q : QueueId) (c : Command) (s : State) : Res := guarded (trestleIs 7 c) (onDev s (trestleRow f q c))
def execPfxInsert (f : FuncId) (q : QueueId) (c : Command) (s : State) : Res := guarded (trestleIs 8 c) (onDev s (trestleRow f q c))
def execScore (f : FuncId) (q : QueueId) (c : Command) (s : State) : Res := guarded (trestleIs 9 c) (onDev s (trestleRow f q c))

/-- A unit that works on a command found an uncorrected word of its staging, or of a crossbar transfer: the command ends (R220, R221). Which element, and which
address, its record names is left open (log entry 83). -/
def trestleEcc (e : Env) (d : Dev) (o : OpenCmd) (r : TrestleRun) (unit resource : Nat) (value : Nat → Nat) : Dev :=
  match r.ctxs.find? fun x => x.1 = unit with
  | none => d
  | some (_, c) =>
    let (x, d) := d.free 84
    d.failFault e o
      { error := Config.eccUncorrected, resource := resource, engine := 0xF0, ctx := some c, value := value c,
        addr := some (x.toNat % 2 ^ 52), firing := some (x.toNat / 2 ^ 52 % max r.k 1) }

/-- Every element of a TRESTLE has finished and every transfer has been served: its contexts are free, and its shadows commit or wait for its group
(R207). -/
def trestleDone (e : Env) (d : Dev) (r : TrestleRun) : Dev :=
  if r.done && !d.asks (.command r.uid) then (d.dropRun r.uid).settle e [.done r.uid r.result] else d

def execTrestleDone (fin : TrestleEnd) (s : State) : Res :=
  onDev s fun e d => match d.runOf fin.uid, d.openOf fin.uid with
    | some r, some o =>
      if !d.running then d else match fin.ecc with
        | .good => trestleDone e d r
        | .staging unit off => trestleEcc e d o r unit 0x33 fun c => 4096 * c + off / 8 * 8
        | .crossbar unit => trestleEcc e d o r unit 0x34 fun _ => unit
    | _, _ => d

end Sys2Proof.Machine
end

