-- ==== Sys2Proof/Machine/ViaOps.lean ====
section
/-!
DEFINITION. The transfers of VIA_SEND and VIA_RECV (R323 to R325): their own flits, the read of the sender's data, the shadows of the receiver's range, and how
a transfer that waited for a page goes on.
-/
namespace Sys2Proof.Machine

/-! ### Operands (R117) -/

/-- DEST of a VIA_SEND or SRC of a VIA_RECV as an index. -/
def viaPeer (c : Command) : Nat := 16 * bitsAt (cmdField c 17 1) 0 4 + bitsAt (cmdField c 16 1) 0 4
def viaVc (c : Command) : Nat := cmdField c 18 1
def viaLen (c : Command) : Nat := cmdField c 20 4
def viaVa (c : Command) : Nat := cmdField c 24 8
def viaAsid (c : Command) : Nat := cmdField c 32 2
def viaTag (c : Command) : Nat := cmdField c 36 4

/-- DATA flits of a transfer (R310, R324). -/
def viaFlits (len : Nat) : Nat := (len + 239) / 240

def Dev.setSend (d : Dev) (x : ViaSend) : Dev :=
  { d with via := { d.via with sends := d.via.sends.map fun y : ViaSend => if y.uid = x.uid then x else y } }
def Dev.setRecv (d : Dev) (x : ViaRecv) : Dev :=
  { d with via := { d.via with recvs := d.via.recvs.map fun y : ViaRecv => if y.uid = x.uid then x else y } }
def Dev.dropSend (d : Dev) (uid : Nat) : Dev := { d with via := { d.via with sends := d.via.sends.filter fun y : ViaSend => y.uid ≠ uid } }
def Dev.dropRecv (d : Dev) (uid : Nat) : Dev := { d with via := { d.via with recvs := d.via.recvs.filter fun y : ViaRecv => y.uid ≠ uid } }

/-! ### Own flits -/

/-- A LINK_FAIL reaches the source of the dropped flit: the VIA_SEND of that number and destination ends with ERR_LINK (R325). -/
def Dev.linkFailed (e : Env) (d : Dev) (f : Flit) : Dev :=
  match d.via.sends.find? fun x => x.xfer = f.xfer && x.dst = bytesAt f.payload 2 1 with
  | some x => d.settle e [.fail x.uid Config.link 0]
  | none => d

/-- Sends a flit of a transfer; one that no port in service takes is dropped, and this package hears of it. -/
def Dev.sendOwn (e : Env) (d : Dev) (f : Flit) : Dev :=
  match d.sendFlit e.fuse f with
  | (true, d) => d
  | (false, d) => Dev.linkFailed e d (linkFailFor d.via f 6 7)

/-! ### Pages -/

/-- What keeps a transfer from going on. -/
inductive ViaStop where
  | freeze (k : ResKind) (va : Nat) (write : Bool)
  | fault (i : FaultInfo)
  | busy
  | quota
  /-- A failed unit: the transfer waits for the tier deadline. -/
  | dead (pa va : Nat)

/-- How the tier-move engines of the bound die access a transfer's range. -/
def OpenCmd.moverAccess (o : OpenCmd) (write : Bool) : Access :=
  { die := o.die, asid := viaAsid o.cmd, func := o.func, write := write, engine := true, pubKey := none }

/-- The physical address of a VA. -/
def Dev.viaPlace (u : Fuses) (d : Dev) (o : OpenCmd) (va : Nat) (write : Bool) : Except ViaStop Nat :=
  match translate u d (o.moverAccess write) va with
  | .fault x r v l => .error (.fault { error := x, resource := r, engine := 0xF2, value := v, limit := l, addr := some va })
  | .resolve k => .error (.freeze k va write)
  | .pa p => match d.deadIn u (pageBlocks (p / pageBytes)) with
    | some b => .error (.dead b va)
    | none => .ok p

/-- Reads the data of a VIA_SEND page by page. -/
def Dev.viaRead (u : Fuses) (d : Dev) (o : OpenCmd) (va n : Nat) : Nat → Except ViaStop (List Byte)
  | 0 => .ok []
  | fuel + 1 =>
    if n = 0 then .ok [] else do
      let p ← d.viaPlace u o va false
      let k := pieceLen va n
      match d.badIn p k with
      | some w => .error (.fault { error := Config.eccUncorrected, resource := if u.isBonded p then 0x29 else 0x2A, engine := 0xF2,
                                   value := w, addr := some va })
      | none =>
        let rest ← Dev.viaRead u d o (va + k) (n - k) fuel
        return Memory.read d.blk.dram p k ++ rest

/-- The tier-move engines of the bound die walk to each page of a send's data and read it (R324, step 1; R218). -/
def Dev.viaMoved (e : Env) (d : Dev) (o : OpenCmd) (va n : Nat) : Nat → Dev
  | 0 => d
  | fuel + 1 =>
    if n = 0 then d else
      let k := pieceLen va n
      let d := match d.viaPlace e.fuse o va false with
        | .ok p => (d.askWalk e none (o.moverAccess false) va).moved e o.die p k { who := some (.command o.uid), pa := p, n := 0, va := some va }
        | .error _ => d
      Dev.viaMoved e d o (va + k) (n - k) fuel

/-- Takes a shadow of every page of a range; those taken stay where one stops it. -/
def Dev.viaShadows (e : Env) (range : Nat × Nat) (d : Dev) (o : OpenCmd) (va n : Nat) : Nat → Option ViaStop × Dev
  | 0 => (none, d)
  | fuel + 1 =>
    if n = 0 then (none, d) else
      match d.viaPlace e.fuse o va true with
      | .error x => (some x, d)
      | .ok p =>
        let k := pieceLen va n
        match (d.askWalk e none (o.moverAccess true) va).takeShadow e o.uid o.die (viaAsid o.cmd) (va / pageBytes) (p / pageBytes) (holdsPage range (va / pageBytes)) with
        | .busy => (some .busy, d)
        | .quota => (some .quota, d)
        | .page _ d => Dev.viaShadows e range d o (va + k) (n - k) fuel

/-- The tier-move engines of the bound die write bytes at VA into the shadows that a VIA_RECV holds. -/
def Dev.viaWrite (e : Env) (d : Dev) (o : OpenCmd) (va : Nat) (l : List Byte) : Nat → Dev
  | 0 => d
  | fuel + 1 =>
    if l.isEmpty then d else
      let k := pieceLen va l.length
      let d := match d.shadowOf o.uid (viaAsid o.cmd) (va / pageBytes) with
        | some s =>
          let pa := s.page * pageBytes + va % pageBytes
          ((d.moved e o.die pa k { who := some (.command o.uid), pa := pa, n := 0, va := some va }).writePa pa (l.take k)).unpoison pa k
        | none => d
      Dev.viaWrite e d o (va + k) (l.drop k) fuel

/-! ### The run of a transfer (R324) -/

/-- Every DATA flit of a send, while it is open. -/
def sendData (e : Env) (d : Dev) (x : ViaSend) (bytes : List Byte) : Dev :=
  (List.range (viaFlits x.len)).foldl (fun d i =>
    if (d.sendOf x.uid).isSome then
      Dev.sendOwn e d (d.mkFlit x.dst x.vc i x.xfer .data ((bytes.drop (240 * i)).take 240) (i + 1 = viaFlits x.len))
    else d) d

/-- After CTS: the data are read, and sent (step 4). -/
def sendOnward (e : Env) (d : Dev) (uid : Nat) : Dev :=
  match d.sendOf uid, d.openOf uid with
  | some x, some o =>
    if !x.cts || x.sent || x.frozen.isSome then d
    else match d.viaRead e.fuse o x.va x.len (pieces x.len) with
      | .ok l => sendData e ((d.viaMoved e o x.va x.len (pieces x.len)).setSend { x with sent := true }) x l
      | .error (.freeze k va write) =>
        let (id, d) := d.resolution o.die k
        d.setSend { x with frozen := some { va := va, write := write, since := e.now, resolution := id } }
      | .error (.fault i) => d.failFault e o i
      | .error (.dead ..) => d.setSend { x with stall := some e.now }
      | .error _ => d
  | _, _ => d

/-- A matched receive whose pages all have their shadows answers CTS (step 3). -/
def recvOnward (e : Env) (d : Dev) (uid : Nat) : Dev :=
  match d.recvOf uid, d.openOf uid with
  | some x, some o =>
    match x.matched with
    | none => d
    | some (src, xfer, len) =>
      if x.ready || x.frozen.isSome then d
      else match d.viaShadows e (x.va, len) o x.va len (pieces len) with
        | (none, d) => Dev.sendOwn e (d.setRecv { x with ready := true }) (d.mkFlit src x.vc 0 xfer .cts [])
        | (some (.freeze k va write), d) =>
          let (id, d) := d.resolution o.die k
          d.setRecv { x with frozen := some { va := va, write := write, since := e.now, resolution := id } }
        | (some (.fault i), d) => d.failFault e o i
        | (some .busy, d) => d.settle e [.fail uid Config.busy 24]
        | (some .quota, d) => d.settle e [.fail uid Config.quota 24]
        | (some (.dead ..), d) => d.setRecv { x with stall := some e.now }
  | _, _ => d

/-- A receive meets a request to send (step 3). -/
def matchRecv (e : Env) (d : Dev) (x : ViaRecv) (h : HeldRts) : Dev :=
  if x.len < h.len then Dev.sendOwn e d (d.mkFlit h.phys 3 0 h.xfer .nack ([2#8, 0#8, 0#8, 0#8] ++ toBytes 4 x.len))
  else recvOnward e (d.setRecv { x with matched := some (h.phys, h.xfer, h.len) }) x.uid

/-- The receive that a request to send matches: the earliest started. -/
def Dev.recvFor (d : Dev) (h : HeldRts) : Option ViaRecv :=
  d.via.recvs.find? fun x => x.matched.isNone && x.vc = h.vc && x.src = h.src && x.tag = h.tag

/-- The freeze of an open transfer, and its own state without it. -/
def Dev.viaFreeze (d : Dev) (uid : Nat) : Option Freeze :=
  match d.sendOf uid, d.recvOf uid with
  | some x, _ => x.frozen
  | none, some x => x.frozen
  | none, none => none

/-- A transfer's page has come: it goes on. -/
def viaThaw (e : Env) (d : Dev) (uid : Nat) : Dev :=
  match d.sendOf uid, d.recvOf uid with
  | some x, _ => sendOnward e (d.setSend { x with frozen := none }) uid
  | none, some x => recvOnward e (d.setRecv { x with frozen := none }) uid
  | none, none => d

/-- Transfers frozen on a resolution. -/
def Dev.viaFrozenOn (d : Dev) (id : Nat) : List Nat :=
  ((d.via.sends.filter fun x => x.frozen.any fun z => z.resolution = id).map (·.uid))
    ++ ((d.via.recvs.filter fun x => x.frozen.any fun z => z.resolution = id).map (·.uid))

/-- The block of a failed unit that keeps a transfer waiting, since when, and its VA (R188). -/
def Dev.viaDead (e : Env) (d : Dev) (uid : Nat) : Option (Nat × Nat × Nat) :=
  match d.openOf uid, d.sendOf uid, d.recvOf uid with
  | some o, some x, _ =>
    match x.stall, d.viaRead e.fuse o x.va x.len (pieces x.len) with
    | some t, .error (.dead pa va) => some (pa, t, va)
    | _, _ => none
  | some o, none, some x =>
    match x.stall, x.matched with
    | some t, some (_, _, len) =>
      match (d.viaShadows e (x.va, len) o x.va len (pieces len)).1 with
      | some (.dead pa va) => some (pa, t, va)
      | _ => none
    | _, _ => none
  | _, _, _ => none

end Sys2Proof.Machine
end

