-- ==== Sys2Proof/Machine/Homes.lean ====
section
/-!
DEFINITION. Homes and images: MOVE with its chunks (R177 to R179), IMAGE and EVICT_IMAGE (R180 to R183), page walks, resolvable faults and deadlines
(R175, R188 to R193), scrubbing (R195), the ends of translations (R176), and a failed stack (R224) or bridge transfer (R337).
-/
namespace Sys2Proof.Machine

/-! ### MOVE (R177 to R179, R208) -/

def moveVa (c : Command) : Nat := cmdField c 16 8
def moveLen (c : Command) : Nat := cmdField c 24 8
def moveAsid (c : Command) : Nat := cmdField c 32 2
def moveTier (c : Command) : Nat := cmdField c 34 1
def moveDie (c : Command) : Nat := bitsAt (cmdField c 35 1) 0 2

/-- The tier that a move leads to: a die's bonded pool, or the bulk pool. -/
def moveTo (c : Command) : Option Nat := if moveTier c = 1 then some (moveDie c) else none

/-- A page lies at the destination. -/
def Fuses.atHome (u : Fuses) (to_ : Option Nat) (page : Nat) : Bool :=
  let pa := page * pageBytes
  match to_ with
  | some x => u.isBonded pa && bondedDie pa = x
  | none => u.isBulk pa

/-- What the walks of a range's pages found. -/
def moveWalks (u : Fuses) (d : Dev) (c : Command) : List (Nat × Walked) :=
  (List.range (moveLen c / pageBytes)).map fun i => let va := moveVa c + pageBytes * i; (va, walkLower u d (moveAsid c) va)

/-- The pages of a range, those at the destination as their own destination. -/
def movePages (u : Fuses) (d : Dev) (c : Command) : List MovePage :=
  (moveWalks u d c).filterMap fun x => match x.2 with
    | .leaf v _ =>
      let page := leafPa v / pageBytes
      some { va := x.1, src := page, dst := if u.atHome (moveTo c) page then some page else none }
    | .fault .. => none

/-- A page that is not mapped, or whose home is neither MUTABLE nor part of an open move. A poisoned entry is found when the move runs. -/
def moveBadPage (u : Fuses) (d : Dev) (c : Command) : Bool :=
  (moveWalks u d c).any fun x => match x.2 with
    | .leaf v _ => !(u.isDram (leafPa v) && (d.pageState (leafPa v / pageBytes) = .mutable || d.pageState (leafPa v / pageBytes) = .moving))
    | .fault er _ _ _ => er ≠ Config.eccUncorrected

def Dev.freeOf (d : Dev) (to_ : Option Nat) : Nat := match to_ with
  | some x => d.freeBonded x
  | none => d.freeBulk

def moveCheck (e : Env) (d : Dev) (o : OpenCmd) : Option Reject :=
  let c := o.cmd
  let a := moveAsid c
  let pages := movePages e.fuse d c
  let need := pages.countP fun p => p.dst.isNone
  d.checks e o
    (fields := [(moveVa c % pageBytes ≠ 0 || sealedBase ≤ moveVa c, 16),
                (moveLen c = 0 || moveLen c % pageBytes ≠ 0 || 2 ^ 40 < moveLen c || sealedBase < moveVa c + moveLen c, 24),
                (badAsid a, 32), (moveTier c ≠ 1 && moveTier c ≠ 2, 34), (moveTier c = 2 && moveDie c ≠ 0, 35)])
    (handles := [(d.deadAsid a, 32)])
    (perms := [(d.foreignAsid a o.func, 32)])
    (rest := [fails (d.blk.locked && moveBadPage e.fuse d c) Config.badField 16,
              fails (moveTier c = 1 && !e.fuse.dieFitted (moveDie c)) Config.unitAbsent 35,
              fails (pages.any fun p => d.pageState p.src = .moving) Config.busy 16,
              fails (!d.blk.locked || d.freeOf (moveTo c) < need) Config.quota 16,
              fails (cmdMayBeLong c && d.freeLong.isNone) Config.quota 0])

/-- A page of a move is shadowed by an open command (R208). -/
def Dev.shadowed (d : Dev) (m : Move) : Bool :=
  d.blk.shadows.any fun s => m.pages.any fun p => s.home = p.src || (s.asid = m.asid && s.vpage = p.va / pageBytes)

/-- The pages of a move as the leaves name them now: those that a shadow had may have changed (R208). -/
def Dev.refind (u : Fuses) (d : Dev) (m : Move) : Move :=
  { m with pages := m.pages.map fun p => match walkLower u d m.asid p.va with
      | .leaf v _ => let page := leafPa v / pageBytes; { p with src := page, dst := if u.atHome m.die page then some page else none }
      | .fault .. => p }

/-- Step 1 of a move, or its wait for a shadow; with nothing to copy the switch follows at once, else its first chunk is asked for. -/
def Dev.startMove (e : Env) (d : Dev) (m : Move) : Dev :=
  let add (d : Dev) (m : Move) : Dev := { d with blk := { d.blk with moves := d.blk.moves ++ [m] } }
  if d.shadowed m then add d { m with waiting := true }
  else
    let d := d.beginMove e.fuse m
    if m.pages.all fun p => p.dst.isSome then (add d { m with copied := m.pages.length, switched := true }).switchMove e.fuse m
    else (add d m).askChunk e m

def runMove (e : Env) (d : Dev) (o : OpenCmd) : Dev :=
  let c := o.cmd
  match (moveWalks e.fuse d c).findSome? fun x => match x.2 with
    | .fault er r v l => some ({ error := er, resource := r, engine := 0xF2, value := v, limit := l, addr := some x.1 } : FaultInfo)
    | .leaf .. => none with
  | some i => d.failFault e o i
  | none =>
    let m : Move := { uid := o.uid, long := none, asid := moveAsid c, die := moveTo c, pages := movePages e.fuse d c }
    if cmdMayBeLong c then
      let (k, d) := d.openLong o .move
      d.startMove e { m with long := some k }
    else d.startMove e m

def execMove (f : FuncId) (q : QueueId) (c : Command) (s : State) : Res :=
  guarded (cmdIs opMove c) (onDev s fun e d => startRow e d f q c moveCheck runMove)

/-- What a chunk boundary applies to a long operation: a cancellation, then a suspension (R141). True where the operation goes on. -/
def Dev.boundary (u : Fuses) (d : Dev) (k : Nat) : Bool × Dev :=
  let l := d.long k
  if l.st = .cancelling then (false, d.cancelLong u k Config.cancelled)
  else if l.suspendPending then (false, (d.modLong k fun l => { l with st := .suspended, suspendPending := false }).wakeLong k)
  else (true, d)

/-- The switch of a move (step 3), its pages all copied. -/
def Dev.switchNow (u : Fuses) (d : Dev) (m : Move) : Dev := (d.setMove { m with switched := true }).switchMove u m

/-- After a chunk of a move: the switch, or the next chunk. -/
def afterChunk (e : Env) (d : Dev) (m : Move) : Dev := if m.pages.length ≤ m.copied then d.switchNow e.fuse m else d.askChunk e m

/-- The next chunk of a move has been copied once all its transfers are served. Where the pool lacked pages for it, it asks again, and a cancellation ends
the move there. -/
def chunkMove (e : Env) (d : Dev) (m : Move) : Dev :=
  if d.asks m.who then d
  else if m.chunk.any fun p => p.dst.isNone then
    match m.long with
    | some k => if (d.long k).st = .cancelling then d.cancelLong e.fuse k Config.cancelled else d.askChunk e m
    | none => d.askChunk e m
  else
    let d := (d.copyChunk m).setMove m.nextChunk
    match m.long with
    | none => afterChunk e d m.nextChunk
    | some k =>
      match (d.modLong k fun l => { l with chunks := l.chunks + 1 }).boundary e.fuse k with
      | (false, d) => d
      | (true, d) => afterChunk e d m.nextChunk

/-- A move that waited for a shadow takes its step 1. -/
def beginWaiting (e : Env) (d : Dev) (m : Move) : Dev :=
  if d.shadowed m then d else (d.dropMove m.uid).startMove e { d.refind e.fuse m with waiting := false }

/-- A chunk of a move has been copied. A move that waits for a shadow begins here, and a cancellation finds it at once. -/
def moveChunk (e : Env) (d : Dev) (uid : Nat) : Dev :=
  match d.moveOf uid with
  | none => d
  | some m =>
    let st := (m.long.map fun k => (d.long k).st).getD .running
    if !d.running || m.switched || st = .suspended then d
    else if m.waiting then
      match m.long with
      | some k => if st = .cancelling then d.cancelLong e.fuse k Config.cancelled else beginWaiting e d m
      | none => beginWaiting e d m
    else chunkMove e d m

def execMoveChunk (uid : Nat) (s : State) : Res := onDev s fun e d => moveChunk e d uid

/-- Steps 4 and 5 of a move: no access to a source page is left. -/
def moveComplete (_ : Env) (d : Dev) (uid : Nat) : Dev :=
  match d.moveOf uid with
  | none => d
  | some m =>
    if !d.running || !m.switched || d.readsSource m then d
    else
      let d := (d.finishMove m).dropMove uid
      match m.long with
      | some k => d.endLong k 0 m.bytes
      | none => if m.resolution then d else d.complete uid Config.ok m.bytes

def execMoveComplete (uid : Nat) (s : State) : Res := onDev s fun e d => moveComplete e d uid

/-! ### IMAGE and EVICT_IMAGE (R180 to R183, R248, R258) -/

def imgObject (c : Command) : Nat := cmdField c 16 8
def imgTier (c : Command) : Nat := cmdField c 24 1
def imgDies (c : Command) : Nat := bitsAt (cmdField c 25 1) 0 4

/-- An open IMAGE of a version on a die. -/
def Dev.imaging (d : Dev) (n die : Nat) : Bool :=
  d.longs.any fun x => x.2.used && !x.2.st.terminal && (match x.2.kind with | .image m dies _ => m = n && dies.contains die | _ => false)

/-- The checks that IMAGE and EVICT_IMAGE share, with what comes after them. -/
def imageChecks (e : Env) (d : Dev) (o : OpenCmd) (rest : Nat → List (Option Reject)) : Option Reject :=
  let c := o.cmd
  let n := d.verOf (imgObject c)
  let v := d.ver (n.getD 0)
  d.checks e o
    (fields := [(imgTier c ≠ 1, 24), (imgDies c = 0, 25)])
    (handles := [(n.isNone || v.st = .loading, 16)])
    (perms := [(o.func ≠ 0 && o.func ≠ v.func, 16)])
    (absent := [((bitList 4 (imgDies c)).any fun x => !e.fuse.dieFitted x, 25)])
    (rest := rest (n.getD 0))

/-- Dies of a mask that do not hold the whole image of a version. -/
def Dev.lacking (d : Dev) (n dies : Nat) : List Nat :=
  (bitList 4 dies).filter fun x => !(((d.ver n).imageOn x).any (·.complete))

def imageCheck (e : Env) (d : Dev) (o : OpenCmd) : Option Reject :=
  let dies := imgDies o.cmd
  imageChecks e d o fun n =>
    [fails ((d.ver n).st = .retiring) Config.versionRetired 16,
     fails ((bitList 4 dies).any fun x => d.imaging n x) Config.busy 16,
     fails (!d.blk.locked || (d.lacking n dies).any fun x => d.freeUnits x < d.missingUnits n x) Config.quota 25,
     fails d.freeLong.isNone Config.quota 0]

def runImage (e : Env) (d : Dev) (o : OpenCmd) : Dev :=
  let n := (d.verOf (imgObject o.cmd)).getD 0
  let (k, d) := d.openLong o (.image n (d.lacking n (imgDies o.cmd)) 0)
  d.askImage e k

def execImage (f : FuncId) (q : QueueId) (c : Command) (s : State) : Res :=
  guarded (cmdIs opImage c) (onDev s fun e d => startRow e d f q c imageCheck runImage)

/-- A long operation ends with a run-time error: a fault record names its command. -/
def Dev.failLong (u : Fuses) (d : Dev) (e : Env) (k : Nat) (i : FaultInfo) : Dev :=
  let l := d.long k
  let (n, d) := d.recordFault e l.func l.queue (cmdId l.cmd) i
  d.cancelLong u k i.error n

/-- A segment is written on the dies that lack it; none where a die has no free 2 MiB page. Answers the dies written. -/
def writeOn (e : Env) (n seg : Nat) (plain : List Byte) (r : FixReq) : List Nat → Dev → Option (List Nat × Dev)
  | [], d => some ([], d)
  | x :: t, d =>
    if ((d.ver n).imageOn x).any fun g => (g.unit seg).isSome then writeOn e n seg plain r t d
    else match d.writeSegment e n x seg plain true r with
      | none => none
      | some d => (writeOn e n seg plain r t d).map fun y => (x :: y.1, y.2)

/-- A segment of an IMAGE has been written on the dies `on`: the boundary after it, and the reads of the next. -/
def segmentWritten (e : Env) (d : Dev) (k n seg bytes : Nat) (dies on : List Nat) : Dev :=
  let d := d.modLong k fun l => { l with
    kind := .image n dies (seg + 1), chunks := l.chunks + 1, bytes := l.bytes + on.length * bytes, written := l.written ++ on.map fun x => (x, seg) }
  if (d.ver n).segs.length ≤ seg + 1 && (d.long k).st ≠ .cancelling then d.endLong k 0 (d.long k).bytes
  else match d.boundary e.fuse k with
    | (true, d) => d.askImage e k
    | (false, d) => d

/-- The next segment of an IMAGE, once it has been read. -/
def imageStep (e : Env) (d : Dev) (k : Nat) : Dev :=
  let l := d.long k
  match l.kind with
  | .image n dies seg =>
    let v := d.ver n
    if v.segs.length ≤ seg then d.endLong k 0 l.bytes
    else if dies.isEmpty then d.endLong k 0 0
    else if d.asks (.long k) then d
    else match d.openSegment v seg with
      | .error code =>
        match d.poisonedSegment v seg with
        | some pa => d.failLong e.fuse e k { error := Config.eccUncorrected, resource := 0x2A, engine := 0xF2, value := pa }
        | none => d.cancelLong e.fuse k code 16
      | .ok plain =>
        match writeOn e n seg plain { who := some (.long k), pa := 0, n := 0 } dies d with
        | none => if l.st = .cancelling then d.cancelLong e.fuse k Config.cancelled else d
        | some (on, d) => segmentWritten e d k n seg plain.length dies on
  | _ => d

/-- The row of a segment of the IMAGE in long-operation slot `slot`. -/
def execImageSegment (slot : Nat) (s : State) : Res :=
  onDev s fun e d =>
    let l := d.long slot
    if d.running && l.used && (l.st = .running || l.st = .cancelling) then imageStep e d slot else d

def evictCheck (e : Env) (d : Dev) (o : OpenCmd) : Option Reject :=
  imageChecks e d o fun n =>
    [fails ((bitList 4 (imgDies o.cmd)).any fun x => d.imaging n x
      || d.blk.resolutions.any fun r => r.die = x && (match r.kind with | .segment m _ => m = n | _ => false)) Config.busy 16]

def runEvict (_ : Env) (d : Dev) (o : OpenCmd) : Dev :=
  let n := (d.verOf (imgObject o.cmd)).getD 0
  let d := d.complete o.uid Config.ok 0
  (bitList 4 (imgDies o.cmd)).foldl (fun d x => d.evict n x (d.runningOn x)) d

def execEvictImage (f : FuncId) (q : QueueId) (c : Command) (s : State) : Res :=
  guarded (cmdIs opEvictImage c) (onDev s fun e d => startRow e d f q c evictCheck runEvict)

def execEvictPagesFree (entry : Nat) (d : DieId) (s : State) : Res :=
  onDev s fun _ v => if v.running then v.freeEvicted entry d else v

/-! ### Page walks (R175, R218, R223) -/

/-- A walk completes: check bits first, then the checks of R175. An uncorrected read is one of the walk's, which one is left open. -/
def Dev.finishWalk (u : Fuses) (d : Dev) (a : Access) (va : Nat) (ecc : Ecc) : Trans × Dev :=
  let (l, d) := d.walkPath u a va
  let (x, d) := d.free 8
  match ecc, l[x.toNat % max l.length 1]? with
  | .uncorrected, some (level, pa) => (.fault Config.eccUncorrected 0x2C pa level, d)
  | .corrected, some (_, pa) => (translate u d a va, d.countEcc u pa 1 0 0)
  | _, _ => (translate u d a va, d)

/-- A translation is kept in the die's cache, and by the requester as that of its last page. -/
def Dev.cacheWalk (u : Fuses) (d : Dev) (who : Requester) (uid : Nat) (a : Access) (va : Nat) : Dev :=
  match leafOf u d a va with
  | some leaf => (d.addTlb a.die (tlbSpace a.asid va) va leaf).keepLast who uid a.die a.asid va
  | none => d

/-- How the stream contexts of a core's span access the tiers. -/
def Dev.streamAccess (d : Dev) (cl ph : Nat) (write : Bool) : Access :=
  match (d.core cl ph).span with
  | some (die, slot) => let s := d.span (64 * die + slot)
    { die := cl / 4, asid := s.asid, func := s.func, write := write, engine := true, pubKey := some s.pubKey }
  | none => { die := cl / 4, asid := 0, func := 0, write := write }

/-- The command for which the span of a core runs. -/
def Dev.coreUid (d : Dev) (cl ph : Nat) : Nat := ((d.core cl ph).span.bind fun x => (d.span (64 * x.1 + x.2)).running).getD 0

/-- A fault of a stream context at firing `lin`. -/
def Dev.ctxInfo (d : Dev) (cl ph me ctx lin : Nat) (i : FaultInfo) : FaultInfo :=
  let x := d.eng cl ph (4 + me)
  let firings := match x.prog with
    | .me p => match p.ctx? ctx with
      | some c => (p.ctxUnit c (Tab.get {} ctx x.ctxs)).firings
      | none => 1
    | _ => 1
  { i with ctx := some ctx, iter := some (lin / max firings 1), firing := some lin }

/-- The walk of a stream context completes. -/
def walkStream (e : Env) (d : Dev) (cl ph me ctx : Nat) (ecc : Ecc) : Dev :=
  let y := d.streamCtx cl ph me ctx
  match y.walk with
  | none => d
  | some (va, w) =>
    let a := d.streamAccess cl ph w
    let (t, d) := d.finishWalk e.fuse a va ecc
    match t with
    | .pa _ => (d.cacheWalk e.fuse (.stream cl ph me ctx) (d.coreUid cl ph) a va).modCtx cl ph me ctx fun y => { y with walk := none }
    | .fault x r v l => d.engFault e cl ph (4 + me) (d.ctxInfo cl ph me ctx y.lin { error := x, resource := r, value := v, limit := l, addr := some va })
    | .resolve k => d.freezeCtx e.now cl ph me ctx y.lin va w k

/-- The walk of a TRESTLE completes. -/
def walkTrestle (e : Env) (d : Dev) (uid : Nat) (ecc : Ecc) : Dev :=
  match d.openOf uid, d.runOf uid with
  | some o, some r =>
    match r.walk with
    | none => d
    | some (va, w) =>
      let t : TrCtx := { env := e, run := r, func := o.func, ranges := [] }
      let (x, d) := d.finishWalk e.fuse (t.access w) va ecc
      match x with
      | .pa _ => ((d.cacheWalk e.fuse t.who uid (t.access w) va).setRun { r with walk := none }).resumeRun e uid
      | .fault er rs v l => d.failFault e o (t.info er rs v l va none)
      | .resolve k => d.freezeRun e.fuse e.now uid o.func k va w
  | _, _ => d

/-- A walk completes once its reads have been served. -/
def execPageWalkDone (who : Requester) (ecc : Ecc) (s : State) : Res :=
  guarded who.wf (onDev s fun e d =>
    if !d.running || d.walks who then d else match who with
      | .stream cl ph me ctx => walkStream e d cl ph me ctx ecc
      | .command uid => walkTrestle e d uid ecc
      | .long _ => d)

/-! ### Resolutions (R191 to R193) -/

def Dev.resOf (d : Dev) (id : Nat) : Option Resolution := d.blk.resolutions.find? fun r => r.id = id
def Dev.setRes (d : Dev) (r : Resolution) : Dev :=
  { d with blk := { d.blk with resolutions := d.blk.resolutions.map fun x => if x.id = r.id then r else x } }
def Dev.dropRes (d : Dev) (id : Nat) : Dev :=
  { d with blk := { d.blk with resolutions := d.blk.resolutions.filter fun x => x.id ≠ id } }

/-- An open move that has not switched covers a page. -/
def Dev.pageMoving (d : Dev) (asid vpage : Nat) : Bool :=
  d.blk.moves.any fun m => m.asid = asid && !m.switched && !m.waiting && m.pages.any fun p => p.va / pageBytes = vpage

/-- Clears MG of a page where it stands. -/
def Dev.clearMg (u : Fuses) (d : Dev) (asid va : Nat) : Dev :=
  match leafAddr u d asid va with
  | some pa => (d.setEntry pa (putBit (d.entryAt pa) 2 false)).dropTlb asid (va / pageBytes) 1
  | none => d

/-- A transfer for a resolution: it has the slack FAULT (R233). -/
def Resolution.req (r : Resolution) : FixReq := { who := some (.command r.id), pa := 0, n := 0, fault := true }

/-- The runtime starts a resolution: a move of one page to the die of the fault, the wait for a move, or the image of a segment. -/
def startResolution (e : Env) (d : Dev) (r : Resolution) : Dev :=
  let d := d.setRes { r with started := true }
  match r.kind with
  | .movingPage .. => d
  | .mgPage asid vpage =>
    let va := vpage * pageBytes
    if d.pageMoving asid vpage then d
    else match walkLower e.fuse d asid va with
      | .fault .. => d
      | .leaf v _ =>
        if d.freeBonded r.die = 0 then d.clearMg e.fuse asid va
        else
          let page := leafPa v / pageBytes
          d.startMove e
            { uid := r.id, long := none, asid := asid, die := some r.die, resolution := true
              pages := [{ va := va, src := page, dst := if e.fuse.atHome (some r.die) page then some page else none }] }
  | .segment n seg =>
    if d.imaging n r.die || ((d.ver n).imageOn r.die).any (fun g => (g.unit seg).isSome) then d
    else if (d.findUnit r.die seg 0).isSome then d.askSegment e n r.die seg r.req
    else d.setRes { r with started := true, failed := some (BitVec.ofNat 8 Config.pageFault, 0x26, d.freeBonded r.die) }

def execFaultResolutionStart (id : Nat) (s : State) : Res :=
  onDev s fun e d => match d.resOf id with
    | some r => if d.running && !r.started then startResolution e d r else d
    | none => d

/-- Stream contexts frozen on a resolution: cluster, core, ME, context. -/
def Dev.frozenOn (d : Dev) (id : Nat) : List (Nat × Nat × Nat × Nat) :=
  d.cores.flatMap fun c => c.2.engs.flatMap fun x => x.2.ctxs.filterMap fun y =>
    if 4 ≤ x.1 && y.2.frozen.any (fun z => z.resolution = id) then some (c.1 / 32, c.1 % 32, x.1 - 4, y.1) else none

/-- The FROZEN bits of a run's contexts clear. -/
def Dev.thawUnit (d : Dev) (r : TrestleRun) : Dev :=
  r.ctxs.foldl (fun d x => { d with btr := { d.btr with
    frozen := Tab.set 0#16 x.1 (BitVec.ofNat 16 (putBit (Tab.get 0#16 x.1 d.btr.frozen).toNat x.2 false)) d.btr.frozen } }) d

/-- A resolution has completed: the contexts that wait on it translate again. -/
def Dev.thaw (e : Env) (d : Dev) (id : Nat) : Dev :=
  let d := d.dropRes id
  let d := (d.frozenOn id).foldl (fun d x => d.modCtx x.1 x.2.1 x.2.2.1 x.2.2.2 fun y => { y with frozen := none }) d
  let d := (d.btr.runs.filter fun r => r.frozen.any fun z => z.resolution = id).foldl (fun d r =>
    match d.runOf r.uid with
    | some x => ((d.thawUnit r).setRun { x with frozen := none }).resumeRun e r.uid
    | none => d) d
  (d.viaFrozenOn id).foldl (viaThaw e) d

/-- A resolution has failed: every request that waits on it ends. `info` gives the record for the address of a request. -/
def Dev.failWaiters (e : Env) (d : Dev) (id : Nat) (info : Nat → FaultInfo) : Dev :=
  let d := d.dropRes id
  let d := (d.frozenOn id).foldl (fun d x =>
    let y := d.streamCtx x.1 x.2.1 x.2.2.1 x.2.2.2
    match y.frozen with
    | some z => if z.resolution = id then d.engFault e x.1 x.2.1 (4 + x.2.2.1) (d.ctxInfo x.1 x.2.1 x.2.2.1 x.2.2.2 y.lin (info z.va)) else d
    | none => d) d
  let d := (d.btr.runs.filter fun r => r.frozen.any fun z => z.resolution = id).foldl (fun d r =>
    match d.openOf r.uid, r.frozen with
    | some o, some z =>
      let t : TrCtx := { env := e, run := r, func := o.func, ranges := [] }
      let i := info z.va
      d.failFault e o (t.info i.error i.resource i.value i.limit z.va none)
    | _, _ => d) d
  (d.viaFrozenOn id).foldl (fun d uid =>
    match d.openOf uid, d.viaFreeze uid with
    | some o, some z => d.failFault e o { info z.va with engine := 0xF2 }
    | _, _ => d) d

/-- The record of a failed resolution; the value of 0x26 is the address, of the tier codes the physical address that `x` holds. -/
def failedInfo (x : Byte × Nat × Nat) (limit va : Nat) : FaultInfo :=
  if x.1.toNat = Config.pageFault then { error := x.1.toNat, resource := x.2.1, value := va, limit := x.2.2, addr := some va }
  else { error := x.1.toNat, resource := x.2.1, value := x.2.2, limit := limit, addr := some va }

/-- Images the segment of a resolution, once it has been read. -/
def resolveSegment (e : Env) (d : Dev) (r : Resolution) (n seg : Nat) : Dev :=
  let v := d.ver n
  if (v.imageOn r.die).any fun g => (g.unit seg).isSome then Dev.thaw e d r.id
  else if d.imaging n r.die || d.asks (.command r.id) then d
  else match d.openSegment v seg with
    | .error code =>
      match d.poisonedSegment v seg with
      | some pa => Dev.failWaiters e d r.id fun va => { error := Config.eccUncorrected, resource := 0x2A, value := pa, addr := some va }
      | none => Dev.failWaiters e d r.id fun va => { error := Config.pageFault, resource := 0x2E, value := va, limit := code, addr := some va }
    | .ok plain =>
      match d.writeSegment e n r.die seg plain true r.req with
      | some d => Dev.thaw e d r.id
      | none => Dev.failWaiters e d r.id fun va => { error := Config.pageFault, resource := 0x26, value := va, limit := d.freeBonded r.die, addr := some va }

def finishResolution (e : Env) (d : Dev) (r : Resolution) : Dev :=
  match r.failed with
  | some x => Dev.failWaiters e d r.id (failedInfo x (if x.1.toNat = Config.tierFail then bitsAt d.blk.tierDeadline.toNat 0 32 else 0))
  | none => match r.kind with
    | .mgPage asid vpage => if (d.moveOf r.id).isSome || d.pageMoving asid vpage then d else Dev.thaw e d r.id
    | .movingPage asid vpage => if d.pageMoving asid vpage then d else Dev.thaw e d r.id
    | .segment n seg => resolveSegment e d r n seg

def execFaultResolutionDone (id : Nat) (s : State) : Res :=
  onDev s fun e d => match d.resOf id with
    | some r => if d.running && r.started then finishResolution e d r else d
    | none => d

/-! ### Deadlines (R188, R191) -/

/-- Ends the request of a frozen context whose fault deadline has passed. -/
def faultExpiry (e : Env) (d : Dev) (who : Requester) (z : Freeze) : Dev :=
  let us := bitsAt d.blk.faultDeadline.toNat 0 32
  match who with
  | .stream cl ph me ctx =>
    d.engFault e cl ph (4 + me) (d.ctxInfo cl ph me ctx (d.streamCtx cl ph me ctx).lin
      { error := Config.pageFault, resource := 0x25, value := z.va, limit := us, addr := some z.va })
  | .command uid => match d.openOf uid, d.runOf uid with
    | some o, some r => d.failFault e o ((TrCtx.mk e r o.func []).info Config.pageFault 0x25 z.va us z.va none)
    | some o, none => d.failFault e o { error := Config.pageFault, resource := 0x25, engine := 0xF2, value := z.va, limit := us, addr := some z.va }
    | _, _ => d
  | .long _ => d

def Dev.freezeOf (d : Dev) : Requester → Option Freeze
  | .stream cl ph me ctx => (d.streamCtx cl ph me ctx).frozen
  | .command uid => ((d.runOf uid).bind (·.frozen)).orElse fun _ => d.viaFreeze uid
  | .long _ => none

def execFaultDeadlineExpiry (who : Requester) (s : State) : Res :=
  guarded who.wf (match s.dev.freezeOf who with
    | none => .next s
    | some z => if s.dev.running then
        onDevAt s (z.since + bitsAt s.dev.blk.faultDeadline.toNat 0 32 * Config.usTicks) fun e d => faultExpiry e d who z
      else .next s)

/-- A tile that waits: its physical address, LOCAL_TIME of its entry, the firing or element that made it, and its VA. -/
abbrev Late := Nat × Nat × Nat × Option Nat

/-- The tile of a requester that entered first of those that an arbiter has not served, made by firing or element `lin`. -/
def Dev.lateAsk (d : Dev) (who : Requester) (lin : Nat) : Option Late := (d.oldestAsk who).map fun x => (x.1, x.2.1, lin, x.2.2)

/-- The tile of a requester that may be late (R188): of a stream context its oldest transfer, or its walk; else the oldest transfer that is not served, or
the access that a failed unit keeps waiting. A move that has switched is past all of them. -/
def Dev.lateTile (e : Env) (d : Dev) (who : Requester) : Option Late :=
  match who with
  | .stream cl ph me ctx =>
    let y := d.streamCtx cl ph me ctx
    match firstBy (fun a b : Xfer => a.since.getD 0 < b.since.getD 0) (y.outst.filter fun t => t.since.isSome) with
    | some t => some (t.pa, t.since.getD 0, t.lin, some t.va)
    | none => d.lateAsk who y.lin
  | .command uid =>
    if (d.moveOf uid).any (·.switched) then none
    else
      let k := ((d.runOf uid).map (·.k)).getD 0
      match d.lateAsk who k, (d.runOf uid).bind (·.stall) with
      | some x, _ => some x
      | none, some (pa, va, since) => some (pa, since, k, some va)
      | none, none => (d.viaDead e uid).map fun x => (x.1, x.2.1, 0, some x.2.2)
  | .long k =>
    let l := d.long k
    if !l.used || l.st.terminal || l.st = .suspended || (d.longMove k).any (·.switched) then none
    else (d.lateAsk who 0).orElse fun _ => l.stall.map fun x => (x.1, x.2, 0, none)

/-- A late tile ends the request that made it with ERR_TIER_FAIL. -/
def tierExpiry (e : Env) (d : Dev) (who : Requester) (pa lin : Nat) (va : Option Nat) : Dev :=
  let res := if e.fuse.isBonded pa then 0x27 else 0x28
  let us := bitsAt d.blk.tierDeadline.toNat 0 32
  let i : FaultInfo := { error := Config.tierFail, resource := res, engine := 0xF2, value := pa, limit := us, addr := va }
  match who with
  | .stream cl ph me ctx => d.engFault e cl ph (4 + me) (d.ctxInfo cl ph me ctx lin i)
  | .command uid =>
    match d.openOf uid, d.moveOf uid, d.runOf uid, d.resOf uid with
    | some o, some _, _, _ => d.failFault e o i
    | some o, none, some r, _ => d.failFault e o ((TrCtx.mk e r o.func []).info Config.tierFail res pa us (va.getD 0) (some pa))
    | none, some m, _, some r => (d.abortMove e.fuse m).setRes { r with failed := some (BitVec.ofNat 8 Config.tierFail, res, pa) }
    | none, none, _, some r => d.setRes { r with failed := some (BitVec.ofNat 8 Config.tierFail, res, pa) }
    | some o, none, none, none => d.failFault e o i
    | _, _, _, _ => d
  | .long k => d.failLong e.fuse e k i

def execTierDeadlineExpiry (who : Requester) (s : State) : Res :=
  guarded who.wf (match s.dev.lateTile s.env who with
    | none => .next s
    | some (pa, since, lin, va) => if s.dev.running then
        onDevAt s (since + bitsAt s.dev.blk.tierDeadline.toNat 0 32 * Config.usTicks) fun e d => tierExpiry e d who pa lin va
      else .next s)

/-! ### Patrol scrub (R195) -/

/-- A scrub read of 64 bytes of DRAM, or of an 8-byte word of the near tier. A word known to be uncorrected is found so again (R189). -/
def scrub (e : Env) (d : Dev) (loc : ScrubAt) (ecc : Ecc) : Dev :=
  match loc with
  | .dram pa =>
    if !e.fuse.isDram pa || bitsAt d.blk.scrubPeriod.toNat 0 8 = 0 || d.unitDead e.fuse pa then d
    else
      let d := d.askRange e { pa := pa / 64 * 64, n := 0 } 64 scrubSlot
      match d.badIn (pa / 64 * 64) 64, ecc with
      | some w, _ => d.uncorrected e.fuse w
      | none, .good => d
      | none, .corrected => d.countEcc e.fuse pa 1 0 1
      | none, .uncorrected => d.uncorrected e.fuse pa
  | .near a =>
    let w := a / 8
    let cl := a / 0x4000000
    if !(e.fuse.clusterFitted cl && cl < 16) then d
    else match (if d.blk.nearBad.contains w then .uncorrected else ecc) with
      | .good => d
      | .corrected => { d with blk := { d.blk with eccNear := Tab.put (cl / 4) ((Tab.get ({} : EccCount) (cl / 4) d.blk.eccNear).add 1 0 1) d.blk.eccNear } }
      | .uncorrected =>
        let d := d.nearUncorrected a
        if d.blk.nearBad.contains w then d else { d with blk := { d.blk with nearBad := d.blk.nearBad ++ [w] } }

def execScrubRead (loc : ScrubAt) (ecc : Ecc) (s : State) : Res := onDev s fun e d => if d.running then scrub e d loc ecc else d

/-! ### Invalidation (R176, R199) and the lock of the pools (R167) -/

/-- A write of BLK_TLB_INV. -/
def Dev.tlbInvalidate (d : Dev) (v : Nat) : Dev :=
  let asid := bitsAt v 0 16
  if d.blk.tlbBusy then d
  else if badAsid asid || d.deadAsid asid then { d with blk := { d.blk with tlbError := true } }
  else { d with blk := { d.blk with tlbBusy := true, tlbError := false, tlbJob := some (asid, bitsAt d.blk.tlbInvVa.toNat 16 36, bitsAt v 16 32) } }

/-- A stream context's transfer uses a translation of [first, first + n) of an address space. -/
def Dev.usesPages (d : Dev) (asid first n : Nat) : Bool :=
  d.cores.any fun c =>
    (match c.2.span with | some (die, slot) => (d.span (64 * die + slot)).asid = asid | none => false)
    && c.2.engs.any fun x => x.2.ctxs.any fun y => y.2.outst.any fun t => t.va < sealedBase && first ≤ t.va / pageBytes && t.va / pageBytes < first + n

def execTlbInvDone (s : State) : Res :=
  onDev s fun _ d => match d.blk.tlbJob with
    | none => d
    | some (asid, first, n) =>
      let n' := if n = 0 then 2 ^ 36 else n
      let first := if n = 0 then 0 else first
      if !d.running || d.usesPages asid first n' then d
      else { d.dropTlb asid first n' with blk := { (d.dropTlb asid first n').blk with tlbBusy := false, tlbJob := none } }

/-- Two pools overlap; one of SIZE 0 is none. -/
def poolsMeet (a b : Quad) : Bool := poolSize a ≠ 0 && poolSize b ≠ 0 && poolBase a < poolBase b + poolSize b && poolBase b < poolBase a + poolSize a

/-- The pools may be locked: each in its range, none overlapping, each bonded pool of 48 units or more. -/
def Dev.poolsOk (u : Fuses) (d : Dev) : Bool :=
  let dies := List.range u.dies
  let k := d.blk.poolBulk
  dies.all (fun x =>
    let p := d.bondedPool x
    48 ≤ poolSize p && dieBonded * x ≤ poolBase p * unitBytes && (poolBase p + poolSize p) * unitBytes ≤ dieBonded * (x + 1)
      && !poolsMeet p k && (dies.all fun y => x = y || !poolsMeet p (d.bondedPool y)))
    && (poolSize k = 0 || (bulkBase ≤ poolBase k * unitBytes && (poolBase k + poolSize k) * unitBytes ≤ u.bulkTop))

/-- A write of 1 to LOCKED. -/
def Dev.lockPools (u : Fuses) (d : Dev) (v : Nat) : Dev :=
  if !bitAt v 0 || d.blk.locked then d
  else if d.poolsOk u then
    { d with blk := { d.blk with locked := true, invalid := false, pages := [], reserve := (List.range u.dies).flatMap d.reserveOf } }
  else { d with blk := { d.blk with invalid := true } }

/-! ### Failures of a stack and of a bridge (R224, R337) -/

def execStackFailure (k : Fin 20) (s : State) : Res :=
  onDev s fun e d =>
    if d.running && k < e.fuse.stackCount then { d with btr := { d.btr with stackSet := Tab.put k 3#2 d.btr.stackSet } } else d

/-- Ends the request whose transfer over a die bridge was uncorrected. -/
def bridgeVictim (e : Env) (d : Dev) (bridge : Nat) (who : Requester) : Dev :=
  let i : FaultInfo := { error := Config.eccUncorrected, resource := 0x45, engine := 0xF2, value := bridge }
  match who with
  | .stream cl ph me ctx =>
    match (d.streamCtx cl ph me ctx).outst.head? with
    | some t => d.engFault e cl ph (4 + me) (d.ctxInfo cl ph me ctx t.lin { i with addr := some t.va })
    | none => d
  | .command uid =>
    match d.openOf uid, d.moveOf uid, d.resOf uid with
    | some o, _, _ => d.failFault e o i
    | none, some m, some r => (d.abortMove e.fuse m).setRes { r with failed := some (BitVec.ofNat 8 Config.eccUncorrected, 0x45, bridge) }
    | _, _, _ => d
  | .long k => let l := d.long k; if l.used && !l.st.terminal then d.failLong e.fuse e k i else d

/-- The die bridges of a part: dies 0 to 3 to the hub and the ring of the dies; on KPV-2L dies 0 and 1 to the hub and 0 to 1 (R17, R161). -/
def Fuses.bridgeFitted (u : Fuses) (bridge : Nat) : Bool := if u.part = .kpv2L then [0, 1, 4].contains bridge else bridge < 8

def execBridgeEcc (bridge : Fin 8) (victims : List Requester) (s : State) : Res :=
  guarded (victims.all Requester.wf) (onDev s fun e d =>
    if d.running && e.fuse.bridgeFitted bridge then victims.foldl (fun d w => bridgeVictim e d bridge w) d else d)

end Sys2Proof.Machine
end

