-- ==== Sys2Proof/Machine/Objects.lean ====
section
/-!
DEFINITION. Sealed objects and versions: OBJ_LOAD with its segments (R240 to R250), and OBJ_RETIRE with its teardown (R254).
-/
namespace Sys2Proof.Machine

/-! ### The header block and the manifest (R240 to R242) -/

/-- The fields of a header block. -/
structure Header where
  magic : Nat
  format : Nat
  kind : Nat
  flags : Nat
  part : Nat
  igzon : Nat
  pubKey : Nat
  rank : Nat
  spanKey : Nat
  modelId : Nat
  version : Nat
  segments : Nat
  payloadLen : Nat
  baseId : Nat
  baseVersion : Nat
  nonce : Nat
  manifestHash : Nat
  wrapped : List Byte
  reserved : Nat

def readHeader (l : List Byte) : Header :=
  { magic := bytesAt l 0 4, format := bytesAt l 4 2, kind := bytesAt l 6 1, flags := bytesAt l 7 1, part := bytesAt l 8 1, igzon := bytesAt l 9 1,
    pubKey := bytesAt l 10 1, rank := bytesAt l 11 1, spanKey := bytesAt l 12 1, modelId := bytesAt l 16 8, version := bytesAt l 24 4,
    segments := bytesAt l 28 4, payloadLen := bytesAt l 32 8, baseId := bytesAt l 40 8, baseVersion := bytesAt l 48 4, nonce := bytesAt l 56 8,
    manifestHash := bytesAt l 64 32, wrapped := (l.drop 96).take 384,
    reserved := bytesAt l 13 3 + bytesAt l 52 4 + bytesAt l 864 3232 }

def Header.encrypted (h : Header) : Bool := bitAt h.flags 0
/-- Bytes of the manifest, and padded to 4 KiB. -/
def Header.manifest (h : Header) : Nat := 64 * h.segments
def Header.manifestPadded (h : Header) : Nat := (h.manifest + blockBytes - 1) / blockBytes * blockBytes
/-- Bytes of the whole object. -/
def Header.length (h : Header) : Nat := blockBytes + h.manifestPadded + h.payloadLen

/-- Every field is in its range (R241). PART 0 of a KIND 1 or 2 object allows every ordering number. -/
def Header.ok (h : Header) (u : Fuses) : Bool :=
  let key := h.kind = 2
  h.magic = 0x424F574B && h.format = 1 && 1 ≤ h.kind && h.kind ≤ 3 && h.flags < 2
    && (h.part = u.part.code || (h.part = 0 && h.kind ≠ 3))
    && h.pubKey < 64 && (if key then h.rank % 8 = 0 && 8 ≤ h.rank && h.rank ≤ 64 else h.rank = 0)
    && (if h.encrypted then h.spanKey < 64 || h.spanKey = 0xFF else h.spanKey = 0)
    && 1 ≤ h.version && 1 ≤ h.segments && h.segments ≤ 32768
    && h.payloadLen % blockBytes = 0 && h.payloadLen ≤ 2 ^ 36 && h.segments = (h.payloadLen + unitBytes - 1) / unitBytes
    && (key || (h.baseId = 0 && h.baseVersion = 0)) && (h.encrypted || (h.nonce = 0 && ofBytes h.wrapped = 0)) && h.reserved = 0

/-- Manifest entry `i`. -/
def readSegment (m : List Byte) (i : Nat) : Segment :=
  { hash := BitVec.ofNat 256 (bytesAt m (64 * i) 32), tag := BitVec.ofNat 128 (bytesAt m (64 * i + 32) 16), len := bytesAt m (64 * i + 48) 4 }

/-- Every manifest entry is as R242 states, and the padding is 0. -/
def manifestOk (h : Header) (m : List Byte) : Bool :=
  ((List.range h.segments).all fun i =>
    let s := readSegment m i
    s.len = min unitBytes (h.payloadLen - unitBytes * i) && bytesAt m (64 * i + 52) 12 = 0 && (h.encrypted || s.tag = 0#128))
  && bytesAt m h.manifest (h.manifestPadded - h.manifest) = 0

/-! ### OBJ_LOAD (R245, R247 to R250) -/

def objAddr (c : Command) : Nat := cmdField c 16 8
def objLength (c : Command) : Nat := cmdField c 24 8

/-- Open OBJ_LOADs, suspended ones among them. -/
def Dev.openLoads (d : Dev) : Nat :=
  d.longs.countP fun x => x.2.used && !x.2.st.terminal && (match x.2.kind with | .objLoad .. => true | _ => false)

/-- The sealed regions in use: first unit and length. -/
def Dev.regions (d : Dev) : List (Nat × Nat) := (d.vers.filter fun x => x.2.st ≠ .free).map fun x => (x.2.region, x.2.units)

/-- The lowest free region of `n` units (R247): it begins at 0 or where one ends. -/
def Dev.freeRegion (d : Dev) (n : Nat) : Option Nat :=
  let l := d.regions
  let fits := (0 :: l.map fun x => x.1 + x.2).filter fun r => r + n ≤ sealedUnits && l.all fun x => r + n ≤ x.1 || x.1 + x.2 ≤ r
  match fits with
  | [] => none
  | r :: t => some (minList 0 (r :: t))

/-- A free entry of the version table. -/
def Dev.freeEntry (d : Dev) (point : Nat) : Option Nat := findRound (fun n => (d.ver n).st = .free) 0 16384 point

def Dev.pubKey (d : Dev) (slot : Nat) : Option (BitVec 3072) := (d.sec.pubKeys.find? fun x : Nat × BitVec 3072 => x.1 = slot).map (·.2)

/-- The signature over header bytes 0 to 479 and the hash of the manifest hold (R243, R245). -/
def Dev.objectSigned (d : Dev) (h : Header) (head : List Byte) : Bool :=
  match d.pubKey h.pubKey with
  | none => false
  | some k => pssVerify k.toNat (head.take 480) ((head.drop 480).take 384)
      && sha256 ((head.drop blockBytes).take h.manifest) = BitVec.ofNat 256 h.manifestHash

def objLoadCheck (head : List Byte) (e : Env) (d : Dev) (o : OpenCmd) : Option Reject :=
  let c := o.cmd
  let h := readHeader head
  let bad := objAddr c % blockBytes ≠ 0 || !h.ok e.fuse || objLength c ≠ h.length || !manifestOk h (head.drop blockBytes)
  d.checks e o (fields := [(bad, 16)]) (perms := [(d.sec.plainForbid && !h.encrypted, 16)])
    (rest := [fails (!d.objectSigned h head) Config.signature 16,
              fails (h.encrypted && (Config.unwrapKey e.fuse.deviceId h.wrapped).isNone) Config.decrypt 16,
              fails (2 ≤ d.openLoads || d.vers.any fun x => x.2.st ≠ .free && x.2.modelId = h.modelId && x.2.version = h.version) Config.busy 16,
              fails (!d.blk.locked || (d.freeEntry 0).isNone || (h.kind = 2 && 8192 ≤ d.vers.countP fun x => x.2.st ≠ .free && x.2.kind = 2)
                || (d.freeRegion h.segments).isNone || d.freeBulk < (h.length + pageBytes - 1) / pageBytes) Config.quota 16,
              fails d.freeLong.isNone Config.quota 0])

/-- Step 1 of an accepted OBJ_LOAD: entry, region and pages are taken, header and manifest are at home, LONG_START is posted. -/
def runObjLoad (head : List Byte) (e : Env) (d : Dev) (o : OpenCmd) : Dev :=
  let h := readHeader head
  let (x, d) := d.free 16
  let n := (d.freeEntry x.toNat).getD 0
  let region := (d.freeRegion h.segments).getD 0
  let (pages, d) := d.takePages d.blk.poolBulk .sealed ((h.length + pageBytes - 1) / pageBytes)
  let v : Version :=
    { st := .loading, gen := (d.ver n).gen, kind := h.kind, region := region, payloadLen := h.payloadLen, func := o.func, part := h.part,
      igzon := h.igzon, pubKey := h.pubKey, spanKey := h.spanKey, rank := h.rank, modelId := h.modelId, version := h.version, baseId := h.baseId,
      baseVersion := h.baseVersion, encrypted := h.encrypted, nonce := h.nonce, aad := (List.range 64).map fun i => head.getD i 0#8,
      manifestHash := BitVec.ofNat 256 h.manifestHash, segs := (List.range h.segments).map (readSegment (head.drop blockBytes)), pages := pages,
      headLen := blockBytes + h.manifestPadded, key := if h.encrypted then Config.unwrapKey e.fuse.deviceId h.wrapped else none }
  let d := Dev.writeHome v (v.headLen / blockBytes) 0 (head ++ List.replicate (v.headLen - head.length) 0#8) (d.setVer n v)
  (d.openLong o (.objLoad n 0)).2

def execObjLoad (f : FuncId) (q : QueueId) (c : Command) (head : List Byte) (s : State) : Res :=
  guarded (cmdIs opObjLoad c) (onDev s fun e d => startRow e d f q c (objLoadCheck head) (runObjLoad head))

/-- Step 2 and 3: a segment whose hash holds is written unchanged, and the boundary after it; step 4 after the last. -/
def ingest (e : Env) (d : Dev) (k n seg : Nat) (data : List Byte) : Dev :=
  let v := d.ver n
  let at_ := v.headLen + unitBytes * seg
  if v.segs.length ≤ seg then d
  else match d.deadIn e.fuse (v.segBlocks seg) with
  | some pa => d.modLong k fun l => { l with stall := l.stall.orElse fun _ => some (pa, e.now) }
  | none =>
  if (v.segs[seg]?).map (·.hash) ≠ some (sha256 data) then d.cancelLong e.fuse k Config.signature 16
  else
    let d := Dev.writeHome v (v.segLen seg / blockBytes) at_ data d
    let d := d.modLong k fun l => { l with kind := .objLoad n (seg + 1), chunks := l.chunks + 1, bytes := l.bytes + data.length }
    if v.segs.length ≤ seg + 1 && (d.long k).st ≠ .cancelling then
      (d.modVer n fun v => { v with st := .active }).endLong k 0 (verHandle n v)
    else (d.boundary e.fuse k).2

def execObjLoadSegment (slot : Nat) (data : List Byte) (s : State) : Res :=
  onDev s fun e d =>
    let l := d.long slot
    if d.running && l.used && (l.st = .running || l.st = .cancelling) then
      match l.kind with
      | .objLoad n seg => ingest e d slot n seg data
      | _ => d
    else d

/-! ### OBJ_RETIRE (R254) -/

def objRetireCheck (e : Env) (d : Dev) (o : OpenCmd) : Option Reject :=
  let n := d.verOf (cmdField o.cmd 16 8)
  let v := d.ver (n.getD 0)
  d.checks e o
    (handles := [(n.isNone || v.st = .loading, 16)])
    (perms := [(o.func ≠ 0 && o.func ≠ v.func, 16)])
    (rest := [fails (v.st = .retiring) Config.versionRetired 16, fails d.freeLong.isNone Config.quota 0])

def runObjRetire (_ : Env) (d : Dev) (o : OpenCmd) : Dev :=
  let n := (d.verOf (cmdField o.cmd 16 8)).getD 0
  ((d.modVer n fun v => { v with st := .retiring }).openLong o (.objRetire n)).2

def execObjRetire (f : FuncId) (q : QueueId) (c : Command) (s : State) : Res :=
  guarded (cmdIs opObjRetire c) (onDev s fun e d => startRow e d f q c objRetireCheck runObjRetire)

/-- The open OBJ_RETIRE of a version: slot and operation. -/
def Dev.retirementOf (d : Dev) (n : Nat) : Option (Nat × LongOp) :=
  d.longs.find? fun x => x.2.used && !x.2.st.terminal && x.2.kind = .objRetire n

/-- The teardown begins: the version's leaves are clear on every die; its pages wait for the commands now running. -/
def teardown (d : Dev) (n : Nat) : Dev :=
  let uids := d.opens.map (·.uid)
  ((List.range 4).foldl (fun d die => d.evict n die uids) d).modVer n fun v => { v with torn := some uids }

/-- A retirement whose long-operation slot a package-warm reset has freed goes on without one (R258). -/
def execRetireTeardown (entry : Nat) (s : State) : Res :=
  onDev s fun _ d =>
    if d.running && (d.ver entry).st = .retiring && (d.retirementOf entry).all (fun x => x.2.st = .running) && d.refs entry = 0
      && (d.ver entry).torn.isNone then teardown d entry else d

/-- The commands that ran at the teardown have ended: pages, key and entry are free, and the retirement is DONE. -/
def execRetirePagesFree (entry : Nat) (s : State) : Res :=
  onDev s fun _ d => match (d.ver entry).torn with
    | some uids =>
      if d.running && !(uids.any fun x => (d.openOf x).isSome) then
        match d.retirementOf entry with
        | some (k, _) => (d.freeVersion entry).endLong k 0 0
        | none => d.freeVersion entry
      else d
    | none => d

end Sys2Proof.Machine
end

