-- ==== Sys2Proof/Machine/PwrOps.lean ====
section
/-!
DEFINITION. The writable PWR_ registers with their ranges (R355, R365, R372, R373), the heartbeat, and the thresholds of the governor. Powers that the governor
computes are in units of 0.01 W.
-/
namespace Sys2Proof.Machine

/-- TDP in W, and the ranges of PWR_CAP and PWR_BRAKE_FLOOR (R355). -/
def Fuses.tdp (u : Fuses) : Nat := if u.part = .kpv2L then 1440 else 2800
def Fuses.capMin (u : Fuses) : Nat := if u.part = .kpv2L then 500 else 900
def Fuses.floorMax (u : Fuses) : Nat := if u.part = .kpv2L then 820 else 1600
/-- Ballast capacity in 0.01 W with the clusters that are usable (R355, R362). -/
def Fuses.ballastCap (u : Fuses) (k : Kf) : Nat :=
  popCount 16 k.clusterMap.toNat * (if u.part = .kpv2L then 75000 / 8 else 150000 / 16)

/-- The PWR_ block at power-on (R372); H is at the safe cap until the first heartbeat (R365). -/
def Fuses.pwrReset (u : Fuses) : Pwr :=
  if u.part = .kpv2L then
    { cap := 0x5A0#64, brakeFloor := 0x1F4#64, safe := 0x13880334#64, h := 82000, tl := 144000 }
  else {}

def Pwr.slewStep (p : Pwr) : Nat := bitsAt p.slew.toNat 0 8
def Pwr.brakeW (p : Pwr) : Nat := bitsAt p.brakeFloor.toNat 0 16
def Pwr.safeCap (p : Pwr) : Nat := bitsAt p.safe.toNat 0 16
def Pwr.hbTimeoutMs (p : Pwr) : Nat := bitsAt p.safe.toNat 16 16
def Pwr.capW (p : Pwr) : Nat := bitsAt p.cap.toNat 0 16
def Pwr.throttleC (p : Pwr) : Nat := bitsAt p.therm.toNat 0 8

/-- A heartbeat (R365). -/
def Dev.heartbeat (d : Dev) (now : Nat) : Dev := { d with pwr := { d.pwr with hbLost := false, lastBeat := now } }

/-- The write of a PWR_ register over the management bus; a value outside its range is ignored (R372, R373). -/
def Dev.writePwr (u : Fuses) (now : Nat) (d : Dev) (off v : Nat) : Dev :=
  let p := d.pwr
  let low (n : Nat) : Nat := v % 2 ^ n
  match off with
  | 0x900000 => if u.capMin ≤ low 16 && low 16 ≤ u.tdp then { d with pwr := { p with cap := BitVec.ofNat 64 (low 16) } } else d
  | 0x900008 => if 1 ≤ low 8 && low 8 ≤ 200 then { d with pwr := { p with slew := BitVec.ofNat 64 (low 8) } } else d
  | 0x900010 => if u.capMin ≤ low 16 && low 16 ≤ u.floorMax then { d with pwr := { p with brakeFloor := BitVec.ofNat 64 (low 16) } } else d
  | 0x900018 =>
    let cap := if p.brakeW ≤ low 16 && low 16 ≤ u.tdp then low 16 else p.safeCap
    let ms := bitsAt v 16 16
    { d with pwr := { p with safe := BitVec.ofNat 64 (cap + (if 100 ≤ ms then ms else p.hbTimeoutMs) * 2 ^ 16) } }
  | 0x900020 => if bitAt v 0 then d.heartbeat now else d
  | 0x900048 => if 60 ≤ low 8 && low 8 ≤ 95 then { d with pwr := { p with therm := BitVec.ofNat 64 (low 8) } } else d
  | _ => d

/-- The offsets of the PWR_ registers that take management writes. -/
def pwrWritable : List Nat := [0x900000, 0x900008, 0x900010, 0x900018, 0x900020, 0x900048]

/-- The same, or its store for the end of the parapet state (R341, R371). -/
def Dev.writePwrLater (u : Fuses) (now : Nat) (d : Dev) (off v : Nat) : Dev :=
  if d.ras.st = .parapet then { d with pwr := { d.pwr with deferred := d.pwr.deferred ++ [(off, BitVec.ofNat 64 v)] } } else d.writePwr u now off v

/-- The stored writes are applied. -/
def Dev.applyDeferred (u : Fuses) (now : Nat) (d : Dev) : Dev :=
  let l := d.pwr.deferred
  l.foldl (fun d x => d.writePwr u now x.1 x.2.toNat) { d with pwr := { d.pwr with deferred := [] } }

/-- The same where the package has come to RUNNING. -/
def Dev.applyDeferredIfRunning (d : Dev) (u : Fuses) (now : Nat) : Dev := if d.ras.st = .running then d.applyDeferred u now else d

end Sys2Proof.Machine
end

