-- ==== Sys2Proof/Machine/Spans.lean ====
section
/-!
DEFINITION. Spans (R124 to R134): loading an image with its places and handoffs, launches and their ends, drains, dispensers (R149 to R151), and the
reload after a fence or reset (R20, R338).
-/
namespace Sys2Proof.Machine

/-! ### SPAN_LOAD (R98, R125 to R128, R132, R149) -/

def loadImage (c : Command) : Nat := cmdField c 16 8
def loadPlaces (c : Command) : Nat := cmdField c 24 1
def loadSlot (c : Command) : Nat := cmdField c 25 1
def loadHand (c : Command) (s : Nat) : Nat := cmdField c (32 + s) 1

/-- The payload of a version, from its image on the die where that is complete, else from its bulk home with the checks of a segment; an error of a check,
or the place of a poisoned word. DESIGN CHOICE: an encrypted version is decrypted into a bonded image alone (R244), so its bulk home gives the ciphertext,
while the runtime reads a complete image of it for a SPAN_LOAD, although R184 does not name that reader (log entry 81). -/
def Dev.spanPayload (d : Dev) (n die : Nat) : Except (Nat × Option Nat) (List Byte) :=
  let v := d.ver n
  match (v.imageOn die).filter (·.complete) with
  | some g =>
    let l := (List.range v.units).map fun i => ((g.unit i).getD 0 * unitBytes, v.segLen i)
    match l.findSome? fun x => d.badIn x.1 x.2 with
    | some w => .error (Config.eccUncorrected, some w)
    | none => .ok (l.flatMap fun x => Memory.read d.blk.dram x.1 x.2)
  | none =>
    (List.range v.units).foldl (fun r i =>
      match r with
      | .error x => .error x
      | .ok l => match d.storedSegment v i with
        | .ok b => .ok (l ++ b)
        | .error x => .error (x, d.poisonedSegment v i)) (.ok [])

/-- The places that an image uses, as clusters of the package. -/
def loadClusters (die : Nat) (c : Command) (i : Img) : List Nat := (List.range i.clusters).map fun k => 4 * die + bitsAt (loadPlaces c) (2 * k) 2

/-- Target cores under the core maps. -/
def targetCores (k : Kf) (cls : List Nat) (i : Img) : List CoreRef :=
  i.cores.filterMap fun x =>
    let cl := cls.getD (x.idx / 30) 0
    (k.physOf cl (x.idx % 30)).map fun p => { idx := x.idx, cl := cl, phys := p }

/-- Dispensers that an image's contexts name, with G: cluster, dispenser, grid. -/
def imageDisps (cls : List Nat) (i : Img) : List (Nat × Nat × Nat) :=
  (i.cores.flatMap fun x => x.progs.flatMap fun p => match p with
    | .me p => p.ctxs.filterMap fun y => y.2.disp.map fun k => (cls.getD (x.idx / 30) 0, k, y.2.iterations [])
    | _ => []).eraseDups

/-- Slots of the span table that are not FREE. -/
def Dev.liveSlots (d : Dev) : List (Nat × Span) := d.spans.filter fun x => x.2.st ≠ .free

/-- Spans that hold any of some cores. -/
def Dev.overlapping (d : Dev) (l : List CoreRef) : List Nat :=
  (d.liveSlots.filter fun x => x.2.cores.any fun r => hasCore l r.cl r.phys).map (·.1)

/-- A receive endpoint is bound by a loaded span, or targeted by one. -/
def Dev.epBound (d : Dev) (die ep : Nat) (skip : List Nat) : Bool :=
  d.liveSlots.any fun x => !skip.contains x.1 && x.1 / 64 = die && x.2.hands.any fun h => h.recv && h.ep = ep
def Dev.epTargeted (d : Dev) (die ep : Nat) (skip : List Nat) : Bool :=
  d.liveSlots.any fun x => !skip.contains x.1 && x.2.hands.any fun h => !h.recv && h.peerDie = die && h.peerEp = ep

/-- The free send endpoints of a die, lowest first. -/
def Dev.freeSends (d : Dev) (die : Nat) (skip : List Nat) : List Nat :=
  (List.range 32).filter fun n => !(d.liveSlots.any fun x => !skip.contains x.1 && x.1 / 64 = die && x.2.hands.any fun h => !h.recv && h.ep = n)

/-- The handoff slots of an image as its HANDOFF bytes bind them; send slots take the free send endpoints in turn. -/
def bindHands (c : Command) (die : Nat) : List (Nat × Bool) → List Nat → List HandSlot
  | [], _ => []
  | (s, recv) :: t, free =>
    let b := loadHand c s
    if recv then { slot := s, recv := true, ep := bitsAt b 0 5, peerDie := die, peerEp := bitsAt b 0 5 } :: bindHands c die t free
    else { slot := s, recv := false, ep := free.headD 0, peerDie := bitsAt b 5 2, peerEp := bitsAt b 0 5 } :: bindHands c die t (free.drop 1)

/-- The refusals that the image's contents give, in the order of R120 (R98, R125, R126, R149, R258). Of two slots of one image that name one receive
endpoint the higher finds it taken. -/
def loadRefusal (e : Env) (d : Dev) (o : OpenCmd) (n : Nat) (i : Img) (ovf : List Nat) : Option Reject :=
  let c := o.cmd
  let cls := loadClusters o.die c i
  let disps := imageDisps cls i
  let handBad (s : Nat) : Bool :=
    let b := loadHand c s
    match i.hands.find? fun h => h.1 = s with
    | none => b ≠ 0
    | some (_, true) => !bitAt b 7 || bitsAt b 5 2 ≠ 0
    | some (_, false) => !bitAt b 7 || bitsAt b 5 2 = o.die
  let at_ (p : Nat → Bool) : List Bad := (List.range 32).map fun s => (p s, 32 + s)
  let sends (p : Nat → Bool) : Nat → Bool := fun s => i.hands.contains (s, false) && p (loadHand c s)
  let force := cmdForce c
  let need := (i.hands.filter fun h => !h.2).map (·.1)
  let free := d.freeSends o.die ovf
  let busyCores := !ovf.isEmpty && (!force || ovf.any fun k => (d.span k).st = .loading)
  let busyDisp := disps.any fun x => match (d.disp x.1 x.2.1).owner with
    | some s => !ovf.contains (64 * o.die + s)
    | none => false
  let twice (s : Nat) (recv : Bool) (n : Nat) : Bool := i.hands.any fun h => h.1 < s && h.2 = recv && bitsAt (loadHand c h.1) 0 n = bitsAt (loadHand c s) 0 n
  let busyEp (s : Nat) : Bool :=
    let b := loadHand c s
    (i.hands.contains (s, true) && twice s true 5) || (i.hands.contains (s, false) && twice s false 7) || (i.hands.contains (s, true) && d.epBound o.die (bitsAt b 0 5) ovf) || (i.hands.contains (s, false) && d.epTargeted (bitsAt b 5 2) (bitsAt b 0 5) ovf)
  [firstBad Config.badField ((disps.any fun x => disps.any fun y => x.1 = y.1 && x.2.1 = y.2.1 && x.2.2 ≠ y.2.2, 16) :: (!decide cls.Nodup, 24) :: at_ handBad),
   firstBad Config.unitAbsent
    (((((List.range 4).countP fun k => e.kf.usable (4 * o.die + k)) < i.clusters, 16) : Bad) :: (cls.any fun x => !e.kf.usable x, 24)
      :: at_ (sends fun b => !e.fuse.dieFitted (bitsAt b 5 2))),
   fails ((d.ver n).st = .retiring) Config.versionRetired 16,
   firstBad Config.busy ((busyCores || busyDisp, 16) :: ((d.span (64 * o.die + loadSlot c)).st ≠ .free, 25) :: at_ busyEp),
   firstBad Config.quota (at_ fun s => (need.drop free.length).contains s)].findSome? id

def spanLoadCheck (e : Env) (d : Dev) (o : OpenCmd) : Option Reject :=
  let n := d.verOf (loadImage o.cmd)
  let v := d.ver (n.getD 0)
  d.checks e o (handles := [(n.isNone || v.st = .loading || v.kind ≠ 3, 16)]) (perms := [(!bitAt v.fmask o.func, 16)])

/-- The span as its slot holds it while it loads. -/
def newSpan (o : OpenCmd) (n : Nat) (v : Version) (i : Img) (cs : List CoreRef) (hands : List HandSlot) (disps : List (Nat × Nat × Nat)) (ep : BitVec 4) : Span :=
  { st := .loading, epoch := ep, places := BitVec.ofNat 8 (loadPlaces o.cmd), nplace := i.clusters, func := o.func, entry := n, pubKey := v.pubKey,
    ncores := i.cores.length, cores := cs, progs := i.cores.map fun x => (x.idx, x.progs), vroutes := i.routes, hands := hands, disps := disps,
    loadCmd := some o.uid, fromBulk := !((v.imageOn o.die).any (·.complete)) }

/-- The core of lowest cluster and number. -/
def lowestCore (l : List CoreRef) : Option CoreRef := firstBy (fun a b : CoreRef => 32 * a.cl + a.phys < 32 * b.cl + b.phys) l

/-- The owners and programmed values of a loading span's dispensers (R149). -/
def Dev.ownDisps (d : Dev) (slot : Nat) (l : List (Nat × Nat × Nat)) : Dev :=
  l.foldl (fun d x => d.setDisp x.1 x.2.1 { d.disp x.1 x.2.1 with
    owner := some slot, pStart := 0#32, pLimit := BitVec.ofNat 32 x.2.2, set := false }) d

/-- A SPAN_LOAD whose image has been read: refused by its contents, or the overlapping spans are flushed and the slot is LOADING. -/
def loadStart (e : Env) (d : Dev) (o : OpenCmd) (n : Nat) (i : Img) : Dev :=
  let k := 64 * o.die + loadSlot o.cmd
  let cls := loadClusters o.die o.cmd i
  let cs := targetCores e.kf cls i
  let ovf := d.overlapping cs
  match loadRefusal e d o n i ovf with
  | some (code, off) => d.complete o.uid code off
  | none =>
    let hands := bindHands o.cmd o.die i.hands (d.freeSends o.die ovf)
    let mk := newSpan o n (d.ver n) i cs hands (imageDisps cls i)
    let trial := (ovf.foldl (fun d x => (loseSpan d x Config.cancelled 0 false true).1) d).setSpan k (mk 0#4)
    match trial.placeRoutes e.kf k fun _ => true with
    | none => d.complete o.uid Config.quota 16
    | some t =>
      let d := d.settle e (ovf.map fun x => .lose x Config.cancelled 0 false true)
      let ep := match lowestCore cs with
        | some r => (d.core r.cl r.phys).epoch
        | none => 0#4
      { (d.setSpan k (mk ep)).ownDisps (loadSlot o.cmd) (imageDisps cls i) with routes := t.routes, freeCount := d.freeCount + 1 }

def runSpanLoad (e : Env) (d : Dev) (o : OpenCmd) : Dev :=
  let n := (d.verOf (loadImage o.cmd)).getD 0
  match d.spanPayload n o.die with
  | .error (code, some pa) =>
    if code = Config.eccUncorrected then
      d.failFault e o { error := code, resource := if e.fuse.isBonded pa then 0x29 else 0x2A, engine := 0xF2, value := pa, addr := some pa }
    else d.complete o.uid code 16
  | .error (code, none) => d.complete o.uid code 16
  | .ok l =>
    match readImage (e.fuse.part.code) (d.ver n).payloadLen l with
    | none => d.complete o.uid Config.badField 16
    | some i => loadStart e d o n i

def execSpanLoad (f : FuncId) (q : QueueId) (c : Command) (s : State) : Res :=
  guarded (cmdIs opSpanLoad c) (onDev s fun e d => startRow e d f q c spanLoadCheck runSpanLoad)

/-! ### LOAD_COMPLETE (R127, R20) -/

/-- The cores of a span under the core maps as they stand. -/
def Span.remapped (k : Kf) (s : Span) : List CoreRef :=
  s.cores.map fun r => match k.physOf r.cl (r.idx % 30) with
    | some p => { r with phys := p }
    | none => r

/-- A placed route crosses a fenced core, or ends at one. -/
def Route.broken (kf : Kf) (r : Route) : Bool :=
  srcOn r.src kf.coreFenced || r.dsts.any (fun t => dstOn t kf.coreFenced)
    || r.links.any fun l => kf.coreFenced (gridCl r.die l.x l.y) (gridPh l.x l.y)
      || (match l.next with | some (x, y) => kf.coreFenced (gridCl r.die x y) (gridPh x y) | none => false)

/-- The span's image is written to its cores at an epoch, their queues, buffers and link slots clear. -/
def Dev.writeSpan (d : Dev) (k : Nat) (cs : List CoreRef) (ep : BitVec 4) : Dev :=
  let s := d.span k
  let d := d.dropFlights (hasCore cs)
  cs.foldl (fun d r => d.modCore r.cl r.phys fun c =>
    let progs := ((s.progs.find? fun p => p.1 = r.idx).map (·.2)).getD []
    { c with
      epoch := ep, span := some (slotRef k)
      engs := (List.range 8).map fun n => (n, { (Tab.get {} n c.engs : Eng).empty stLoaded with prog := progs.getD n .unused }) }) d

/-- A pair takes the end of span `k` at one of its handoff slots; end markers of an earlier sender are gone. -/
def Dev.joinPair (d : Dev) (k : Nat) (h : HandSlot) : Dev :=
  let die := k / 64
  if h.recv then
    if d.pairs.any fun (p : Pair) => p.rDie = die && p.rEp = h.ep && p.rSpan.isNone then
      { d with pairs := d.pairs.map fun (p : Pair) => if p.rDie = die && p.rEp = h.ep && p.rSpan.isNone then { p.clear k with rSpan := some (slotRef k) } else p }
    else { d with pairs := d.pairs ++ [{ sDie := 0, sEp := 0, rDie := die, rEp := h.ep, rSpan := some (slotRef k) }] }
  else if d.pairs.any fun (p : Pair) => p.rDie = h.peerDie && p.rEp = h.peerEp && p.sSpan.isNone then
    let fresh (l : List HandItem) : List HandItem := l.filter (· ≠ .endMark)
    { d with pairs := d.pairs.map fun (p : Pair) => if p.rDie = h.peerDie && p.rEp = h.peerEp && p.sSpan.isNone then
        { p with sDie := die, sEp := h.ep, sSpan := some (slotRef k), buf := fresh p.buf, bridge := fresh p.bridge, sKey := false, sDone := false } else p }
  else { d with pairs := d.pairs ++ [{ sDie := die, sEp := h.ep, rDie := h.peerDie, rEp := h.peerEp, sSpan := some (slotRef k) }] }

/-- Every cluster of a span is ACTIVE. -/
def Dev.clustersActive (d : Dev) (s : Span) : Bool := s.cores.all fun r => (d.sleep r.cl).st = .active

/-- The moved positions of a span name their new cores, and each of its routes that crossed or ended at a fenced core is placed anew (R20); none where
one finds no path. -/
def Dev.replace (d : Dev) (kf : Kf) (k : Nat) : Option Dev :=
  let s := d.span k
  let cs := s.remapped kf
  let broken (r : Route) : Bool := r.broken kf
  if cs = s.cores && !(d.routes.any fun r => r.slot = k && broken r) then some d
  else (d.setSpan k { s with cores := cs }).placeRoutes kf k broken

/-- The cores of span `k` that do not hold its image: new ones, and those that were reset (R20, R338). -/
def Dev.bareCores (d : Dev) (k : Nat) : List CoreRef :=
  (d.span k).cores.filter fun r => (d.core r.cl r.phys).span ≠ some (slotRef k) || (d.core r.cl r.phys).engs.isEmpty

/-- No core of a span is under a reset or waits for its self-test (R338). -/
def Dev.coresReady (d : Dev) (s : Span) : Bool :=
  !((d.ras.resetting.map (·.1) ++ d.ras.testing).any fun x => match x with
    | .core cl p => hasCore s.cores cl p
    | .cluster cl => s.cores.any fun r => r.cl = cl
    | .die n => s.cores.any fun r => r.cl / 4 = n
    | .package => true)

/-- The load ends. A drain that waits enters its step 1, and launches and drains that started after it are refused there (R129, R130). -/
def loadDone (e : Env) (d : Dev) (k : Nat) : Dev :=
  let s := d.span k
  match s.loadCmd with
  | none => d
  | some uid =>
    if !(d.running && s.st = .loading && d.clustersActive s && d.coresReady s) then d
    else match d.replace e.kf k with
      | none => d.settle e [.fail uid Config.quota 16]
      | some d =>
        let s := d.span k
        let d := (d.markIdle e.now k).writeSpan k s.cores s.epoch
        let d := d.setSpan k { s with st := if s.drain.isSome then .draining else .loaded, late := [], loadCmd := none }
        let d := s.hands.foldl (fun d h => d.joinPair k h) d
        d.settle e (.done uid (slotHandle k) :: (s.late.map fun x => Todo.fail x.1 Config.badHandle 16) ++ [.next k])

def execLoadComplete (d : DieId) (slot : SlotId) (s : State) : Res := onDev s fun e v => loadDone e v (64 * d + slot)

/-! ### SPAN_LAUNCH and SPAN_DRAIN (R97, R124, R129, R130) -/

/-- A span handle that names no span that takes commands: malformed, FREE, or from step 1 of a drain on. A LOADING slot takes them (R129, R130). -/
def Dev.badSpan (d : Dev) (e : Env) (c : Command) : Bool :=
  let h := cmdField c 16 4
  let s := d.span (cmdSlot c)
  256 ≤ h || !e.fuse.dieFitted (h % 4) || s.st = .free || s.st = .draining || (s.st ≠ .loading && s.drain.isSome)

def spanLaunchCheck (e : Env) (d : Dev) (o : OpenCmd) : Option Reject :=
  let k := cmdSlot o.cmd
  let s := d.span k
  d.checks e o
    (handles := [(d.badSpan e o.cmd, 16)])
    (perms := [(s.func ≠ o.func, 16)])
    (rest := [(s.argError (launchArgs o.cmd)).map fun off => (Config.badField, off),
              fails ((s.st ≠ .loading && d.unpaired k) || 16 ≤ s.waits) Config.busy 16])

def runSpanLaunch (e : Env) (d : Dev) (o : OpenCmd) : Dev :=
  let k := cmdSlot o.cmd
  (d.modSpan k fun s => if s.drain.isSome then { s with late := s.late ++ [(o.uid, false)] } else { s with waiting := s.waiting ++ [o.uid] }).settle e [.next k]

def execSpanLaunch (f : FuncId) (q : QueueId) (c : Command) (s : State) : Res :=
  guarded (cmdIs opSpanLaunch c) (onDev s fun e d => startHeld e d f q c spanLaunchCheck runSpanLaunch)

def spanDrainCheck (e : Env) (d : Dev) (o : OpenCmd) : Option Reject :=
  d.checks e o (handles := [(d.badSpan e o.cmd, 16)]) (perms := [((d.span (cmdSlot o.cmd)).func ≠ o.func, 16)])

/-- Step 1 of a drain: the slot is DRAINING, unless its load is still under way. -/
def runSpanDrain (e : Env) (d : Dev) (o : OpenCmd) : Dev :=
  let k := cmdSlot o.cmd
  (d.modSpan k fun s =>
    if s.drain.isSome then { s with late := s.late ++ [(o.uid, true)] }
    else { s with drain := some o.uid, st := if s.st = .loading then .loading else .draining }).settle e [.next k]

def execSpanDrain (f : FuncId) (q : QueueId) (c : Command) (s : State) : Res :=
  guarded (cmdIs opSpanDrain c) (onDev s fun e d => startRow e d f q c spanDrainCheck runSpanDrain)

/-! ### LAUNCH_END (R96, R129, R293) -/

/-- An engine has completed the iterations of its launch, with every write of an ME performed. -/
def Eng.ended (x : Eng) : Bool :=
  match x.prog with
  | .unused => true
  | .ce _ => x.limit ≠ 0 && x.limit ≤ x.base
  | .me p => p.steer = 0 && p.ctxs.all fun y => let c : Ctx := Tab.get {} y.1 x.ctxs; (p.ctxUnit y.2 c).limit ≤ c.base && c.outst.isEmpty

/-- An engine without an iteration count of its own has nothing left to do. -/
def Eng.quiet (x : Eng) : Bool :=
  x.ended || ((match x.prog with
    | .ce _ => x.limit = 0
    | .me p => p.steer ≠ 0
    | .unused => true) && x.iters.all (fun y => y.2.fired = 0) && x.queues.all (fun y => y.2.toks.isEmpty) && x.outs.all (fun y => y.2.isEmpty))

/-- Every engine of a span has ended or has nothing left, and no token is on its way. -/
def Dev.spanQuiet (d : Dev) (s : Span) : Bool :=
  s.cores.all (fun r => (List.range 8).all fun n => (d.eng r.cl r.phys n).quiet)
    && !(d.flights.any fun f => srcOn f.src (hasCore s.cores) || dstOn f.dst (hasCore s.cores))

/-- A send endpoint has ended: the engine that feeds it has completed its iterations, and every token is in the pair's buffer. -/
def Dev.sendEnded (d : Dev) (s : Span) (die ep : Nat) : Bool :=
  let fed := match d.routeTo (.sendEp die ep) with
    | some r => match r.src with
      | .port p => let x := d.eng p.cl p.phys p.eng
        (x.ended || d.spanQuiet s) && (Tab.get [] (queueKey p.net p.port) x.outs).isEmpty
      | .recvEp rd re => match d.pairInto rd re with
        | some p => p.buf.isEmpty && p.bridge.isEmpty
        | none => true
    | none => true
  fed && !(d.flights.any fun f => f.dst = .sendEp die ep) && (match d.pairFrom die ep with | some p => p.bridge.isEmpty | none => true)

/-- Every sink of a span's launch has ended. -/
def Dev.sinksEnded (d : Dev) (k : Nat) : Bool :=
  let s := d.span k
  s.cores.all (fun r => (List.range 8).all fun n => !d.isSink r.cl r.phys n || (d.eng r.cl r.phys n).ended)
    && s.hands.all (fun h => h.recv || d.sendEnded s (k / 64) h.ep)

/-- The engines of a span stand LOADED again after a launch. -/
def Dev.restEngines (d : Dev) (k : Nat) : Dev :=
  d.onCores (d.span k).cores fun c => c.mapEngs fun x => { x with st := stLoaded }

/-- The verification of a step whose last launch has ended; where its plan or a TOKEN_OUT cannot be read, the step ends with that fault (R280, R189). -/
def stepVerify (e : Env) (d : Dev) (r : StepRun) (o : OpenCmd) : Dev × List Todo :=
  match d.readPlan e.fuse r.die r.asid o.func r.plan with
  | .ok (some p) =>
    match d.verifyStep e.fuse r o.func p with
    | .ok r => (d.setStep r, [])
    | .error x => d.unread e o x
  | .ok none => (d, [.fail o.uid Config.badField 16])
  | .error t => d.unread e o (t, r.plan)

/-- The end of a launch that a serving step made: the next launch of the step, or its verification (R276, R280). -/
def stepLaunchEnd (e : Env) (d : Dev) (uid amount : Nat) : Dev × List Todo :=
  match d.stepOf uid, d.openOf uid with
  | some r, some o =>
    let r := { r with charge := r.charge + amount, current := none }
    if r.todo.isEmpty then stepVerify e (d.setStep r) r o else (d.setStep r, [.stepOn uid])
  | _, _ => (d, [])

def launchDone (e : Env) (d : Dev) (k cycles : Nat) : Dev :=
  let s := d.span k
  match s.running with
  | none => d
  | some uid =>
    if !(d.running && d.sinksEnded k) then d
    else
      let amount := s.ncores * cycles
      let d := ((d.markIdle e.now k).restEngines k).modSpan k fun s => { s with running := none, st := if s.drain.isSome then .draining else .loaded }
      match d.openOf uid with
      | none => d.settle e [.next k]
      | some o =>
        if o.opcode = opSeqStep then
          let (d, l) := stepLaunchEnd e d uid amount
          d.settle e (l ++ [.next k])
        else (d.charge o amount).settle e [.done uid cycles, .next k]

/-! ### DRAIN_COMPLETE (R130) -/

/-- Every sink of a draining span has reported its keystone (step 4). -/
def Dev.sinksKeyed (d : Dev) (k : Nat) : Bool :=
  let s := d.span k
  s.cores.all (fun r => (List.range 8).all fun n =>
    let x := d.eng r.cl r.phys n
    x.prog = .unused || !d.isSink r.cl r.phys n || x.keyOut)
    && s.hands.all (fun h => h.recv || (match d.pairFrom (k / 64) h.ep with | some p => p.sDone | none => true))

/-- A draining span ends once its sinks have reported and every span that sends to it has drained (R63). Under a reset of its function the command ends
and the span is released with the function's state (R301). -/
def drainDone (e : Env) (d : Dev) (k : Nat) : Dev :=
  let s := d.span k
  if !(d.running && s.st = .draining && s.keyed && d.sinksKeyed k && !d.hasSender k) then d
  else match s.drain with
    | none => d
    | some uid =>
      let d := d.markIdle e.now k
      let ep := (s.epoch + 1#4).toNat
      if d.funcResetting s.func then (d.modSpan k fun s => { s with drain := none }).settle e [.done uid ep]
      else ((d.advance k).releaseSlot k).settle e [.done uid ep]

def execDrainComplete (d : DieId) (slot : SlotId) (s : State) : Res := onDev s fun e v => drainDone e v (64 * d + slot)

/-! ### DISPENSE_SET (R151) -/

def dispCluster (c : Command) : Nat := bitsAt (cmdField c 16 1) 0 4
def dispNumber (c : Command) : Nat := bitsAt (cmdField c 17 1) 0 4
def dispStart (c : Command) : Nat := cmdField c 20 4
def dispLimit (c : Command) : Nat := cmdField c 24 4

/-- DESIGN CHOICE: a dispenser without an owner, or of another function, is refused at the byte that numbers it, offset 17; R151 names the codes and no
offset (log entry 82). -/
def dispenseSetCheck (e : Env) (d : Dev) (o : OpenCmd) : Option Reject :=
  let cl := dispCluster o.cmd
  let x := d.disp cl (dispNumber o.cmd)
  let owner := (x.owner.map fun s => (d.span (64 * (cl / 4) + s)).func).getD o.func
  d.checks e o
    (fields := [(cl / 4 ≠ o.die, 16), (dispLimit o.cmd < dispStart o.cmd, 20)])
    (handles := [(x.owner.isNone && e.kf.usable cl, 17)])
    (perms := [(owner ≠ o.func, 17)])
    (absent := [(!e.kf.usable cl, 16)])

def runDispenseSet (_ : Env) (d : Dev) (o : OpenCmd) : Dev :=
  let cl := dispCluster o.cmd
  let n := dispNumber o.cmd
  let d := d.setDisp cl n { d.disp cl n with
    pStart := BitVec.ofNat 32 (dispStart o.cmd), pLimit := BitVec.ofNat 32 (dispLimit o.cmd), set := true }
  d.complete o.uid Config.ok 0

def execDispenseSet (f : FuncId) (q : QueueId) (c : Command) (s : State) : Res :=
  guarded (cmdIs opDispenseSet c) (onDev s fun e d => startRow e d f q c dispenseSetCheck runDispenseSet)

/-! ### SPAN_RELOAD (R20, R338) -/

/-- A span that waits for a reload gets its image at its own epoch on the cores that lack it, or is released where a route of it finds no path. -/
def spanReload (e : Env) (d : Dev) (k : Nat) : Dev :=
  let s := d.span k
  if !(d.running && s.reload && s.st ≠ .free && s.st ≠ .loading && d.clustersActive s && d.coresReady s) then d
  else match d.replace e.kf k with
    | none => d.settle e [.lose k Config.quota 16 true]
    | some d =>
      let d := ((d.markIdle e.now k).writeSpan k (d.bareCores k) (d.span k).epoch).modSpan k fun s => { s with reload := false }
      d.settle e [.next k]

def execSpanReload (d : DieId) (slot : SlotId) (s : State) : Res := onDev s fun e v => spanReload e v (64 * d + slot)

end Sys2Proof.Machine
end

