-- ==== Sys2Proof/Machine/Viaduct.lean ====
section
/-!
DEFINITION. The viaducts (R308 to R335): VIA_SEND and VIA_RECV, the port states, the flits that arrive, votes and decisions between packages, map-out and
the peer states.
-/
namespace Sys2Proof.Machine

/-! ### VIA_SEND and VIA_RECV (R323) -/

/-- The physical peer of a transfer: VC 0 names a logical coordinate, none where VIA_LMAP has no valid entry (R321). -/
def Dev.viaPhys (d : Dev) (c : Command) : Option Nat :=
  if viaVc c = 0 then
    let m := d.via.lmapOf (viaPeer c)
    if bitAt m 8 then some (bitsAt m 0 8) else none
  else some (viaPeer c)

/-- DEST or SRC names the package itself. -/
def Dev.viaSelf (d : Dev) (c : Command) : Bool :=
  (viaVc c = 0 && viaPeer c = d.via.logical) || d.viaPhys c = some d.via.self

/-- The checks that the two commands share. -/
def viaChecks (e : Env) (d : Dev) (o : OpenCmd) (fields : List Bad) (perms : List Bad) (rest : List (Option Reject)) : Option Reject :=
  let c := o.cmd
  let a := viaAsid c
  d.checks e o
    (fields := [(d.viaSelf c, 16), (1 < viaVc c, 18), (viaLen c = 0, 20), (badAsid a, 32)] ++ fields)
    (handles := [(d.deadAsid a, 32)])
    (perms := (d.foreignAsid a o.func, 32) :: perms)
    (absent := [(e.fuse.part = .kpv4S, 0), (match d.viaPhys c with | some p => d.via.peer p = 0 | none => true, 16)])
    (rest := rest)

def viaSendCheck (e : Env) (d : Dev) (o : OpenCmd) : Option Reject :=
  viaChecks e d o [] [(d.rangeConfidential (viaVa o.cmd) (viaLen o.cmd), 24)] [fails (4096 ≤ d.via.sends.length) Config.quota 0]

/-- A transfer number that no open VIA_SEND has; which one is left open. -/
def Dev.freeXfer (d : Dev) : Nat × Dev :=
  let (x, d) := d.free 12
  ((findRound (fun n => !d.via.sends.any fun y => y.xfer = n) 0 4096 x.toNat).getD 0, d)

/-- The RTS of a send. -/
def sendRts (e : Env) (d : Dev) (x : ViaSend) : Dev :=
  Dev.sendOwn e d (d.mkFlit x.dst x.vc x.tag x.xfer .rts (toBytes 4 x.len))

def runViaSend (e : Env) (d : Dev) (o : OpenCmd) : Dev :=
  let c := o.cmd
  let p := (d.viaPhys c).getD 0
  if d.via.peer p ≠ 2 then d.settle e [.fail o.uid Config.link 0]
  else
    let (n, d) := d.freeXfer
    let x : ViaSend := { uid := o.uid, xfer := n, dst := p, vc := viaVc c, tag := viaTag c, len := viaLen c, va := viaVa c, asid := viaAsid c }
    sendRts e { d with via := { d.via with sends := d.via.sends ++ [x] } } x

def execViaSend (f : FuncId) (q : QueueId) (c : Command) (s : State) : Res :=
  guarded (cmdIs opViaSend c) (onDev s fun e d => startRow e d f q c viaSendCheck runViaSend)

def viaRecvCheck (e : Env) (d : Dev) (o : OpenCmd) : Option Reject :=
  viaChecks e d o [(sealedBase < viaVa o.cmd + viaLen o.cmd, 24)] [] [fails (4096 ≤ d.via.recvs.length) Config.quota 0]

def runViaRecv (e : Env) (d : Dev) (o : OpenCmd) : Dev :=
  let c := o.cmd
  let p := (d.viaPhys c).getD 0
  if d.via.peer p ≠ 2 then d.settle e [.fail o.uid Config.link 0]
  else
    let x : ViaRecv := { uid := o.uid, src := viaPeer c, vc := viaVc c, tag := viaTag c, len := viaLen c, va := viaVa c, asid := viaAsid c }
    let d : Dev := { d with via := { d.via with recvs := d.via.recvs ++ [x] } }
    d.via.rts.foldl (fun d h => match d.recvFor h with
      | some y => if y.uid = o.uid then matchRecv e { d with via := { d.via with rts := d.via.rts.erase h } } y h else d
      | none => d) d

def execViaRecv (f : FuncId) (q : QueueId) (c : Command) (s : State) : Res :=
  guarded (cmdIs opViaRecv c) (onDev s fun e d => startRow e d f q c viaRecvCheck runViaRecv)

def execRtsResend (uid : Nat) (s : State) : Res :=
  match s.dev.sendOf uid with
  | some x =>
    if s.dev.running && x.full then
      onDevAt s (x.triedAt + 10 * Config.usTicks) fun e d => sendRts e (d.setSend { x with full := false }) { x with full := false }
    else .next s
  | none => .next s

/-! ### Training (R315) -/

/-- The coordinate that a port faces (R313). -/
def Via.facing (v : Via) (p : Nat) : Option Nat :=
  let x := v.x
  let y := v.y
  match p with
  | 0 => if y < 15 then some (coordIdx x (y + 1)) else none
  | 1 => if x < 15 then some (coordIdx (x + 1) y) else none
  | 2 => if 0 < y then some (coordIdx x (y - 1)) else none
  | _ => if 0 < x then some (coordIdx (x - 1) y) else none

/-- The port at the other end of a link. -/
def facingPort (p : Nat) : Nat := (p + 2) % 4

/-- Training starts: the sequence numbers, buffers and credits of both directions start anew, and an IDENT is sent. -/
def Dev.startTraining (u : Fuses) (now : Nat) (d : Dev) (p : Nat) : Dev :=
  let d := d.modPort p fun x => { x with
    st := .training, trainSince := now, txSeq := 0, rxSeq := 0, replayBuf := [], replayCount := [], credit := [], owed := [], wrr := 0 }
  d.sendNeighbour p .ident
    ([BitVec.ofNat 8 d.via.self, BitVec.ofNat 8 u.part.code, BitVec.ofNat 8 (p + 1)] ++ List.replicate 5 0#8 ++ toBytes 8 u.deviceId.toNat)

/-- 100 ms of LOCAL_TIME. -/
def tryPeriod : Nat := 100000 * Config.usTicks

/-- The first of the times `nextTry`, `nextTry` + 100 ms, … that has not passed. -/
def Port.tryAt (x : Port) (now : Nat) : Nat :=
  if now ≤ x.nextTry then x.nextTry else x.nextTry + (now - x.nextTry + tryPeriod - 1) / tryPeriod * tryPeriod

def execPortTrainingAttempt (p : PortId) (s : State) : Res :=
  if s.dev.linkLive && (s.dev.port p).st = .down then
    let t := (s.dev.port p).tryAt s.time.toNat
    onDevAt s t fun e d => (d.modPort p fun x => { x with nextTry := t + tryPeriod }).startTraining e.fuse e.now p
  else .next s

def execTrainingTimeout (p : PortId) (s : State) : Res :=
  if s.dev.linkLive && (s.dev.port p).st = .training then
    onDevAt s ((s.dev.port p).trainSince + 2000 * Config.usTicks) fun _ d => d.modPort p fun x => x.lower .down
  else .next s

/-- A write of VIA_PORT_CTRL.TRAIN (R335). -/
def Dev.trainPort (e : Env) (d : Dev) (p : Nat) : Dev :=
  if (d.port p).st = .down || (d.port p).st = .mismatch then d.startTraining e.fuse e.now p else d

/-! ### Failures (R316, R317) -/

/-- LINK_FAILs of dropped flits of this package end its own transfers. -/
def Dev.ownFails (e : Env) (r : List Flit × Dev) : Dev := r.1.foldl (Dev.linkFailed e) r.2

/-- An UP port fails. -/
def Dev.failLink (e : Env) (d : Dev) (p cause : Nat) : Dev :=
  if (d.port p).st = .up then (Dev.ownFails e (Dev.linkFailure e.fuse e.now d p cause)).returnAll else d

def execLaneLockLoss (p : PortId) (s : State) : Res := onDev s fun e d => if d.linkLive then Dev.failLink e d p 3 else d

def execLinkSilenceExpiry (p : PortId) (s : State) : Res :=
  if s.dev.linkLive && (s.dev.port p).st = .up then
    onDevAt s ((s.dev.port p).lastRx + 30 * Config.usTicks) fun e d => Dev.failLink e (d.rasEvent e 6 Config.link) p 2
  else .next s

/-- Every 10 µs of LOCAL_TIME each UP port sends a HEARTBEAT. -/
def execViaHeartbeatSend (s : State) : Res :=
  if s.dev.linkLive then
    onDevAt s ((s.dev.via.beatAt / (10 * Config.usTicks) + 1) * (10 * Config.usTicks)) fun e d =>
      let d : Dev := { d with via := { d.via with beatAt := e.now } }
      (List.range 4).foldl (fun d p => if (d.port p).st = .up then d.sendNeighbour p .heartbeat [] else d) d
  else .next s

/-- The peer of an UP port sends fault ordered sets; the flits that wait keep waiting. -/
def execPeerFaultReceived (p : PortId) (s : State) : Res :=
  onDev s fun _ d => if d.linkLive && (d.port p).st = .up then d.modPort p fun x => { x with st := .peerFault, traffic := false } else d

def execPeerFaultClear (p : PortId) (s : State) : Res :=
  onDev s fun e d => if d.linkLive && (d.port p).st = .peerFault then d.startTraining e.fuse e.now p else d

/-- A write of VIA_MAPOUT: the ports whose bit is set anew enter DISABLED. -/
def Dev.writeMapout (e : Env) (d : Dev) (v : Nat) : Dev :=
  let new := (bitList 4 v).filter fun p => !bitAt d.via.mapout.toNat p
  let d : Dev := { d with via := { d.via with mapout := d.via.mapout ||| BitVec.ofNat 8 (v % 16) } }
  (new.foldl (fun d p => if (d.port p).st = .disabled then d else Dev.ownFails e (Dev.mapOutPort e.fuse d p)) d).returnAll

/-- A write of VIA_MAPOUT_CLR while VIA_MAINT.OPEN is 1: the ports enter DOWN, and in the parapet state send fault ordered sets (R318). -/
def Dev.clearMapout (u : Fuses) (d : Dev) (v : Nat) : Dev :=
  if bitAt d.via.maint.toNat 0 then
    (bitList 4 v).foldl (fun d p =>
      let was := bitAt d.via.mapout.toNat p
      let d : Dev := { d with via := { d.via with mapout := BitVec.ofNat 8 (putBit (putBit d.via.mapout.toNat p false) (p + 4) false) } }
      if was && d.via.portThere u p then
        let d := d.modPort p fun x => { x with st := .down }
        if d.ras.st = .parapet || d.ras.st = .retired then (d.modPort p fun x => { x with faultSets := true }).emit (.faultSets p) else d
      else d) d
  else d

/-! ### Groups across packages (R328 to R332) -/

/-- The undecided group that a coordinator holds under a number. -/
def Dev.openCoord (d : Dev) (num : Nat) : Option Group :=
  d.groups.find? fun g => g.num = num && !g.committed && !g.aborted && (g.coord || g.commit.isNone) && groupCoord num = d.via.logical

/-- The decision of a group as its coordinator answers it: from the log, or ABORT. -/
def Dev.answerVote (d : Dev) (u : Fuses) (dst num : Nat) : Dev :=
  d.sendVote u dst num .decision (some ((d.via.log.find? fun x => x.group = num).any (·.commit)))

/-- A vote reaches the coordinator (steps 1 and 2). -/
def voteHere (e : Env) (d : Dev) (dst voter num : Nat) (yes : Bool) : Dev :=
  match d.openCoord num with
  | none => d.answerVote e.fuse dst num
  | some g =>
    if g.voters.contains voter then d
    else if g.commit.isSome && g.remote ≤ g.voters.length then d.answerVote e.fuse dst num
    else
      let d := d.setGroup { g with voters := g.voters ++ [voter], yes := if yes then g.yes ++ [voter] else g.yes }
      d.settle e [if yes then .groupTry g.func num else .groupFail g.func num none]

/-- A decision reaches a participant: it is applied where the group is in doubt, and acknowledged (step 4). An ABORT that a coordinator without its log
answers is told apart from no other ABORT, so LOST does not count it (log entry 72). -/
def decisionHere (e : Env) (d : Dev) (dst num : Nat) (commit : Bool) : Dev :=
  let d : Dev := { d with via := { d.via with noVotes := d.via.noVotes.filter fun x => x.group ≠ num } }
  let d := match d.groups.find? fun g => g.num = num && g.inDoubt with
    | some g => d.settle e [.groupDecide g.func num commit]
    | none => d
  d.sendVote e.fuse dst num .decisionAck none

/-- A query reaches the coordinator: an undecided group is not answered (R330). -/
def queryHere (e : Env) (d : Dev) (dst num : Nat) : Dev :=
  if (d.via.log.any fun x => x.group = num) || (d.openCoord num).isNone then d.answerVote e.fuse dst num else d

/-- An acknowledgement reaches the coordinator (step 5). -/
def ackHere (d : Dev) (voter num : Nat) : Dev :=
  { d with via := { d.via with
    log := (d.via.log.map fun x : Decision => if x.group = num then { x with await := x.await.filter (· ≠ voter) } else x).filter fun x =>
      !x.await.isEmpty } }

def withdrawHere (e : Env) (d : Dev) (num : Nat) : Dev :=
  match d.openCoord num with
  | some g => d.settle e [.groupFail g.func num none]
  | none => d

/-- A group of a function in doubt. -/
def Dev.doubt (d : Dev) (f num : Nat) : Option Group := (d.groupOf f num).bind fun g => if g.inDoubt then some g else none

/-- A vote is sent again until the DECISION arrives: YES while the group is in doubt, NO after it has closed. -/
def execVoteResend (f : FuncId) (group : Word) (s : State) : Res :=
  match s.dev.doubt f group.toNat, s.dev.via.noVotes.find? fun x => x.func = f.val && x.group = group.toNat with
  | some g, _ =>
    if s.dev.running then
      onDevAt s (g.voteAt + 100 * Config.usTicks) fun e d =>
        (d.setGroup { g with voteAt := e.now }).sendVote e.fuse (d.coordPhys g.num) g.num .vote (some true)
    else .next s
  | none, some x =>
    if s.dev.running then onDevAt s (x.sentAt + 100 * Config.usTicks) fun e d => d.voteNo e x.func x.group else .next s
  | none, none => .next s

def execQuerySend (f : FuncId) (group : Word) (s : State) : Res :=
  match s.dev.doubt f group.toNat with
  | some g =>
    if s.dev.running && s.dev.coordPeer g.num = some 2 then
      onDevAt s (g.queryAt + 100 * Config.usTicks) fun e d =>
        (d.setGroup { g with queryAt := e.now }).sendVote e.fuse (d.coordPhys g.num) g.num .query none
    else .next s
  | none => .next s

/-! ### Peer states (R326, R327, R331, R332) -/

/-- Groups that the state of a peer decides: one that has not voted fails, one in doubt is given up where the coordinator is ABSENT or
RETIRED, and a coordinator fails one for which the peer has voted, before its own COMMIT too. -/
def peerGroups (e : Env) (d : Dev) (i st : Nat) : Dev :=
  let gone := st = 0 || st = 4
  d.groups.foldl (fun d g =>
    if g.committed || g.aborted then d
    else if g.coord || g.commit.isNone then
      if st ≠ 2 && g.voters.any fun v => bitsAt (d.via.lmapOf v) 0 8 = i then d.settle e [.groupFail g.func g.num none] else d
    else if g.remote = 0 then d
    else if d.coordPhys g.num ≠ i then d
    else if g.inDoubt then
      if gone then
        Dev.settle { d with via := { d.via with lost := min (d.via.lost + 1) (2 ^ 32 - 1) } } e [.groupDecide g.func g.num false]
      else d
    else if st ≠ 2 then d.settle e [.groupFail g.func g.num none]
    else d) d

/-- A write of VIA_PEER_STATE. -/
def Dev.writePeer (e : Env) (d : Dev) (i v : Nat) : Dev :=
  let st := bitsAt v 0 3
  if 4 < st then d
  else
    let was := d.via.peer i
    let d : Dev := { d with via := { d.via with peers := Tab.set 0#3 i (BitVec.ofNat 3 st) d.via.peers } }
    if i = d.via.self then d
    else
      let d := if was = 2 && st ≠ 2 then
          let phys (x : ViaRecv) : Nat := match x.matched with
            | some (src, _, _) => src
            | none => if x.vc = 0 then bitsAt (d.via.lmapOf x.src) 0 8 else x.src
          let d' : Dev := { d with via := { d.via with rts := d.via.rts.filter fun h => h.phys ≠ i } }
          d'.settle e (((d.via.sends.filter fun x => x.dst = i).map fun x => Todo.fail x.uid Config.link 0)
            ++ ((d.via.recvs.filter fun x => phys x = i).map fun x => Todo.fail x.uid Config.link 0))
        else d
      let d := peerGroups e d i st
      if st = 0 || st = 4 then
        { d with via := { d.via with
          log := (d.via.log.map fun x : Decision => { x with await := x.await.filter fun a => bitsAt (d.via.lmapOf a) 0 8 ≠ i }).filter fun x =>
            !x.await.isEmpty } }
      else d

/-! ### Flits that arrive (R309 to R312, R315, R319, R320) -/

/-- A flit is dropped and counted in VIA_DROPPED (R315, R326). -/
def Dev.countDrop (d : Dev) : Dev := { d with via := { d.via with dropped := min (d.via.dropped + 1) (2 ^ 32 - 1) } }

/-- The payload names only values that R310 assigns. -/
def flitAssigned (f : Flit) : Bool :=
  let b (i : Nat) : Nat := bytesAt f.payload i 1
  match f.kind with
  | .nack => b 0 = 1 || b 0 = 2
  | .linkFail => b 0 ≤ 6 && ((1 ≤ b 1 && b 1 ≤ 4) || b 1 = 7)
  | .xferAbort => 1 ≤ b 0 && b 0 ≤ 3
  | .vote | .decision => b 4 ≤ 1
  | .ident => 1 ≤ b 1 && b 1 ≤ 3 && 1 ≤ b 2 && b 2 ≤ 4
  | _ => true

/-- A good flit takes its place in the sequence of a port, its credits come in, and waiting flits go out; none where it is not the next one. How many of
the codewords that carry it, two at most, the FEC has corrected is left open (R312). -/
def Dev.takeFlit (e : Env) (d : Dev) (p : Nat) (f : Flit) : Option Dev :=
  let x := d.port p
  if f.lseq ≠ x.rxSeq then none
  else
    let (n, d) := d.free 2
    let x := { x with rxSeq := (x.rxSeq + 1) % 1024, lastRx := e.now, received := min (x.received + 1) (2 ^ 64 - 1)
                      fecCorr := min (x.fecCorr + min n.toNat 2) (2 ^ 32 - 1) }
    some ((d.setPort p (x.addCredits f.cvc f.credits)).serve p)

/-- What the row of a flit has in common: the port carries flits, and the package answers them. -/
def Dev.hears (d : Dev) (p : Nat) : Bool := d.linkLive && (d.port p).linked

/-- A flit of the neighbour alone. -/
def neighbourFlit (e : Env) (d : Dev) (p : Nat) (f : Flit) (act : Dev → Dev) : Dev :=
  if d.hears p then
    match Dev.takeFlit e d p f with
    | none => d
    | some d =>
      let d := if f.kind = .idle then d else d.oweCredit p 2
      (if flitAssigned f then act d else d.countDrop).returnAll
  else d

/-- A flit that the tables deliver here or send on; `act` is what it does here, with the index of its physical source. -/
def meshFlit (e : Env) (d : Dev) (p : Nat) (f : Flit) (act : Dev → Nat → Dev) : Dev :=
  if d.hears p then
    match Dev.takeFlit e d p f with
    | none => d
    | some d =>
      let src := coordIdx f.srcX f.srcY
      let freed (d : Dev) : Dev := d.oweCredit p (flitChannel f)
      (if f.vc = 2 then freed d
      else if !(d.port p).inService then freed d.countDrop
      else match d.hop e.fuse f with
        | .here =>
          let d := freed d
          if d.via.peer src ≠ 2 || !flitAssigned f then d.countDrop else act d src
        | .out q det => d.enqueue q (some (p, flitChannel f)) { f with detour := det }
        | .nowhere =>
          match (freed d).reportDrop e.fuse f 6 7 with
          | (some x, d) => Dev.linkFailed e d x
          | (none, d) => d).returnAll
  else d

/-- The row of a flit of KIND `k`. -/
def meshRow (k : FlitKind) (p : PortId) (f : Flit) (s : State) (act : Env → Dev → Nat → Dev) : Res :=
  guarded (f.wf k) (onDev s fun e d => meshFlit e d p f fun d src => act e d src)

def neighbourRow (k : FlitKind) (p : PortId) (f : Flit) (s : State) (act : Env → Dev → Dev) : Res :=
  guarded (f.wf k) (onDev s fun e d => neighbourFlit e d p f fun d => act e d)

def execIdle (p : PortId) (fl : Flit) (s : State) : Res := neighbourRow .idle p fl s fun _ d => d
def execHeartbeat (p : PortId) (fl : Flit) (s : State) : Res := neighbourRow .heartbeat p fl s fun _ d => d

/-- An IDENT: its fields are kept; during training they are checked. -/
def identHere (e : Env) (d : Dev) (p : Nat) (f : Flit) : Dev :=
  let coord := bytesAt f.payload 0 1
  let part := bytesAt f.payload 1 1
  let ok := d.via.facing p = some coord && part = e.fuse.part.code && bytesAt f.payload 2 1 = facingPort p + 1
  d.modPort p fun x =>
    let x := { x with peerX := coord % 16, peerY := coord / 16, peerPart := part }
    if x.st ≠ .training then x else if ok then { x with st := .up } else { x.lower .mismatch with cause := 4 }

def execIdent (p : PortId) (fl : Flit) (s : State) : Res := neighbourRow .ident p fl s fun e d => identHere e d p fl

/-- The neighbour asks for a replay from an LSEQ (R312). -/
def replayFrom (e : Env) (d : Dev) (p lseq : Nat) : Dev :=
  let x := d.port p
  let l := x.replayBuf.dropWhile fun f => f.lseq ≠ lseq
  if l.any fun f => 7 ≤ Tab.get 0 f.lseq x.replayCount then Dev.failLink e d p 1
  else
    let d := d.setPort p { x with
      replays := min (x.replays + l.length) (2 ^ 64 - 1)
      replayCount := l.foldl (fun t f => Tab.put f.lseq (Tab.get 0 f.lseq t + 1) t) x.replayCount }
    l.foldl (fun d f => d.emit (.flit p f)) d

def execLretry (p : PortId) (fl : Flit) (s : State) : Res :=
  neighbourRow .lretry p fl s fun e d => replayFrom e d p (bytesAt fl.payload 0 2 % 1024)

/-- A flit whose CRC fails: an uncorrectable codeword is counted, and the LSEQ expected is asked for. -/
def execFlitCrcFailure (p : PortId) (s : State) : Res :=
  onDev s fun _ d =>
    if d.hears p then
      let x := d.port p
      (d.setPort p { x with fecUncorr := min (x.fecUncorr + 1) (2 ^ 32 - 1) }).sendNeighbour p .lretry (toBytes 2 x.rxSeq)
    else d

/-- A request to send: matched, held, or refused where 4,096 are held (step 2). -/
def rtsHere (e : Env) (d : Dev) (f : Flit) (src : Nat) : Dev :=
  let h : HeldRts := { phys := src, src := if f.vc = 0 then coordIdx f.srcLX f.srcLY else src, vc := f.vc, tag := f.tag, xfer := f.xfer,
                       len := bytesAt f.payload 0 4 }
  match d.recvFor h with
  | some x => matchRecv e d x h
  | none =>
    if 4096 ≤ d.via.rts.length then Dev.sendOwn e d (d.mkFlit src 3 0 f.xfer .nack [1#8])
    else { d with via := { d.via with rts := d.via.rts ++ [h] } }

def execRts (p : PortId) (fl : Flit) (s : State) : Res := meshRow .rts p fl s fun e d src => rtsHere e d fl src

/-- The open send that a flit of the receiver names. -/
def Dev.sendFor (d : Dev) (f : Flit) (src : Nat) : Option ViaSend := d.via.sends.find? fun x => x.xfer = f.xfer && x.dst = src

def execCts (p : PortId) (fl : Flit) (s : State) : Res :=
  meshRow .cts p fl s fun e d src => match d.sendFor fl src with
    | some x => sendOnward e (d.setSend { x with cts := true, full := false }) x.uid
    | none => d

/-- A DATA flit is written at its index; with the last one missing the receive ends (step 5). -/
def dataHere (e : Env) (d : Dev) (f : Flit) (src : Nat) : Dev :=
  match d.via.recvs.find? fun x => x.ready && x.matched.any fun m => m.1 = src && m.2.1 = f.xfer with
  | none => d
  | some x =>
    match d.openOf x.uid, x.matched with
    | some o, some (_, _, len) =>
      if viaFlits len ≤ f.tag || x.got.contains f.tag then d
      else
        let n := min 240 (len - 240 * f.tag)
        let bytes := (f.payload ++ List.replicate (240 - f.payload.length) 0#8).take n
        let d := d.viaWrite e o (x.va + 240 * f.tag) bytes (pieces n)
        let x := { x with got := x.got ++ [f.tag] }
        if x.got.length < viaFlits len then d.setRecv x
        else
          let d := (d.dropRecv x.uid).settle e [.done x.uid len]
          Dev.sendOwn e d (d.mkFlit src x.vc 0 f.xfer .endAck (toBytes 4 len))
    | _, _ => d

def execData (p : PortId) (fl : Flit) (s : State) : Res := meshRow .data p fl s fun e d src => dataHere e d fl src

/-- NACK FULL: the RTS is sent again later. NACK LONG: the send ends, and nothing more is said of it to the receiver. -/
def nackHere (e : Env) (d : Dev) (f : Flit) (src : Nat) : Dev :=
  match d.sendFor f src with
  | none => d
  | some x =>
    if bytesAt f.payload 0 1 = 1 then (if x.cts then d else d.setSend { x with full := true, triedAt := e.now })
    else (d.dropSend x.uid).settle e [.fail x.uid Config.badField 20]

def execNack (p : PortId) (fl : Flit) (s : State) : Res := meshRow .nack p fl s fun e d src => nackHere e d fl src

def execEndAck (p : PortId) (fl : Flit) (s : State) : Res :=
  meshRow .endAck p fl s fun e d src => match d.sendFor fl src with
    | some x => if x.sent then (d.dropSend x.uid).settle e [.done x.uid 0] else d
    | none => d

def execLinkFail (p : PortId) (fl : Flit) (s : State) : Res := meshRow .linkFail p fl s fun e d _ => Dev.linkFailed e d fl

/-- XFER_ABORT: the receive it matches, a held RTS, or an own send. -/
def abortHere (e : Env) (d : Dev) (f : Flit) (src : Nat) : Dev :=
  match d.via.recvs.find? fun x => x.matched.any fun m => m.1 = src && m.2.1 = f.xfer with
  | some x => (d.dropRecv x.uid).settle e [.fail x.uid Config.link 0]
  | none =>
    if d.via.rts.any fun h => h.phys = src && h.xfer = f.xfer then
      { d with via := { d.via with rts := d.via.rts.filter fun h => !(h.phys = src && h.xfer = f.xfer) } }
    else match d.sendFor f src with
      | some x => (d.dropSend x.uid).settle e [.fail x.uid Config.link 0]
      | none => d

def execXferAbort (p : PortId) (fl : Flit) (s : State) : Res := meshRow .xferAbort p fl s fun e d src => abortHere e d fl src

/-- GROUP of a flit of the vote, and its voter (R310). -/
def flitGroup (f : Flit) : Nat := bytesAt f.payload 0 4
def flitVoter (f : Flit) : Nat := coordIdx f.srcLX f.srcLY
def flitYes (f : Flit) : Bool := bytesAt f.payload 4 1 = 1

def execVote (p : PortId) (fl : Flit) (s : State) : Res :=
  meshRow .vote p fl s fun e d src => voteHere e d src (flitVoter fl) (flitGroup fl) (flitYes fl)

def execDecision (p : PortId) (fl : Flit) (s : State) : Res :=
  meshRow .decision p fl s fun e d src => decisionHere e d src (flitGroup fl) (flitYes fl)

def execQuery (p : PortId) (fl : Flit) (s : State) : Res := meshRow .query p fl s fun e d src => queryHere e d src (flitGroup fl)

def execDecisionAck (p : PortId) (fl : Flit) (s : State) : Res :=
  meshRow .decisionAck p fl s fun _ d _ => ackHere d (flitVoter fl) (flitGroup fl)

def execWithdraw (p : PortId) (fl : Flit) (s : State) : Res := meshRow .withdraw p fl s fun e d _ => withdrawHere e d (flitGroup fl)

end Sys2Proof.Machine
end

