-- ==== Sys2Proof/Machine/RasOps.lean ====
section
/-!
DEFINITION. Fences with the core maps (R18 to R23, R25, R26), resets of a core, a cluster, a die and the package (R344 to R346), counted resets and
retirement (R347), and which latched causes allow a package-warm reset (R343).
-/
namespace Sys2Proof.Machine

/-! ### Core maps -/

/-- Healthy cores of a cluster (R25). -/
def Kf.healthy (k : Kf) (c : Nat) : Nat := (List.range 32).countP fun p => !bitAt (k.fencedOf c).toNat p

/-- A cluster is fenced as a whole: its bit of CLUSTER_MAP and its map entries clear (R18, R26). -/
def Kf.fenceCluster (k : Kf) (c : Nat) : Kf :=
  { k with clusterMap := k.clusterMap &&& ~~~(1#16 <<< c), vmap := k.vmap.filter fun x => x.1 / 32 ≠ c }

/-- The lowest-numbered healthy core that holds no position (R19). -/
def Kf.spare (k : Kf) (c : Nat) : Option Nat := (List.range 32).find? fun p => !bitAt (k.fencedOf c).toNat p && (k.vposOf c p).isNone

/-- A core is fenced: its bit sets; the position it held moves to the lowest spare; a cluster left with less than 30 healthy cores is fenced (R18, R19). -/
def Kf.fenceCore (k : Kf) (c p : Nat) : Kf :=
  let v := k.vposOf c p
  let k := { k with fenced := Tab.put c (k.fencedOf c ||| (1#32 <<< p)) k.fenced }
  if k.healthy c < 30 then k.fenceCluster c
  else match v with
    | none => k
    | some v => match k.spare c with
      | some q => { k with vmap := Tab.put (32 * c + v) (BitVec.ofNat 8 (0x80 + q)) k.vmap }
      | none => { k with vmap := Tab.erase (32 * c + v) k.vmap }

/-- The boot assignment of a cluster: position v to the healthy core of the (v + 1)-th lowest index (R19). -/
def Kf.assign (k : Kf) (c : Nat) : Tab Byte :=
  ((((List.range 32).filter fun p => !bitAt (k.fencedOf c).toNat p).take 30).zipIdx).map fun x => (32 * c + x.2, BitVec.ofNat 8 (0x80 + x.1))

/-- Every usable cluster gets its map (R26). -/
def Kf.boot (k : Kf) : Kf := { k with vmap := (List.range 16).flatMap fun c => if k.usable c then k.assign c else [] }

/-- The core maps at power-on: the fuses alone (R4, R23, R25). -/
def Kf.atPower (u : Fuses) : Kf :=
  let k : Kf := { fenced := u.fusedCores }
  { k with clusterMap := BitVec.ofNat 16 (((List.range 16).filter fun c =>
      u.clusterFitted c && !bitAt u.fusedClusters.toNat c && 30 ≤ k.healthy c).foldl (fun v c => v + 2 ^ c) 0) }

/-! ### Spans on cores that are fenced or reset -/

/-- A command ends with the error of a cause and its fault record, or without a cause with ERR_CANCELLED (R20, R21, R346). -/
def Dev.endFor (e : Env) (d : Dev) (why : Option FaultInfo) (span uid : Nat) : Dev :=
  match d.openOf uid with
  | none => d
  | some o => match why with
    | some i => d.failFault e o { i with span := span }
    | none => d.settle e [.fail uid Config.cancelled 0]

/-- Slots whose span has a core that `p` names. -/
def Dev.spansOn (d : Dev) (p : Nat → Nat → Bool) : List Nat :=
  (d.spans.filter fun x => x.2.st ≠ .free && x.2.cores.any fun r => p r.cl r.phys).map (·.1)

/-- Loaded spans on such cores wait for their reload: nothing starts on them before it. -/
def Dev.markReload (d : Dev) (p : Nat → Nat → Bool) : Dev :=
  (d.spansOn p).foldl (fun d k => if (d.span k).st = .loading then d else d.modSpan k fun s => { s with reload := true }) d

/-- Spans on such cores wait for their reload; the launch or drain that runs on one ends, and with `loads` a load under way. -/
def Dev.stopSpans (e : Env) (d : Dev) (p : Nat → Nat → Bool) (why : Option FaultInfo) (loads : Bool) : Dev :=
  (d.spansOn p).foldl (fun d k =>
    let s := d.span k
    let uid := if s.st = .loading then (if loads then s.loadCmd else none) else if s.keyed then s.drain else s.running
    match uid with
    | some uid => Dev.endFor e d why (slotHandle k) uid
    | none => d) (d.markReload p)

/-- A span is lost with a cluster: its slot is FREE, and every command of it ends with the cause (R21). -/
def Dev.loseFor (e : Env) (d : Dev) (why : Option FaultInfo) (k : Nat) : Dev :=
  let s := d.span k
  let uids := s.running.toList ++ s.waiting ++ s.late.map (·.1) ++ s.drain.toList ++ s.loadCmd.toList
  let d := match s.running.bind d.openOf with
    | some o => d.chargeStopped o k
    | none => d
  let r := uids.foldl (fun (r : Dev × List Todo) uid => match r.1.openOf uid, why with
    | some o, some i =>
      let (n, d) := r.1.writeFault e o.func o.queue (cmdId o.cmd) { i with span := slotHandle k }
      (d, r.2 ++ [.fail uid i.error n])
    | some _, none => (r.1, r.2 ++ [.fail uid Config.cancelled 0])
    | none, _ => r) (d, [])
  let d := r.1.modSpan k fun s => { s with running := none, waiting := [], drain := none, late := [], loadCmd := none }
  d.settle e (.lose k Config.badHandle 16 false :: r.2)

/-! ### Fences (R20, R21, R22) -/

/-- What a core fence does outside the maps while its cluster stays usable. -/
def Dev.coreFenced (e : Env) (d : Dev) (cl ph : Nat) (why : Option FaultInfo) : Dev :=
  (Dev.stopSpans e d (fun c p => c = cl && p = ph) why false).wipeCores (fun c p => c = cl && p = ph) fun _ => {}

/-- What a cluster fence does outside the maps; with the last cluster of a die every command bound to the die that has started ends. -/
def Dev.clusterFenced (e : Env) (d : Dev) (cl : Nat) (why : Option FaultInfo) : Dev :=
  let d := (d.spansOn fun c _ => c = cl).foldl (fun d k => Dev.loseFor e d why k) d
  let d := (d.wipeCores (fun c _ => c = cl) fun _ => {}).setSleep cl { d.sleep cl with st := .deep, waking := false }
  if e.kf.dieDead (cl / 4) then
    ((d.opens.filter fun o => o.die = cl / 4).map (·.uid)).foldl (fun d uid => Dev.endFor e d why 0 uid) d
  else d

/-- A core of a fitted cluster is fenced, by `why` or without a cause; during its cluster's reset the fence waits for the self-test (R352). The record
names the position that the core held. -/
def State.fenceCore (s : State) (cl ph : Nat) (why : Option FaultInfo) : State :=
  if !s.fuse.clusterFitted cl || s.kf.coreFenced cl ph then s
  else if s.dev.ras.testing.contains (.cluster cl) then
    { s with dev := { s.dev with ras := { s.dev.ras with toFence := s.dev.ras.toFence ++ [(cl, ph)] } } }
  else
    let why := why.map fun i => { i with vpos := some ((s.kf.vposOf cl ph).getD 0) }
    let s := { s with kf := s.kf.fenceCore cl ph }
    let code := (why.map (·.error)).getD 0
    let res := (why.map (·.resource)).getD 0
    let e := s.env
    let d := s.dev.rasEvent e 4 code cl ph 0 res
    { s with dev := if e.kf.usable cl then Dev.coreFenced e d cl ph why else Dev.clusterFenced e (d.rasEvent e 5 code cl 0xFF 0 res) cl why }

/-- A usable cluster is fenced as a whole. -/
def State.fenceCluster (s : State) (cl : Nat) (why : Option FaultInfo) : State :=
  if !s.fuse.clusterFitted cl || !s.kf.usable cl then s
  else
    let s := { s with kf := s.kf.fenceCluster cl }
    let e := s.env
    { s with dev := Dev.clusterFenced e (s.dev.rasEvent e 5 ((why.map (·.error)).getD 0) cl 0xFF 0 ((why.map (·.resource)).getD 0)) cl why }

/-! ### Resets of a core, a cluster and a die (R344, R346) -/

def insideCluster (cl : Nat) : ResetTarget → Bool
  | .core c _ => c = cl
  | .cluster c => c = cl
  | _ => false
def insideDie (n : Nat) : ResetTarget → Bool
  | .core c _ => c / 4 = n
  | .cluster c => c / 4 = n
  | .die m => m = n
  | .package => false

/-- The resets of R344; open OBJ_LOADs end with each (R250). -/
def Dev.coreReset (e : Env) (d : Dev) (cl ph : Nat) (why : Option FaultInfo) : Dev :=
  let d := Dev.stopSpans e d (fun c p => c = cl && p = ph) why false
  (Dev.restartCore e d cl ph ((why.map (·.error)).getD 0) Core.wiped).endLoads e.fuse

/-- The dispensers of clusters keep owner and programmed values; NEXT and LIMIT in force clear (R145). -/
def Dev.clearDisps (d : Dev) (p : Nat → Bool) : Dev :=
  { d with disps := d.disps.map fun x => if p (x.1 / 16) then (x.1, { x.2 with next := 0#32, limit := 0#32 }) else x }

def Dev.clusterReset (e : Env) (d : Dev) (cl : Nat) (why : Option FaultInfo) : Dev :=
  let on (c _ : Nat) : Bool := c = cl
  let d := (((Dev.stopSpans e d on why true).wipeCores on Core.wiped).clearDisps fun c => c = cl).wakeFor e fun c => c = cl
  ((d.enterReset e (.cluster cl) [.cluster cl] (insideCluster cl)).rasEvent e 2 ((why.map (·.error)).getD 0) cl 0xFF 2).endLoads e.fuse

/-- The trestle counters of a die clear (R223). -/
def Btr.clearCounts (b : Btr) (n : Nat) : Btr :=
  { b with xfer := b.xfer.filter fun x => x.1 / 5 ≠ n, walks := Tab.erase n b.walks, pfxHit := Tab.erase n b.pfxHit
           pfxMiss := Tab.erase n b.pfxMiss, scored := Tab.erase n b.scored }

def Dev.dieReset (e : Env) (d : Dev) (n : Nat) (why : Option FaultInfo) : Dev :=
  let on (c _ : Nat) : Bool := c / 4 = n
  let d := ((d.opens.filter fun o => o.die = n && !o.held).map (·.uid)).foldl (fun d uid => Dev.endFor e d why 0 uid) (d.markReload on)
  let d := (((Dev.stopSpans e d on why true).wipeCores on Core.wiped).clearDisps fun c => c / 4 = n).wakeFor e fun c => c / 4 = n
  let d : Dev := { d with btr := d.btr.clearCounts n }
  let tests := ((List.range 4).filter fun i => e.kf.usable (4 * n + i)).map fun i => ResetTarget.cluster (4 * n + i)
  ((d.enterReset e (.die n) tests (insideDie n)).rasEvent e 2 ((why.map (·.error)).getD 0) 0xFF 0xFF 3).endLoads e.fuse

/-! ### Counted resets and retirement (R347) -/

/-- Counted resets within RAS_RESET_WINDOW seconds of LOCAL_TIME. -/
def Ras.counted (r : Ras) (now : Nat) : Nat :=
  r.hist.countP fun x => now ≤ x.1 + bitsAt r.window.toNat 0 32 * 100000000

/-- Step 1 of a reset that is counted: it is entered in RAS_RESET_HIST; true where the count exceeds RAS_RESET_LIMIT. -/
def Dev.countReset (d : Dev) (e : Env) (kind : Nat) : Bool × Dev :=
  let r := { d.ras with hist := ((e.now, kind) :: d.ras.hist).take 256 }
  let n := r.counted e.now
  (bitsAt r.limit.toNat 0 8 < n, { d with ras := { r with resets := min n 255 } })

/-- The package enters RETIRED: it holds the parapet state with cause bit 7. -/
def Dev.retire (d : Dev) (e : Env) (fresh : Bool) : Dev :=
  let r := d.ras
  (({ d with ras := { r with
    st := .retired, cause := r.cause ||| 0x80#8, latched := r.latched ||| 0x80#8, resetting := [], coldReset := false, testing := [], toFence := []
    lastCode := if fresh then BitVec.ofNat 8 Config.retired else r.lastCode
    lastTime := if fresh then BitVec.ofNat 64 e.now else r.lastTime
    retiredAt := e.now } }).hardFloor).rasEvent e 7 Config.retired

/-! ### The package-warm reset (R343 to R345) -/

/-- Every latched cause allows a package-warm reset. -/
def Dev.allowsWarm (d : Dev) : Bool :=
  let on (i : Nat) : Bool := bitAt d.ras.latched.toNat i
  !on 0 && (!on 1 || !d.pins.thermtrip) && (!on 2 || (d.pins.inputGood && !d.ras.supplyHard)) && !on 3 && !on 6 && !on 7

/-- Open long operations are given up; a retirement stays open (R179, R250, R258). -/
def Dev.endLongs (u : Fuses) (d : Dev) : Dev :=
  (List.range 1024).foldl (fun d k =>
    let l := d.long k
    match l.kind with
    | .objRetire _ => d
    | _ => if l.used && !l.st.terminal then d.cancelLong u k Config.cancelled else d) d

/-- Steps 1 to 3 of a package-warm reset. -/
def Dev.warmReset (e : Env) (d : Dev) : Dev :=
  let fresh := d.ras.st = .running
  let (ovf, d) := (d.countReset e 4)
  let d := (d.rasEvent e 2 0 0xFF 0xFF 4)
  let d := (if fresh then Dev.dropAll e d else d).faultSets
  if ovf then d.retire e fresh
  else
    let d := ((d.endLongs e.fuse).wipeCores (fun _ _ => true) Core.wiped).wakeFor e fun _ => true
    let tests := ((List.range 16).filter e.kf.usable).map ResetTarget.cluster
    { d with
      hif := { d.hif with ready := false }
      blk := { d.blk with selfRef :=
        if fresh || e.now < d.ras.lastTime.toNat + 1000 * Config.usTicks then d.blk.selfRef else (List.range 52).map fun i => (i, 1) }
      ras := { d.ras with st := .resetting, latched := 0#8, noAuto := false, resetting := [(.package, e.now)], testing := tests, toFence := [] } }

/-- A VIA_ block at its reset values; positions, map-outs, and but for a cold reset the decision log, stay (R317, R330, R334). -/
def Via.restart (v : Via) (u : Fuses) (cold : Bool) : Via :=
  { pos := v.pos, selfLogical := BitVec.ofNat 64 v.self, mapout := v.mapout, lost := v.lost, log := if cold then [] else v.log, beatAt := v.beatAt
    ports := (List.range 4).map fun p => (p, { (Tab.get {} p v.ports : Port) with
      st := if v.portThere u p && !bitAt v.mapout.toNat p then .down else .disabled
      traffic := false, faultSets := false, peerX := 0, peerY := 0, peerPart := 0, fails := [], cause := 0, sent := 0, received := 0, replays := 0
      fecCorr := 0, fecUncorr := 0, txSeq := 0, rxSeq := 0, replayBuf := [], replayCount := [], credit := [], owed := [], waiting := [], wrr := 0 }) }

/-- What a package-warm and a cold reset clear outside the security processor and the always-on domain: functions, spans, SCH_, VIA_, ARB_, SPN_ and
BTR_ registers, dispensers, networks and translation caches (R302, R303, R334, R344). -/
def Dev.clearPackage (e : Env) (d : Dev) (cold : Bool) : Dev :=
  let d := (d.blk.moves.foldl (fun d m => (d.finishMove m).dropMove m.uid) d)
  let d := (List.range 32).foldl (fun d f => Dev.clearFunc e d f cold true) d
  { d with
    routes := [], flights := [], creditMsgs := [], pairs := [], spans := [], disps := [], defaultDeadline := 0xF4240#64
    sch := {}
    via := d.via.restart e.fuse cold
    arb := {}
    btr := { stackSet := d.btr.stackSet }
    blk := { d.blk with tlb := [], tlbBusy := false, tlbJob := none }
    sec := { d.sec with
      submitAddr := 0#64, submitLen := 0#64, submitErr := 0#8, submitBusy := d.sec.submitPhase = 2#2
      submitPhase := if d.sec.submitPhase = 2#2 then 2#2 else 0#2 } }

/-- A package-warm or a cold reset is under way. -/
def Dev.inPackageReset (d : Dev) : Bool := d.ras.coldReset || d.ras.resetting.any fun x => x.1 = .package

/-- What `f` makes of the package; where a package-warm or cold reset begins in it, KF_VMAP takes its reset value, and the loader writes it again at the
end (R26, R344). -/
def State.onReset (s : State) (f : Env → Dev → Dev) : State :=
  let t := s.onDev f
  if t.dev.inPackageReset && !s.dev.inPackageReset then { t with kf := { t.kf with vmap := [] } } else t

/-- The pier cores of dies are watched from now on (R339). -/
def Dev.watchPiers (d : Dev) (e : Env) (p : Nat → Bool) : Dev :=
  { d with ras := { d.ras with pierFrom := ((List.range 4).filter p).foldl (fun t n => Tab.put n e.now t) d.ras.pierFrom } }

/-- Steps 4 and 5. -/
def Dev.warmDone (e : Env) (d : Dev) : Dev :=
  let d := Dev.clearPackage e d false
  let d := (List.range 4).foldl (fun d p => if (d.port p).st = .down then d.startTraining e.fuse e.now p else d) d
  let d := d.applyDeferred e.fuse e.now
  let d : Dev := { d with
    hif := { d.hif with ready := !d.sec.recovery && !d.sec.booting, fresets := [] }
    blk := { d.blk with selfRef := [] }
    ras := { d.ras with st := .running, resetting := [] } }
  (d.watchPiers e fun _ => true).rasEvent e 3 0 0xFF 0xFF 4

end Sys2Proof.Machine
end

