-- ==== Sys2Proof/Machine/Ras.lean ====
section
/-!
DEFINITION. The faults of R337 to R343: watchdogs, control-state errors, self-tests, deadlines, the parapet causes of the hub die, the ends of resets, the
automatic reset and the retirement record. The writes of RAS_RESET, RAS_FENCE and RAS_UNRETIRE act here too.
-/
namespace Sys2Proof.Machine

/-! ### RAS_RESET, RAS_FENCE (R346, R354) -/

/-- A reset of DOMAIN 1 to 3 that RAS_RESET asks for (R346). -/
def Dev.askReset (e : Env) (d : Dev) (t : ResetTarget) : Dev :=
  if !d.running || d.coveredBy t then d
  else
    match t with
    | .core cl ph => if e.fuse.clusterFitted cl && !e.kf.coreFenced cl ph then Dev.coreReset e d cl ph none else d
    | .cluster cl => if e.fuse.clusterFitted cl && e.kf.usable cl then Dev.clusterReset e d cl none else d
    | .die n => if e.fuse.dieFitted n && !e.kf.dieDead n then Dev.dieReset e d n none else d
    | .package => d

/-- RAS_RESET with DOMAIN 4: ignored while RETIRED, while a latched cause does not allow it, and where a package reset is under way. -/
def Dev.askWarm (e : Env) (d : Dev) : Dev :=
  if d.busUp && (d.ras.st = .running || (d.ras.st = .parapet && d.allowsWarm)) then Dev.warmReset e d else d

/-- A write of RAS_RESET. -/
def Dev.rasReset (e : Env) (d : Dev) (v : Nat) : Dev :=
  if !bitAt v 63 then d
  else match bitsAt v 0 3 with
    | 1 => Dev.askReset e d (.core (bitsAt v 8 4) (bitsAt v 12 5))
    | 2 => Dev.askReset e d (.cluster (bitsAt v 8 4))
    | 3 => Dev.askReset e d (.die (bitsAt v 17 2))
    | 4 => Dev.askWarm e d
    | _ => d

/-- A write of RAS_FENCE: a fence without a causing error. -/
def State.rasFence (s : State) (v : Nat) : State :=
  if !bitAt v 63 then s else if bitAt v 9 then s.fenceCluster (bitsAt v 0 4) none else s.fenceCore (bitsAt v 0 4) (bitsAt v 4 5) none

/-! ### Self-tests and ends of resets (R338, R345) -/

/-- Fences the cores of a cluster that a mask names, or the whole cluster. -/
def State.fenceFailed (s : State) (cl : Nat) (failed : Nat) (pier : Bool) : State :=
  let s := (bitList 32 failed).foldl (fun s p => s.fenceCore cl p none) s
  if pier then s.fenceCluster cl none else s

/-- A self-test ends: what it found is fenced, with what was fenced meanwhile. A core's test follows its reset. -/
def State.testDone (s : State) (t : ResetTarget) (failed : Nat) (pier : Bool) : State :=
  let r := s.dev.ras
  let ovf (p : Nat × Nat → Bool) (s : State) : State :=
    { s with dev := { s.dev with ras := { s.dev.ras with testing := s.dev.ras.testing.filter (· ≠ t), toFence := s.dev.ras.toFence.filter fun x => !p x } } }
  if !r.testing.contains t || (r.st ≠ .running && r.st ≠ .resetting) then s
  else match t with
    | .core cl ph =>
      if r.resetting.any fun x => x.1 = t then s
      else
        let s := ovf (fun _ => false) s
        if bitAt failed ph then s.fenceCore cl ph none else s
    | .cluster cl =>
      let later := r.toFence.filter fun x => x.1 = cl
      let s := ovf (fun x => x.1 = cl) s
      later.foldl (fun s x => s.fenceCore x.1 x.2 none) (s.fenceFailed cl failed pier)
    | _ => s

def execSelfTestDone (t : ResetTarget) (failed : Word) (pierFailed : Bool) (s : State) : Res :=
  guarded t.wf (.next (s.testDone t failed.toNat pierFailed))

/-- The self-tests inside a reset have ended. -/
def Dev.tested (d : Dev) (inside : ResetTarget → Bool) : Bool := !(d.ras.testing.any inside)

/-- A reset of any domain but cold ends. -/
def resetDone (e : Env) (d : Dev) (t : ResetTarget) : Dev :=
  if !(d.ras.resetting.any fun x => x.1 = t) then d
  else
    let d' : Dev := { d with ras := { d.ras with resetting := d.ras.resetting.filter fun x => x.1 ≠ t } }
    match t with
    | .core cl ph => d'.rasEvent e 3 0 cl ph 1
    | .cluster cl => if d.tested (insideCluster cl) then (d'.watchPiers e fun n => n = cl / 4).rasEvent e 3 0 cl 0xFF 2 else d
    | .die n => if d.tested (insideDie n) then (d'.watchPiers e fun m => m = n).rasEvent e 3 0 0xFF 0xFF 3 else d
    | .package => if d.tested fun _ => true then Dev.warmDone e d else d

/-- The end of a package-warm reset: the loader has written the core maps of the usable clusters (R26). -/
def State.loaded (s t : State) : State := if s.dev.inPackageReset && !t.dev.inPackageReset then { t with kf := t.kf.boot } else t

def execResetComplete (t : ResetTarget) (s : State) : Res := guarded t.wf (.next (s.loaded (s.onDev fun e d => resetDone e d t)))

/-! ### Watchdogs (R339) -/

/-- Microseconds of RAS_WDT.CORE_US, and milliseconds of PIER_MS. -/
def Ras.coreUs (r : Ras) : Nat := bitsAt r.wdt.toNat 0 16
def Ras.pierMs (r : Ras) : Nat := bitsAt r.wdt.toNat 16 8

/-- The event of an expiry. -/
def Dev.expired (d : Dev) (e : Env) (cl ph res : Nat) : Dev := d.rasEvent e 6 Config.hang cl ph 0 res

/-- The progress watchdog of a core that counts: it expires once its count has come to CORE_US. -/
def execCoreWatchdogExpiry (cl : ClusterId) (p : CoreId) (s : State) : Res :=
  let d := s.dev
  if d.running && s.fuse.clusterFitted cl && !s.kf.coreFenced cl p && d.coreCounts cl p && !d.coveredBy (.core cl p) then
    onDevAt s (s.time.toNat + (d.ras.coreUs * Config.usTicks - (d.core cl p).still)) fun e d =>
      Dev.coreReset e (d.expired e cl p 0x40) cl p
        (some { error := Config.hang, resource := 0x40, core := some (cl.val, p.val), value := (d.core cl p).still / Config.usTicks, limit := d.ras.coreUs })
  else .next s

/-- A command whose deadline passes ends with ERR_HANG; a COMMIT's deadline stops at its vote (R122, R329). -/
def deadlinePassed (e : Env) (d : Dev) (o : OpenCmd) : Dev :=
  let us := d.deadlineUs o.cmd
  let span := if o.opcode = opSpanLaunch || o.opcode = opSpanDrain then cmdField o.cmd 16 4 else 0
  (d.expired e 0xFF 0xFF 0x41).failFault e o { error := Config.hang, resource := 0x41, engine := 0xF2, value := (e.now - o.start) / Config.usTicks, limit := us, span := span }

/-- A part or a COMMIT of a group in doubt. -/
def Dev.inDoubt (d : Dev) (o : OpenCmd) : Bool :=
  d.groups.any fun g => g.func = o.func && g.inDoubt && (g.commit = some o.uid || g.held.any fun h => h.1 = o.uid)

def execCommandDeadlineExpiry (uid : Nat) (s : State) : Res :=
  match s.dev.openOf uid with
  | some o =>
    if s.dev.running && !s.dev.inDoubt o then
      onDevAt s (o.start + s.dev.deadlineUs o.cmd * Config.usTicks) fun e d => deadlinePassed e d o
    else .next s
  | none => .next s

/-- The pier-core watchdog, PIER_MS at least after the pier cores were started: a die reset, or the parapet state on the second within 60 s of one
die (R337, R339, R340). Kicks are no row (log entry 68). -/
def execPierWatchdogExpiry (n : DieId) (pier : Fin 8) (s : State) : Res :=
  let cl : Nat := 4 * n.val + pier.val / 2
  if s.dev.running && s.fuse.dieFitted n && s.kf.usable cl then
    onDevAt s (Tab.get 0 n.val s.dev.ras.pierFrom + s.dev.ras.pierMs * (1000 * Config.usTicks)) fun e d =>
      let again : Bool := match d.ras.pierAt.find? fun x : Nat × Nat => x.1 = n.val with
        | some x => decide (e.now ≤ x.2 + 60 * 100000000)
        | none => false
      let d := d.expired e cl 0xFF 0x44
      let d : Dev := { d with ras := { d.ras with pierAt := Tab.put n.val e.now d.ras.pierAt, pierFrom := Tab.put n.val e.now d.ras.pierFrom } }
      if again = true then Dev.parapet e d 5 Config.hang
      else if d.coveredBy (.die n) then d
      else Dev.dieReset e d n (some { error := Config.hang, resource := 0x44, engine := 0xF2, value := pier, limit := d.ras.pierMs })
  else .next s

/-- The watchdog of the hub die expires, in any state of the package that has power: 10 ms at least after it was started (R339, R340, R357). -/
def execHubWatchdogExpiry (s : State) : Res :=
  if s.dev.pins.powered then
    onDevAt s (s.dev.ras.hubFrom + 10000 * Config.usTicks) fun e d =>
      Dev.parapet e (({ d with ras := { d.ras with hubFrom := e.now } } : Dev).expired e 0xFF 0xFF 0) 5 Config.hang
  else .next s

/-- A die reset that takes longer than 2 ms. -/
def execDieResetWatchdogExpiry (n : DieId) (s : State) : Res :=
  match s.dev.ras.resetting.find? fun x => x.1 = .die n with
  | some x =>
    if s.dev.running then
      onDevAt s (x.2 + 2000 * Config.usTicks) fun e d => Dev.parapet e (d.expired e 0xFF 0xFF 0) 5 Config.hang
    else .next s
  | none => .next s

/-! ### Control state (R337, R340) -/

def execCoreControlEcc (cl : ClusterId) (p : CoreId) (part : Fin 5) (s : State) : Res :=
  if s.dev.running then
    .next (s.fenceCore cl p (some { error := Config.eccUncorrected, resource := 0x42, core := some (cl.val, p.val), value := part }))
  else .next s

/-- The record of a cluster names no core: CORE_VALID, CLUSTER, VPOS and PHYS are 0 (log entry 71). -/
def execClusterControlEcc (cl : ClusterId) (part : Fin 3) (s : State) : Res :=
  onDev s fun e d =>
    if d.running && e.fuse.clusterFitted cl && e.kf.usable cl && !d.coveredBy (.cluster cl) then
      Dev.clusterReset e d cl (some { error := Config.eccUncorrected, resource := 0x43, engine := 0xF1, value := part })
    else d

/-- An uncorrected error in control state of the hub die or the always-on domain, or in both copies of a word of private data. -/
def execHubControlEcc (s : State) : Res :=
  onDev s fun e d => if d.pins.powered then Dev.parapet e d 3 Config.eccUncorrected else d

/-- LIMIT of RAS_CE_POLICY, and WINDOW_H in units of LOCAL_TIME. -/
def Ras.ceLimit (r : Ras) : Nat := bitsAt r.cePolicy.toNat 0 8
def Ras.ceWindow (r : Ras) : Nat := bitsAt r.cePolicy.toNat 8 8 * 3600000000 * Config.usTicks

/-- The corrected errors of a core within the window, with those that take their number past LIMIT now: no row is one such error (log entry 69). -/
def Ras.ceCount (r : Ras) (cl ph now : Nat) : List Nat :=
  let l := (Tab.get [] (32 * cl + ph) r.ceErrors).filter fun t => now ≤ t + r.ceWindow
  List.replicate (r.ceLimit + 1 - l.length) now ++ l

/-- A launch occupies a core, or waits on its span. -/
def Dev.coreBusy (d : Dev) (cl ph : Nat) : Bool :=
  (d.spansOn fun c q => c = cl && q = ph).any fun k => (d.span k).running.isSome || (d.span k).waits ≠ 0

/-- The cores beyond the corrected-error policy that no launch occupies any more are fenced (R337, R352). -/
def State.fenceDue (s : State) : State :=
  let go := s.dev.ras.ceDue.filter fun x => !s.dev.coreBusy x.1 x.2
  go.foldl (fun s x => s.fenceCore x.1 x.2 none)
    (s.onDev fun _ d => { d with ras := { d.ras with ceDue := d.ras.ceDue.filter fun x => !go.contains x } })

/-- A core reaches the corrected-error policy: the event is logged once, and the core is fenced once no launch occupies it or waits on its span. -/
def execCePolicyFence (cl : ClusterId) (p : CoreId) (s : State) : Res :=
  if s.dev.running && s.fuse.clusterFitted cl && !s.kf.coreFenced cl p then
    .next ((if s.dev.ras.ceDue.contains (cl.val, p.val) then s else s.onDev fun e d =>
      let l := d.ras.ceCount cl p e.now
      let d : Dev := { d with ras := { d.ras with ceErrors := Tab.put (32 * cl.val + p.val) l d.ras.ceErrors } }
      if d.ras.ceLimit < l.length then
        ({ d with ras := { d.ras with ceDue := d.ras.ceDue ++ [(cl.val, p.val)] } } : Dev).rasEvent e 9 0 cl p
      else d).fenceDue)
  else .next s

/-- LAUNCH_END; the core fences that waited for the launch follow. -/
def execLaunchEnd (d : DieId) (slot : SlotId) (cycles : Quad) (s : State) : Res :=
  .next (s.onDev fun e v => launchDone e v (64 * d + slot) cycles.toNat).fenceDue

/-! ### The automatic reset and the retirement record (R343, R347, R407) -/

def execAutoReset (s : State) : Res :=
  let r := s.dev.ras
  if s.dev.busUp && r.st = .parapet && bitAt r.ctrl.toNat 0 && !r.noAuto && s.dev.allowsWarm then
    .next ((s.passTo (r.lastTime.toNat + bitsAt r.ctrl.toNat 8 16 * 100000)).onReset fun e d => Dev.warmReset e d)
  else .next s

/-- The retirement record of R407. -/
def retirementRecord (u : Fuses) (r : Ras) : List Byte :=
  let l := toBytes 4 0x5452454B ++ List.replicate 4 0#8 ++ toBytes 8 u.deviceId.toNat ++ [r.lastCode, BitVec.ofNat 8 r.resets]
    ++ List.replicate 6 0#8 ++ toBytes 8 r.retiredAt
  l ++ hmacSha256 (Config.recordKey u.deviceId) l

def execRetirementRecordWrite (s : State) : Res :=
  onDev s fun e d =>
    if d.pins.powered && d.ras.st = .retired && !d.ras.retiredBoot then
      { d with sec := { d.sec with record := retirementRecord e.fuse d.ras } }
    else d

end Sys2Proof.Machine
end

