-- ==== Sys2Proof/Machine/SecOps.lean ====
section
/-!
DEFINITION. Firmware images with their checks (R399, R400), the boot from flash or from a host-supplied image (R401 to R403), owner records (R404) and
the retirement record (R407, R408).
-/
namespace Sys2Proof.Machine

/-- Bytes `a` to `a + n - 1` are 0. -/
def zeroBytes (l : List Byte) (a n : Nat) : Bool := ((l.drop a).take n).all (· = 0#8)

/-! ### Firmware images (R399, R400) -/

/-- An entry of the component table. -/
structure FwEntry where
  typ : Nat
  len : Nat
  off : Nat
  hash : Nat

def fwCount (l : List Byte) : Nat := bytesAt l 14 2
def fwLength (l : List Byte) : Nat := bytesAt l 16 8
def fwEntries (l : List Byte) : List FwEntry :=
  (List.range (fwCount l)).map fun k =>
    let a := 64 + 48 * k
    { typ := bytesAt l a 4, len := bytesAt l (a + 4) 4, off := bytesAt l (a + 8) 8, hash := bytesAt l (a + 16) 32 }

/-- No two entries overlap. -/
def entriesApart : List FwEntry → Bool
  | [] => true
  | x :: t => (t.all fun y => x.off + x.len ≤ y.off || y.off + y.len ≤ x.off) && entriesApart t

def flashBytes : Nat := 0x4000000

/-- Check 2, but for the component table. -/
def fwHeaderOk (u : Fuses) (l : List Byte) : Bool :=
  bytesAt l 0 4 = 0x4D57464B && bytesAt l 4 2 = 1 && (bytesAt l 6 1 = 0 || bytesAt l 6 1 = u.part.code)
    && bytesAt l 12 1 ≤ 63 && bytesAt l 13 1 ≤ bytesAt l 12 1 && 1 ≤ fwCount l && fwCount l ≤ 8 && 4096 ≤ fwLength l && fwLength l ≤ flashBytes
    && bytesAt l 1216 4 = 65537 && zeroBytes l 7 1 && zeroBytes l 24 40 && zeroBytes l 1220 2876

/-- Check 2 of the component table. -/
def fwEntriesOk (l : List Byte) : Bool :=
  let t := fwEntries l
  zeroBytes l (64 + 48 * fwCount l) (48 * (8 - fwCount l)) && entriesApart t
    && t.all fun x => 1 ≤ x.typ && x.typ ≤ 3 && x.off % 4096 = 0 && 4096 ≤ x.off && x.off + x.len ≤ fwLength l

/-- SIGNATURE by MODULUS over bytes 0 to 447 (R399, R404): the modulus is a number with its lowest byte first. -/
def signedBy (modulus : Nat) (l : List Byte) : Bool := pssVerify modulus (l.take 448) ((l.drop 448).take 384)

/-- A component matches its hash. -/
def FwEntry.matches (x : FwEntry) (l : List Byte) : Bool := ofBytes (sha256Bytes ((l.drop x.off).take x.len)) = x.hash

/-- Hash of the component of a type. -/
def fwHash (t : List FwEntry) (typ : Nat) : BitVec 256 := BitVec.ofNat 256 (((t.find? fun x => x.typ = typ).map (·.hash)).getD 0)

/-- The checks of R400 on an image whose bytes are `l`, in their order: CAUSE and error, or what the image is. -/
def checkImage (u : Fuses) (floor : Nat) (l : List Byte) : Except (Nat × Nat) FwInfo :=
  let t := fwEntries l
  if l.length < 4096 || (fwHeaderOk u l && l.length < fwLength l) then .error (2, Config.badField)
  else if !fwHeaderOk u l || !fwEntriesOk l then .error (3, Config.badField)
  else if BitVec.ofNat 256 (ofBytes (sha256Bytes ((l.drop 832).take 388))) ≠ u.fwRootHash || !signedBy (bytesAt l 832 384) l then
    .error (3, Config.signature)
  else if bytesAt l 12 1 < floor then .error (5, Config.versionRetired)
  else if !(t.all fun x => x.matches l) || !([1, 2, 3].all fun k => t.countP (fun x => x.typ = k) = 1) then .error (4, Config.signature)
  else .ok { version := bytesAt l 8 4, svn := bytesAt l 12 1, floor := bytesAt l 13 1, header := sha256 (l.take 1220)
             comps := [fwHash t 1, fwHash t 2, fwHash t 3] }

/-! ### Boot (R401, R402, R408) -/

/-- A record of R407 that its MAGIC, DEVICE_ID and HMAC confirm. -/
def recordGood (u : Fuses) (l : List Byte) : Bool :=
  bytesAt l 0 4 = 0x5452454B && bytesAt l 8 8 = u.deviceId.toNat && (l.drop 32).take 32 = hmacSha256 (Config.recordKey u.deviceId) (l.take 32)

/-- The retirement record is read: a record that is present restores RETIRED (R347, R408). -/
def Dev.readRecord (u : Fuses) (d : Dev) : Dev :=
  let l := d.sec.record
  if l.isEmpty then { d with sec := { d.sec with recordBad := false } }
  else
    let d : Dev := { d with sec := { d.sec with recordBad := !recordGood u l } }
    if d.ras.st = .retired then d
    else ({ d with ras := { d.ras with
      st := .retired, retiredBoot := true, coldReset := false, cause := d.ras.cause ||| 0x80#8, latched := 0x80#8
      lastCode := BitVec.ofNat 8 (bytesAt l 16 1), resets := bytesAt l 17 1 } }).hardFloor

/-- The image in the board flash is read and checked, or recovery mode is entered. A flash without an image gives CAUSE 2 or 3. -/
def Dev.readImage (u : Fuses) (d : Dev) : Dev :=
  let recover (c : Nat) (d : Dev) : Dev := { d with sec := { d.sec with recovery := true, bootCause := BitVec.ofNat 3 c, running := none } }
  if d.sec.bootMode = 1#2 then recover 0 d
  else if d.sec.bootMode ≠ 0#2 then recover 1 d
  else if d.sec.flash.isEmpty then
    let (x, d) := d.free 1
    recover (2 + x.toNat) d
  else match checkImage u d.sec.floor d.sec.flash with
    | .error x => recover x.1 d
    | .ok i => { d with sec := { d.sec with recovery := false, bootCause := 0#3, running := some i } }

/-- SEC_BOOT_STATUS (R410). -/
def bootStatus (s : Sec) : Nat :=
  s.bootMode.toNat + 4 * bit s.recovery + 8 * s.bootCause.toNat + 64 * bit s.recordBad + 128 * bit s.owned + 256 * bit s.fromHost

/-- Measurement 8 is taken (R405). -/
def Dev.measureBoot (d : Dev) : Dev := { d with sec := { d.sec with bootMeasured := bootStatus d.sec } }

/-- Steps 1 to 3 of R402: the security processor starts from its ROM. -/
def Dev.startBoot (u : Fuses) (d : Dev) : Dev :=
  let d : Dev := { d with sec := { d.sec with fromHost := false, booting := true } }
  ((d.readRecord u).readImage u).measureBoot

/-- A checked host-supplied image boots from step 4 (R403). -/
def Dev.bootHost (d : Dev) (i : FwInfo) : Dev :=
  ({ d with sec := { d.sec with running := some i, recovery := false, fromHost := true, booting := true } } : Dev).measureBoot

/-! ### Owner records (R404) -/

def recOp (l : List Byte) : Nat := bytesAt l 4 1
def recSlot (l : List Byte) : Nat := bytesAt l 5 1
def recRole (l : List Byte) : Nat := bytesAt l 6 1
def recPolicy (l : List Byte) : Nat := bytesAt l 7 1
def recCounter (l : List Byte) : Nat := bytesAt l 16 4
def recModulus (l : List Byte) : BitVec 3072 := BitVec.ofNat 3072 (bytesAt l 64 384)

/-- The record is well formed: every field that its operation has in its range, every other byte 0. -/
def recordOk (l : List Byte) : Bool :=
  let op := recOp l
  let pub := op = 3 || op = 4
  let req := op = 5 || op = 6
  l.length = 1024 && bytesAt l 0 4 = 0x4F52454B && 1 ≤ op && op ≤ 7
    && (if pub then recSlot l ≤ 63 else if req then 1 ≤ recSlot l && recSlot l ≤ 15 else recSlot l = 0)
    && (if op = 5 then 1 ≤ recRole l && recRole l ≤ 3 else recRole l = 0)
    && (if op = 7 then recPolicy l ≤ 1 else recPolicy l = 0)
    && (op ≠ 1 || recCounter l = 0)
    && (op = 5 || zeroBytes l 24 32) && (op = 1 || op = 3 || zeroBytes l 64 384)
    && zeroBytes l 20 4 && zeroBytes l 56 8 && zeroBytes l 832 192

def Sec.pubKey (s : Sec) (k : Nat) : Option (BitVec 3072) := (s.pubKeys.find? fun x : Nat × BitVec 3072 => x.1 = k).map (·.2)
def Sec.reqSlot (s : Sec) (j : Nat) : Option ReqSlot := (s.reqSlots.find? fun x : Nat × ReqSlot => x.1 = j).map (·.2)

/-- SHA-256 of an RSA-3072 public key: its modulus and its exponent (R400). -/
def keyHash (k : BitVec 3072) : BitVec 256 := sha256 (toBytes 384 k.toNat ++ toBytes 4 65537)

/-- The checks of an owner record in the order of R404; 0 where it is accepted. -/
def recordError (u : Fuses) (s : Sec) (l : List Byte) : Nat :=
  let op := recOp l
  let key := if op = 1 then some (recModulus l) else s.ownerKey
  if !recordOk l then Config.badField
  else if bytesAt l 8 8 ≠ u.deviceId.toNat || (op = 1 && s.owned) || (op ≠ 1 && !s.owned) || (op ≠ 1 && recCounter l ≤ s.ownerCounter.toNat) then
    Config.noPermission
  else if !(key.any fun k => signedBy k.toNat l) then Config.signature
  else if (op = 3 && (s.pubKey (recSlot l)).isSome) || (op = 5 && (s.reqSlot (recSlot l)).isSome) then Config.busy
  else 0

/-- Every session that a requester slot authenticated ends (R406). -/
def Mgmt.endSessions (m : Mgmt) (p : Nat → Bool) : Mgmt := { m with sessions := m.sessions.filter fun x => !(x.slot.any p) }

/-- An accepted record takes effect. -/
def Dev.applyRecord (d : Dev) (l : List Byte) : Dev :=
  let s := d.sec
  let k := recSlot l
  let counted : Sec := { s with ownerCounter := BitVec.ofNat 32 (recCounter l) }
  match recOp l with
  | 1 => { d with sec := { counted with
      owned := true, ownerKey := some (recModulus l), reqSlots := Tab.put 0 { role := 3, hash := keyHash (recModulus l) } s.reqSlots } }
  | 2 => { d with
      sec := { s with owned := false, ownerKey := none, pubKeys := [], reqSlots := [], plainForbid := false, ownerCounter := 0#32 }
      mgmt := d.mgmt.endSessions fun _ => true }
  | 3 => { d with sec := { counted with pubKeys := Tab.put k (recModulus l) s.pubKeys } }
  | 4 => { d with sec := { counted with pubKeys := Tab.erase k s.pubKeys } }
  | 5 => { d with sec := { counted with reqSlots := Tab.put k { role := recRole l, hash := BitVec.ofNat 256 (bytesAt l 24 32) } s.reqSlots } }
  | 6 => { d with sec := { counted with reqSlots := Tab.erase k s.reqSlots }, mgmt := d.mgmt.endSessions fun j => j = k }
  | 7 => { d with sec := { counted with plainForbid := bitAt (recPolicy l) 0 } }
  | _ => d

end Sys2Proof.Machine
end

