-- ==== Sys2Proof/Machine/Power.lean ====
section
/-!
DEFINITION. The supply, PERST_N and the cold reset (R344, R347, R356, R388, R389, R402), the pins EPO_N and PWRBRAKE_N, the thermal trip (R366 to R368), the
governor with its heartbeat (R361 to R365), and the sleep states of the clusters (R359, R360).
-/
namespace Sys2Proof.Machine

/-! ### Removal of power and power-on (R356, R388) -/

/-- What is left of the package without power: the board flash with the retirement record, the key store, what the host has received, and
the levels of the pins. -/
def Dev.unpowered (u : Fuses) (d : Dev) : Dev :=
  let s := d.sec
  { pwr := u.pwrReset
    pins := { d.pins with powered := false, perst := true, perstAt := 0, thermtrip := false, inputAt := 0 }
    sec := { owned := s.owned, floor := s.floor, plainForbid := s.plainForbid, ownerCounter := s.ownerCounter, ownerKey := s.ownerKey
             pubKeys := s.pubKeys, reqSlots := s.reqSlots, flash := s.flash, record := s.record }
    out := d.out
    nextUid := d.nextUid
    freeCount := d.freeCount }

def execPowerRemoval (s : State) : Res :=
  .next (if s.dev.pins.powered then { s with kf := Kf.atPower s.fuse, time := 0#64, dev := s.dev.unpowered s.fuse } else s)

/-- The always-on domain starts; EPO_N asserted holds the package in the parapet state (R430). -/
def powerOn (e : Env) (d : Dev) : Dev :=
  if d.pins.powered then d
  else
    let d : Dev := { d with pins := { d.pins with powered := true } }
    let d := if d.pins.brake then d.hardFloor else d
    if d.pins.epo then Dev.parapet e d 0 Config.power else d

def execPowerOn (s : State) : Res := onDev s powerOn

/-! ### Cold resets (R344, R347, R389) -/

/-- A cold reset begins: open commands end with nothing written, and what R344 does not keep is discarded. -/
def Dev.coldStart (e : Env) (d : Dev) : Dev :=
  let d := Dev.clearPackage e (Dev.dropAll e d) true
  let d := d.faultSets
  { d with
    cores := d.cores.map fun x : Nat × Core => (x.1, x.2.idled)
    longs := [], vers := [], seqs := [], steps := []
    blk := { dram := d.blk.dram, poison := d.blk.poison }
    hif := { downCount := d.hif.downCount }
    sec := { d.sec with submitBusy := false, submitPhase := 0#2, flashNew := [], running := none, booting := false }
    mgmt := { d.mgmt with sessions := [] }
    ras := { d.ras with
      st := if d.ras.st = .retired then .retired else .resetting
      coldReset := true, latched := if d.ras.st = .retired then d.ras.latched else 0#8
      resetting := [], testing := [], toFence := [], noAuto := false } }

/-- A flash write that a cold reset interrupts leaves no valid image (R403). -/
def Dev.cutFlash (d : Dev) : Dev := if d.sec.submitPhase = 2#2 then { d with sec := { d.sec with flash := [] } } else d

/-- PERST_N is asserted: a cold reset, counted but for a RETIRED package. -/
def perstAssert (e : Env) (d : Dev) : Dev :=
  if !d.pins.powered || d.pins.perst then { d with pins := { d.pins with perst := true } }
  else
    let d : Dev := { d with pins := { d.pins with perst := true, perstAt := e.now } }
    let fresh := d.ras.st = .running
    let retired := d.ras.st = .retired
    let (ovf, d) := if retired then (false, d) else d.countReset e 5
    let d := Dev.coldStart e (d.cutFlash.rasEvent e 2 0 0xFF 0xFF 5)
    if ovf then d.retire e fresh else d

/-- With the registers of the block KF_VMAP takes its reset value (R26, R344). -/
def execPerstAssert (s : State) : Res :=
  let t := s.onDev perstAssert
  .next (if s.dev.busUp then { t with kf := { t.kf with vmap := [] } } else t)

/-- The straps give the position: on KPV-2L MESH_Y must read 0, and KPV-4S has no viaducts (R313, R314). -/
def Via.sample (v : Via) (u : Fuses) (p : Straps) : Via :=
  if u.part = .kpv4S then v
  else
    let valid := u.part ≠ .kpv2L || p.y = 0#4
    let pos := p.x.toNat + 16 * p.y.toNat + 256 * p.edge.toNat + 4096 * bit valid
    { v with pos := BitVec.ofNat 64 pos, selfLogical := BitVec.ofNat 64 (pos % 256) }

/-- The ports after the sampling: DOWN where they may train, with their first attempt now (R315). -/
def Dev.openPorts (d : Dev) (e : Env) : Dev :=
  (List.range 4).foldl (fun d p => d.modPort p fun x =>
    { x with st := if d.via.portThere e.fuse p && !bitAt d.via.mapout.toNat p then .down else .disabled, faultSets := false, nextTry := e.now }) d

/-- A block of the board flash as it reads: without content where every byte is 0xFF. -/
def flashBlock (l : List Byte) : List Byte := if l.all (· = 0xFF#8) then [] else l

/-- A board programmer has written the flash since it was last read: image region and retirement record. -/
def Dev.program (d : Dev) : Option (List Byte) → Dev
  | none => d
  | some l => { d with sec := { d.sec with flash := flashBlock (l.take flashBytes), record := flashBlock ((l.drop flashBytes).take 65536) } }

/-- Without REFCLK the package enters the parapet state (R430). -/
def Dev.needClock (e : Env) (d : Dev) : Dev :=
  if d.pins.refclk then d
  else
    let d := Dev.parapet e d 2 Config.power
    { d with ras := { d.ras with supplyHard := true }, pwr := { d.pwr with supply := 4#3 } }

/-- PERST_N is released: the straps are sampled and verified boot begins. -/
def perstRelease (e : Env) (d : Dev) (straps : Straps) (programmed : Option (List Byte)) : Dev :=
  let d : Dev := (d.program programmed)
  let d : Dev := { d with
    pins := { d.pins with perst := false }
    via := d.via.sample e.fuse straps
    sec := { d.sec with bootMode := straps.bootMode }
    ras := if d.ras.st = .parapet then { d.ras with st := .resetting, coldReset := true, latched := 0#8 } else d.ras }
  let d := d.openPorts e
  let d := if d.ras.st = .retired then d.faultSets else d
  Dev.needClock e (d.startBoot e.fuse)

def execPerstRelease (straps : Straps) (programmed : Option (List Byte)) (s : State) : Res :=
  if s.dev.pins.powered && s.dev.pins.perst then
    onDevAt s (s.dev.pins.perstAt + 1000 * Config.usTicks) fun e d => perstRelease e d straps programmed
  else .next s

/-! ### The end of boot (R388, R402, R430) -/

/-- Causes that persist put the package back into the parapet state (R343). -/
def Dev.persisting (e : Env) (d : Dev) : Dev :=
  let d := if d.pins.epo then Dev.parapet e d 0 Config.power else d
  let d := if d.pins.thermtrip then Dev.parapet e d 1 Config.thermal else d
  let d := if d.pins.inputGood && d.pins.refclk then d
    else
      let d := Dev.parapet e d 2 Config.power
      { d with ras := { d.ras with supplyHard := d.ras.supplyHard || !d.pins.refclk } }
  if d.blk.channels.any fun x => x.2.st = 3#2 then Dev.parapet e d 6 Config.tierFail else d

/-- The bulk channels are trained (R164). -/
def Dev.trainBulk (u : Fuses) (d : Dev) (found : BootFound) : Dev :=
  { d with blk := { d.blk with channels := (List.range u.channels).map fun c =>
      (c, { st := if bitAt found.failedCh.toNat c then 3#2 else if bitAt found.slowCh.toNat c then 2#2 else 1#2 }) } }

/-- Cores and clusters that failed their self-test are fenced, and every usable cluster gets its map and is ACTIVE (R19, R23, R26). -/
def State.bootFences (s : State) (found : BootFound) : State :=
  let s := found.failedCores.foldl (fun s x => s.fenceFailed x.1 x.2.toNat false) s
  let s := (bitList 16 found.failedPier.toNat).foldl (fun s c => s.fenceCluster c none) s
  let s := { s with kf := s.kf.boot }
  s.onDev fun e d => (d.wakeFor e fun _ => true).watchPiers e fun _ => true

/-- The image runs: the fused floor may rise, and the runtime accepts commands unless the package is not RUNNING. -/
def Dev.imageRuns (d : Dev) : Dev :=
  match d.sec.running with
  | none => d
  | some i => { d with sec := { d.sec with floor := max d.sec.floor i.floor }, hif := { d.hif with ready := d.ras.st = .running } }

/-- Boot has come to its end. -/
def bootReady (s : State) (found : BootFound) : State :=
  let d := s.dev
  if !d.busUp || !d.sec.booting then s
  else
    let image := !d.sec.recovery && d.ras.st ≠ .retired
    let s := if image then (s.onDev fun e d => d.trainBulk e.fuse found).bootFences found else s
    s.onDev fun e d =>
      let cold := d.ras.coldReset
      let d : Dev := { d with
        hif := { d.hif with gen := found.gen, width := found.width, flit := 6 ≤ found.gen.toNat }
        sec := { d.sec with booting := false }
        blk := { d.blk with selfRef := [] }
        ras := { d.ras with coldReset := false, st := if cold && d.ras.st = .resetting then .running else d.ras.st } }
      let d := if cold then d.rasEvent e 3 0 0xFF 0xFF 5 else d
      let d := if image then d.imageRuns else d
      if d.ras.st = .running then (Dev.persisting e d).applyDeferredIfRunning e.fuse e.now else d

def execBootReady (found : BootFound) (s : State) : Res := .next (bootReady s found)

/-! ### Supply and REFCLK (R356) -/

/-- A supply fault of a kind enters the parapet state. -/
def supplyFault (e : Env) (d : Dev) (kind : Nat) : Dev :=
  let d := Dev.parapet e d 2 Config.power
  { d with
    pwr := { d.pwr with supply := BitVec.ofNat 3 kind }
    ras := { d.ras with supplyHard := d.ras.supplyHard || decide (3 ≤ kind) } }

def execSupplyUndervoltage (s : State) : Res :=
  onDev s fun e d => if d.pins.powered then supplyFault e { d with pins := { d.pins with inputGood := false, inputAt := e.now } } 1 else d
def execSupplyOvervoltage (s : State) : Res :=
  onDev s fun e d => if d.pins.powered then supplyFault e { d with pins := { d.pins with inputGood := false, inputAt := e.now } } 2 else d
def execRegulatorFault (s : State) : Res := onDev s fun e d => if d.pins.powered then supplyFault e d 3 else d
def execRefclkLoss (s : State) : Res :=
  onDev s fun e d =>
    let d : Dev := { d with pins := { d.pins with refclk := false } }
    if d.pins.powered then supplyFault e d 4 else d

/-- The input has lain within 46 to 57 V for 100 ms since it last left its range. -/
def execInputWithinOperatingRange (s : State) : Res :=
  let good (d : Dev) : Dev := { d with pins := { d.pins with inputGood := true } }
  if s.dev.pins.powered && !s.dev.pins.inputGood then
    onDevAt s (s.dev.pins.inputAt + 100000 * Config.usTicks) fun _ d => good d
  else onDev s fun _ d => good d
def execRefclkPresent (s : State) : Res :=
  onDev s fun _ d => { d with pins := { d.pins with refclk := true } }

/-! ### EPO_N, PWRBRAKE_N and the thermal trip (R366 to R368) -/

/-- EPO_N is asserted: the core regulators of every die shut, and with them goes what the cores and the near tier held. -/
def epoAssert (e : Env) (d : Dev) : Dev :=
  let d : Dev := { d with pins := { d.pins with epo := true } }
  if !d.pins.powered then d
  else
    let d := Dev.parapet e d 0 Config.power
    { d with cores := [], blk := { d.blk with near := [], nearBad := [] } }

def execEpoAssert (s : State) : Res := onDev s epoAssert
def execEpoRelease (s : State) : Res := onDev s fun _ d => { d with pins := { d.pins with epo := false } }

/-- A count of PWR_EVENTS. -/
def count16 (n : Nat) : Nat := min (n + 1) 0xFFFF

def brakeAssert (d : Dev) : Dev :=
  if d.pins.brake then d
  else
    let d : Dev := { d with pins := { d.pins with brake := true } }
    if d.pins.powered then { d with pwr := { d.pwr with evBrake := count16 d.pwr.evBrake } }.hardFloor else d

def execBrakeAssert (s : State) : Res := onDev s fun _ d => brakeAssert d
def execBrakeRelease (s : State) : Res := onDev s fun _ d => { d with pins := { d.pins with brake := false } }

def execThermalTrip (s : State) : Res :=
  onDev s fun e d =>
    if d.pins.powered then
      Dev.parapet e { d with pins := { d.pins with thermtrip := true } } 1 Config.thermal
    else d

def execThermtripRelease (s : State) : Res :=
  onDev s fun _ d => { d with pins := { d.pins with thermtrip := false } }

def execThermalForcedFloor (s : State) : Res :=
  onDev s fun _ d =>
    if d.pins.powered && !d.pwr.forced then { d with pwr := { d.pwr with forced := true, evForced := count16 d.pwr.evForced } }.hardFloor else d

/-! ### The governor (R361 to R365) -/

/-- A junction temperature of n °C in the units of PWR_TEMP. -/
def tempOf (c : Nat) : Nat := 4 * (c + 40)

/-- One period of the governor: pseudocode of R364, in units of 0.01 W. -/
def governorPeriod (e : Env) (d : Dev) (m : Measured) : Dev :=
  let u := e.fuse
  let p := d.pwr
  let s := p.slewStep
  let drawn := 100 * m.total.toNat
  let temps := m.temps.zipIdx.map fun x : BitVec 10 × Nat => if x.2 < 4 && !u.dieFitted x.2 then 0#10 else x.1
  let tj := maxList 0 (temps.map BitVec.toNat)
  let brakeW := 100 * p.brakeW
  let h := if p.hbLost then max (100 * p.safeCap) (p.h - s) else 100 * u.tdp
  let tl := if tempOf p.throttleC < tj then max brakeW (min p.tl drawn - s)
    else if tj < tempOf (p.throttleC - 2) then min (100 * u.tdp) (p.tl + s) else p.tl
  let cf := min (100 * p.capW) (min h tl)
  let forced := tempOf 105 ≤ tj
  let hard := d.ras.st = .parapet || d.ras.st = .retired || d.pins.brake || forced
  let ceiling := if hard then brakeW else min cf (drawn + s)
  let floor := if hard then 0 else drawn - s
  let useful := min (100 * m.useful.toNat) ceiling
  let need := floor - useful
  let short := u.ballastCap e.kf < need
  let (x, d) := d.free 4
  let (y, d) := d.free 4
  let mhz := 500 + 100 * min x.toNat 10
  { d with pwr := { d.pwr with
    h := h, tl := tl, cf := cf, ceiling := ceiling, floor := floor, forced := forced, hard := hard
    ballast := 0 < need, ballastShort := short
    evForced := if forced && !p.forced then count16 p.evForced else p.evForced
    evShort := if short then count16 p.evShort else p.evShort
    mhz := mhz, duty := if mhz = 500 then y.toNat + 1 else 16
    temps := temps
    energy := p.energy + m.energy
    input := BitVec.ofNat 64 (m.mv.toNat + m.total.toNat * 2 ^ 16 + m.ballast.toNat * 2 ^ 32 + m.useful.toNat * 2 ^ 48)
    lastPeriod := e.now / (10 * Config.usTicks) } }

/-- The governor runs at each multiple of 10 µs of LOCAL_TIME; lastPeriod numbers the latest. -/
def execGovernorPeriod (m : Measured) (s : State) : Res :=
  guarded m.wf
    (if s.dev.pins.powered then
      onDevAt s ((s.dev.pwr.lastPeriod + 1) * (10 * Config.usTicks)) fun e d => governorPeriod e d m
    else .next s)

/-- No heartbeat within HB_TIMEOUT_MS. -/
def execHeartbeatTimeout (s : State) : Res :=
  if s.dev.pins.powered && !s.dev.pwr.hbLost then
    onDevAt s (s.dev.pwr.lastBeat + s.dev.pwr.hbTimeoutMs * (1000 * Config.usTicks)) fun _ d =>
      { d with pwr := { d.pwr with hbLost := true, h := d.pwr.cf, evHb := count16 d.pwr.evHb } }
  else .next s

/-! ### Sleep states (R359, R360) -/

def Pwr.deepEn (p : Pwr) (c : Nat) : Bool := bitAt p.sleepPolicy.toNat c
def Pwr.napUs (p : Pwr) : Nat := bitsAt p.sleepPolicy.toNat 16 16
def Pwr.deepMs (p : Pwr) : Nat := bitsAt p.sleepPolicy.toNat 32 16

/-- Nothing works on a cluster: no launch or drain, no token in a queue, no transfer outstanding, no ballast. -/
def Dev.clusterIdle (d : Dev) (cl : Nat) : Bool :=
  !d.pwr.ballast
    && ((d.spansOn fun c _ => c = cl).all fun k => (d.span k).running.isNone && !(d.span k).keyed)
    && (List.range 32).all fun p => (d.core cl p).engs.all fun x =>
        (x.2.queues.all fun q => q.2.toks.isEmpty && !q.2.key) && x.2.ctxs.all fun y => y.2.outst.isEmpty

def execClusterNap (cl : ClusterId) (s : State) : Res :=
  let z := s.dev.sleep cl
  if s.dev.running && s.fuse.clusterFitted cl && s.kf.usable cl && z.st = .active && s.dev.clusterIdle cl then
    onDevAt s (z.idleSince + s.dev.pwr.napUs * Config.usTicks) fun e d => d.setSleep cl { z with st := .nap, napSince := e.now }
  else .next s

/-- A core that lets its cluster go to DEEP: every engine IDLE or DRAINED. -/
def Core.sleepy (c : Core) : Bool := c.engs.all fun x => x.2.st = stIdle || x.2.st = stDrained

/-- The near tier, the stage registers and the queues of a cluster are lost. -/
def Dev.powerGate (d : Dev) (cl : Nat) : Dev :=
  { d with
    cores := d.cores.map fun x : Nat × Core => if x.1 / 32 = cl then
      (x.1, { x.2 with engs := x.2.engs.map fun y : Nat × Eng => (y.1, { y.2 with regs := [], queues := [], outs := [] }) }) else x
    blk := { d.blk with
      near := d.blk.near.filter fun c => c.1 / 0x4000000 ≠ cl
      nearBad := d.blk.nearBad.filter fun w => 8 * w / 0x4000000 ≠ cl } }

def execClusterDeep (cl : ClusterId) (s : State) : Res :=
  let z := s.dev.sleep cl
  if s.dev.running && s.fuse.clusterFitted cl && s.kf.usable cl && z.st = .nap && !z.waking && s.dev.pwr.deepEn cl
      && (List.range 32).all (fun p => (s.dev.core cl p).sleepy) then
    onDevAt s (z.napSince + s.dev.pwr.deepMs * (1000 * Config.usTicks)) fun _ d => (d.powerGate cl).setSleep cl { z with st := .deep }
  else .next s

/-- A wake of a usable cluster that sleeps begins. -/
def Dev.wake (d : Dev) (e : Env) (cl : Nat) : Dev :=
  let z := d.sleep cl
  if e.fuse.clusterFitted cl && e.kf.usable cl && z.st ≠ .active then d.setSleep cl { z with waking := true } else d

def execClusterWake (cl : ClusterId) (s : State) : Res := onDev s fun e d => if d.running then d.wake e cl else d

def execClusterWakeDone (cl : ClusterId) (s : State) : Res :=
  onDev s fun e d =>
    let z := d.sleep cl
    if d.pins.powered && z.waking && e.kf.usable cl then
      d.setSleep cl { z with
        st := .active, waking := false, idleSince := e.now, wakes := if z.st = .deep then min (z.wakes + 1) (2 ^ 32 - 1) else z.wakes }
    else d

/-- A write of CLK_WAKE: the clusters named wake, and those awake stay so for NAP_US. -/
def Dev.clkWake (d : Dev) (e : Env) (v : Nat) : Dev :=
  (bitList 16 v).foldl (fun d c =>
    let z := d.sleep c
    if z.st = .active then (if e.kf.usable c then d.setSleep c { z with idleSince := e.now } else d) else d.wake e c) d

end Sys2Proof.Machine
end

