-- ==== Sys2Proof/Machine/Flags.lean ====
section
/-!
DEFINITION. Status words: identity (R4, R24, R375), RAS_STATUS (R354), PWR_STATUS, PWR_LIMITS and PWR_TEMP (R372, R373), self-refresh (R200, R224), the states of
engines, routes, spans, dispensers, slots and queues (R66 to R69, R143, R153, R239, R297, R387), and the output ALERT_N (R396).
-/
namespace Sys2Proof.Machine

/-! ### Identity (R4, R24 to R26) -/

def kfId (u : Fuses) : Nat := 0x4B + u.stepping.toNat * 256

/-- VIA_MAP. -/
def Fuses.viaMap (u : Fuses) : Nat :=
  match u.part with
  | .kpv4A => 15
  | .kpv4S => 0
  | .kpv2L => 10

def kfCap (u : Fuses) (k : Kf) : Nat :=
  let whole := (List.range 16).all fun c => !u.clusterFitted c || k.usable c
  u.part.code + (2 ^ u.dies - 1) * 2 ^ 8 + u.viaMap * 2 ^ 12 + k.clusterMap.toNat * 2 ^ 16 + bit u.hasTrestle * 2 ^ 32 + 2 ^ 33
    + bit (!whole) * 2 ^ 34 + u.stackCount * 2 ^ 35 + u.channels * 2 ^ 40

def kfCoreState (u : Fuses) (k : Kf) (c : Nat) : Nat :=
  if u.clusterFitted c then (Tab.get 0#32 c u.fusedCores).toNat + (k.fencedOf c).toNat * 2 ^ 32 else 0

/-! ### Configuration space (R375): what identifies the package there; no row of the table reads it -/

def cfgVendorId : BitVec 16 := Config.vendorId
/-- Device ID of the physical function. -/
def cfgDeviceId (u : Fuses) : Nat :=
  match u.part with
  | .kpv4A => 0x4B10
  | .kpv4S => 0x4B11
  | .kpv2L => 0x4B12
/-- VF Device ID, on every ordering number. -/
def cfgVfDeviceId : Nat := 0x4B1F
/-- Class Code: processing accelerator. -/
def cfgClassCode : Nat := 0x120000
/-- Revision ID: KF_ID bits [15:8]. -/
def cfgRevisionId (u : Fuses) : Nat := bitsAt (kfId u) 8 8

/-! ### Package state (R354, R396) -/

def PkgSt.code : PkgSt → Nat
  | .running => 0
  | .parapet => 1
  | .resetting => 2
  | .retired => 3

/-- The parapet state, held while RETIRED too (R347). -/
def Dev.parapetHeld (d : Dev) : Bool := d.ras.st = .parapet || d.ras.st = .retired

def rasStatus (r : Ras) : Nat := r.st.code + bit r.retiredBoot * 8 + r.lastCode.toNat * 2 ^ 8 + r.resets * 2 ^ 16

/-- ALERT_N is asserted. -/
def alertAsserted (d : Dev) : Bool := d.pins.powered && (d.ras.alert ≠ 0#9 || !d.mgmt.events.isEmpty)

/-- Unit of a channel, and of a bonded stack, in `selfRef`. -/
def srChannel (c : Nat) : Nat := c
def srStack (k : Nat) : Nat := 32 + k

/-- A channel or stack is in self-refresh (R200, R224): in the parapet state once 1 ms has passed; before that and during a package reset it enters, and in
the reset it leaves, when a free value says so, each at most once (R341, R345). -/
def Dev.selfRefresh (d : Dev) (now unit : Nat) : Bool × Dev :=
  let put (d : Dev) (v : Nat) : Dev := { d with blk := { d.blk with selfRef := Tab.put unit v d.blk.selfRef } }
  let (x, drawn) := d.free 1
  if d.ras.st = .running then (false, d)
  else match Tab.get 0 unit d.blk.selfRef with
    | 1 => if d.parapetHeld then (true, d) else if x = 1#1 then (true, drawn) else (false, put drawn 2)
    | 2 => (false, d)
    | _ =>
      if d.parapetHeld = true ∧ d.ras.lastTime.toNat + 1000 * Config.usTicks ≤ now then (true, put d 1)
      else if x = 1#1 then (true, put drawn 1) else (false, drawn)

/-! ### Power (R372, R373) -/

def pwrStatus (u : Fuses) (d : Dev) : Nat :=
  let p := d.pwr
  bit p.hbLost + 2 * bit d.pins.brake + 4 * bit (p.tl < 100 * u.tdp) + 8 * bit p.forced + 16 * bit p.ballast + 32 * bit p.ballastShort
    + 64 * bit d.pins.epo + 128 * bit d.pins.thermtrip + 256 * p.supply.toNat + 2048 * bit p.hard

/-- A power of the governor in W, in 16 bits. -/
def inWatts (n : Nat) : Nat := min (n / 100) 0xFFFF

def pwrLimits (p : Pwr) : Nat := inWatts p.cf + inWatts p.ceiling * 2 ^ 16 + inWatts p.floor * 2 ^ 32 + inWatts p.tl * 2 ^ 48
def pwrTemp (p : Pwr) : Nat := p.temps.foldr (fun t v => t.toNat + v * 2 ^ 10) 0
def pwrEvents (p : Pwr) : Nat := p.evBrake + p.evHb * 2 ^ 16 + p.evForced * 2 ^ 32 + p.evShort * 2 ^ 48

def SleepSt.code : SleepSt → Nat
  | .active => 0
  | .nap => 1
  | .deep => 2

def clkCluster (e : Env) (d : Dev) (c : Nat) : Nat :=
  let z := d.sleep c
  if !e.fuse.clusterFitted c then 0
  else (if e.kf.usable c then z.st.code else 3) + d.pwr.mhz * 2 ^ 4 + d.pwr.duty * 2 ^ 16 + z.wakes * 2 ^ 32

/-! ### Cores (R66 to R69) -/

/-- Iterations of a CE's window that are open, while a launch or a drain runs. -/
def Eng.openIters (x : Eng) : Nat :=
  match x.unitAt 4 with
  | some (u, b) => if x.st = stRunning || x.st = stDraining then (u.window b).countP fun n => !(Tab.get {} n x.iters : Iter).complete else 0
  | none => 0

def ceState (x : Eng) (epoch : BitVec 4) : Nat :=
  let p : CeProg := match x.prog with
    | .ce p => p
    | _ => { ordered := false, serial := false, sfEn := false, sfStage := 0, steer := 0, tap := 0, firings := 0, iterArg := false, iters := 0, phases := [] }
  x.st.toNat + 8 * bit p.ordered + 16 * epoch.toNat + 2 ^ 8 * x.openIters + 2 ^ 11 * bit p.sfEn + 2 ^ 12 * p.sfStage + 2 ^ 15 * p.steer + 2 ^ 32 * (x.base % 2 ^ 32)

def Eng.meProg (x : Eng) : Option MeProg :=
  match x.prog with
  | .me p => some p
  | _ => none

/-- Base of the write generator: that of the lowest-numbered context bound to it (R93); a unit in steering mode has one. -/
def Eng.writeBase (x : Eng) (p : MeProg) : Nat :=
  if p.steer ≠ 0 then x.base
  else match firstBy (fun a b : Nat × CtxProg => a.1 < b.1) (p.ctxs.filter fun y => y.2.writeGen) with
    | some y => (Tab.get {} y.1 x.ctxs : Ctx).base
    | none => 0

def meState (x : Eng) (epoch : BitVec 4) : Nat :=
  let bits (l : List Nat) : Nat := (l.map fun k => 2 ^ k).sum
  match x.meProg with
  | none => x.st.toNat + 16 * epoch.toNat
  | some p =>
    x.st.toNat + 8 * bit p.ordered + 16 * epoch.toNat + 2 ^ 8 * bits (p.ctxs.map (·.1))
      + 2 ^ 16 * bits ((x.ctxs.filter fun y => y.2.frozen.isSome).map (·.1)) + 2 ^ 32 * (x.writeBase p % 2 ^ 32)

def meWindow (x : Eng) : Nat := (x.meProg.map fun p => p.window * 2 ^ 16).getD 0
def meBudget (x : Eng) : Nat := (x.meProg.map (·.budget)).getD 0

/-- The truss of a core carries a route. -/
def Dev.trussUsed (d : Dev) (cl ph : Nat) : Bool :=
  let on (a b : Nat) : Bool := a = cl && b = ph
  d.routes.any fun r => r.die = cl / 4 && (srcOn r.src on || r.dsts.any (fun t => dstOn t on)
    || r.links.any fun l => (l.x = gridX cl ph && l.y = gridY cl ph) || l.next = some (gridX cl ph, gridY cl ph))

def trsState (d : Dev) (cl ph : Nat) : Nat := bit (d.trussUsed cl ph) + 16 * (d.core cl ph).epoch.toNat

def trsRouteUse (d : Dev) (cl ph : Nat) : Nat :=
  let use (n : Net) (k : Nat) (dir : Dir) : Nat :=
    linkUse d.routes (cl / 4) n { x := gridX cl ph, y := gridY cl ph, dir := dir } * 2 ^ k
  let net (n : Net) (k : Nat) : Nat := use n k .north + use n (k + 3) .east + use n (k + 6) .south + use n (k + 9) .west
  net .scalar 0 + net .vector 12 + net .control 24

/-! ### Spans, dispensers, slots, queues -/

def SpanSt.code : SpanSt → Nat
  | .free => 0
  | .loading => 1
  | .loaded => 2
  | .running => 3
  | .draining => 4
  | .flushing => 5

/-- SPN_SPAN (R143). -/
def spnSpan (d : Dev) (k : Nat) : Nat :=
  let s := d.span k
  s.st.code + s.epoch.toNat * 2 ^ 4 + s.places.toNat * 2 ^ 8 + (s.nplace - 1) * 2 ^ 16 + min s.waits 16 * 2 ^ 18 + s.func * 2 ^ 23
    + bit (decide (s.st ≠ .free) && d.unpaired k) * 2 ^ 28

/-- SPN_LONG_USE (R142). -/
def spnLongUse (d : Dev) : Nat := (d.longs.countP fun x => x.2.used) + d.openLoads * 2 ^ 16

/-- SPN_DISP_OWN (R153). -/
def dispOwn (x : Disp) : Nat := (x.owner.getD 0) % 64 + 2 ^ 6 * bit x.owner.isSome + 2 ^ 7 * bit x.exhausted + 2 ^ 8 * bit x.set

/-- The holder of a slot as ARB_OWNER shows it: a trestle context holds its slot as long as it has part of an operation (R202, log entry 84). -/
def Dev.shownSlot (d : Dev) (p k : Nat) : ArbSlot :=
  let x := d.arbSlot p k
  if x.owner = .free && p < 640 && k < 15 && bitAt (d.busyOf p) k then { x with owner := .trestle k } else x

/-- ARB_OWNER (R239). -/
def arbOwner (x : ArbSlot) : Nat :=
  let who : Nat := match x.owner with
    | .free => 0
    | .stream cl ph me ctx => 1 + cl * 2 ^ 8 + ph * 2 ^ 12 + me * 2 ^ 17 + ctx * 2 ^ 19
    | .trestle ctx => 2 + ctx * 2 ^ 19
    | .mover die engine => 3 + die * 2 ^ 8 + engine * 2 ^ 10
    | .scrub => 4
    | .host => 5
    | .walker => 6
  who + 8 * bit x.ready + (if x.ready then x.d.toNat * 2 ^ 32 else 0)

def QState.code : QState → Nat
  | .unbound => 0
  | .bound => 1
  | .draining => 2
  | .stopped => 3

/-- HIF_Q_CTRL (R387). -/
def qCtrl (q : Queue) : Nat :=
  bit q.enable + 2 * q.st.code + q.err.toNat * 2 ^ 8 + q.sqHead * 2 ^ 16 + q.cqTail * 2 ^ 32 + bit q.phase * 2 ^ 48

/-- Commands of a queue started and not completed. -/
def Dev.openCount (d : Dev) (f q : Nat) : Nat := d.opens.countP fun o => o.func = f && o.queue = q

/-- SCH_QSAVE, 32 bytes as a number (R297). -/
def qSave (d : Dev) (f q : Nat) : Nat :=
  let u := d.queue f q
  if u.st = .unbound then 0
  else
    let held := u.exec.isSome
    let flags := bit u.phase + 2 * bit held + 4 * bit (d.queueBlocked f q) + 8
    let ex : Nat × Nat := match u.exec with
      | some (.span k) => (1, slotHandle k)
      | some .steps => (2, 0)
      | some .trestle => (3, 0)
      | none => (0, 0)
    u.sqHead + u.sqTail * 2 ^ 16 + u.cqTail * 2 ^ 32 + flags * 2 ^ 48 + (if held then u.headClass * 2 ^ 56 + u.heldSince.getD 0 * 2 ^ 64 else 0)
      + d.openCount f q * 2 ^ 128 + u.dieOf * 2 ^ 144 + ex.1 * 2 ^ 152 + ex.2 * 2 ^ 160

/-! ### Security processor (R409, R410) -/

def submitStatus (s : Sec) : Nat := bit s.submitBusy + 2 * s.submitPhase.toNat + 256 * s.submitErr.toNat

def secFw (s : Sec) : Nat :=
  (match s.running with
    | some i => i.version % 2 ^ 32 + i.svn * 2 ^ 32
    | none => 0) + s.floor * 2 ^ 40

def pubMap (s : Sec) : Nat := (s.pubKeys.map fun x : Nat × BitVec 3072 => 2 ^ x.1).sum
def reqMap (s : Sec) : Nat := (s.reqSlots.map fun x : Nat × ReqSlot => x.2.role * 2 ^ (2 * x.1)).sum

/-! ### Viaducts (R334, R335) -/

def portState (d : Dev) (now p : Nat) : Nat :=
  let x := d.port p
  x.st.code + x.peerX * 2 ^ 4 + x.peerY * 2 ^ 8 + x.peerPart * 2 ^ 12 + min (d.windowFails now x).length 15 * 2 ^ 20 + x.cause * 2 ^ 24

def groupStat (d : Dev) : Nat := d.via.log.length + (d.groups.countP fun g => g.inDoubt) * 2 ^ 16 + d.via.lost * 2 ^ 32

end Sys2Proof.Machine
end

