-- ==== Sys2Proof/Machine/Queues.lean ====
section
/-!
DEFINITION. The host link: doorbells (R378, R379, R385), the fetch of commands (R382, R383), the setting up of queues (R380, R381), the dispatcher
and the cyclic table (R290 to R295), BAR2 (R168, R170, R377) and MSI-X (R384).
-/
namespace Sys2Proof.Machine

/-! ### Doorbells (R378, R379, R385, R388) -/

/-- A doorbell write that is ignored is counted. -/
def Dev.badDoorbell (d : Dev) (f q : Nat) : Dev :=
  { d with hif := { d.hif with
    dbErr := Tab.put f (min (Tab.get 0 f d.hif.dbErr + 1) (2 ^ 32 - 1)) d.hif.dbErr
    dbErrQueue := Tab.put f q d.hif.dbErrQueue } }

/-- Doorbells are taken: the link is up, the package is not in the parapet state, the function is enabled and not under reset. -/
def Dev.takesDoorbell (d : Dev) (f : Nat) : Bool := d.linkLive && d.funcLive f

def sqDoorbell (d : Dev) (f q value : Nat) : Dev :=
  let u := d.queue f q
  if !d.takesDoorbell f then d
  else if u.st ≠ .bound || u.sqSize ≤ value then d.badDoorbell f q
  else d.setQueue f q { u with sqTail := value }

def execSqDoorbell (f : FuncId) (q : QueueId) (value : Word) (s : State) : Res := onDev s fun _ d => sqDoorbell d f q value.toNat

/-- Entries that a new CQ head frees. -/
def Queue.freed (u : Queue) (head : Nat) : Nat := (head + u.cqSize - u.cqHead) % u.cqSize

def cqDoorbell (d : Dev) (f q value : Nat) : Dev :=
  let u := d.queue f q
  if !d.takesDoorbell f then d
  else if u.st ≠ .bound || u.cqSize ≤ value || u.unread < u.freed value then d.badDoorbell f q
  else d.setQueue f q { u with cqHead := value, unread := u.unread - u.freed value }

def execCqDoorbell (f : FuncId) (q : QueueId) (value : Word) (s : State) : Res := onDev s fun _ d => cqDoorbell d f q value.toNat

/-! ### Fetching (R382, R383) -/

/-- Completions that a command not completed may still owe. -/
def owes (c : Command) : Nat := if cmdMayBeLong c then 2 else 1

/-- W of R382. -/
def Dev.owed (d : Dev) (f q : Nat) : Nat :=
  ((d.queue f q).fetched.map fun x => owes x.cmd).sum
    + ((d.opens.filter fun o => o.func = f && o.queue = q).map fun o => owes o.cmd).sum
    + d.longs.countP fun x => x.2.used && x.2.func = f && x.2.queue = q && !x.2.st.terminal

def Queue.cqFree (u : Queue) : Nat := (u.cqHead + 2 * u.cqSize - u.cqTail - 1) % u.cqSize
/-- Commands that wait in the ring. -/
def Queue.unfetched (u : Queue) : Nat := (u.sqTail + u.sqSize - u.sqHead) % u.sqSize

/-- The next command of a queue may be fetched. -/
def Dev.mayFetch (d : Dev) (f q : Nat) : Bool :=
  let u := d.queue f q
  d.inService && d.funcLive f && u.st = .bound && 0 < u.unfetched && d.owed f q + 2 ≤ u.cqFree

/-- Round robin: a queue is served again once every queue that could be served has been. -/
def Dev.turnOf (d : Dev) (f q : Nat) : Bool :=
  !d.hif.fetchRound.contains (64 * f + q)
    || d.hif.queues.all fun x => d.hif.fetchRound.contains x.1 || !d.mayFetch (x.1 / 64) (x.1 % 64)

def Dev.takeTurn (d : Dev) (f q : Nat) : Dev :=
  let n := 64 * f + q
  { d with hif := { d.hif with fetchRound := if d.hif.fetchRound.contains n then [n] else d.hif.fetchRound ++ [n] } }

/-- Fetches commands one after another; none where one of them may not be fetched. -/
def fetchAll (f q : Nat) : List Command → Dev → Option Dev
  | [], d => some d
  | c :: t, d =>
    if d.mayFetch f q then
      fetchAll f q t (d.modQueue f q fun u =>
        let head := (u.sqHead + 1) % u.sqSize
        { u with sqHead := head, fetched := u.fetched ++ [{ cmd := c, sqHead := head }] })
    else none

def commandFetch (d : Dev) (f q : Nat) (cmds : List Command) : Dev :=
  if d.turnOf f q then (fetchAll f q cmds (d.takeTurn f q)).getD d else d

def execCommandFetch (f : FuncId) (q : QueueId) (cmds : List Command) (s : State) : Res :=
  guarded (fetchWf cmds) (onDev s fun _ d => commandFetch d f q cmds)

def fetchCode : FetchError → Nat
  | .timeout => Config.hang
  | .unsupported => Config.noPermission
  | .completerAbort => Config.noPermission
  | .poisoned => Config.eccUncorrected

def execFetchFault (f : FuncId) (q : QueueId) (why : FetchError) (s : State) : Res :=
  onDev s fun _ d => if d.mayFetch f q && d.turnOf f q then
      (d.takeTurn f q).modQueue f q fun u => { u with st := .stopped, err := BitVec.ofNat 8 (fetchCode why) }
    else d

/-! ### Queues (R380, R381) -/

/-- The check of an enable, in the order of R380. -/
def Dev.queueError (d : Dev) (e : Env) (f : Nat) (u : Queue) : Nat :=
  let lg (n : Nat) : Bool := 4 ≤ n && n ≤ 15
  if u.sqBase.toNat % 4096 ≠ 0 || u.cqBase.toNat % 4096 ≠ 0 || !lg (bitsAt u.cfg.toNat 0 4) || !lg (bitsAt u.cfg.toNat 8 4) || u.asid = 0 then Config.badField
  else if d.deadAsid u.asid then Config.badHandle
  else if d.foreignAsid u.asid f then Config.noPermission
  else if !e.fuse.dieFitted u.dieOf || e.kf.dieDead u.dieOf then Config.unitAbsent
  else if d.funcQueues f ≤ d.hif.queues.countP fun x => x.1 / 64 = f && x.2.st ≠ .unbound then Config.quota
  else 0

/-- A write of 1 to ENABLE. -/
def Dev.enableQueue (d : Dev) (e : Env) (f q : Nat) : Dev :=
  let u := d.queue f q
  if u.st = .draining then d
  else if u.st ≠ .unbound then d.setQueue f q { u with enable := true }
  else
    let err := d.queueError e f u
    d.setQueue f q (if err = 0 then { u with enable := true, st := .bound, sqHead := 0, sqTail := 0, cqTail := 0, cqHead := 0, unread := 0, phase := true }
      else { u with enable := true, err := BitVec.ofNat 8 err })

/-- A write of 0 to ENABLE. -/
def Dev.disableQueue (d : Dev) (f q : Nat) : Dev :=
  d.modQueue f q fun u => { u with enable := false, st := if u.st = .bound || u.st = .stopped then .draining else u.st }

def execQueueEnable (f : FuncId) (q : QueueId) (s : State) : Res := onDev s fun e d => if d.hostOpen then d.enableQueue e f q else d
def execQueueDisable (f : FuncId) (q : QueueId) (s : State) : Res := onDev s fun _ d => if d.hostOpen then d.disableQueue f q else d

/-- The last completion of a draining queue has been written. -/
def execQueueDrainDone (f : FuncId) (q : QueueId) (s : State) : Res :=
  onDev s fun _ d => if (d.queue f q).st = .draining && d.owed f q = 0 then d.modQueue f q fun u => { u with st := .unbound } else d

/-! ### The dispatcher (R291) -/

/-- Starts a held head that the dispatcher chose. -/
def startChosen (e : Env) (d : Dev) (n : Nat) (owner : Bool) : Dev :=
  match (d.queue (n / 64) (n % 64)).fetched.head? with
  | none => d
  | some h =>
    let op := cmdOpcode h.cmd
    if op = opSpanLaunch then startCmd e d (n / 64) (n % 64) h owner spanLaunchCheck runSpanLaunch
    else if op = opSeqStep then startCmd e d (n / 64) (n % 64) h owner seqStepCheck runSeqStep
    else startCmd e d (n / 64) (n % 64) h owner trestleCheck runTrestleCmd

def execDispatch (d : DieId) (x : Executor) (s : State) : Res :=
  guarded x.wf (onDev s fun e v =>
    if v.inService then
      match v.choice e d x with
      | some (n, owner) => (startChosen e v n owner).sweepLeavers e
      | none => v
    else v)

/-! ### The cyclic table (R294) -/

def Sch.enabled (s : Sch) : Bool := bitAt s.cycCtrl.toNat 0
def Sch.nslot (s : Sch) : Nat := bitsAt s.cycCtrl.toNat 8 6 + 1
def slotLen (v : Quad) : Nat := bitsAt v.toNat 0 16
/-- Ticks of LOCAL_TIME of a slot. -/
def slotTicks (v : Quad) : Nat := slotLen v * Config.usTicks
def Sch.slotReg (s : Sch) (i : Nat) : Quad := Tab.get 0x64#64 i s.slots

/-- LOCAL_TIME at which the next cycle begins. -/
def Sch.nextCycle (s : Sch) : Nat :=
  if s.inCycle then s.cycBegin + (s.cycle.map slotTicks).sum else max s.cycStart.toNat s.enabledAt

def cycleStart (d : Dev) : Dev :=
  let t := d.sch.nextCycle
  { d with sch := { d.sch with
    cycle := (List.range d.sch.nslot).map d.sch.slotReg, cycBegin := t, slotBegin := t, slot := 0, inCycle := true
    cycles := if d.sch.inCycle then d.sch.cycles + 1 else d.sch.cycles } }

def execCycleStart (s : State) : Res :=
  if s.dev.running && s.dev.sch.enabled then onDevAt s s.dev.sch.nextCycle fun _ d => cycleStart d else .next s

/-- LOCAL_TIME at which the next slot of the cycle begins. -/
def Sch.nextSlot (s : Sch) : Nat := s.slotBegin + slotTicks ((s.cycle[s.slot]?).getD 0#64)

def execSlotStart (s : State) : Res :=
  let c := s.dev.sch
  if s.dev.running && c.enabled && c.inCycle && decide (c.slot + 1 < c.cycle.length) then
    onDevAt s c.nextSlot fun _ d => { d with sch := { d.sch with slot := c.slot + 1, slotBegin := c.nextSlot } }
  else .next s

/-! ### BAR2 (R168, R170, R377) -/

/-- What a BAR2 access reaches. -/
inductive Bar2 where
  | refused
  | dram (pa : Nat)
  | near (at_ : Nat)
  /-- A hole of the near window, or a fenced core's slot: reads 0. -/
  | hole
deriving DecidableEq, Repr

/-- The near window of the physical function (R166). -/
def nearTarget (e : Env) (d : Dev) (a : Nat) : Bar2 :=
  let cl := a / 0x4000000
  let p := a / 0x200000 % 32
  let me := a / 0x80000 % 4
  if !e.fuse.clusterFitted cl || e.kf.coreFenced cl p || 0x60000 ≤ a % 0x80000 then .hole
  else
    let st := (d.eng cl p (4 + me)).st
    if st = stIdle || st = stLoaded || st = stDrained then .near a else .refused

def pageOpen (d : Dev) (pa : Nat) : Bool := d.pageState (pa / pageBytes) = .opn || d.pageState (pa / pageBytes) = .mutable

/-- HIF_BAR2_BASE and HIF_BAR2_MAP.VA, without the bits below the BAR2 size. -/
def Hif.base (h : Hif) : Nat := h.bar2Base.toNat / 2 ^ h.bar2Log2 * 2 ^ h.bar2Log2
def Hif.mapVa (h : Hif) (m : Nat) : Nat := bitsAt m 30 21 * 2 ^ 30 / 2 ^ h.bar2Log2 * 2 ^ h.bar2Log2

def bar2Target (e : Env) (d : Dev) (f off : Nat) (write : Bool) : Bar2 :=
  if d.ras.st ≠ .running || d.funcResetting f then .refused
  else if f = 0 then
    let pa := d.hif.base + off
    if e.fuse.isDram pa then (if pageOpen d pa then .dram pa else .refused)
    else if nearBase ≤ pa && pa < nearEnd then nearTarget e d (pa - nearBase)
    else .refused
  else
    let m := (Tab.get 0#64 f d.hif.bar2Map).toNat
    let asid := bitsAt m 4 12
    let va := d.hif.mapVa m + off
    if !bitAt m 0 || badAsid asid || d.deadAsid asid || d.foreignAsid asid f || sealedBase ≤ va then .refused
    else match translate e.fuse d { die := 0, asid := asid, func := f, write := write, engine := false } va with
      | .pa pa => if pageOpen d pa then .dram pa else .refused
      | _ => .refused

/-- An access of a virtual function is translated by a walk from die 0 (R377, R218; log entry 80). -/
def Dev.bar2Walk (e : Env) (d : Dev) (f off : Nat) : Dev :=
  if f = 0 then d
  else
    let m := (Tab.get 0#64 f d.hif.bar2Map).toNat
    d.askWalk e none { die := 0, asid := bitsAt m 4 12, func := f, write := false, engine := false } (d.hif.mapVa m + off)

/-- BLK_BAR2_REFUSED counts; in the parapet state it does not. -/
def Dev.bar2Refuse (d : Dev) : Dev :=
  if d.ras.st = .running then { d with blk := { d.blk with bar2Refused := min (d.blk.bar2Refused + 1) (2 ^ 32 - 1) } } else d

def bar2Read (e : Env) (d : Dev) (f off len : Nat) : Dev :=
  match bar2Target e d f off false with
  | .refused => d.bar2Refuse.emit (.readData (List.replicate len 0xFF#8) false)
  | .hole => d.emit (.readData (List.replicate len 0#8) false)
  | .dram pa =>
    let d := (d.bar2Walk e f off).askRange e { pa := pa, n := 0 } len hostSlot
    match d.badIn pa len with
    | some w =>
      let (x, d) := (d.uncorrected e.fuse w).free (8 * len)
      d.emit (.readData (toBytes len x.toNat) true)
    | none => d.emit (.readData (Memory.read d.blk.dram pa len) false)
  | .near a =>
    match (List.range (len / 8 + 2)).find? fun i => d.blk.nearBad.contains (a / 8 + i) && 8 * (a / 8 + i) < a + len with
    | some i =>
      let (x, d) := (d.nearUncorrected (8 * (a / 8 + i))).free (8 * len)
      d.emit (.readData (toBytes len x.toNat) true)
    | none => d.emit (.readData (Memory.read d.blk.near a len) false)

def bar2Write (e : Env) (d : Dev) (f off : Nat) (data : List Byte) (poisoned : Bool) : Dev :=
  if poisoned then d.bar2Refuse
  else match bar2Target e d f off true with
    | .refused => d.bar2Refuse
    | .hole => d
    | .dram pa => (((d.bar2Walk e f off).askRange e { pa := pa, n := 0 } data.length hostSlot).writePa pa data).unpoison pa data.length
    | .near a => d.nearWrite a data

/-- The access lies in BAR2, and BAR2 is served. -/
def Dev.bar2Hit (d : Dev) (off len : Nat) : Bool := d.busUp && off + len ≤ 2 ^ d.hif.bar2Log2

def execBar2Read (f : FuncId) (off len : Nat) (s : State) : Res :=
  guarded (barAccess off len 4096) (onDev s fun e d => if d.bar2Hit off len then bar2Read e d f off len else d)

def execBar2Write (f : FuncId) (off : Nat) (data : List Byte) (poisoned : Bool) (s : State) : Res :=
  guarded (barAccess off data.length 512) (onDev s fun e d => if d.bar2Hit off data.length then bar2Write e d f off data poisoned else d)

/-! ### MSI-X (R384) -/

/-- The host unmasks a vector; a message that its PBA bit holds is sent. -/
def msixUnmask (d : Dev) (n : Nat) : Dev :=
  let d := { d with hif := { d.hif with unmasked := if d.hif.unmasked.contains n then d.hif.unmasked else d.hif.unmasked ++ [n] } }
  if d.hif.pba.contains n then
    ({ d with hif := { d.hif with pba := d.hif.pba.filter (· ≠ n) } }).emit (.msix (n / 64) (n % 64))
  else d

def execMsixUnmask (f : FuncId) (v : Fin 64) (s : State) : Res :=
  onDev s fun _ d => if d.linkLive then msixUnmask d (64 * f + v) else d

end Sys2Proof.Machine
end

