-- ==== Sys2Proof/Machine/Security.lean ====
section
/-!
DEFINITION. The submissions to the security processor (R403, R404, R409 to R411): the write of SEC_SUBMIT, owner records, images, and the end of a flash
write.
-/
namespace Sys2Proof.Machine

/-- A write of SEC_SUBMIT. -/
def Dev.writeSubmit (d : Dev) (v : Nat) : Dev :=
  let s := d.sec
  let kind := bitsAt v 0 2
  if !bitAt v 63 then d
  else if s.submitBusy then { d with sec := { s with submitErr := BitVec.ofNat 8 Config.busy } }
  else if kind = 0 || (kind = 2 && !s.recovery) then { d with sec := { s with submitErr := BitVec.ofNat 8 Config.badField } }
  else { d with sec := { s with submitBusy := true, submitPhase := 1#2, submitKind := kind } }

/-- A submission of a kind is being read and checked. -/
def Dev.checking (d : Dev) (kind : Nat) : Bool :=
  d.pins.powered && d.sec.submitBusy && d.sec.submitPhase = 1#2 && d.sec.submitKind = kind

/-- The open submission ends with a result. -/
def Dev.endSubmit (d : Dev) (code : Nat) : Dev :=
  { d with sec := { d.sec with submitBusy := false, submitPhase := 0#2, submitErr := BitVec.ofNat 8 code } }

/-! ### Owner records -/

/-- The record that the open submission names has been read: it is checked and, where it passes, takes effect. -/
def ownerRecord (e : Env) (d : Dev) (l : List Byte) : Dev :=
  if !d.checking 1 then d
  else
    let err := if d.sec.submitLen ≠ 1024#64 then Config.badField else recordError e.fuse d.sec l
    if err = 0 then (d.applyRecord l).endSubmit Config.ok else d.endSubmit err

def execClaim (record : List Byte) (s : State) : Res := guarded (recordIs 1 record) (onDev s fun e d => ownerRecord e d record)
def execOwnerRelease (record : List Byte) (s : State) : Res := guarded (recordIs 2 record) (onDev s fun e d => ownerRecord e d record)
def execPubEnrol (record : List Byte) (s : State) : Res := guarded (recordIs 3 record) (onDev s fun e d => ownerRecord e d record)
def execPubRemove (record : List Byte) (s : State) : Res := guarded (recordIs 4 record) (onDev s fun e d => ownerRecord e d record)
def execReqEnrol (record : List Byte) (s : State) : Res := guarded (recordIs 5 record) (onDev s fun e d => ownerRecord e d record)
def execReqRemove (record : List Byte) (s : State) : Res := guarded (recordIs 6 record) (onDev s fun e d => ownerRecord e d record)
def execPolicy (record : List Byte) (s : State) : Res := guarded (recordIs 7 record) (onDev s fun e d => ownerRecord e d record)

/-! ### Images (R403) -/

/-- The bytes read by DMA: they must be those of SEC_SUBMIT_LEN. -/
def Dev.submitted (d : Dev) (u : Fuses) (img : List Byte) : Except (Nat × Nat) FwInfo :=
  if img.length ≠ d.sec.submitLen.toNat then .error (2, Config.badField) else checkImage u d.sec.floor img

def imageBoot (e : Env) (d : Dev) (img : List Byte) : Dev :=
  if !d.checking 2 then d
  else match d.submitted e.fuse img with
    | .error x => d.endSubmit x.2
    | .ok i => (d.bootHost i).endSubmit Config.ok

def execImageBoot (img : List Byte) (s : State) : Res := onDev s fun e d => imageBoot e d img

/-- The image region is erased and the write begins; in recovery mode the image boots meanwhile. -/
def imageWriteFlash (e : Env) (d : Dev) (img : List Byte) : Dev :=
  if !d.checking 3 then d
  else match d.submitted e.fuse img with
    | .error x => d.endSubmit x.2
    | .ok i =>
      let d := if d.sec.recovery then d.bootHost i else d
      { d with sec := { d.sec with submitPhase := 2#2, flash := [], flashNew := img } }

def execImageWriteFlash (img : List Byte) (s : State) : Res := onDev s fun e d => imageWriteFlash e d img

def execFlashWriteDone (s : State) : Res :=
  onDev s fun _ d =>
    if d.pins.powered && d.sec.submitBusy && d.sec.submitPhase = 2#2 then
      ({ d with sec := { d.sec with flash := d.sec.flashNew, flashNew := [] } }).endSubmit Config.ok
    else d

end Sys2Proof.Machine
end

