-- ==== Sys2Proof/Machine/Registers.lean ====
section
/-!
DEFINITION. The registers of BAR0 (R10, R376, R431 to R433): what a read of each returns, which of them a read clears, what a write of each does, and the
rows that are such writes. Each block's fields follow its own rule.
-/
namespace Sys2Proof.Machine

/-! ### Offsets -/

/-- The registers of a virtual function (R376). -/
def vfServed (off : Nat) : Bool :=
  off < 0x10 || (0x200000 ≤ off && off < 0x202000) || (0x810000 ≤ off && off < 0x814000) || (0xA00000 ≤ off && off < 0xA01000)
    || (0xA10000 ≤ off && off < 0xA10028)

/-- RAS_ registers and the fault log. -/
def rasReg (off : Nat) : Bool := (0x800000 ≤ off && off < 0x800A00) || (0x810000 ≤ off && off < 0x814000)

/-- The status registers of R342, with the PWR_ and CLK_ registers that R372 names. -/
def statusReg (off : Nat) : Bool :=
  off < 0x400 || rasReg off || off = 0x700000 || (0x700140 ≤ off && off < 0x700160) || off = 0x700028 || off = 0x700038
    || (0x300200 ≤ off && off < 0x300300) || off = 0x300040 || (0x400000 ≤ off && off < 0x4000A0)
    || off = 0x900028 || off = 0x900030 || off = 0x900038 || off = 0x900040 || off = 0x900050 || off = 0x900058 || off = 0x901000
    || (0x901100 ≤ off && off < 0x901180)

/-- What the physical function serves in recovery mode (R402). -/
def recoveryServed (off : Nat) : Bool := off < 0x10 || off = 0xA10000 || off = 0xA10020 || (0xB00000 ≤ off && off < 0xB00058)

/-- The management bus reaches the always-on registers in recovery mode too (R349, R392). -/
def alwaysOn (off : Nat) : Bool := rasReg off || (0x900000 ≤ off && off < 0x900060)

/-- The place of an offset in an array of `n` registers that lie `stride` apart. -/
def place (off base n stride : Nat) : Option (Nat × Nat) :=
  if base ≤ off && off < base + n * stride then some ((off - base) / stride, (off - base) % stride) else none

/-- 64 bits of a wider register, from bit 8 × `r`. -/
def slice (v r : Nat) : Nat := bitsAt v (8 * r) 64

/-! ### Reads -/

def readKf (e : Env) (off : Nat) : Nat :=
  if off = 0 then kfId e.fuse
  else if off = 8 then kfCap e.fuse e.kf
  else match place off 0x100 16 8 with
    | some (c, _) => kfCoreState e.fuse e.kf c
    | none => match place off 0x200 16 0x20 with
      | some (c, r) => ofBytes ((List.range 8).map fun j => e.kf.vmapEntry c (r + j))
      | none => 0

def readSpn (e : Env) (d : Dev) (f off : Nat) : Nat :=
  if off = 0x100000 then d.defaultDeadline.toNat
  else if off = 0x100008 then spnLongUse d
  else match place off 0x101000 256 8 with
    | some (k, _) => if e.fuse.dieFitted (k / 64) then spnSpan d k else 0
    | none => match place off 0x104000 256 0x20 with
      | some (k, r) =>
        let x := d.disp (k / 16) (k % 16)
        match r with
        | 0 => x.next.toNat + x.limit.toNat * 2 ^ 32
        | 8 => x.pStart.toNat + x.pLimit.toNat * 2 ^ 32
        | 16 => dispOwn x
        | _ => 0
      | none => match place off 0x200000 1024 8 with
        | some (i, _) => (d.event f i).toNat
        | none => 0

def EccCount.word (c : EccCount) : Nat := c.corr + c.uncorr * 2 ^ 32 + c.fix * 2 ^ 48

def eccOf (t : Tab EccCount) (k : Nat) : Nat := (Tab.get {} k t : EccCount).word

def readBlk (e : Env) (d : Dev) (off : Nat) : Nat × Dev :=
  let b := d.blk
  let u := e.fuse
  match off with
  | 0x300000 => (b.tierDeadline.toNat, d)
  | 0x300008 => (b.faultDeadline.toNat, d)
  | 0x300010 => (b.scrubPeriod.toNat, d)
  | 0x300018 => (b.tlbInvVa.toNat, d)
  | 0x300028 => (bit b.tlbBusy + 2 * bit b.tlbError, d)
  | 0x300030 => (bit b.locked + 2 * bit b.invalid, d)
  | 0x300038 => (b.bar2Refused, d)
  | 0x300040 => (b.eccLogAddr.toNat + b.eccLogTier.toNat * 2 ^ 48 + b.eccLogCount * 2 ^ 52, d)
  | 0x300120 => (b.poolBulk.toNat, d)
  | 0x300160 => (if b.locked then d.freeBulk else 0, d)
  | _ => match place off 0x300100 4 8, place off 0x300140 4 8, place off 0x300200 32 8, place off 0x300300 32 8, place off 0x300400 4 8,
      place off 0x300420 4 8, place off 0x310000 4096 8 with
    | some (k, _), _, _, _, _, _, _ => (if u.dieFitted k then (d.bondedPool k).toNat else 0, d)
    | _, some (k, _), _, _, _, _, _ => (if u.dieFitted k && b.locked then d.freeBonded k else 0, d)
    | _, _, some (c, _), _, _, _, _ =>
      if c < u.channels then
        let (sr, d) := d.selfRefresh e.now (srChannel c)
        ((Tab.get ({} : Channel) c b.channels).st.toNat + 4 * bit sr, d)
      else (0, d)
    | _, _, _, some (c, _), _, _, _ => (eccOf b.eccBulk c, d)
    | _, _, _, _, some (k, _), _, _ => (eccOf b.eccBonded k, d)
    | _, _, _, _, _, some (k, _), _ => (eccOf b.eccNear k, d)
    | _, _, _, _, _, _, some (a, _) => (if a = 0 then 0 else d.asidEntry a, d)
    | _, _, _, _, _, _, _ => (0, d)

def readBtr (e : Env) (d : Dev) (off : Nat) : Nat × Dev :=
  let b := d.btr
  let u := e.fuse
  if !u.hasTrestle then (0, d)
  else match place off 0x400000 20 8, place off 0x400100 20 8, place off 0x401000 640 8, place off 0x403000 4 8, place off 0x403020 4 8,
      place off 0x403040 4 8 with
    | some (k, _), _, _, _, _, _ =>
      if !(k < u.stackCount) then (0, d)
      else if Tab.get 0#2 k b.stackSet = 3#2 then (3, d)
      else
        let (sr, d) := d.selfRefresh e.now (srStack k)
        (if sr then 2 else 1, d)
    | _, some (k, _), _, _, _, _ => (Tab.get 0 k b.xfer, d)
    | _, _, some (k, _), _, _, _ =>
      ((Tab.get 0#16 k b.busy).toNat + bit (!(d.fixedOf k 15).isEmpty) * 2 ^ 15 + (Tab.get 0#16 k b.frozen).toNat * 2 ^ 16, d)
    | _, _, _, some (k, _), _, _ => (Tab.get 0 k b.walks, d)
    | _, _, _, _, some (k, _), _ => (Tab.get 0 k b.pfxHit + Tab.get 0 k b.pfxMiss * 2 ^ 32, d)
    | _, _, _, _, _, some (k, _) => (Tab.get 0 k b.scored, d)
    | _, _, _, _, _, _ => (0, d)

/-- A port or channel that is fitted; on KPV-2L a bonded port shows its walker's slot alone (R237). -/
def Fuses.arbShown (u : Fuses) (p k : Nat) : Bool := if p < 640 then p / 32 < u.stackCount && (u.hasTrestle || k = 15) else p - 640 < u.channels

def readArb (e : Env) (d : Dev) (off : Nat) : Nat :=
  match off with
  | 0x500000 => d.arb.ageStep.toNat
  | 0x500008 => d.arb.slack.toNat
  | 0x500010 => d.arb.slack2.toNat
  | _ => match place off 0xC00000 672 0x800 with
    | none => 0
    | some (p, r) =>
      let k := r % 0x200 / 8
      let key := 64 * p + k
      if !e.fuse.arbShown p k then 0
      else match r / 0x200 with
        | 0 => Tab.get 0 key d.arb.grants
        | 1 => Tab.get 0 key d.arb.waits
        | 2 => Tab.get 0 key d.arb.maxWait
        | _ => arbOwner (d.shownSlot p k)

/-- SCH_CYC_POS. -/
def cycPos (s : Sch) (now : Nat) : Nat :=
  if s.inCycle then s.slot + min ((now - s.slotBegin) / Config.usTicks) 0xFFFF * 2 ^ 8 + s.cycles % 2 ^ 32 * 2 ^ 32 else s.cycles % 2 ^ 32 * 2 ^ 32

/-- SCH_FUNC with RESETTING. -/
def schFuncWord (d : Dev) (f : Nat) : Nat := (d.schFunc f).toNat % 2 ^ 24 + bit (d.funcResetting f) * 2 ^ 24

def readSch (e : Env) (d : Dev) (off : Nat) : Nat :=
  let s := d.sch
  match off with
  | 0x600000 => s.cycCtrl.toNat
  | 0x600008 => s.cycStart.toNat
  | 0x600010 => cycPos s e.now
  | 0x600018 => s.lookahead.toNat
  | _ => match place off 0x600100 16 8, place off 0x600200 64 8, place off 0x600400 32 8, place off 0x600500 16 8, place off 0x600600 32 8,
      place off 0x600700 64 8, place off 0x610000 2048 0x20 with
    | some (k, _), _, _, _, _, _, _ => (d.schClass k).toNat
    | _, some (i, _), _, _, _, _, _ => (s.slotReg i).toNat
    | _, _, some (f, _), _, _, _, _ => schFuncWord d f
    | _, _, _, some (k, _), _, _, _ => Tab.get 0 k s.acctClass
    | _, _, _, _, some (f, _), _, _ => Tab.get 0 f s.acctFunc
    | _, _, _, _, _, some (k, _), _ => if e.fuse.dieFitted (k / 16) then Tab.get 0 k s.vt else 0
    | _, _, _, _, _, _, some (k, r) => slice (qSave d (k / 64) (k % 64)) r
    | _, _, _, _, _, _, _ => 0

def readVia (e : Env) (d : Dev) (off : Nat) : Nat :=
  let v := d.via
  if e.fuse.part = .kpv4S then 0
  else match off with
    | 0x700000 => v.pos.toNat
    | 0x700008 => v.selfLogical.toNat
    | 0x700010 => v.maint.toNat
    | 0x700018 => v.vcWeight.toNat
    | 0x700020 => v.policy.toNat
    | 0x700028 => v.mapout.toNat
    | 0x700038 => groupStat d
    | 0x700040 => v.dropped
    | _ => match place off 0x700100 4 8, place off 0x700140 4 8, place off 0x700200 4 0x20, place off 0x710000 1024 8 with
      | some (p, _), _, _, _ => bit (d.port p).traffic
      | _, some (p, _), _, _ => if e.fuse.portFitted p then portState d e.now p else 0
      | _, _, some (p, r), _ =>
        let x := d.port p
        match r with
        | 0 => x.sent
        | 8 => x.received
        | 16 => x.replays
        | _ => x.fecCorr + x.fecUncorr * 2 ^ 32
      | _, _, _, some (k, _) =>
        let i := k % 256
        match k / 256 with
        | 0 => v.spanPort e.fuse i
        | 1 => v.stateEntry e.fuse i
        | 2 => v.lmapOf i
        | _ => v.peer i
      | _, _, _, _ => 0

def readRas (d : Dev) (f off : Nat) : Nat :=
  let r := d.ras
  match off with
  | 0x800000 => rasStatus r
  | 0x800008 => r.cause.toNat
  | 0x800010 => r.lastTime.toNat
  | 0x800018 => r.ctrl.toNat
  | 0x800028 => r.limit.toNat
  | 0x800030 => r.window.toNat
  | 0x800038 => r.wdt.toNat
  | 0x800040 => r.cePolicy.toNat
  | 0x800058 => r.unretireStatus.toNat
  | 0x800060 => r.alert.toNat
  | 0x800068 => r.eventSeq
  | _ => match place off 0x800100 16 8, place off 0x800200 64 0x20, place off 0x810000 256 0x40 with
    | some (j, _), _, _ => match r.hist[j]? with
      | some x => x.1 % 2 ^ 61 + x.2 * 2 ^ 61
      | none => 0
    | _, some (n, k), _ => slice (Tab.get 0#256 n r.events).toNat k
    | _, _, some (n, k) => slice (Tab.get 0#512 (256 * f + n) r.faultLog).toNat k
    | _, _, _ => 0

def readPwr (e : Env) (d : Dev) (off : Nat) : Nat :=
  let p := d.pwr
  match off with
  | 0x900000 => p.cap.toNat
  | 0x900008 => p.slew.toNat
  | 0x900010 => p.brakeFloor.toNat
  | 0x900018 => p.safe.toNat
  | 0x900028 => pwrStatus e.fuse d
  | 0x900030 => p.input.toNat
  | 0x900038 => pwrLimits p
  | 0x900040 => pwrTemp p
  | 0x900048 => p.therm.toNat
  | 0x900050 => pwrEvents p
  | 0x900058 => p.energy % 2 ^ 64
  | 0x901000 => e.now
  | 0x901008 => p.sleepPolicy.toNat
  | _ => match place off 0x901100 16 8 with
    | some (c, _) => clkCluster e d c
    | none => 0

def readHif (d : Dev) (f off : Nat) : Nat :=
  let h := d.hif
  match off with
  | 0xA10000 => bit h.ready + 2 * bit d.sec.recovery
  | 0xA10008 => if f = 0 then h.bar2Base.toNat else 0
  | 0xA10010 => if f = 0 then 0 else (Tab.get 0#64 f h.bar2Map).toNat
  | 0xA10018 => Tab.get 0 f h.dbErr + Tab.get 0 f h.dbErrQueue * 2 ^ 32
  | 0xA10020 => if f = 0 then h.gen.toNat + h.width.toNat * 2 ^ 4 + bit h.flit * 2 ^ 8 + h.downCount * 2 ^ 16 else 0
  | _ => match place off 0xA00000 64 0x40 with
    | none => 0
    | some (q, r) =>
      let u := d.queue f q
      match r with
      | 0 => u.sqBase.toNat
      | 8 => u.cqBase.toNat
      | 16 => u.cfg.toNat
      | 24 => qCtrl u
      | _ => 0

def readSec (e : Env) (d : Dev) (off : Nat) : Nat :=
  let s := d.sec
  match off with
  | 0xB00000 => bootStatus s
  | 0xB00008 => secFw s
  | 0xB00010 => e.fuse.deviceId.toNat
  | 0xB00018 => bit s.plainForbid
  | 0xB00020 => s.ownerCounter.toNat
  | 0xB00028 => pubMap s
  | 0xB00030 => reqMap s
  | 0xB00038 => s.submitAddr.toNat
  | 0xB00040 => s.submitLen.toNat
  | 0xB00050 => submitStatus s
  | _ => 0

/-- The window of a core (R66). -/
def readCore (e : Env) (d : Dev) (cl ph r : Nat) : Nat :=
  if !e.fuse.clusterFitted cl || e.kf.coreFenced cl ph then 0
  else
    let c := d.core cl ph
    match r with
    | 0x2000 => trsState d cl ph
    | 0x2008 => trsRouteUse d cl ph
    | 0x2010 => c.eccCorr
    | 0x2018 => c.eccUncorr
    | _ => match place r 0 4 0x400, place r 0x1000 4 0x400 with
      | some (n, k), _ =>
        let x := d.eng cl ph n
        match k with
        | 0 => ceState x c.epoch
        | 8 => x.firings
        | 16 => x.stallInput
        | 24 => x.stallCredit
        | _ => 0
      | _, some (n, k) =>
        let x := d.eng cl ph (4 + n)
        match k with
        | 0 => meState x c.epoch
        | 8 => meWindow x
        | 16 => meBudget x
        | 24 => x.conflicts
        | _ => 0
      | _, _ => 0

/-- The value of the register at a multiple of 8 in the BAR0 of a function; 0 where none lies (R432). -/
def regValue (e : Env) (d : Dev) (f off : Nat) : Nat × Dev :=
  match off / 0x100000 with
  | 0 => (readKf e off, d)
  | 1 => (readSpn e d f off, d)
  | 2 => (readSpn e d f off, d)
  | 3 => readBlk e d off
  | 4 => readBtr e d off
  | 5 => (readArb e d off, d)
  | 6 => (readSch e d off, d)
  | 7 => (readVia e d off, d)
  | 8 => (readRas d f off, d)
  | 9 => (readPwr e d off, d)
  | 10 => (readHif d f off, d)
  | 11 => (readSec e d off, d)
  | _ => match place off 0x1000000 512 0x4000 with
    | some (k, r) => (readCore e d (k / 32) (k % 32) r, d)
    | none => (readArb e d off, d)

/-! ### Which reads are served (R341, R376, R402) -/

inductive Served where
  | value
  | zero
  | ones
deriving DecidableEq, Repr

def Dev.serves (d : Dev) (f off : Nat) (mgmt : Bool) : Served :=
  if f ≠ 0 && !vfServed off then .zero
  else if d.parapetHeld && !statusReg off then .ones
  else if d.sec.recovery && !((f = 0 && recoveryServed off) || (mgmt && alwaysOn off)) then .zero
  else .value

def Dev.read64 (e : Env) (d : Dev) (f off : Nat) (mgmt : Bool) : Nat × Dev :=
  match d.serves f off mgmt with
  | .zero => (0, d)
  | .ones => (2 ^ 64 - 1, d)
  | .value => regValue e d f off

/-! ### Registers that a read clears (R10) -/

/-- A 64-bit value of which a read of the named halves clears those halves. -/
def leftOf (lo hi : Bool) (v : Nat) : Nat := (if lo then 0 else v % 2 ^ 32) + (if hi then 0 else v / 2 ^ 32 * 2 ^ 32)

def eccLeft (lo hi : Bool) (k : Nat) (t : Tab EccCount) : Tab EccCount :=
  let v := leftOf lo hi (eccOf t k)
  Tab.put k { corr := bitsAt v 0 32, uncorr := bitsAt v 32 16, fix := bitsAt v 48 16 } t

/-- The register of a core window is read. -/
def clearCore (d : Dev) (cl ph r : Nat) (lo hi : Bool) : Dev :=
  let left := leftOf lo hi
  match r with
  | 0x2010 => d.modCore cl ph fun c => { c with eccCorr := left c.eccCorr }
  | 0x2018 => d.modCore cl ph fun c => { c with eccUncorr := left c.eccUncorr }
  | _ => match place r 0 4 0x400, place r 0x1000 4 0x400 with
    | some (n, 8), _ => d.modEng cl ph n fun x => { x with firings := left x.firings }
    | some (n, 16), _ => d.modEng cl ph n fun x => { x with stallInput := left x.stallInput }
    | some (n, 24), _ => d.modEng cl ph n fun x => { x with stallCredit := left x.stallCredit }
    | _, some (n, 24) => d.modEng cl ph (4 + n) fun x => { x with conflicts := left x.conflicts }
    | _, _ => d

def clearBlk (d : Dev) (off : Nat) (lo hi : Bool) : Dev :=
  let b := d.blk
  let left := leftOf lo hi
  match off with
  | 0x300038 => { d with blk := { b with bar2Refused := left b.bar2Refused } }
  | 0x300040 =>
    let v := left (b.eccLogAddr.toNat + b.eccLogTier.toNat * 2 ^ 48 + b.eccLogCount * 2 ^ 52)
    { d with blk := { b with eccLogAddr := BitVec.ofNat 48 v, eccLogTier := BitVec.ofNat 3 (bitsAt v 48 3), eccLogCount := bitsAt v 52 12 } }
  | _ => match place off 0x300300 32 8, place off 0x300400 4 8, place off 0x300420 4 8 with
    | some (c, _), _, _ => { d with blk := { b with eccBulk := eccLeft lo hi c b.eccBulk } }
    | _, some (k, _), _ => { d with blk := { b with eccBonded := eccLeft lo hi k b.eccBonded } }
    | _, _, some (k, _) => { d with blk := { b with eccNear := eccLeft lo hi k b.eccNear } }
    | _, _, _ => d

def clearBtr (d : Dev) (off : Nat) (lo hi : Bool) : Dev :=
  let b := d.btr
  let left (k : Nat) (t : Tab Nat) : Tab Nat := Tab.put k (leftOf lo hi (Tab.get 0 k t)) t
  match place off 0x400100 20 8, place off 0x403000 4 8, place off 0x403020 4 8, place off 0x403040 4 8 with
  | some (k, _), _, _, _ => { d with btr := { b with xfer := left k b.xfer } }
  | _, some (k, _), _, _ => { d with btr := { b with walks := left k b.walks } }
  | _, _, some (k, _), _ => { d with btr := { b with
      pfxHit := if lo then Tab.erase k b.pfxHit else b.pfxHit, pfxMiss := if hi then Tab.erase k b.pfxMiss else b.pfxMiss } }
  | _, _, _, some (k, _) => { d with btr := { b with scored := left k b.scored } }
  | _, _, _, _ => d

def clearVia (d : Dev) (off : Nat) (lo hi : Bool) : Dev :=
  if off = 0x700040 then { d with via := { d.via with dropped := leftOf lo hi d.via.dropped } }
  else match place off 0x700200 4 0x20 with
    | none => d
    | some (p, r) => d.modPort p fun x => match r with
      | 0 => { x with sent := leftOf lo hi x.sent }
      | 8 => { x with received := leftOf lo hi x.received }
      | 16 => { x with replays := leftOf lo hi x.replays }
      | _ => { x with fecCorr := if lo then 0 else x.fecCorr, fecUncorr := if hi then 0 else x.fecUncorr }

def clearPwr (d : Dev) (off : Nat) (lo hi : Bool) : Dev :=
  if off ≠ 0x900050 then d
  else
    let v := leftOf lo hi (pwrEvents d.pwr)
    { d with pwr := { d.pwr with evBrake := bitsAt v 0 16, evHb := bitsAt v 16 16, evForced := bitsAt v 32 16, evShort := bitsAt v 48 16 } }

def clearHif (d : Dev) (f off : Nat) (lo hi : Bool) : Dev :=
  if off ≠ 0xA10018 then d
  else { d with hif := { d.hif with
    dbErr := if lo then Tab.erase f d.hif.dbErr else d.hif.dbErr, dbErrQueue := if hi then Tab.erase f d.hif.dbErrQueue else d.hif.dbErrQueue } }

/-- The halves of the register at `off` that a read took are cleared, where its fields are RC. -/
def clearRead (d : Dev) (f off : Nat) (lo hi : Bool) : Dev :=
  match off / 0x100000 with
  | 3 => clearBlk d off lo hi
  | 4 => clearBtr d off lo hi
  | 7 => clearVia d off lo hi
  | 9 => clearPwr d off lo hi
  | 10 => clearHif d f off lo hi
  | _ => match place off 0x1000000 512 0x4000 with
    | some (k, r) => clearCore d (k / 32) (k % 32) r lo hi
    | none => d

/-- A read of the register at `off`, with what it clears. -/
def Dev.readReg (e : Env) (d : Dev) (f off : Nat) (mgmt lo hi : Bool) : Nat × Dev :=
  let (v, d') := d.read64 e f off mgmt
  (v, if d.serves f off mgmt = .value then clearRead d' f off lo hi else d')

/-- A width and alignment that BAR0 takes. -/
def aligned (off : Nat) (wide : Bool) : Bool := if wide then off % 8 = 0 else off % 4 = 0

/-- The PCIe link answers: a RETIRED package does not (R347). -/
def Dev.answersHost (d : Dev) : Bool := d.busUp && d.ras.st ≠ .retired

/-- A BAR0 read by the host. -/
def hostRead (e : Env) (d : Dev) (f off : Nat) (wide : Bool) : Dev :=
  if !d.answersHost || !aligned off wide then d
  else
    let lo := wide || off % 8 = 0
    let hi := wide || off % 8 = 4
    let (v, d) := d.readReg e f (off / 8 * 8) false lo hi
    d.emit (.readData (if wide then toBytes 8 v else toBytes 4 (if lo then v % 2 ^ 32 else v / 2 ^ 32)) false)

def execCounterReadClear (f : FuncId) (off : BitVec 26) (wide : Bool) (s : State) : Res := onDev s fun e d => hostRead e d f off.toNat wide

/-! ### Writes -/

/-- `new` where it meets its range, else `old`. -/
def inRange (ok : Bool) (new old : Nat) : Nat := if ok then new else old

def q64 (n : Nat) : Quad := BitVec.ofNat 64 n

def writeSpn (e : Env) (d : Dev) (f off v : Nat) : Dev :=
  if off = 0x100000 then { d with defaultDeadline := q64 (v % 2 ^ 32) }
  else match place off 0x200000 1024 8 with
    | some (i, _) => (d.setCounter f i (q64 v)).sweepLeavers e
    | none => d

def writeBlk (e : Env) (d : Dev) (off v : Nat) : Dev :=
  let b := d.blk
  let w := v % 2 ^ 32
  let us := 1 ≤ w && w ≤ 1000000
  match off with
  | 0x300000 => if us then { d with blk := { b with tierDeadline := q64 w } } else d
  | 0x300008 => if us then { d with blk := { b with faultDeadline := q64 w } } else d
  | 0x300010 => if v % 256 ≤ 168 then { d with blk := { b with scrubPeriod := q64 (v % 256) } } else d
  | 0x300018 => { d with blk := { b with tlbInvVa := q64 (bitsAt v 16 36 * 2 ^ 16) } }
  | 0x300020 => d.tlbInvalidate v
  | 0x300030 => d.lockPools e.fuse v
  | 0x300120 => if b.locked then d else { d with blk := { b with poolBulk := q64 (v % 2 ^ 54) } }
  | _ => match place off 0x300100 4 8, place off 0x310000 4096 8 with
    | some (k, _), _ =>
      if b.locked || !e.fuse.dieFitted k then d else { d with blk := { b with poolBonded := Tab.put k (q64 (v % 2 ^ 54)) b.poolBonded } }
    | _, some (a, _) =>
      if a = 0 then d else { d with blk := { b with asids := Tab.put a (q64 (v % 2 ^ 6 + bitsAt v 15 33 * 2 ^ 15)) b.asids } }
    | _, _ => d

/-- ARB_CLEAR (R238). -/
def arbClear (d : Dev) (v : Nat) : Dev :=
  let keep (t : Tab Nat) : Tab Nat := t.filter fun x =>
    !((bitAt v 10 || x.1 / 64 = bitsAt v 0 10) && (bitAt v 22 || x.1 % 64 = bitsAt v 16 6))
  if bitAt v 23 then { d with arb := { d.arb with grants := keep d.arb.grants, waits := keep d.arb.waits, maxWait := keep d.arb.maxWait } } else d

def writeArb (d : Dev) (off v : Nat) : Dev :=
  match off with
  | 0x500000 => if v % 2 ^ 16 = 0 then d else { d with arb := { d.arb with ageStep := q64 (v % 2 ^ 16) } }
  | 0x500008 => { d with arb := { d.arb with slack := q64 v } }
  | 0x500010 => { d with arb := { d.arb with slack2 := q64 (v % 2 ^ 32) } }
  | 0x500018 => arbClear d v
  | _ => d

/-- SCH_CYC_CTRL: ENABLE begins the table anew where it was 0, and ends the cycle under way where it is cleared (R294). -/
def writeCycCtrl (d : Dev) (now v : Nat) : Dev :=
  let s := d.sch
  let s' := { s with cycCtrl := q64 (bitsAt v 0 1 + bitsAt v 8 6 * 2 ^ 8) }
  { d with sch :=
      if !bitAt v 0 then { s' with inCycle := false, cycle := [] }
      else if s.enabled then s' else { s' with enabledAt := now, cycles := 0, inCycle := false, cycle := [] } }

/-- SCH_FUNC (R307): a write of 0 to ENABLE triggers a reset, a write of 1 during a reset takes effect at its end. -/
def writeFunc (e : Env) (d : Dev) (f v : Nat) : Dev :=
  let old := (d.schFunc f).toNat
  let q := inRange (bitsAt v 16 7 ≤ 64) (bitsAt v 16 7) (bitsAt old 16 7)
  let d := d.setSchFunc f (q64 (bitsAt v 0 16 + q * 2 ^ 16 + bitsAt old 23 1 * 2 ^ 23))
  let rest := d.hif.reenable.filter (· ≠ f)
  if bitAt v 23 then
    if d.funcResetting f then { d with hif := { d.hif with reenable := rest ++ [f] } } else d.setSchFunc f (q64 (putBit (d.schFunc f).toNat 23 true))
  else Dev.disableFunc e { d with hif := { d.hif with reenable := rest } } f

def writeSch (e : Env) (d : Dev) (off v : Nat) : Dev :=
  let s := d.sch
  match off with
  | 0x600000 => writeCycCtrl d e.now v
  | 0x600008 => { d with sch := { s with cycStart := q64 v } }
  | 0x600018 => if 1 ≤ v % 32 && v % 32 ≤ 16 then { d with sch := { s with lookahead := q64 (v % 32) } } else d
  | _ => match place off 0x600100 16 8, place off 0x600200 64 8, place off 0x600400 32 8 with
    | some (k, _), _, _ => { d with sch := { s with classes := Tab.put k (q64 (v % 2 ^ 48)) s.classes } }
    | _, some (i, _), _ =>
      let len := inRange (bitsAt v 0 16 ≠ 0) (bitsAt v 0 16) (slotLen (s.slotReg i))
      { d with sch := { s with slots := Tab.put i (q64 (len + bitsAt v 16 4 * 2 ^ 16 + bitsAt v 32 16 * 2 ^ 32)) s.slots } }
    | _, _, some (f, _) => writeFunc e d f v
    | _, _, _ => d

/-- VIA_PORT_CTRL (R335): TRAFFIC lets the flits that wait go out; TRAIN starts training. -/
def writePortCtrl (e : Env) (d : Dev) (p v : Nat) : Dev :=
  if !e.fuse.portFitted p then d
  else
    let d := (d.modPort p fun x => { x with traffic := bitAt v 0 }).serve p
    if bitAt v 1 && d.linkLive then d.trainPort e p else d

def writeVia (e : Env) (d : Dev) (off v : Nat) : Dev :=
  let a := d.via
  if e.fuse.part = .kpv4S then d
  else match off with
    | 0x700008 => { d with via := { a with selfLogical := q64 (v % 256) } }
    | 0x700010 => { d with via := { a with maint := q64 (v % 2) } }
    | 0x700018 =>
      let span := inRange (bitsAt v 0 8 ≠ 0) (bitsAt v 0 8) (bitsAt a.vcWeight.toNat 0 8)
      let state := inRange (bitsAt v 8 8 ≠ 0) (bitsAt v 8 8) (bitsAt a.vcWeight.toNat 8 8)
      { d with via := { a with vcWeight := q64 (span + state * 2 ^ 8) } }
    | 0x700020 =>
      let n := inRange (bitsAt v 0 4 ≠ 0) (bitsAt v 0 4) (bitsAt a.policy.toNat 0 4)
      let w := inRange (bitsAt v 16 16 ≠ 0) (bitsAt v 16 16) (bitsAt a.policy.toNat 16 16)
      { d with via := { a with policy := q64 (n + w * 2 ^ 16) } }
    | 0x700028 => d.writeMapout e v
    | 0x700030 => d.clearMapout e.fuse v
    | _ => match place off 0x700100 4 8, place off 0x710000 1024 8 with
      | some (p, _), _ => writePortCtrl e d p v
      | _, some (k, _) =>
        let i := k % 256
        match k / 256 with
        | 0 => if v % 8 = 5 || v % 8 = 6 then d else { d with via := { a with routeSpan := Tab.put i (q64 (v % 8)) a.routeSpan } }
        | 1 =>
          let old := a.stateEntry e.fuse i
          let p := inRange (v % 8 ≠ 5 && v % 8 ≠ 6) (v % 8) (old % 8)
          let alt := bitsAt v 4 3
          let alt := inRange (alt ≠ 0 && alt ≠ 5 && alt ≠ 6) alt (bitsAt old 4 3)
          { d with via := { a with routeState := Tab.put i (q64 (p + alt * 2 ^ 4)) a.routeState } }
        | 2 => { d with via := { a with lmap := Tab.put i (q64 (v % 512)) a.lmap } }
        | _ => d.writePeer e i v
      | _, _ => d

/-- The causes of R340 that persist. -/
def Dev.causesNow (d : Dev) : Nat :=
  bit d.pins.epo + 2 * bit d.pins.thermtrip + 4 * bit (!d.pins.inputGood || !d.pins.refclk) + 64 * bit (d.blk.channels.any fun x => x.2.st = 3#2)
    + 128 * bit (d.ras.st = .retired)

/-- RAS_UNRETIRE (R348): an accepted write erases the record and starts a cold reset, which boots at once where PERST_N is not asserted. -/
def Dev.unretire (e : Env) (d : Dev) (v : Nat) (auth : Bool) : Dev :=
  let r := d.ras
  if !bitAt v 0 then d
  else if r.st ≠ .retired then { d with ras := { r with unretireStatus := 2#3 } }
  else if !r.retiredBoot then { d with ras := { r with unretireStatus := 3#3 } }
  else if !auth then { d with ras := { r with unretireStatus := 4#3 } }
  else
    let d : Dev := { d with
      ras := { r with unretireStatus := 1#3, st := .resetting, retiredBoot := false, cause := 0#8, latched := 0#8, hist := [], resets := 0 }
      sec := { d.sec with record := [] } }
    let d := (Dev.coldStart e ((d.rasEvent e 8).cutFlash.rasEvent e 2 0 0xFF 0xFF 5))
    if d.pins.perst then d else (d.openPorts e).startBoot e.fuse

def writeRas (e : Env) (d : Dev) (off v : Nat) (auth : Bool) : Dev :=
  let r := d.ras
  match off with
  | 0x800008 => { d with ras := { r with cause := BitVec.ofNat 8 ((r.cause &&& ~~~(BitVec.ofNat 8 v)).toNat ||| d.causesNow) } }
  | 0x800018 =>
    let delay := inRange (bitsAt v 8 16 ≠ 0) (bitsAt v 8 16) (bitsAt r.ctrl.toNat 8 16)
    { d with ras := { r with ctrl := q64 (v % 2 + delay * 2 ^ 8) } }
  | 0x800020 => d.rasReset e v
  | 0x800028 => if v % 256 = 0 then d else { d with ras := { r with limit := q64 (v % 256) } }
  | 0x800030 => if v % 2 ^ 32 = 0 then d else { d with ras := { r with window := q64 (v % 2 ^ 32) } }
  | 0x800038 =>
    let core := inRange (100 ≤ bitsAt v 0 16) (bitsAt v 0 16) r.coreUs
    let pier := inRange (2 ≤ bitsAt v 16 8) (bitsAt v 16 8) r.pierMs
    { d with ras := { r with wdt := q64 (core + pier * 2 ^ 16) } }
  | 0x800040 =>
    let n := inRange (v % 256 ≠ 0) (v % 256) (r.cePolicy.toNat % 256)
    let h := inRange (bitsAt v 8 8 ≠ 0) (bitsAt v 8 8) (bitsAt r.cePolicy.toNat 8 8)
    { d with ras := { r with cePolicy := q64 (n + h * 2 ^ 8) } }
  | 0x800050 => d.unretire e v auth
  | 0x800060 => { d with ras := { r with alert := r.alert &&& ~~~(BitVec.ofNat 9 v) } }
  | _ => d

/-- CLK_ registers take writes through BAR0 alone, PWR_ registers over the management bus alone (R372). -/
def writeClk (e : Env) (d : Dev) (off v : Nat) : Dev :=
  match off with
  | 0x901008 =>
    let nap := inRange (bitsAt v 16 16 ≠ 0) (bitsAt v 16 16) d.pwr.napUs
    let deep := inRange (bitsAt v 32 16 ≠ 0) (bitsAt v 32 16) d.pwr.deepMs
    { d with pwr := { d.pwr with sleepPolicy := q64 (v % 2 ^ 16 + nap * 2 ^ 16 + deep * 2 ^ 32) } }
  | 0x901010 => d.clkWake e v
  | _ => d

def writePower (e : Env) (d : Dev) (off v : Nat) (mgmt : Bool) : Dev :=
  if mgmt then (if pwrWritable.contains off then d.writePwrLater e.fuse e.now off v else d) else writeClk e d off v

/-- Reserved bits of HIF_Q_CFG. -/
def qCfgMask (v : Nat) : Nat := v % 2 ^ 4 + bitsAt v 8 6 * 2 ^ 8 + bitsAt v 16 18 * 2 ^ 16

def writeHif (e : Env) (d : Dev) (f off v : Nat) : Dev :=
  match off with
  | 0xA10008 => if f = 0 then { d with hif := { d.hif with bar2Base := q64 (bitsAt v 30 18 * 2 ^ 30) } } else d
  | 0xA10010 =>
    if f = 0 then d
    else { d with hif := { d.hif with bar2Map := Tab.put f (q64 (v % 2 + bitsAt v 4 12 * 2 ^ 4 + bitsAt v 30 21 * 2 ^ 30)) d.hif.bar2Map } }
  | _ => match place off 0xA00000 64 0x40 with
    | none => d
    | some (q, r) =>
      let u := d.queue f q
      let set (x : Queue) : Dev := if u.st = .unbound then d.setQueue f q x else d
      match r with
      | 0 => set { u with sqBase := q64 (v / 4096 * 4096) }
      | 8 => set { u with cqBase := q64 (v / 4096 * 4096) }
      | 16 => set { u with cfg := q64 (qCfgMask v) }
      | 24 => if bitAt v 0 then d.enableQueue e f q else d.disableQueue f q
      | _ => d

def writeSec (d : Dev) (off v : Nat) : Dev :=
  match off with
  | 0xB00038 => { d with sec := { d.sec with submitAddr := q64 (v / 4096 * 4096) } }
  | 0xB00040 => { d with sec := { d.sec with submitLen := q64 (v % 2 ^ 32) } }
  | 0xB00048 => d.writeSubmit v
  | _ => d

/-- What a write does outside the core maps; `mgmt`: over the management bus, `auth`: with the owner's authority. -/
def Dev.writeReg (e : Env) (d : Dev) (f off v : Nat) (mgmt auth : Bool) : Dev :=
  match off / 0x100000 with
  | 1 => writeSpn e d f off v
  | 2 => writeSpn e d f off v
  | 3 => writeBlk e d off v
  | 5 => writeArb d off v
  | 6 => writeSch e d off v
  | 7 => writeVia e d off v
  | 8 => writeRas e d off v auth
  | 9 => writePower e d off v mgmt
  | 10 => writeHif e d f off v
  | 11 => if mgmt then d else writeSec d off v
  | _ => d

/-- A write; RAS_FENCE, and a package reset that RAS_RESET or RAS_UNRETIRE starts, act on the core maps too. -/
def State.writeReg (s : State) (f off v : Nat) (mgmt auth : Bool) : State :=
  if off = 0x800048 then s.rasFence v
  else if (off = 0x800020 && v % 8 = 4) || off = 0x800050 then s.onReset fun e d => d.writeReg e f off v mgmt auth
  else s.onDev fun e d => d.writeReg e f off v mgmt auth

/-- The half that a 32-bit write leaves: the value as it stands, or 0 where a 1 acts (R10). -/
def otherHalf (e : Env) (d : Dev) (f off : Nat) : Nat :=
  if off = 0x800008 || off = 0x800060 || off = 0x300030 || off = 0x700028 then 0 else (regValue e d f off).1

def writtenValue (e : Env) (d : Dev) (f off v : Nat) (wide : Bool) : Nat :=
  let o := otherHalf e d f (off / 8 * 8)
  if wide then v else if off % 8 = 4 then o % 2 ^ 32 + v % 2 ^ 32 * 2 ^ 32 else v % 2 ^ 32 + o / 2 ^ 32 * 2 ^ 32

/-- A BAR0 write of the host acts (R341, R347, R376, R402). -/
def Dev.takesWrite (d : Dev) (f off v : Nat) : Bool :=
  d.answersHost && (f = 0 || vfServed off) && (!d.sec.recovery || (f = 0 && recoveryServed off))
    && (d.ras.st ≠ .parapet || (f = 0 && (off = 0x800060 || (off = 0x800020 && v % 8 = 4))))

/-- A BAR0 write by the host. -/
def State.hostWrite (s : State) (f off : Nat) (wide : Bool) (v : Nat) : State :=
  let o := off / 8 * 8
  let v := writtenValue s.env s.dev f off v wide
  if aligned off wide && s.dev.takesWrite f o v then s.writeReg f o v false false else s

def execRegisterWrite (f : FuncId) (off : BitVec 26) (wide : Bool) (value : Quad) (s : State) : Res :=
  .next (s.hostWrite f off.toNat wide value.toNat)

/-- A write of a register of the physical function by the host. -/
def hostRow (off : Nat) (value : Quad) (s : State) : Res := .next (s.hostWrite 0 off true value.toNat)

def execTlbInv (value : Quad) (s : State) : Res := hostRow 0x300020 value s
def execPoolLock (value : Quad) (s : State) : Res := hostRow 0x300030 value s
def execArbClear (value : Quad) (s : State) : Res := hostRow 0x500018 value s
def execClkWake (value : Quad) (s : State) : Res := hostRow 0x901010 value s
def execEventWrite (f : FuncId) (i : Fin 1024) (value : Quad) (s : State) : Res := .next (s.hostWrite f (0x200000 + 8 * i) true value.toNat)

/-! ### Writes over the management bus (R394, R395) -/

/-- What a role may write (R394). -/
def roleWrites (role off : Nat) : Bool :=
  match role with
  | 1 => pwrWritable.contains off || off = 0x800008 || off = 0x800018 || off = 0x800020 || off = 0x800028 || off = 0x800030 || off = 0x800038
      || off = 0x800040 || off = 0x800048 || off = 0x800060
  | 2 => off = 0x700008 || off = 0x700010 || off = 0x700018 || off = 0x700020 || off = 0x700028 || off = 0x700030
      || (0x700100 ≤ off && off < 0x700120) || (0x710000 ≤ off && off < 0x712000)
  | _ => false

def Dev.session (d : Dev) (id : Nat) : Option Session := d.mgmt.sessions.find? fun x => x.id = id && x.finished

/-- The session has the owner's authority, or Abauzor's while there is no owner (R406). -/
def Dev.ownerSession (d : Dev) (x : Session) : Bool := if d.sec.owned then x.role = 3 else x.abauzor

/-- STATUS of a write over the management bus. -/
def Dev.mgmtStatus (d : Dev) (w : Writer) (off : Nat) : Nat :=
  let may := match w with
    | .host => false
    | .session id => match d.session id with
      | some x => roleWrites x.role off || (off = 0x800050 && d.ownerSession x)
      | none => false
  if !may then Config.noPermission
  else if d.ras.st = .retired && off ≠ 0x800050 then Config.retired
  else if d.ras.st = .resetting || d.ras.coldReset then Config.busy
  else Config.ok

/-- A write over the management bus acts; one of RAS_UNRETIRE that is not authorised leaves its reason. -/
def State.mgmtWrite (s : State) (w : Writer) (off v : Nat) : State :=
  if !s.dev.pins.powered then s
  else
    let code := s.dev.mgmtStatus w off
    let s := if code = Config.ok then
        (if s.dev.sec.recovery && !alwaysOn off then s else s.writeReg 0 off v true true)
      else if off = 0x800050 && code = Config.noPermission then s.onDev fun e d => d.unretire e v false
      else s
    s.onDev fun _ d => d.emit (.response code [])

/-- A write of a register of the physical function, by the host or in a session. -/
def writerRow (w : Writer) (off : Nat) (value : Nat) (s : State) : Res :=
  match w with
  | .host => .next (s.hostWrite 0 off true value)
  | .session _ => .next (s.mgmtWrite w off value)

def execResetCore (w : Writer) (value : Quad) (s : State) : Res := guarded (resetIs 1 value) (writerRow w 0x800020 value.toNat s)
def execResetCluster (w : Writer) (value : Quad) (s : State) : Res := guarded (resetIs 2 value) (writerRow w 0x800020 value.toNat s)
def execResetDie (w : Writer) (value : Quad) (s : State) : Res := guarded (resetIs 3 value) (writerRow w 0x800020 value.toNat s)
def execResetPackageWarm (w : Writer) (value : Quad) (s : State) : Res := guarded (resetIs 4 value) (writerRow w 0x800020 value.toNat s)
def execFenceCore (w : Writer) (value : Quad) (s : State) : Res := guarded (fenceIs false value) (writerRow w 0x800048 value.toNat s)
def execFenceCluster (w : Writer) (value : Quad) (s : State) : Res := guarded (fenceIs true value) (writerRow w 0x800048 value.toNat s)
def execRasUnretire (w : Writer) (value : Quad) (s : State) : Res := writerRow w 0x800050 value.toNat s
def execPwrHeartbeat (w : Writer) (value : Quad) (s : State) : Res := writerRow w 0x900020 value.toNat s
def execMapout (w : Writer) (value : Quad) (s : State) : Res := writerRow w 0x700028 value.toNat s
def execMapoutClr (w : Writer) (value : Quad) (s : State) : Res := writerRow w 0x700030 value.toNat s
def execPeerStateWrite (w : Writer) (i : Fin 256) (value : Quad) (s : State) : Res := writerRow w (0x711800 + 8 * i) value.toNat s
/-- TRAIN is written 1, TRAFFIC as it stands. -/
def execPortTrain (p : PortId) (w : Writer) (s : State) : Res :=
  writerRow w (0x700100 + 8 * p) (2 + bit (s.dev.port p).traffic) s

end Sys2Proof.Machine
end

