-- ==== Sys2Proof/Machine/Management.lean ====
section
/-!
DEFINITION. The management bus (R392 to R397) and SPDM (R405, R406): register-access messages, PLDM sensors, effecters and events, MCTP control, I3C
CCCs, attestation and sessions. The message formats and the codes of the standards that the spec names are PRESUMED from them (log entry 16). Every
answer is an entry of `out`. The bus serves in every state while the package is supplied.
-/
namespace Sys2Proof.Machine

/-! ### Answers -/

/-- A request that reaches the package: it is served while the package is supplied. -/
def mgmtRow (s : State) (f : Env → Dev → Dev) : Res := onDev s fun e d => if d.pins.powered then f e d else d

def Dev.respond (d : Dev) (status : Nat) (values : List Nat) : Dev := d.emit (.response status (values.map fun v => BitVec.ofNat 64 v))

/-- Completion codes of PLDM and MCTP control: ERROR, ERROR_INVALID_DATA, an unknown sensor or effecter, an unknown record, a message type that is
not supported; and the SPDM error InvalidRequest. -/
def pldmError : Nat := 1
def pldmInvalidData : Nat := 2
def pldmInvalidId : Nat := 0x80
def pldmInvalidRecord : Nat := 0x82
def mctpUnsupportedType : Nat := 0x80
def spdmInvalidRequest : Nat := 1

/-! ### Register access (R395) -/

/-- BAR0 is 64 MiB. -/
def bar0Bytes : Nat := 0x4000000

/-- FUNC, COUNT and OFFSET are in range; `most`: the greatest COUNT. -/
def messageFits (m : RegMessage) (most : Nat) : Bool :=
  m.func ≤ 31 && 1 ≤ m.count && m.count ≤ most && m.offset % 8 = 0 && m.offset + 8 * m.count ≤ bar0Bytes

/-- The message arrives in a secured session. -/
def Dev.inSession (d : Dev) (w : Writer) : Bool :=
  match w with
  | .host => false
  | .session id => (d.session id).isSome

/-- `n` registers in rising order from `off`, with what each read clears. -/
def Dev.readMany (e : Env) (f : Nat) : Nat → Nat → Dev → List Nat × Dev
  | 0, _, d => ([], d)
  | n + 1, off, d =>
    let (v, d) := d.readReg e f off true true true
    let (l, d) := Dev.readMany e f n (off + 8) d
    (v :: l, d)

def execRegisterReadMessage (w : Writer) (m : RegMessage) (s : State) : Res :=
  mgmtRow s fun e d =>
    if !messageFits m 32 then d.respond Config.badField []
    else if !d.inSession w then d.respond Config.noPermission []
    else
      let (l, d) := d.readMany e m.func m.count m.offset
      d.respond Config.ok l

def execRegisterWriteMessage (w : Writer) (m : RegMessage) (s : State) : Res :=
  if messageFits m 1 then .next (s.mgmtWrite w m.offset m.value.toNat) else mgmtRow s fun _ d => d.respond Config.badField []

/-! ### PLDM for Platform Monitoring and Control (R393) -/

/-- What stands behind an ID: a numeric sensor, a state sensor or an effecter. -/
inductive PldmKind where
  | numeric
  | state
  | effecter
deriving DecidableEq, Repr

def pldmKind (id : Nat) : Option PldmKind :=
  if 1 ≤ id ∧ id ≤ 0xB then some .numeric
  else if 0x20 ≤ id ∧ id ≤ 0x21 then some .state
  else if 0x100 ≤ id ∧ id ≤ 0x106 then some .effecter
  else none

/-- The IDs of the table of R393, in its order: record n + 1 of the repository describes entry n. -/
def pldmIds : List Nat := (List.range 11).map (· + 1) ++ [0x20, 0x21] ++ (List.range 7).map (· + 0x100)

/-- The register field of a numeric sensor. -/
def sensorValue (d : Dev) (id : Nat) : Nat :=
  if id ≤ 4 then bitsAt d.pwr.input.toNat (16 * (id - 1)) 16
  else if id ≤ 0xA then bitsAt (pwrTemp d.pwr) (10 * (id - 5)) 10
  else d.pwr.energy % 2 ^ 64

/-- The register field of an effecter; PWR_HEARTBEAT reads 0. -/
def effecterValue (p : Pwr) (id : Nat) : Nat :=
  match id with
  | 0x100 => p.capW
  | 0x101 => p.slewStep
  | 0x102 => p.brakeW
  | 0x103 => p.safeCap
  | 0x104 => p.hbTimeoutMs
  | 0x105 => p.throttleC
  | _ => 0

/-- A value in the range of the effecter's field (R355, R372, R373). -/
def effecterFits (u : Fuses) (p : Pwr) (id v : Nat) : Bool :=
  match id with
  | 0x100 => u.capMin ≤ v && v ≤ u.tdp
  | 0x101 => 1 ≤ v && v ≤ 200
  | 0x102 => u.capMin ≤ v && v ≤ u.floorMax
  | 0x103 => p.brakeW ≤ v && v ≤ u.tdp
  | 0x104 => 100 ≤ v && v ≤ 65535
  | 0x105 => 60 ≤ v && v ≤ 95
  | _ => true

/-- The register of an effecter and the word that writes its field alone: 0 is out of range in the other field of PWR_SAFE. -/
def effecterWrite (id v : Nat) : Nat × Nat :=
  match id with
  | 0x100 => (0x900000, v)
  | 0x101 => (0x900008, v)
  | 0x102 => (0x900010, v)
  | 0x103 => (0x900018, v)
  | 0x104 => (0x900018, v * 2 ^ 16)
  | 0x105 => (0x900048, v)
  | _ => (0x900020, 1)

def execGetPdrRepositoryInfo (s : State) : Res := mgmtRow s fun _ d => d.respond 0 [pldmIds.length]

/-- Record 0 asks for the first. -/
def execGetPdr (record : Word) (s : State) : Res :=
  mgmtRow s fun _ d => match pldmIds[record.toNat - 1]? with
    | some id => (d.respond 0 [id]).emit (.bytes (Config.pdrRecord id))
    | none => d.respond pldmInvalidRecord []

def execGetSensorReading (id : Half) (s : State) : Res :=
  mgmtRow s fun _ d => if pldmKind id.toNat = some .numeric then d.respond 0 [sensorValue d id.toNat] else d.respond pldmInvalidId []

def execGetStateSensorReadings (id : Half) (s : State) : Res :=
  mgmtRow s fun e d =>
    if id = 0x20#16 then d.respond 0 [d.ras.st.code] else if id = 0x21#16 then d.respond 0 [bitsAt (pwrStatus e.fuse d) 0 12] else d.respond pldmInvalidId []

def execGetNumericEffecterValue (id : Half) (s : State) : Res :=
  mgmtRow s fun _ d => if pldmKind id.toNat = some .effecter then d.respond 0 [effecterValue d.pwr id.toNat] else d.respond pldmInvalidId []

/-- The checks of R393 in its order: the range, then what R394 refuses. -/
def execSetNumericEffecterValue (w : Writer) (id : Half) (value : Word) (s : State) : Res :=
  mgmtRow s fun e d =>
    let x := effecterWrite id.toNat value.toNat
    if pldmKind id.toNat ≠ some .effecter then d.respond pldmInvalidId []
    else if !effecterFits e.fuse d.pwr id.toNat value.toNat then d.respond pldmInvalidData []
    else if d.mgmtStatus w x.1 ≠ Config.ok then d.respond pldmError []
    else (d.writePwrLater e.fuse e.now x.1 x.2).respond 0 []

/-- The oldest event of the queue, with its OEM class. -/
def execPollForPlatformEventMessage (s : State) : Res :=
  mgmtRow s fun _ d => match d.mgmt.events with
    | [] => d.respond 0 []
    | x :: t => (({ d with mgmt := { d.mgmt with events := t } } : Dev).respond 0 [0xF0]).emit (.bytes (toBytes 32 x.toNat))

/-- PLDM types 0 and 2, and the commands of each as a bit mask. -/
def execPldmBaseDiscovery (s : State) : Res :=
  let mask (l : List Nat) : Nat := (l.map fun k => 2 ^ k).sum
  mgmtRow s fun _ d => d.respond 0 [mask [0, 2], mask [1, 2, 3, 4, 5], mask [0x0B, 0x11, 0x21, 0x31, 0x32], mask [0x50 - 64, 0x51 - 64]]

/-! ### MCTP control (R392) -/

/-- 0 and 0xFF are no endpoint IDs. -/
def execSetEndpointId (eid : Byte) (s : State) : Res :=
  mgmtRow s fun _ d =>
    if eid = 0#8 ∨ eid = 0xFF#8 then d.respond pldmInvalidData []
    else ({ d with mgmt := { d.mgmt with eid := eid } } : Dev).respond 0 [eid.toNat]

def execGetEndpointId (s : State) : Res := mgmtRow s fun _ d => d.respond 0 [d.mgmt.eid.toNat]

/-- PLDM, SPDM, secured messages and the vendor-defined PCI type. -/
def messageTypes : List Nat := [1, 5, 6, 0x7E]

def execGetMctpVersionSupport (msgType : Byte) (s : State) : Res :=
  mgmtRow s fun _ d =>
    if ([0xFF, 0] ++ messageTypes).contains msgType.toNat then (d.respond 0 []).emit (.bytes (Config.mctpVersions msgType.toNat))
    else d.respond mctpUnsupportedType []

def execGetMessageTypeSupport (s : State) : Res := mgmtRow s fun _ d => d.respond 0 messageTypes

/-- One set: a PCI vendor identifier, and no further selector. -/
def execGetVendorDefinedMessageSupport (selector : Byte) (s : State) : Res :=
  mgmtRow s fun _ d => if selector = 0#8 then d.respond 0 [0xFF, 0, Config.vendorId.toNat] else d.respond pldmInvalidData []

/-! ### I3C (R392) -/

/-- The identity a target sends: provisioned ID and characteristics. -/
def i3cIdentity (e : Env) : List Byte := toBytes 6 (Config.i3cPid e.fuse.deviceId).toNat ++ [Config.i3cBcr, Config.i3cDcr]

def Dev.setAddr (d : Dev) (a : BitVec 7) : Dev := { d with mgmt := { d.mgmt with dynAddr := a } }

/-- A target without a dynamic address takes part, and takes the address. -/
def execEntdaa (addr : BitVec 7) (s : State) : Res :=
  mgmtRow s fun e d => if d.mgmt.dynAddr = 0#7 then (d.setAddr addr).emit (.bytes (i3cIdentity e)) else d

/-- A CCC to the package's own address. -/
def cccRow (s : State) (f : Env → Dev → Dev) : Res := mgmtRow s fun e d => if d.mgmt.dynAddr = 0#7 then d else f e d

def execSetnewda (addr : BitVec 7) (s : State) : Res := cccRow s fun _ d => d.setAddr addr
def execRstdaa (s : State) : Res := mgmtRow s fun _ d => d.setAddr 0#7
def execGetpid (s : State) : Res := cccRow s fun e d => d.emit (.bytes (toBytes 6 (Config.i3cPid e.fuse.deviceId).toNat))
def execGetbcr (s : State) : Res := cccRow s fun _ d => d.emit (.bytes [Config.i3cBcr])
def execGetdcr (s : State) : Res := cccRow s fun _ d => d.emit (.bytes [Config.i3cDcr])
def execGetmrl (s : State) : Res := cccRow s fun _ d => d.emit (.bytes (toBytes 2 d.mgmt.mrl.toNat))
def execGetmwl (s : State) : Res := cccRow s fun _ d => d.emit (.bytes (toBytes 2 d.mgmt.mwl.toNat))
def execSetmrl (len : Half) (s : State) : Res := mgmtRow s fun _ d => { d with mgmt := { d.mgmt with mrl := len } }
def execSetmwl (len : Half) (s : State) : Res := mgmtRow s fun _ d => { d with mgmt := { d.mgmt with mwl := len } }

/-! ### SPDM discovery and certificates (R405) -/

def execSpdmGetVersion (s : State) : Res := mgmtRow s fun _ d => d.respond 0 [0x12, 0x13]

/-- CERT, CHAL, MEAS with signature, ENCRYPT, MAC, MUT_AUTH, KEY_EX and HBEAT, as the flags of DSP0274. -/
def spdmCapabilities : Nat := ([1, 2, 4, 6, 7, 8, 9, 13].map fun k => 2 ^ k).sum

def execSpdmGetCapabilities (s : State) : Res := mgmtRow s fun _ d => d.respond 0 [spdmCapabilities]

/-- BaseAsymAlgo, BaseHashAlgo, MeasurementHashAlgo, DHE, AEAD and ReqBaseAsymAlg, as the masks of DSP0274. -/
def execSpdmNegotiateAlgorithms (s : State) : Res := mgmtRow s fun _ d => d.respond 0 [0xC, 1, 2, 0x10, 2, 8]

/-- Slots 0 and 1 hold chains. -/
def certSlot (slot : Fin 8) : Bool := slot.val ≤ 1

def chainDigest (u : Fuses) (slot : Nat) : List Byte := sha256Bytes (Config.certChain u.deviceId slot)

def execSpdmGetDigests (s : State) : Res :=
  mgmtRow s fun e d => (d.respond 0 [3]).emit (.bytes (chainDigest e.fuse 0 ++ chainDigest e.fuse 1))

def execSpdmGetCertificate (slot : Fin 8) (s : State) : Res :=
  mgmtRow s fun e d =>
    if certSlot slot then (d.respond 0 [slot.val]).emit (.bytes (Config.certChain e.fuse.deviceId slot.val)) else d.respond spdmInvalidRequest []

/-! ### Attestation (R405) -/

/-- `value` as an item of a measurement, in the width of its kind. -/
def measured (item value : Nat) : List Byte := toBytes (Config.measureWidth item) value

/-- What measurement 6 hashes: the owner's state, an empty slot as zero bytes. -/
def ownerItems (s : Sec) : List Byte :=
  measured 0 (bit s.plainForbid) ++ measured 1 s.ownerCounter.toNat ++ measured 2 ((s.ownerKey.map fun k => (keyHash k).toNat).getD 0)
    ++ (List.range 64).flatMap (fun k => measured 3 ((s.pubKey k).getD 0).toNat)
    ++ (List.range 16).flatMap fun j => match s.reqSlot j with
      | some x => measured 4 x.role ++ measured 2 x.hash.toNat
      | none => measured 4 0 ++ measured 2 0

/-- Measurement block `i`, 1 to 8. In recovery mode no image runs: blocks 3 to 5 are zeros, and the spec states no block 2. -/
def measurement (e : Env) (d : Dev) (i : Nat) : BitVec 256 × Dev :=
  let s := d.sec
  match i with
  | 1 => (Config.romHash, d)
  | 2 => match s.running with
    | some x => (x.header, d)
    | none => d.free 256
  | 6 => (sha256 (ownerItems s), d)
  | 7 => (sha256 (measured 5 (kfId e.fuse) ++ measured 6 e.fuse.part.code ++ measured 7 s.floor), d)
  | 8 => (sha256 (measured 8 s.bootMeasured), d)
  | _ => (((s.running.bind fun x => x.comps[i - 3]?).getD 0#256), d)

def Dev.measureAll (e : Env) : List Nat → Dev → List Byte × Dev
  | [], d => ([], d)
  | i :: t, d =>
    let (m, d) := measurement e d i
    let (l, d) := Dev.measureAll e t d
    (toBytes 32 m.toNat ++ l, d)

/-- `data` with the responder's nonce, signed by the device identity key over the requester's nonce, the data and the responder's. -/
def Dev.sign (e : Env) (d : Dev) (nonce : BitVec 256) (data : List Byte) : Dev :=
  let (x, d) := d.free 256
  let m := data ++ toBytes 32 x.toNat
  d.emit (.bytes (m ++ Config.deviceSign e.fuse.deviceId (toBytes 32 nonce.toNat ++ m)))

def execSpdmChallenge (slot : Fin 8) (nonce : BitVec 256) (s : State) : Res :=
  mgmtRow s fun e d =>
    if certSlot slot then (d.respond 0 [slot.val]).sign e nonce (chainDigest e.fuse slot.val) else d.respond spdmInvalidRequest []

/-- INDEX 0 asks for the number of blocks, 0xFF for all of them. -/
def execSpdmGetMeasurements (index : Byte) (nonce : BitVec 256) (s : State) : Res :=
  mgmtRow s fun e d =>
    let i := index.toNat
    if i = 0 then (d.respond 0 [8]).sign e nonce []
    else if 8 < i ∧ i ≠ 0xFF then d.respond spdmInvalidRequest []
    else
      let (l, d) := d.measureAll e (if i = 0xFF then [1, 2, 3, 4, 5, 6, 7, 8] else [i])
      (d.respond 0 [if i = 0xFF then 8 else 1]).sign e nonce l

/-! ### Sessions (R394, R406) -/

/-- A session opens, and serves once it is finished. -/
def execSpdmKeyExchange (slot : Fin 8) (s : State) : Res :=
  mgmtRow s fun _ d =>
    let n := d.mgmt.nextSession
    if certSlot slot then
      ({ d with mgmt := { d.mgmt with
        nextSession := n + 1, sessions := d.mgmt.sessions ++ [{ id := n, role := 0, slot := none, finished := false, abauzor := false }] } } : Dev).respond 0 [n]
    else d.respond spdmInvalidRequest []

/-- The requester slot that holds a key's hash, the lowest of them. -/
def Sec.slotOf (s : Sec) (h : BitVec 256) : Option (Nat × ReqSlot) := s.reqSlots.find? fun x : Nat × ReqSlot => x.2.hash = h

/-- The session as mutual authentication with a key of hash `keyHash` leaves it; `none`: without mutual authentication. -/
def Session.finish (x : Session) (s : Sec) (keyHash : Option (BitVec 256)) (chain : Bool) : Session :=
  let m := keyHash.bind s.slotOf
  { x with finished := true, role := (m.map fun y : Nat × ReqSlot => y.2.role).getD 0, slot := m.map fun y : Nat × ReqSlot => y.1, abauzor := keyHash.isSome && chain }

def execSpdmFinish (id : Nat) (keyHash : Option (BitVec 256)) (abauzorChain : Bool) (s : State) : Res :=
  mgmtRow s fun _ d =>
    if d.mgmt.sessions.any fun x => x.id = id && !x.finished then
      ({ d with mgmt := { d.mgmt with
        sessions := d.mgmt.sessions.map fun x => if x.id = id then x.finish d.sec keyHash abauzorChain else x } } : Dev).respond 0 []
    else d.respond spdmInvalidRequest []

def execSpdmHeartbeat (id : Nat) (s : State) : Res :=
  mgmtRow s fun _ d => if (d.session id).isSome then d.respond 0 [] else d.respond spdmInvalidRequest []

def execSpdmEndSession (id : Nat) (s : State) : Res :=
  mgmtRow s fun _ d =>
    if d.mgmt.sessions.any fun x => x.id = id then
      ({ d with mgmt := { d.mgmt with sessions := d.mgmt.sessions.filter fun x => x.id ≠ id } } : Dev).respond 0 []
    else d.respond spdmInvalidRequest []

end Sys2Proof.Machine
end

