-- ==== Sys2Proof/Machine/Dispatch.lean ====
section
/-!
DEFINITION. The meaning of every command: one arm per constructor, each a direct call of its meaning.
-/
namespace Sys2Proof.Machine

def exec (i : Instr) (s : State) : Host.Outcome State Fault Refusal :=
  match i with
  | .nop f q c => Sys2Proof.Machine.execNop f q c s
  | .badOpcode f q c => Sys2Proof.Machine.execBadOpcode f q c s
  | .spanLoad f q c => Sys2Proof.Machine.execSpanLoad f q c s
  | .loadComplete d slot => Sys2Proof.Machine.execLoadComplete d slot s
  | .spanLaunch f q c => Sys2Proof.Machine.execSpanLaunch f q c s
  | .launchEnd d slot cycles => Sys2Proof.Machine.execLaunchEnd d slot cycles s
  | .spanDrain f q c => Sys2Proof.Machine.execSpanDrain f q c s
  | .drainComplete d slot => Sys2Proof.Machine.execDrainComplete d slot s
  | .dispenseSet f q c => Sys2Proof.Machine.execDispenseSet f q c s
  | .move f q c => Sys2Proof.Machine.execMove f q c s
  | .moveChunk uid => Sys2Proof.Machine.execMoveChunk uid s
  | .moveComplete uid => Sys2Proof.Machine.execMoveComplete uid s
  | .image f q c => Sys2Proof.Machine.execImage f q c s
  | .imageSegment slot => Sys2Proof.Machine.execImageSegment slot s
  | .evictImage f q c => Sys2Proof.Machine.execEvictImage f q c s
  | .evictPagesFree entry d => Sys2Proof.Machine.execEvictPagesFree entry d s
  | .gather f q c => Sys2Proof.Machine.execGather f q c s
  | .scatter f q c => Sys2Proof.Machine.execScatter f q c s
  | .scatterAdd f q c => Sys2Proof.Machine.execScatterAdd f q c s
  | .decode f q c => Sys2Proof.Machine.execDecode f q c s
  | .reduce f q c => Sys2Proof.Machine.execReduce f q c s
  | .update f q c => Sys2Proof.Machine.execUpdate f q c s
  | .pfxLookup f q c => Sys2Proof.Machine.execPfxLookup f q c s
  | .pfxInsert f q c => Sys2Proof.Machine.execPfxInsert f q c s
  | .score f q c => Sys2Proof.Machine.execScore f q c s
  | .trestleDone fin => Sys2Proof.Machine.execTrestleDone fin s
  | .wait f q c => Sys2Proof.Machine.execWait f q c s
  | .signal f q c => Sys2Proof.Machine.execSignal f q c s
  | .barrier f q c => Sys2Proof.Machine.execBarrier f q c s
  | .commit f q c => Sys2Proof.Machine.execCommit f q c s
  | .abort f q c => Sys2Proof.Machine.execAbort f q c s
  | .viaSend f q c => Sys2Proof.Machine.execViaSend f q c s
  | .viaRecv f q c => Sys2Proof.Machine.execViaRecv f q c s
  | .seqStep f q c => Sys2Proof.Machine.execSeqStep f q c s
  | .stepCommit d => Sys2Proof.Machine.execStepCommit d s
  | .admitSession f q c => Sys2Proof.Machine.execAdmit f q c s
  | .release f q c => Sys2Proof.Machine.execRelease f q c s
  | .timestamp f q c => Sys2Proof.Machine.execTimestamp f q c s
  | .longSuspend f q c => Sys2Proof.Machine.execLongSuspend f q c s
  | .longResume f q c => Sys2Proof.Machine.execLongResume f q c s
  | .longCancel f q c => Sys2Proof.Machine.execLongCancel f q c s
  | .longQuery f q c => Sys2Proof.Machine.execLongQuery f q c s
  | .objLoad f q c head => Sys2Proof.Machine.execObjLoad f q c head s
  | .objLoadSegment slot data => Sys2Proof.Machine.execObjLoadSegment slot data s
  | .objRetire f q c => Sys2Proof.Machine.execObjRetire f q c s
  | .retireTeardown entry => Sys2Proof.Machine.execRetireTeardown entry s
  | .retirePagesFree entry => Sys2Proof.Machine.execRetirePagesFree entry s
  | .sqDoorbell f q value => Sys2Proof.Machine.execSqDoorbell f q value s
  | .cqDoorbell f q value => Sys2Proof.Machine.execCqDoorbell f q value s
  | .commandFetch f q cmds => Sys2Proof.Machine.execCommandFetch f q cmds s
  | .fetchFault f q why => Sys2Proof.Machine.execFetchFault f q why s
  | .dispatch d x => Sys2Proof.Machine.execDispatch d x s
  | .cycleStart => Sys2Proof.Machine.execCycleStart s
  | .slotStart => Sys2Proof.Machine.execSlotStart s
  | .tokenArrival dst ecc => Sys2Proof.Machine.execTokenArrival dst ecc s
  | .tokenSend src => Sys2Proof.Machine.execTokenSend src s
  | .creditReturn src => Sys2Proof.Machine.execCreditReturn src s
  | .ceFiring cl p e => Sys2Proof.Machine.execCeFiring cl p e s
  | .meFiring cl p e ctx recent ecc => Sys2Proof.Machine.execMeFiring cl p e ctx recent ecc s
  | .keystoneForward site => Sys2Proof.Machine.execKeystoneForward site s
  | .handoffReceive d ep => Sys2Proof.Machine.execHandoffReceive d ep s
  | .arbRound port => Sys2Proof.Machine.execArbRound port s
  | .dynamicSlotGrant port => Sys2Proof.Machine.execDynamicSlotGrant port s
  | .tierTransferDone cl p e ctx lin ecc => Sys2Proof.Machine.execTierTransferDone cl p e ctx lin ecc s
  | .tierDeadlineExpiry who => Sys2Proof.Machine.execTierDeadlineExpiry who s
  | .pageWalkDone who ecc => Sys2Proof.Machine.execPageWalkDone who ecc s
  | .faultResolutionStart id => Sys2Proof.Machine.execFaultResolutionStart id s
  | .faultResolutionDone id => Sys2Proof.Machine.execFaultResolutionDone id s
  | .faultDeadlineExpiry who => Sys2Proof.Machine.execFaultDeadlineExpiry who s
  | .scrubRead loc ecc => Sys2Proof.Machine.execScrubRead loc ecc s
  | .tlbInv value => Sys2Proof.Machine.execTlbInv value s
  | .tlbInvDone => Sys2Proof.Machine.execTlbInvDone s
  | .poolLock value => Sys2Proof.Machine.execPoolLock value s
  | .arbClear value => Sys2Proof.Machine.execArbClear value s
  | .eventWrite f n value => Sys2Proof.Machine.execEventWrite f n value s
  | .counterReadClear f off wide => Sys2Proof.Machine.execCounterReadClear f off wide s
  | .registerWrite f off wide value => Sys2Proof.Machine.execRegisterWrite f off wide value s
  | .resetCore w value => Sys2Proof.Machine.execResetCore w value s
  | .resetCluster w value => Sys2Proof.Machine.execResetCluster w value s
  | .resetDie w value => Sys2Proof.Machine.execResetDie w value s
  | .resetPackageWarm w value => Sys2Proof.Machine.execResetPackageWarm w value s
  | .resetComplete t => Sys2Proof.Machine.execResetComplete t s
  | .retirementRecordWrite => Sys2Proof.Machine.execRetirementRecordWrite s
  | .fenceCore w value => Sys2Proof.Machine.execFenceCore w value s
  | .fenceCluster w value => Sys2Proof.Machine.execFenceCluster w value s
  | .spanReload d slot => Sys2Proof.Machine.execSpanReload d slot s
  | .rasUnretire w value => Sys2Proof.Machine.execRasUnretire w value s
  | .selfTestDone t failed pierFailed => Sys2Proof.Machine.execSelfTestDone t failed pierFailed s
  | .coreWatchdogExpiry cl p => Sys2Proof.Machine.execCoreWatchdogExpiry cl p s
  | .commandDeadlineExpiry uid => Sys2Proof.Machine.execCommandDeadlineExpiry uid s
  | .pierWatchdogExpiry d pier => Sys2Proof.Machine.execPierWatchdogExpiry d pier s
  | .hubWatchdogExpiry => Sys2Proof.Machine.execHubWatchdogExpiry s
  | .dieResetWatchdogExpiry d => Sys2Proof.Machine.execDieResetWatchdogExpiry d s
  | .coreControlEcc cl p part => Sys2Proof.Machine.execCoreControlEcc cl p part s
  | .clusterControlEcc cl part => Sys2Proof.Machine.execClusterControlEcc cl part s
  | .bridgeEcc bridge victims => Sys2Proof.Machine.execBridgeEcc bridge victims s
  | .hubControlEcc => Sys2Proof.Machine.execHubControlEcc s
  | .cePolicyFence cl p => Sys2Proof.Machine.execCePolicyFence cl p s
  | .autoReset => Sys2Proof.Machine.execAutoReset s
  | .powerOn => Sys2Proof.Machine.execPowerOn s
  | .powerRemoval => Sys2Proof.Machine.execPowerRemoval s
  | .perstAssert => Sys2Proof.Machine.execPerstAssert s
  | .perstRelease straps programmed => Sys2Proof.Machine.execPerstRelease straps programmed s
  | .bootReady found => Sys2Proof.Machine.execBootReady found s
  | .supplyUndervoltage => Sys2Proof.Machine.execSupplyUndervoltage s
  | .supplyOvervoltage => Sys2Proof.Machine.execSupplyOvervoltage s
  | .regulatorFault => Sys2Proof.Machine.execRegulatorFault s
  | .refclkLoss => Sys2Proof.Machine.execRefclkLoss s
  | .epoAssert => Sys2Proof.Machine.execEpoAssert s
  | .brakeAssert => Sys2Proof.Machine.execBrakeAssert s
  | .brakeRelease => Sys2Proof.Machine.execBrakeRelease s
  | .thermalTrip => Sys2Proof.Machine.execThermalTrip s
  | .thermalForcedFloor => Sys2Proof.Machine.execThermalForcedFloor s
  | .governorPeriod m => Sys2Proof.Machine.execGovernorPeriod m s
  | .heartbeatTimeout => Sys2Proof.Machine.execHeartbeatTimeout s
  | .pwrHeartbeat w value => Sys2Proof.Machine.execPwrHeartbeat w value s
  | .clusterNap cl => Sys2Proof.Machine.execClusterNap cl s
  | .clusterDeep cl => Sys2Proof.Machine.execClusterDeep cl s
  | .clusterWake cl => Sys2Proof.Machine.execClusterWake cl s
  | .clusterWakeDone cl => Sys2Proof.Machine.execClusterWakeDone cl s
  | .clkWake value => Sys2Proof.Machine.execClkWake value s
  | .queueEnable f q => Sys2Proof.Machine.execQueueEnable f q s
  | .queueDisable f q => Sys2Proof.Machine.execQueueDisable f q s
  | .queueDrainDone f q => Sys2Proof.Machine.execQueueDrainDone f q s
  | .funcDisable f => Sys2Proof.Machine.execFuncDisable f s
  | .vfFlr f => Sys2Proof.Machine.execVfFlr f s
  | .vfDisable numVfs => Sys2Proof.Machine.execVfDisable numVfs s
  | .pfFlr => Sys2Proof.Machine.execPfFlr s
  | .funcResetComplete f => Sys2Proof.Machine.execFuncResetComplete f s
  | .linkLoss => Sys2Proof.Machine.execLinkLoss s
  | .bar2Read f off len => Sys2Proof.Machine.execBar2Read f off len s
  | .bar2Write f off data poisoned => Sys2Proof.Machine.execBar2Write f off data poisoned s
  | .portTrainingAttempt p => Sys2Proof.Machine.execPortTrainingAttempt p s
  | .trainingTimeout p => Sys2Proof.Machine.execTrainingTimeout p s
  | .portTrain p w => Sys2Proof.Machine.execPortTrain p w s
  | .mapout w value => Sys2Proof.Machine.execMapout w value s
  | .mapoutClr w value => Sys2Proof.Machine.execMapoutClr w value s
  | .peerStateWrite w n value => Sys2Proof.Machine.execPeerStateWrite w n value s
  | .laneLockLoss p => Sys2Proof.Machine.execLaneLockLoss p s
  | .linkSilenceExpiry p => Sys2Proof.Machine.execLinkSilenceExpiry p s
  | .viaHeartbeatSend => Sys2Proof.Machine.execViaHeartbeatSend s
  | .peerFaultReceived p => Sys2Proof.Machine.execPeerFaultReceived p s
  | .peerFaultClear p => Sys2Proof.Machine.execPeerFaultClear p s
  | .idle p fl => Sys2Proof.Machine.execIdle p fl s
  | .data p fl => Sys2Proof.Machine.execData p fl s
  | .rts p fl => Sys2Proof.Machine.execRts p fl s
  | .cts p fl => Sys2Proof.Machine.execCts p fl s
  | .nack p fl => Sys2Proof.Machine.execNack p fl s
  | .endAck p fl => Sys2Proof.Machine.execEndAck p fl s
  | .linkFail p fl => Sys2Proof.Machine.execLinkFail p fl s
  | .xferAbort p fl => Sys2Proof.Machine.execXferAbort p fl s
  | .vote p fl => Sys2Proof.Machine.execVote p fl s
  | .decision p fl => Sys2Proof.Machine.execDecision p fl s
  | .query p fl => Sys2Proof.Machine.execQuery p fl s
  | .decisionAck p fl => Sys2Proof.Machine.execDecisionAck p fl s
  | .heartbeat p fl => Sys2Proof.Machine.execHeartbeat p fl s
  | .ident p fl => Sys2Proof.Machine.execIdent p fl s
  | .withdraw p fl => Sys2Proof.Machine.execWithdraw p fl s
  | .lretry p fl => Sys2Proof.Machine.execLretry p fl s
  | .rtsResend uid => Sys2Proof.Machine.execRtsResend uid s
  | .voteResend f group => Sys2Proof.Machine.execVoteResend f group s
  | .querySend f group => Sys2Proof.Machine.execQuerySend f group s
  | .claim record => Sys2Proof.Machine.execClaim record s
  | .ownerRelease record => Sys2Proof.Machine.execOwnerRelease record s
  | .pubEnrol record => Sys2Proof.Machine.execPubEnrol record s
  | .pubRemove record => Sys2Proof.Machine.execPubRemove record s
  | .reqEnrol record => Sys2Proof.Machine.execReqEnrol record s
  | .reqRemove record => Sys2Proof.Machine.execReqRemove record s
  | .policy record => Sys2Proof.Machine.execPolicy record s
  | .imageBoot img => Sys2Proof.Machine.execImageBoot img s
  | .imageWriteFlash img => Sys2Proof.Machine.execImageWriteFlash img s
  | .flashWriteDone => Sys2Proof.Machine.execFlashWriteDone s
  | .registerReadMessage w m => Sys2Proof.Machine.execRegisterReadMessage w m s
  | .registerWriteMessage w m => Sys2Proof.Machine.execRegisterWriteMessage w m s
  | .getPdrRepositoryInfo => Sys2Proof.Machine.execGetPdrRepositoryInfo s
  | .getPdr record => Sys2Proof.Machine.execGetPdr record s
  | .getSensorReading id => Sys2Proof.Machine.execGetSensorReading id s
  | .getStateSensorReadings id => Sys2Proof.Machine.execGetStateSensorReadings id s
  | .getNumericEffecterValue id => Sys2Proof.Machine.execGetNumericEffecterValue id s
  | .setNumericEffecterValue w id value => Sys2Proof.Machine.execSetNumericEffecterValue w id value s
  | .pollForPlatformEventMessage => Sys2Proof.Machine.execPollForPlatformEventMessage s
  | .setEndpointId eid => Sys2Proof.Machine.execSetEndpointId eid s
  | .getEndpointId => Sys2Proof.Machine.execGetEndpointId s
  | .getMctpVersionSupport msgType => Sys2Proof.Machine.execGetMctpVersionSupport msgType s
  | .getMessageTypeSupport => Sys2Proof.Machine.execGetMessageTypeSupport s
  | .getVendorDefinedMessageSupport selector => Sys2Proof.Machine.execGetVendorDefinedMessageSupport selector s
  | .entdaa addr => Sys2Proof.Machine.execEntdaa addr s
  | .setnewda addr => Sys2Proof.Machine.execSetnewda addr s
  | .rstdaa => Sys2Proof.Machine.execRstdaa s
  | .getpid => Sys2Proof.Machine.execGetpid s
  | .getbcr => Sys2Proof.Machine.execGetbcr s
  | .getdcr => Sys2Proof.Machine.execGetdcr s
  | .getmrl => Sys2Proof.Machine.execGetmrl s
  | .getmwl => Sys2Proof.Machine.execGetmwl s
  | .setmrl len => Sys2Proof.Machine.execSetmrl len s
  | .setmwl len => Sys2Proof.Machine.execSetmwl len s
  | .spdmGetCertificate slot => Sys2Proof.Machine.execSpdmGetCertificate slot s
  | .spdmChallenge slot nonce => Sys2Proof.Machine.execSpdmChallenge slot nonce s
  | .spdmGetMeasurements index nonce => Sys2Proof.Machine.execSpdmGetMeasurements index nonce s
  | .spdmKeyExchange slot => Sys2Proof.Machine.execSpdmKeyExchange slot s
  | .spdmHeartbeat id => Sys2Proof.Machine.execSpdmHeartbeat id s
  | .spdmEndSession id => Sys2Proof.Machine.execSpdmEndSession id s
  | .epoRelease => Sys2Proof.Machine.execEpoRelease s
  | .thermtripRelease => Sys2Proof.Machine.execThermtripRelease s
  | .inputWithinOperatingRange => Sys2Proof.Machine.execInputWithinOperatingRange s
  | .refclkPresent => Sys2Proof.Machine.execRefclkPresent s
  | .flitCrcFailure p => Sys2Proof.Machine.execFlitCrcFailure p s
  | .msixUnmask f v => Sys2Proof.Machine.execMsixUnmask f v s
  | .stackFailure k => Sys2Proof.Machine.execStackFailure k s
  | .spdmGetVersion => Sys2Proof.Machine.execSpdmGetVersion s
  | .spdmGetCapabilities => Sys2Proof.Machine.execSpdmGetCapabilities s
  | .spdmNegotiateAlgorithms => Sys2Proof.Machine.execSpdmNegotiateAlgorithms s
  | .spdmGetDigests => Sys2Proof.Machine.execSpdmGetDigests s
  | .spdmFinish id keyHash abauzorChain => Sys2Proof.Machine.execSpdmFinish id keyHash abauzorChain s
  | .pldmBaseDiscovery => Sys2Proof.Machine.execPldmBaseDiscovery s

end Sys2Proof.Machine
end

