-- ==== Sys2Proof/Machine/Time.lean ====
section
/-!
DEFINITION. LOCAL_TIME as it counts while no command waits (R358).
-/
namespace Sys2Proof.Machine

/-- One count of LOCAL_TIME, which runs while the always-on domain is supplied, and of the watchdogs with it (R339, R358; log entry 3). -/
def State.tick (s : State) : State :=
  if s.dev.pins.powered then { s with time := s.time + 1#64, dev := s.dev.countCores 1 } else s

end Sys2Proof.Machine
end

