-- ==== Sys2Proof/Safety.lean ====
section
/-!
DEFINITION. What a safe run keeps, in the terms the statements use: sound core maps (R18, R19, R25, R26), and which commands may move what every
other command leaves alone.
-/
namespace Sys2Proof.Machine

/-- A usable cluster has at least 30 healthy cores (R18). -/
def Kf.Staffed (k : Kf) : Prop := ∀ c, c < 16 → k.usable c = true → 30 ≤ k.healthy c

/-- A valid entry of KF_VMAP names a healthy core of a usable cluster (R19, R26). -/
def Kf.MapHealthy (k : Kf) : Prop :=
  ∀ c v p, c < 16 → v < 30 → k.physOf c v = some p → k.usable c = true ∧ bitAt (k.fencedOf c).toNat p = false

/-- No physical core holds two virtual positions of its cluster (R19). -/
def Kf.MapDistinct (k : Kf) : Prop :=
  ∀ c v w p, c < 16 → v < 30 → w < 30 → k.physOf c v = some p → k.physOf c w = some p → v = w

/-- The core maps are sound: a cluster below 30 healthy cores is not usable, and the map names every core at most once, and only healthy cores of
usable clusters. -/
structure Kf.Sound (k : Kf) : Prop where
  staffed : k.Staffed
  healthy : k.MapHealthy
  distinct : k.MapDistinct

/-- Every core that was fenced at test is fenced (R25). -/
def State.FusedFenced (s : State) : Prop := ∀ c p, bitAt (Tab.get 0#32 c s.fuse.fusedCores).toNat p = true → bitAt (s.kf.fencedOf c).toNat p = true

/-- The rows that may change the core maps: those that can fence a core or a cluster (R354, R337, R338, R352), those with which a package-warm or a cold
reset begins or ends (R26, R344), the end of a boot (R26), and the removal of power (R25). -/
def mayFence : Instr → Bool
  | .fenceCore .. | .fenceCluster .. | .registerWrite .. | .registerWriteMessage .. | .selfTestDone .. | .coreControlEcc .. | .cePolicyFence ..
  | .launchEnd .. | .resetPackageWarm .. | .rasUnretire .. | .autoReset | .perstAssert | .resetComplete .. | .bootReady .. | .powerRemoval => true
  | _ => false

/-- The rows that happen at a time of their own, and the removal of power: the only ones that may move LOCAL_TIME (log entry 2). -/
def mayMoveTime : Instr → Bool
  | .commandDeadlineExpiry .. | .coreWatchdogExpiry .. | .pierWatchdogExpiry .. | .hubWatchdogExpiry | .inputWithinOperatingRange
  | .dieResetWatchdogExpiry .. | .autoReset | .faultDeadlineExpiry .. | .tierDeadlineExpiry .. | .cycleStart | .slotStart
  | .rtsResend .. | .portTrainingAttempt .. | .trainingTimeout .. | .linkSilenceExpiry .. | .viaHeartbeatSend | .voteResend .. | .querySend ..
  | .perstRelease .. | .governorPeriod .. | .heartbeatTimeout | .clusterNap .. | .clusterDeep .. | .powerRemoval => true
  | _ => false

/-- The package of `s` when LOCAL_TIME has passed to that of `t`: the progress watchdogs that count have counted on (R339). -/
def State.upTo (s t : State) : Dev := s.dev.countCores (t.time.toNat - s.time.toNat)

/-! ### Control ISA rows -/

/-- A Control ISA row: who submits it, its checks, what it does once it has started, whether it has an executor, and what the row does last. -/
structure CtlRow where
  func : FuncId
  queue : QueueId
  cmd : Command
  check : Env → Dev → OpenCmd → Option Reject
  run : Env → Dev → OpenCmd → Dev
  held : Bool := false
  last : Env → Dev → Dev := fun _ d => d

/-- The Control ISA rows (R117), with the row of an opcode that is not assigned (R437). -/
def ctlRow : Instr → Option CtlRow
  | .nop f q c => some { func := f, queue := q, cmd := c, check := bareCheck, run := fun _ d o => d.finish o 0 }
  | .badOpcode f q c => some { func := f, queue := q, cmd := c, check := fun _ _ _ => some (Config.badOpcode, 0), run := fun _ d _ => d }
  | .spanLoad f q c => some { func := f, queue := q, cmd := c, check := spanLoadCheck, run := runSpanLoad }
  | .spanLaunch f q c => some { func := f, queue := q, cmd := c, check := spanLaunchCheck, run := runSpanLaunch, held := true }
  | .spanDrain f q c => some { func := f, queue := q, cmd := c, check := spanDrainCheck, run := runSpanDrain }
  | .dispenseSet f q c => some { func := f, queue := q, cmd := c, check := dispenseSetCheck, run := runDispenseSet }
  | .move f q c => some { func := f, queue := q, cmd := c, check := moveCheck, run := runMove }
  | .image f q c => some { func := f, queue := q, cmd := c, check := imageCheck, run := runImage }
  | .evictImage f q c => some { func := f, queue := q, cmd := c, check := evictCheck, run := runEvict }
  | .gather f q c => some { func := f, queue := q, cmd := c, check := trestleCheck, run := runTrestleCmd, held := true }
  | .scatter f q c => some { func := f, queue := q, cmd := c, check := trestleCheck, run := runTrestleCmd, held := true }
  | .scatterAdd f q c => some { func := f, queue := q, cmd := c, check := trestleCheck, run := runTrestleCmd, held := true }
  | .decode f q c => some { func := f, queue := q, cmd := c, check := trestleCheck, run := runTrestleCmd, held := true }
  | .reduce f q c => some { func := f, queue := q, cmd := c, check := trestleCheck, run := runTrestleCmd, held := true }
  | .update f q c => some { func := f, queue := q, cmd := c, check := trestleCheck, run := runTrestleCmd, held := true }
  | .pfxLookup f q c => some { func := f, queue := q, cmd := c, check := trestleCheck, run := runTrestleCmd, held := true }
  | .pfxInsert f q c => some { func := f, queue := q, cmd := c, check := trestleCheck, run := runTrestleCmd, held := true }
  | .score f q c => some { func := f, queue := q, cmd := c, check := trestleCheck, run := runTrestleCmd, held := true }
  | .wait f q c => some { func := f, queue := q, cmd := c, check := eventCheck, run := runWait }
  | .signal f q c => some { func := f, queue := q, cmd := c, check := eventCheck, run := runSignal }
  | .barrier f q c => some { func := f, queue := q, cmd := c, check := barrierCheck, run := runBarrier }
  | .commit f q c => some { func := f, queue := q, cmd := c, check := commitCheck, run := runCommit }
  | .abort f q c => some { func := f, queue := q, cmd := c, check := abortCheck, run := runAbort }
  | .viaSend f q c => some { func := f, queue := q, cmd := c, check := viaSendCheck, run := runViaSend }
  | .viaRecv f q c => some { func := f, queue := q, cmd := c, check := viaRecvCheck, run := runViaRecv }
  | .seqStep f q c => some { func := f, queue := q, cmd := c, check := seqStepCheck, run := runSeqStep, held := true, last := fun e d => d.sweepLeavers e }
  | .admitSession f q c => some { func := f, queue := q, cmd := c, check := admitCheck, run := runAdmit }
  | .release f q c => some { func := f, queue := q, cmd := c, check := releaseCheck, run := runRelease }
  | .timestamp f q c => some { func := f, queue := q, cmd := c, check := bareCheck, run := fun e d o => d.finish o e.now }
  | .longSuspend f q c => some { func := f, queue := q, cmd := c, check := longCheck, run := runLongSuspend }
  | .longResume f q c => some { func := f, queue := q, cmd := c, check := longCheck, run := runLongResume }
  | .longCancel f q c => some { func := f, queue := q, cmd := c, check := longCheck, run := runLongCancel }
  | .longQuery f q c => some { func := f, queue := q, cmd := c, check := longCheck, run := runLongQuery }
  | .objLoad f q c head => some { func := f, queue := q, cmd := c, check := objLoadCheck head, run := runObjLoad head }
  | .objRetire f q c => some { func := f, queue := q, cmd := c, check := objRetireCheck, run := runObjRetire }
  | _ => none

/-- The head that a Control ISA row lets start, with whether it is owner-started (R121, R290 to R292). -/
def CtlRow.start (r : CtlRow) (s : State) : Option (Fetched × Bool) :=
  if r.held then s.dev.mayStart s.env r.func r.queue r.cmd else (s.dev.headOf r.func r.queue r.cmd).map fun x => (x, false)

/-- `d'` is `d` once the head `x` of queue `q` of function `f` has started and completed, and nothing else has changed: the head is off the queue,
one entry is written at CQ_TAIL, CQ_TAIL moves on and the phase inverts at the wrap; with NOTIFY a message may follow (R119, R384). -/
structure Completed (d d' : Dev) (f q : Nat) (x : Fetched) (status result : Nat) : Prop where
  rest : d' = { d with hif := { d.hif with queues := d'.hif.queues, pba := d'.hif.pba }, nextUid := d'.nextUid, out := d'.out }
  queue : d'.queue f q = { d.queue f q with
    fetched := (d.queue f q).fetched.tail
    heldSince := none
    exec := none
    cqTail := ((d.queue f q).cqTail + 1) % (d.queue f q).cqSize
    phase := if ((d.queue f q).cqTail + 1) % (d.queue f q).cqSize = 0 then !(d.queue f q).phase else (d.queue f q).phase
    unread := (d.queue f q).unread + 1 }
  others : ∀ k, k ≠ 64 * f + q → Tab.get {} k d'.hif.queues = Tab.get {} k d.hif.queues
  entry : ∃ l, d'.out = d.out ++ .completion f q (d.queue f q).cqTail
      (completionEntry (cmdId x.cmd) q x.sqHead status (128 * bit (d.queue f q).phase) result) :: l ∧ (cmdNotify x.cmd = false → l = [])

/-! ### Flit rows -/

/-- A row of a flit that the tables deliver or send on: the port it arrives at, the flit, and what it does here, with its source (R310). -/
structure FlitRow where
  port : PortId
  flit : Flit
  act : Env → Dev → Nat → Dev

/-- The rows of the KINDs that cross the mesh (R310, R323 to R332). -/
def flitRow : Instr → Option FlitRow
  | .data p f => some { port := p, flit := f, act := fun e d src => dataHere e d f src }
  | .rts p f => some { port := p, flit := f, act := fun e d src => rtsHere e d f src }
  | .cts p f => some { port := p, flit := f, act := fun e d src => match d.sendFor f src with
      | some x => sendOnward e (d.setSend { x with cts := true, full := false }) x.uid
      | none => d }
  | .nack p f => some { port := p, flit := f, act := fun e d src => nackHere e d f src }
  | .endAck p f => some { port := p, flit := f, act := fun e d src => match d.sendFor f src with
      | some x => if x.sent then (d.dropSend x.uid).settle e [.done x.uid 0] else d
      | none => d }
  | .linkFail p f => some { port := p, flit := f, act := fun e d _ => Dev.linkFailed e d f }
  | .xferAbort p f => some { port := p, flit := f, act := fun e d src => abortHere e d f src }
  | .vote p f => some { port := p, flit := f, act := fun e d src => voteHere e d src (flitVoter f) (flitGroup f) (flitYes f) }
  | .decision p f => some { port := p, flit := f, act := fun e d src => decisionHere e d src (flitGroup f) (flitYes f) }
  | .query p f => some { port := p, flit := f, act := fun e d src => queryHere e d src (flitGroup f) }
  | .decisionAck p f => some { port := p, flit := f, act := fun _ d _ => ackHere d (flitVoter f) (flitGroup f) }
  | .withdraw p f => some { port := p, flit := f, act := fun e d _ => withdrawHere e d (flitGroup f) }
  | _ => none

/-- A row of a flit of the neighbour alone (R310): port, flit, and what it does. -/
def linkRow : Instr → Option (PortId × Flit × (Env → Dev → Dev))
  | .idle p f => some (p, f, fun _ d => d)
  | .heartbeat p f => some (p, f, fun _ d => d)
  | .ident p f => some (p, f, fun e d => identHere e d p f)
  | .lretry p f => some (p, f, fun e d => replayFrom e d p (bytesAt f.payload 0 2 % 1024))
  | _ => none

end Sys2Proof.Machine
end

