-- ==== Sys2Proof/Certificates/Slice0/Obligations.lean ====
section
/-!
DEFINITION. The statements about the model, each a proposition. Their texts, tiers and the rules they cite stand in OBLIGATIONS.json.
-/
open Sys2Proof Sys2Proof.Machine

/-! ### The machine -/

/-- A step with a command waiting is that command's row on the state with the rest of the queue. -/
def Obligations.StepRunsFront : Prop :=
  ∀ (s : State) (c : Instr) (rest : List Instr), step { s with pending := c :: rest } = exec c { s with pending := rest }

/-- With no command waiting, LOCAL_TIME of a supplied package counts, with it the progress watchdog of each core that holds tokens and lets nothing go on,
and nothing else changes (R339, R358; log entry 3, DESIGN CHOICE). -/
def Obligations.IdleCountsTime : Prop :=
  ∀ s : State, s.pending = [] →
    (s.dev.pins.powered = true → ∃ t, step s = .next t ∧ t = { s with time := s.time + 1#64, dev := { s.dev with cores := t.dev.cores } } ∧
      (∀ cl ph, ph < 32 → t.dev.core cl ph =
        if s.dev.coreCounts cl ph then { s.dev.core cl ph with still := (s.dev.core cl ph).still + 1 } else s.dev.core cl ph)) ∧
    (s.dev.pins.powered = false → step s = .next s)

/-- A row completes for every term that is a command of the hardware, and is refused by name for every other; it never touches the queue or the fuses. -/
def Obligations.RowsComplete : Prop :=
  ∀ (i : Instr) (s : State),
    (i.wf = true → ∃ t, exec i s = .next t ∧ t.pending = s.pending ∧ t.fuse = s.fuse) ∧ (i.wf = false → exec i s = .refused .illFormed)

/-- Only rows that can fence, the end of a boot and the removal of power change the core maps (R18, R19, R26); only rows that happen at a time of their
own, and the removal of power, move LOCAL_TIME (R358; log entry 2, DESIGN CHOICE). -/
def Obligations.MapsAndTimeFrame : Prop :=
  (∀ (i : Instr) (s t : State), exec i s = .next t → mayFence i = false → t.kf = s.kf) ∧
  (∀ (i : Instr) (s t : State), exec i s = .next t → mayMoveTime i = false → t.time = s.time)


/-- Every step keeps the core maps sound (R18, R19, R25, R26). -/
def Obligations.SoundMapsKept : Prop := ∀ s t : State, s.kf.Sound → step s = .next t → t.kf.Sound

/-- The core maps are sound right after power-on. -/
def Obligations.SoundMapsAtReset : Prop := State.reset.kf.Sound

/-- A set bit of KF_CORE_STATE.FENCED stays set over every step but the removal of power, which leaves the cores fenced at test; every step keeps the
cores that were fenced at test fenced (R25). -/
def Obligations.FencedCoresStay : Prop :=
  (∀ (s t : State) (c p : Nat), step s = .next t →
      ((∀ rest, s.pending ≠ .powerRemoval :: rest) → bitAt (s.kf.fencedOf c).toNat p = true → bitAt (t.kf.fencedOf c).toNat p = true) ∧
      (∀ rest, s.pending = .powerRemoval :: rest → s.dev.pins.powered = true → t.kf.fencedOf c = Tab.get 0#32 c s.fuse.fusedCores)) ∧
  (∀ s t : State, s.FusedFenced → step s = .next t → t.FusedFenced)


/-! ### Control ISA commands -/

/-- A Control ISA command that may start either completes with the code and the offset of its first failing check, or, its checks passed, does what its
row says; a part of a group that has failed ends with ERR_PEER_ABORT (R28, R120, R121, R137). -/
def Obligations.ControlCommandStarts : Prop :=
  ∀ (i : Instr) (r : CtlRow) (s : State) (x : Fetched) (owner : Bool), ctlRow i = some r → i.wf = true → r.start s = some (x, owner) →
    let o := (s.dev.openHead s.env r.func r.queue x owner).1
    let d := (s.dev.openHead s.env r.func r.queue x owner).2
    let after (d' : Dev) : Res := .next (s.onDev fun e _ => r.last e d')
    (∀ code off, r.check s.env d o = some (code, off) → exec i s = after (d.complete o.uid code off)) ∧
    (r.check s.env d o = none → o.group = 0 → exec i s = after (r.run s.env d o)) ∧
    (r.check s.env d o = none → o.group ≠ 0 → d.groupOf o.func o.group = none →
      exec i s = after (r.run s.env (d.setGroup { func := o.func, num := o.group }) o)) ∧
    (∀ g, r.check s.env d o = none → o.group ≠ 0 → d.groupOf o.func o.group = some g → g.aborted = false → exec i s = after (r.run s.env d o)) ∧
    (∀ g, r.check s.env d o = none → o.group ≠ 0 → d.groupOf o.func o.group = some g → g.aborted = true →
      exec i s = after (d.complete o.uid Config.peerAbort 0))

/-- A command that fails a check completes with its code and the offset of the field, and leaves the package as it was (R28, R120); a SEQ_STEP, with
which a RELEASE may have waited, is left out here. -/
def Obligations.FailedCheckChangesNothing : Prop :=
  ∀ (i : Instr) (r : CtlRow) (s : State) (x : Fetched) (owner : Bool) (code off : Nat), ctlRow i = some r → i.wf = true →
    (∀ f q c, i ≠ .seqStep f q c) → r.start s = some (x, owner) →
    r.check s.env (s.dev.openHead s.env r.func r.queue x owner).2 (s.dev.openHead s.env r.func r.queue x owner).1 = some (code, off) →
    ∃ d', exec i s = .next { s with dev := d' } ∧ Completed s.dev d' r.func r.queue x code off

/-- A Control ISA row whose command may not start changes nothing while the package does not serve, its function may not submit, its queue is unbound,
held by WAIT, BARRIER or FENCE, or has another command at its head (R121, R297, R300). -/
def Obligations.CommandWaitsItsTurn : Prop :=
  ∀ (i : Instr) (r : CtlRow) (s : State), ctlRow i = some r → i.wf = true → (∀ f q c, i ≠ .seqStep f q c) →
    (s.dev.inService = false ∨ s.dev.funcLive r.func = false ∨ (s.dev.queue r.func r.queue).st = .unbound ∨ s.dev.queueBlocked r.func r.queue = true ∨
      ((s.dev.queue r.func r.queue).fetched.head?.map (·.cmd)) ≠ some r.cmd) →
    exec i s = .next s

/-- NOP completes with the code of its header's check, OK where it passes, and does nothing else; TIMESTAMP reports LOCAL_TIME; with FENCE set neither
starts while an earlier command of its queue is open (R123). -/
def Obligations.NopAndTimestamp : Prop :=
  ∀ (f : FuncId) (q : QueueId) (c : Command) (s : State) (x : Fetched),
    (cmdFence c = true → s.dev.queueClear f q = false → cmdIs opNop c = true → exec (.nop f q c) s = .next s) ∧
    (cmdFence c = true → s.dev.queueClear f q = false → cmdIs opTimestamp c = true → exec (.timestamp f q c) s = .next s) ∧
    (s.dev.headOf f q c = some x → cmdIs opNop c = true →
      (reservedBytes c ≠ [] → ∃ d', exec (.nop f q c) s = .next { s with dev := d' } ∧
        Completed s.dev d' f q x Config.badField (minList 0 (reservedBytes c))) ∧
      (reservedBytes c = [] → bitAt (s.dev.funcClasses f) (cmdClass c) = false → ∃ d', exec (.nop f q c) s = .next { s with dev := d' } ∧
        Completed s.dev d' f q x Config.noPermission 8)) ∧
    (s.dev.headOf f q c = some x → reservedBytes c = [] → bitAt (s.dev.funcClasses f) (cmdClass c) = true →
      (cmdIs opNop c = true → ∃ d', exec (.nop f q c) s = .next { s with dev := d' } ∧ Completed s.dev d' f q x Config.ok 0) ∧
      (cmdIs opTimestamp c = true → ∃ d', exec (.timestamp f q c) s = .next { s with dev := d' } ∧ Completed s.dev d' f q x Config.ok s.time.toNat))

/-- A command whose opcode is 0x00 or above 0x1A completes with ERR_BAD_OPCODE and RESULT 0 whatever its other fields hold and whatever the ordering
number, and changes nothing (R437). -/
def Obligations.BadOpcodeCompletes : Prop :=
  ∀ (f : FuncId) (q : QueueId) (c : Command) (s : State) (x : Fetched), (cmdOpcode c = 0x00 ∨ 0x1B ≤ cmdOpcode c) → s.dev.headOf f q c = some x →
    ∃ d', exec (.badOpcode f q c) s = .next { s with dev := d' } ∧ Completed s.dev d' f q x Config.badOpcode 0

/-- SIGNAL changes its counter alone, completes every WAIT that the new value satisfies, and reports that value; WAIT completes at once with the value
where it is met, and is open, holding its queue, where it is not (R121, R135). A BARRIER that is not the last participant is open and holds its queue; the
last one completes every participant (R136). -/
def Obligations.EventsAndBarriers : Prop :=
  (∀ (f : FuncId) (q : QueueId) (c : Command) (s : State) (x : Fetched), s.dev.headOf f q c = some x →
      eventCheck s.env (s.dev.openHead s.env f q x false).2 (s.dev.openHead s.env f q x false).1 = none →
      (cmdIs opWait c = true → waitMet c (s.dev.event f (cmdEvent c)).toNat = true →
        ∃ d', exec (.wait f q c) s = .next { s with dev := d' } ∧ Completed s.dev d' f q x Config.ok (s.dev.event f (cmdEvent c)).toNat) ∧
      (cmdIs opWait c = true → waitMet c (s.dev.event f (cmdEvent c)).toNat = false →
        ∃ t, exec (.wait f q c) s = .next t ∧ t.dev = (s.dev.openHead s.env f q x false).2 ∧ t.dev.queueHeld f q = true) ∧
      (cmdIs opSignal c = true → ∃ t, exec (.signal f q c) s = .next t ∧
        t.dev = { s.dev with events := t.dev.events, opens := t.dev.opens, hif := t.dev.hif, nextUid := t.dev.nextUid, out := t.dev.out } ∧
        t.dev.event f (cmdEvent c) = signalled c (s.dev.event f (cmdEvent c)) ∧
        (∀ g i, 1024 * g + i ≠ 1024 * f.val + cmdEvent c → t.dev.event g i = s.dev.event g i) ∧
        (∀ o, o ∈ t.dev.opens ↔ o ∈ s.dev.opens ∧ ∀ w ∈ s.dev.opens, w.func = f → w.opcode = opWait → cmdEvent w.cmd = cmdEvent c →
          waitMet w.cmd (signalled c (s.dev.event f (cmdEvent c))).toNat = true → w.uid ≠ o.uid) ∧
        (∃ pre idx ph l, t.dev.out = pre ++ .completion f q idx (completionEntry (cmdId c) q x.sqHead Config.ok (128 * bit ph)
          (signalled c (s.dev.event f (cmdEvent c))).toNat) :: l ∧ (cmdNotify c = false → l = [])))) ∧
  (∀ (f : FuncId) (q : QueueId) (c : Command) (s : State) (x : Fetched), s.dev.headOf f q c = some x → cmdIs opBarrier c = true →
      barrierCheck s.env (s.dev.openHead s.env f q x false).2 (s.dev.openHead s.env f q x false).1 = none →
      ((s.dev.atBarrier f (barNumber c)).length + 1 < barCount c →
        ∃ t, exec (.barrier f q c) s = .next t ∧ t.dev = (s.dev.openHead s.env f q x false).2 ∧ t.dev.queueHeld f q = true) ∧
      (barCount c ≤ (s.dev.atBarrier f (barNumber c)).length + 1 → ∃ t, exec (.barrier f q c) s = .next t ∧
        t.dev = { s.dev with opens := t.dev.opens, hif := t.dev.hif, nextUid := t.dev.nextUid, out := t.dev.out } ∧
        (∀ o, o ∈ t.dev.opens ↔ o ∈ s.dev.opens ∧ ∀ w ∈ s.dev.atBarrier f (barNumber c), w.uid ≠ o.uid) ∧
        (∃ pre idx ph l, t.dev.out = pre ++ .completion f q idx (completionEntry (cmdId c) q x.sqHead Config.ok (128 * bit ph) 0) :: l ∧
          (cmdNotify c = false → l = []))))


/-- DISPENSE_SET stores START and LIMIT as programmed values of its dispenser, leaves NEXT and LIMIT in force, and completes with OK (R145, R148). -/
def Obligations.DispenserProgrammed : Prop :=
  ∀ (f : FuncId) (q : QueueId) (c : Command) (s : State) (x : Fetched), s.dev.headOf f q c = some x → cmdIs opDispenseSet c = true →
    dispenseSetCheck s.env (s.dev.openHead s.env f q x false).2 (s.dev.openHead s.env f q x false).1 = none →
    ∃ d', exec (.dispenseSet f q c) s = .next { s with dev := d' } ∧
      Completed (s.dev.setDisp (dispCluster c) (dispNumber c) { s.dev.disp (dispCluster c) (dispNumber c) with
        pStart := BitVec.ofNat 32 (dispStart c), pLimit := BitVec.ofNat 32 (dispLimit c), set := true }) d' f q x Config.ok 0

/-- LONG_QUERY reports the status word and frees the slot of an operation that has ended; LONG_RESUME makes a suspended operation RUNNING at once
and asks for its next chunk or segment;
LONG_SUSPEND and LONG_CANCEL of a running MOVE, IMAGE or OBJ_LOAD wait for its next chunk boundary, and each reports the status word at once where
it changes nothing (R139 to R141). -/
def Obligations.LongOperationCommands : Prop :=
  ∀ (f : FuncId) (q : QueueId) (c : Command) (s : State) (x : Fetched), s.dev.headOf f q c = some x →
    longCheck s.env (s.dev.openHead s.env f q x false).2 (s.dev.openHead s.env f q x false).1 = none →
    let k := longSlot c
    let l := s.dev.long k
    let o := (s.dev.openHead s.env f q x false).1
    (cmdIs opLongQuery c = true → ∃ d', exec (.longQuery f q c) s = .next { s with dev := d' } ∧
      Completed (if l.st.terminal then s.dev.setLong k { l with used := false } else s.dev) d' f q x Config.ok l.status) ∧
    (cmdIs opLongResume c = true → ∃ d', exec (.longResume f q c) s = .next { s with dev := d' } ∧
      (l.st = .suspended → Completed (s.dev.resumeLong s.env k) d' f q x Config.ok { l with st := .running }.status) ∧
      (l.st ≠ .suspended → Completed s.dev d' f q x Config.ok l.status)) ∧
    (cmdIs opLongSuspend c = true → ∃ d', exec (.longSuspend f q c) s = .next { s with dev := d' } ∧
      (l.st ≠ .running ∨ s.dev.longFixed l = true → Completed s.dev d' f q x Config.ok l.status) ∧
      (l.st = .running → s.dev.longFixed l = false → l.chunked = true →
        d'.long k = { l with suspendPending := true, waiters := l.waiters ++ [o.uid] } ∧ d'.opens = s.dev.opens ++ [o]) ∧
      (l.st = .running → s.dev.longFixed l = false → l.chunked = false →
        Completed (s.dev.setLong k { l with st := .suspended }) d' f q x Config.ok { l with st := .suspended }.status)) ∧
    (cmdIs opLongCancel c = true → ∃ d', exec (.longCancel f q c) s = .next { s with dev := d' } ∧
      ((l.st ≠ .running ∧ l.st ≠ .suspended) ∨ s.dev.longFixed l = true → Completed s.dev d' f q x Config.ok l.status) ∧
      (l.st = .running → s.dev.longFixed l = false → l.chunked = true →
        d'.long k = { l with st := .cancelling, waiters := l.waiters ++ [o.uid] } ∧ d'.opens = s.dev.opens ++ [o]))


/-! ### Spans and dispensers -/

/-- A SPAN_LAUNCH whose span stands LOADED with nothing waiting starts at once: the span is RUNNING with its arguments, and NEXT and LIMIT of every
dispenser that it owns, in every place, take the programmed values (R129, R150). -/
def Obligations.LaunchStarts : Prop :=
  ∀ (f : FuncId) (q : QueueId) (c : Command) (s : State) (x : Fetched) (owner : Bool),
    let o := (s.dev.openHead s.env f q x owner).1
    let d := (s.dev.openHead s.env f q x owner).2
    let k := cmdSlot c
    let p := s.dev.span k
    cmdIs opSpanLaunch c = true → s.dev.mayStart s.env f q c = some (x, owner) → spanLaunchCheck s.env d o = none → cmdGroup c = 0 →
    p.st = .loaded → p.waiting = [] → p.running = none → p.drain = none → p.reload = false → p.keyed = false → s.dev.epochAstray k = false →
    s.dev.unpaired k = false →
    ∃ t, exec (.spanLaunch f q c) s = .next t ∧ (t.dev.span k).running = some o.uid ∧ (t.dev.span k).st = .running ∧
      (t.dev.span k).args = launchArgs c ∧ (t.dev.span k).waiting = [] ∧
      (∀ y ∈ p.disps, t.dev.disp y.1 y.2.1 =
        { s.dev.disp y.1 y.2.1 with
          next := (s.dev.disp y.1 y.2.1).pStart, limit := (s.dev.disp y.1 y.2.1).pLimit, exhausted := false }) ∧
      (∀ z, (∀ y ∈ p.disps, 16 * y.1 + y.2.1 ≠ z) → Tab.get {} z t.dev.disps = Tab.get {} z s.dev.disps) ∧
      t.dev.blk = s.dev.blk ∧ t.dev.out = s.dev.out ∧ t.dev.opens = s.dev.opens ++ [o]

/-- LAUNCH_END, LOAD_COMPLETE and DRAIN_COMPLETE of a span whose sinks have ended, whose load may end, and whose sinks have reported: the slot stands
LOADED or DRAINING, the launch is charged cores times cycles and completes with its cycles; core fences that waited for it follow (R352); what
started after a drain that waited for the load is refused; the drained span's cores advance their epoch, its slot is FREE, or is left to the reset of its
function, and the drain completes with the new epoch (R127, R129, R130, R293, R301). SPAN_RELOAD writes a span that waits for it again, at its own epoch, on
the cores of the maps as they stand that lack its image, and its launches go on; a span whose routes find no path is lost with ERR_QUOTA, its drain
completing (R20). -/
def Obligations.SpanCommandsEnd : Prop :=
  (∀ (die : DieId) (slot : SlotId) (cycles : Quad) (s : State),
      let k : Nat := 64 * die + slot
      let p := s.dev.span k
      let e := s.env
      (∀ uid o, s.dev.running = true → p.running = some uid → s.dev.sinksEnded k = true →
        let d := ((s.dev.markIdle e.now k).restEngines k).modSpan k fun p => { p with running := none, st := if p.drain.isSome then .draining else .loaded }
        d.openOf uid = some o → o.opcode ≠ opSeqStep →
        exec (.launchEnd die slot cycles) s =
          .next (s.onDev fun _ _ => (d.charge o (p.ncores * cycles.toNat)).settle e [.done uid cycles.toNat, .next k]).fenceDue) ∧
      (∀ uid d, s.dev.running = true → p.loadCmd = some uid → p.st = .loading → s.dev.clustersActive p = true → s.dev.coresReady p = true →
        s.dev.replace s.kf k = some d →
        let q := d.span k
        let w := ((d.markIdle e.now k).writeSpan k q.cores q.epoch).setSpan k { q with st := if q.drain.isSome then .draining else .loaded, late := [], loadCmd := none }
        exec (.loadComplete die slot) s = .next (s.onDev fun _ _ => (q.hands.foldl (fun d h => d.joinPair k h) w).settle e
          (.done uid (slotHandle k) :: (q.late.map fun x => Todo.fail x.1 Config.badHandle 16) ++ [.next k]))) ∧
      (∀ uid, s.dev.running = true → p.st = .draining → p.keyed = true → s.dev.sinksKeyed k = true → s.dev.hasSender k = false → p.drain = some uid →
        let d := s.dev.markIdle e.now k
        let done : List Todo := [.done uid (p.epoch + 1#4).toNat]
        (s.dev.funcResetting p.func = false →
          exec (.drainComplete die slot) s = .next (s.onDev fun _ _ => ((d.advance k).releaseSlot k).settle e done)) ∧
        (s.dev.funcResetting p.func = true →
          exec (.drainComplete die slot) s = .next (s.onDev fun _ _ => (d.modSpan k fun p => { p with drain := none }).settle e done)))) ∧
  (∀ (die : DieId) (slot : SlotId) (s : State),
      let k : Nat := 64 * die + slot
      let p := s.dev.span k
      s.dev.running = true → p.reload = true → p.st ≠ .free → p.st ≠ .loading → s.dev.clustersActive p = true → s.dev.coresReady p = true →
      (s.dev.replace s.kf k = none → exec (.spanReload die slot) s = .next (s.onDev fun e d => d.settle e [.lose k Config.quota 16 true])) ∧
      (∀ d, s.dev.replace s.kf k = some d → exec (.spanReload die slot) s = .next (s.onDev fun e _ =>
        (((d.markIdle e.now k).writeSpan k (d.bareCores k) (d.span k).epoch).modSpan k fun p => { p with reload := false }).settle e [.next k])))


/-! ### The engine fabric -/

/-- A token that passes the arrival checks leaves the way and is settled into its joint queue, a corrected one counted; one that fails them ends the command
of its span with the fault, an uncorrectable one counted; one to a send endpoint goes onto its bridge (R46, R54, R62, R66). -/
def Obligations.TokenArrives : Prop :=
  ∀ (p : EngPort) (die ep : Nat) (f : Flight) (s : State) (ecc : Ecc), (RouteDst.port p).wf = true → die < 4 → ep < 32 →
    (s.dev.flights.find? (fun f => f.dst = .port p) = some f → s.dev.coreLive s.env p.cl p.phys = true →
      let d : Dev := { s.dev with flights := s.dev.flights.eraseP fun f => f.dst = .port p }
      (arrivalFault d p (queueKey p.net p.port) f.tok ecc = none →
        let d := if ecc = .corrected then d.modCore p.cl p.phys fun c => { c with eccCorr := min (2 ^ 32 - 1) (c.eccCorr + 1) } else d
        exec (.tokenArrival (.port p) ecc) s = .next { s with dev := d.writeToken p (queueKey p.net p.port) f.tok }) ∧
      (∀ i, arrivalFault d p (queueKey p.net p.port) f.tok ecc = some i →
        let d := if ecc = .uncorrected then d.modCore p.cl p.phys fun c => { c with eccUncorr := min (2 ^ 32 - 1) (c.eccUncorr + 1) } else d
        exec (.tokenArrival (.port p) ecc) s = .next { s with dev := d.engFault s.env p.cl p.phys p.eng i })) ∧
    (s.dev.flights.find? (fun f => f.dst = .sendEp die ep) = some f → s.dev.running = true →
      exec (.tokenArrival (.sendEp die ep) ecc) s = .next { s with dev :=
        { s.dev with
          flights := s.dev.flights.eraseP fun f => f.dst = .sendEp die ep
          pairs := s.dev.pairs.map fun p =>
            if p.sDie = die && p.sEp = ep && p.sSpan.isSome then
              if f.tok.kind = .keystone then { p with sKey := true } else { p with bridge := p.bridge ++ [.tok f.tok.iter f.tok.kind f.tok.payload] }
            else p } })

/-- The oldest token of an output buffer goes to every destination of its route once the sender's view of each allows it, and a KEYSTONE always; a receive
endpoint sends the token it presents in the same way, and has room for one more; the spans and the memories stay as they are (R43, R44, R47, R48, R62).
The oldest credit return of a sender reaches it and sets its view of that destination alone; the oldest item of a bridge enters its pair's buffer
(R48, R62, R63). A source without a route, or without a credit return, does nothing. -/
def Obligations.TokensAndCredits : Prop :=
  (∀ (p : EngPort) (r : Route) (t : Token) (rest : List Token) (s : State), (RouteSrc.port p).wf = true → s.dev.routeFrom (.port p) = some r →
      s.dev.coreLive s.env p.cl p.phys = true → Tab.get [] (queueKey p.net p.port) (s.dev.eng p.cl p.phys p.eng).outs = t :: rest →
      ((t.kind = .keystone ∨ r.views.all (fun v => s.dev.mayGo v.1 v.2.1 v.2.2 t.tag.toNat) = true) →
        ∃ u, exec (.tokenSend (.port p)) s = .next u ∧
          u.dev.flights = s.dev.flights ++ r.dsts.map (fun x => { src := r.src, dst := x, tok := t }) ∧
          u.dev.spans = s.dev.spans ∧ u.dev.blk = s.dev.blk ∧ u.dev.opens = s.dev.opens ∧ u.dev.out = s.dev.out ∧ u.dev.disps = s.dev.disps ∧
          (t.kind ≠ .keystone → u.dev.routes = s.dev.routes.map fun y => if y.src = r.src then { y with free := y.free.map (· - 1) } else y) ∧
          (t.kind = .keystone → u.dev.routes = s.dev.routes ∧ u.dev.pairs = s.dev.pairs)) ∧
      ((t.kind ≠ .keystone ∧ r.views.all (fun v => s.dev.mayGo v.1 v.2.1 v.2.2 t.tag.toNat) = false) → exec (.tokenSend (.port p)) s = .next s)) ∧
  (∀ (die ep rd rs : Nat) (r : Route) (p : Pair) (s : State), die < 4 → ep < 32 → s.dev.running = true → s.dev.routeFrom (.recvEp die ep) = some r →
      s.dev.pairInto die ep = some p → p.rSpan = some (rd, rs) → ((s.dev.span (64 * rd + rs)).running.isSome || (s.dev.span (64 * rd + rs)).keyed) = true →
      (∀ ext kind pay, p.next r = some (ext, kind, pay) → r.views.all (fun v => s.dev.mayGo v.1 v.2.1 v.2.2 (ext % 16)) = true →
        ∃ u, exec (.tokenSend (.recvEp die ep)) s = .next u ∧
          u.dev.flights = s.dev.flights ++ r.dsts.map (fun x => { src := r.src, dst := x, tok := token kind ext (s.dev.span (64 * rd + rs)).epoch pay }) ∧
          (∀ (k : Nat) (y : Pair), s.dev.pairs[k]? = some y → y.rDie = die → y.rEp = ep → y.rSpan.isSome = true →
            ∃ z : Pair, u.dev.pairs[k]? = some z ∧ z.buf = y.buf.erase (.tok ext kind pay) ∧
              (r.dsts.contains (.sendEp y.sDie y.sEp) = false → z.credit = min 64 (y.credit + 1))) ∧
          u.dev.spans = s.dev.spans ∧ u.dev.blk = s.dev.blk ∧ u.dev.opens = s.dev.opens ∧ u.dev.out = s.dev.out ∧ u.dev.cores = s.dev.cores) ∧
      (p.next r = none → exec (.tokenSend (.recvEp die ep)) s = .next s) ∧
      (∀ ext kind pay, p.next r = some (ext, kind, pay) → r.views.all (fun v => s.dev.mayGo v.1 v.2.1 v.2.2 (ext % 16)) = false →
        exec (.tokenSend (.recvEp die ep)) s = .next s)) ∧
  (∀ (src : RouteSrc) (m : CreditMsg) (die : DieId) (ep : Fin 32) (s : State), s.dev.running = true →
      (src.wf = true → s.dev.routeFrom src = none → exec (.tokenSend src) s = .next s) ∧
      (src.wf = true → s.dev.creditMsgs.find? (fun m => m.src = src) = none → exec (.creditReturn src) s = .next s) ∧
      (src.wf = true → s.dev.creditMsgs.find? (fun m => m.src = src) = some m →
        exec (.creditReturn src) s = .next { s with dev := { s.dev with
          creditMsgs := s.dev.creditMsgs.eraseP fun m => m.src = src
          routes := s.dev.routes.map fun r =>
            if r.src = src then
              { r with
                free := (r.dsts.zip r.free).map fun y => if y.1 = m.dst then min 8 (y.2 + m.slots) else y.2
                bases := (r.dsts.zip r.bases).map fun y => if y.1 = m.dst then m.base else y.2 }
            else r } }) ∧
      exec (.handoffReceive die ep) s = .next { s with dev := { s.dev with
        pairs := s.dev.pairs.map fun p =>
          if p.rDie = die.val && p.rEp = ep.val then match p.bridge with
            | [] => p
            | i :: t => { p with bridge := t, buf := p.buf ++ [i] }
          else p } })


/-- An engine whose fed inputs all hold a KEYSTONE, with every token consumed, puts one KEYSTONE of its core's epoch on every output with a route, and
has reported; a send endpoint that holds one puts the end marker on its bridge, and a receive endpoint forwards its own once every token before the
marker is delivered (R60, R63). -/
def Obligations.KeystonesForward : Prop :=
  ∀ (cl ph n die ep : Nat) (s : State), cl < 16 → ph < 32 → n < 8 → die < 4 → ep < 32 →
    (s.dev.coreLive s.env cl ph = true → s.dev.keystoneReady cl ph n (s.dev.eng cl ph n) = true →
      ∃ t, exec (.keystoneForward (.engine cl ph n)) s = .next t ∧ (t.dev.eng cl ph n).keyOut = true ∧ (t.dev.eng cl ph n).keyIn = false ∧
        (t.dev.eng cl ph n).outs = (s.dev.routedOuts cl ph n).foldl
          (fun o k => pushTok o k (token .keystone 0 (s.dev.core cl ph).epoch 0#512)) (s.dev.eng cl ph n).outs ∧
        (t.dev.eng cl ph n).queues = (s.dev.eng cl ph n).queues.map (fun q => (q.1, { q.2 with key := false })) ∧
        t.dev = { s.dev with cores := t.dev.cores }) ∧
    (s.dev.running = true → exec (.keystoneForward (.sendEp die ep)) s = .next { s with dev := { s.dev with
      pairs := s.dev.pairs.map fun p =>
        if p.sDie = die && p.sEp = ep && p.sSpan.isSome && p.sKey then
          { p with sKey := false, sDone := true, bridge := if p.rSpan.isSome then p.bridge ++ [.endMark] else p.bridge }
        else p } }) ∧
    (∀ p rd rs r, s.dev.running = true → s.dev.pairInto die ep = some p → p.rSpan = some (rd, rs) → s.dev.routeFrom (.recvEp die ep) = some r →
      (p.mayForward = false → exec (.keystoneForward (.recvEp die ep)) s = .next s) ∧
      (p.mayForward = true → exec (.keystoneForward (.recvEp die ep)) s = .next { s with dev := { s.dev with
        flights := s.dev.flights ++ r.dsts.map (fun x => { src := r.src, dst := x, tok := token .keystone 0 (s.dev.span (64 * rd + rs)).epoch 0#512 })
        pairs := s.dev.pairs.map fun y =>
          if y.rDie = die && y.rEp = ep && y.rSpan.isSome then { y with rKey := false, rDone := true, buf := y.buf.drop 1 } else y } }))

/-- A CE fires for the lowest ready iteration of its window: the inputs of the phase are consumed, its outputs are pushed where a route leaves, and the
firing is counted, and the progress watchdog of its core begins anew; a steering firing sends its data token on the output that its control names; a
firing that takes a stationary load past its count ends the command with ERR_OVERFLOW (R51, R53, R58, R59, R64, R76, R339). -/
def Obligations.CeFires : Prop :=
  ∀ (cl : ClusterId) (ph : CoreId) (ce : Fin 4) (p : CeProg) (n : Nat) (h : Phase) (s : State),
    let x := s.dev.eng cl ph ce
    let u := p.unit x.limit
    let j := (x.settling.iter n).fired
    let ins := x.settling.consume n ((u.nextIns x.settling n).getD [])
    let routed := s.dev.routedOuts cl ph ce
    let outs (j : Nat) : List Nat := match p.phaseAt j with
      | some h => h.outputs
      | none => []
    let loads := if j = h.first then 0 else (x.settling.iter n).loads
    let epoch := (s.dev.core cl ph).epoch
    x.prog = .ce p → s.dev.coreLive s.env cl ph = true → x.fires = true →
    u.pick x.settling (u.nextOuts x.settling outs routed) = some n → p.phaseAt j = some h →
    (∀ toks regs q, p.steer = 0 → ceCompute x p h ins.1 loads none = .done toks regs q →
      let t := (ins.2.fire n).setLoads n q
      let o := toks.foldl (fun o y => if routed.contains y.1 then pushTok o y.1 (token .data n epoch y.2) else o) t.outs
      let y : Eng := { x with iters := t.iters, queues := t.queues, outs := o, regs := regs, firings := x.firings + 1 }
      exec (.ceFiring cl ph ce) s = .next (s.onDev fun _ d => (d.putEng cl ph ce x y t.freed).fired cl ph)) ∧
    (∀ q limit, p.steer = 0 → ceCompute x p h ins.1 loads none = .overflow q limit →
      exec (.ceFiring cl ph ce) s = .next (s.onDev fun e d => d.engFault e cl ph ce
        { error := Config.overflow, resource := 0x05, iter := some n, value := q, limit := limit, firing := some j })) ∧
    (∀ first b taken t toks regs q, p.steer ≠ 0 → takeSteered u x.settling n = some (first, b, taken, t) →
      ceCompute x p h (stageToks u b taken (s.dev.free 512).1) loads (some (inTok taken (u.named b))) = .done toks regs q →
      let t := t.setLoads n q
      let o := (steerToks p.steer first b (Tab.get 0#512 4 toks) n epoch).foldl (fun o y => if routed.contains y.1 then pushTok o y.1 y.2 else o) t.outs
      let y : Eng := { x with iters := t.iters, queues := t.queues, outs := o, regs := regs, firings := x.firings + 1 }
      exec (.ceFiring cl ph ce) s = .next { s with dev := ((s.dev.free 512).2.putEng cl ph ce x y t.freed).fired cl ph }) ∧
    (∀ first b taken t q limit, p.steer ≠ 0 → takeSteered u x.settling n = some (first, b, taken, t) →
      ceCompute x p h (stageToks u b taken (s.dev.free 512).1) loads (some (inTok taken (u.named b))) = .overflow q limit →
      exec (.ceFiring cl ph ce) s = .next (s.onDev fun e _ => (s.dev.free 512).2.engFault e cl ph ce
        { error := Config.overflow, resource := 0x05, iter := some n, value := q, limit := limit, firing := some j }))

/-- A stream context that the lowest-numbered rule lets go makes its firing, and an ME that steers its own; a granted transfer of a context completes while its
cluster is ACTIVE: a spill's bytes are at its tier address, a fill's in the SRAM; on a unit that has failed it does not (R37, R90, R188, R226). -/
def Obligations.StreamsFire : Prop :=
  ∀ (cl : ClusterId) (ph : CoreId) (me : Fin 4) (ctx : Fin 8) (recent lin : Nat) (ecc : Ecc) (q : MeProg) (c : CtxProg) (t : Xfer) (s : State),
    let x := s.dev.eng cl ph (4 + me)
    (x.prog = .me q → s.dev.coreLive s.env cl ph = true → x.fires = true → q.steer = 0 → q.ctx? ctx = some c → genFree q x (ctx, c) = true →
      exec (.meFiring cl ph me ctx recent ecc) s = .next { s with dev := ctxFire s.env s.dev cl ph me q (ctx, c) recent ecc }) ∧
    (x.prog = .me q → s.dev.coreLive s.env cl ph = true → x.fires = true → q.steer ≠ 0 → ctx = 0 →
      exec (.meFiring cl ph me ctx recent ecc) s = .next { s with dev := meSteer s.dev cl ph (4 + me) q }) ∧
    ((s.dev.streamCtx cl ph me ctx).outst.find? (fun t => t.lin = lin && t.granted) = some t → s.dev.running = true → (s.dev.sleep cl).st = .active →
      (s.dev.unitDead s.fuse t.pa = true → exec (.tierTransferDone cl ph me ctx lin ecc) s = .next s)) ∧
    ((s.dev.streamCtx cl ph me ctx).outst.find? (fun t => t.lin = lin && t.granted) = some t → s.dev.running = true → (s.dev.sleep cl).st = .active →
      s.dev.unitDead s.fuse t.pa = false →
      (t.write = true → ∃ u, exec (.tierTransferDone cl ph me ctx lin ecc) s = .next u ∧ u.dev.blk.dram = (s.dev.writePa t.pa t.data).blk.dram ∧
        u.dev.blk.near = s.dev.blk.near) ∧
      (t.write = false → ecc = .good → s.dev.badIn t.pa 64 = none →
        ∃ u, exec (.tierTransferDone cl ph me ctx lin ecc) s = .next u ∧ u.dev.blk.dram = s.dev.blk.dram ∧
          u.dev.blk.near = Memory.write s.dev.blk.near (nearAt cl ph me t.sram) (Memory.read s.dev.blk.dram t.pa 64)))

/-- A round of a port whose unit has not failed: the fixed slots present their oldest requests, NOW counts on by one, and the slot that wins is granted
and counted, while every other slot that presents a request has lost one round more and waits one more; without a winner nothing else changes. A free
dynamic slot goes to the waiting context whose transfer has the earliest deadline, and its transfers at that port wait no more (R231 to R235). -/
def Obligations.PortRounds : Prop :=
  ∀ (port : Fin 672) (s : State), s.dev.running = true → s.fuse.arbFitted port = true →
    (s.dev.portDead port = true → exec (.arbRound port) s = .next s) ∧
    (s.dev.portDead port = false →
      let d := s.dev.presentAll s.env port
      ∃ t, exec (.arbRound port) s = .next t ∧ t.dev.arbNow port = s.dev.arbNow port + 1#32 ∧ t.dev.blk = s.dev.blk ∧ t.dev.out = s.dev.out ∧
        t.dev.opens = s.dev.opens ∧
        (d.winner port = none → t.dev = { d with arb := { d.arb with now := Tab.put port (s.dev.arbNow port + 1#32) d.arb.now } }) ∧
        (∀ k, d.winner port = some k → t.dev.arb.slots = (d.grant s.env port k).arb.slots ∧ t.dev.arb.fixed = (d.grant s.env port k).arb.fixed ∧
          Tab.get 0 (64 * port.val + k) t.dev.arb.grants = min (2 ^ 64 - 1) (Tab.get 0 (64 * port.val + k) s.dev.arb.grants + 1) ∧
          Tab.get 0 (64 * port.val + k) t.dev.arb.maxWait
            = max (Tab.get 0 (64 * port.val + k) s.dev.arb.maxWait) (s.dev.arbNow port - (d.arbSlot port k).arrived).toNat ∧
          (∀ j, j < 64 → j ≠ k → (d.arbSlot port j).ready = true →
            Tab.get 0 (64 * port.val + j) t.dev.arb.waits = min (2 ^ 64 - 1) (Tab.get 0 (64 * port.val + j) s.dev.arb.waits + 1) ∧
            t.dev.arbSlot port j = { d.arbSlot port j with lost := min 65535 ((d.arbSlot port j).lost + 1) }))) ∧
    (s.dev.freeSlot port = none ∨ s.dev.nextWait port = none → exec (.dynamicSlotGrant port) s = .next s) ∧
    (∀ k w, s.dev.freeSlot port = some k → s.dev.nextWait port = some w →
      ∃ t, exec (.dynamicSlotGrant port) s = .next t ∧ t.dev.arb.grants = s.dev.arb.grants ∧ t.dev.blk = s.dev.blk ∧ t.dev.out = s.dev.out ∧
        t.dev.arb.waiting = s.dev.arb.waiting.filter
          (fun v => !(v.port = port.val && v.cl = w.cl && v.phys = w.phys && v.me = w.me && v.ctx = w.ctx)) ∧
        (∀ x ∈ (t.dev.streamCtx w.cl w.phys w.me w.ctx).outst, x.port = port.val → x.since.isSome = true) ∧
        ((∃ x ∈ (s.dev.streamCtx w.cl w.phys w.me w.ctx).outst, x.port = port.val ∧ x.granted = false) →
          (t.dev.arbSlot port k).owner = .stream w.cl w.phys w.me w.ctx ∧ (t.dev.arbSlot port k).ready = true))


/-! ### The memory system -/

/-- A chunk of a MOVE whose transfers the arbiters have served is copied, and counts for a long one; at its boundary a cancellation ends it FAILED with its
pages given back, a suspension stops it, else its next chunk is asked for, and after the last page every leaf names its destination. A chunk that is not
served yet waits, and one that found no pages asks again. Once no transfer reads a source page the move is complete: its source pages are given back, and it
reports the bytes moved (R141, R178, R179, R231). -/
def Obligations.MoveAdvances : Prop :=
  ∀ (uid : Nat) (m : Move) (s : State), s.dev.running = true → s.dev.moveOf uid = some m →
    (m.switched = false → m.waiting = false → (∀ k, m.long = some k → (s.dev.long k).st ≠ .suspended) →
      let n := m.nextChunk
      let d := (s.dev.copyChunk m).setMove n
      (s.dev.asks m.who = true → exec (.moveChunk uid) s = .next s) ∧
      (s.dev.asks m.who = false → (∃ p ∈ m.chunk, p.dst = none) → (∀ k, m.long = some k → (s.dev.long k).st ≠ .cancelling) →
        exec (.moveChunk uid) s = .next { s with dev := s.dev.askChunk s.env m }) ∧
      (s.dev.asks m.who = false → (∀ p ∈ m.chunk, p.dst ≠ none) →
        (m.long = none → n.copied < n.pages.length → exec (.moveChunk uid) s = .next { s with dev := d.askChunk s.env n }) ∧
        (m.long = none → n.pages.length ≤ n.copied → exec (.moveChunk uid) s = .next { s with dev := d.switchNow s.fuse n }) ∧
        (∀ k, m.long = some k →
          let v := d.modLong k fun l => { l with chunks := l.chunks + 1 }
          ((v.long k).st = .cancelling → exec (.moveChunk uid) s = .next { s with dev := v.cancelLong s.fuse k Config.cancelled }) ∧
          ((v.long k).st ≠ .cancelling → (v.long k).suspendPending = true → exec (.moveChunk uid) s = .next (s.onDev fun _ _ =>
            (v.modLong k fun l => { l with st := .suspended, suspendPending := false }).wakeLong k)) ∧
          ((v.long k).st ≠ .cancelling → (v.long k).suspendPending = false → n.copied < n.pages.length →
            exec (.moveChunk uid) s = .next { s with dev := v.askChunk s.env n }) ∧
          ((v.long k).st ≠ .cancelling → (v.long k).suspendPending = false → n.pages.length ≤ n.copied →
            exec (.moveChunk uid) s = .next { s with dev := v.switchNow s.fuse n })))) ∧
    (m.switched = true → s.dev.readsSource m = true → exec (.moveComplete uid) s = .next s) ∧
    (m.switched = true → s.dev.readsSource m = false → ∃ t, exec (.moveComplete uid) s = .next t ∧ t.dev.moveOf uid = none ∧
      t.dev.blk.dram = s.dev.blk.dram ∧
      (∀ k, m.long = some k → t.dev = ((s.dev.finishMove m).dropMove uid).endLong k 0 m.bytes) ∧
      (m.long = none → m.resolution = false → t.dev = ((s.dev.finishMove m).dropMove uid).complete uid Config.ok m.bytes))

/-- A segment of an IMAGE that has been read is written on the dies that lack it, its bytes are counted, and the boundary after it applies a cancellation or
a suspension, or the next segment is asked for; the last one ends it with its bytes. One that is not read yet, or finds no pages, waits; a version or
segment that fails ends the IMAGE with its code, and an uncorrected word of its home with ERR_ECC_UNCORRECTED and resource 0x2A (R180, R189, R141). One
without dies or segments left ends at once, and a slot that holds no IMAGE under way has no segment.
Evicted pages are FREE once the commands that ran at the eviction have ended (R182). -/
def Obligations.ImageAdvances : Prop :=
  ∀ (k n seg entry : Nat) (dies : List Nat) (x : DieId) (s : State), s.dev.running = true →
    let l := s.dev.long k
    let v := s.dev.ver n
    let g := s.dev.ver entry
    let live (u : Nat) : Bool := (s.dev.openOf u).isSome
    let row : Instr := .imageSegment k
    (l.used = true → (l.st = .running ∨ l.st = .cancelling) → l.kind = .image n dies seg → dies ≠ [] → seg < v.segs.length →
      (s.dev.asks (.long k) = true → exec row s = .next s) ∧
      (s.dev.asks (.long k) = false →
        (∀ plain, s.dev.openSegment v seg = .ok plain →
          let o := writeOn s.env n seg plain { who := some (.long k), pa := 0, n := 0 } dies s.dev
          (o = none → l.st = .running → exec row s = .next s) ∧
          (o = none → l.st = .cancelling → exec row s = .next { s with dev := s.dev.cancelLong s.fuse k Config.cancelled }) ∧
          (∀ on d, o = some (on, d) →
            let d := d.modLong k fun l => { l with
              kind := .image n dies (seg + 1), chunks := l.chunks + 1, bytes := l.bytes + on.length * plain.length
              written := l.written ++ on.map fun y => (y, seg) }
            (l.st = .running → seg + 1 = v.segs.length → exec row s = .next { s with dev := d.endLong k 0 (d.long k).bytes }) ∧
            (l.st = .running → seg + 1 < v.segs.length → (d.long k).suspendPending = false → exec row s = .next { s with dev := d.askImage s.env k }) ∧
            (l.st = .running → seg + 1 < v.segs.length → (d.long k).suspendPending = true →
              exec row s = .next { s with dev := (d.modLong k fun l => { l with st := .suspended, suspendPending := false }).wakeLong k }) ∧
            (l.st = .cancelling → exec row s = .next { s with dev := d.cancelLong s.fuse k Config.cancelled }))) ∧
        (∀ code, s.dev.openSegment v seg = .error code → s.dev.poisonedSegment v seg = none →
          exec row s = .next { s with dev := s.dev.cancelLong s.fuse k code 16 }) ∧
        (∀ code pa, s.dev.openSegment v seg = .error code → s.dev.poisonedSegment v seg = some pa →
          exec row s = .next (s.onDev fun _ _ =>
            s.dev.failLong s.fuse s.env k { error := Config.eccUncorrected, resource := 0x2A, engine := 0xF2, value := pa })))) ∧
    (l.used = true → (l.st = .running ∨ l.st = .cancelling) → l.kind = .image n dies seg →
      (v.segs.length ≤ seg → exec row s = .next { s with dev := s.dev.endLong k 0 l.bytes }) ∧
      (seg < v.segs.length → dies = [] → exec row s = .next { s with dev := s.dev.endLong k 0 0 })) ∧
    ((l.used = false ∨ (l.st ≠ .running ∧ l.st ≠ .cancelling) ∨ ∀ n dies seg, l.kind ≠ .image n dies seg) → exec row s = .next s) ∧
    ((∀ y ∈ g.evicted, y.1 = x.val → y.2.2.any live = true) → exec (.evictPagesFree entry x) s = .next s) ∧
    ((∃ y ∈ g.evicted, y.1 = x.val ∧ y.2.2.any live = false) → ∃ t, exec (.evictPagesFree entry x) s = .next t ∧
      (t.dev.ver entry).evicted = g.evicted.filter (fun y => !(y.1 = x.val && !y.2.2.any live)) ∧
      (∀ y ∈ g.evicted, y.1 = x.val → y.2.2.any live = false → ∀ b ∈ y.2.1, ∀ p ∈ unitPages b, t.dev.pageState p = .free) ∧
      t.dev.opens = s.dev.opens ∧ t.dev.out = s.dev.out ∧ t.dev.blk.dram = s.dev.blk.dram)

/-- A segment of an OBJ_LOAD whose SHA-256 is the manifest's is written unchanged at its place of the home; the last one makes the version ACTIVE and
the load DONE with its handle; another hash ends it with ERR_SIGNATURE, a cancellation at the boundary after it, and a home on a failed channel keeps it
waiting for the tier deadline (R141, R188, R249, R250). A retirement whose version has no reference left clears its leaves
on every die, and once the commands that then ran have ended, its entry is FREE and the retirement DONE (R254). -/
def Obligations.ObjectsMove : Prop :=
  ∀ (k n seg : Nat) (data : List Byte) (s : State), s.dev.running = true →
    let l := s.dev.long k
    let v := s.dev.ver n
    (∀ pa, l.used = true → (l.st = .running ∨ l.st = .cancelling) → l.kind = .objLoad n seg → seg < v.segs.length →
      s.dev.deadIn s.fuse (v.segBlocks seg) = some pa → exec (.objLoadSegment k data) s = .next (s.onDev fun _ _ => s.dev.modLong k fun l =>
        { l with stall := some (l.stall.getD (pa, s.time.toNat)) })) ∧
    (l.used = true → l.st = .cancelling → l.kind = .objLoad n seg → seg < v.segs.length → s.dev.deadIn s.fuse (v.segBlocks seg) = none →
      (v.segs[seg]?).map (·.hash) = some (sha256 data) →
      let d := (Dev.writeHome v (v.segLen seg / blockBytes) (v.headLen + unitBytes * seg) data s.dev).modLong k fun l =>
        { l with kind := .objLoad n (seg + 1), chunks := l.chunks + 1, bytes := l.bytes + data.length }
      exec (.objLoadSegment k data) s = .next { s with dev := d.cancelLong s.fuse k Config.cancelled }) ∧
    ((l.used = false ∨ (l.st ≠ .running ∧ l.st ≠ .cancelling) ∨ ∀ n seg, l.kind ≠ .objLoad n seg) → exec (.objLoadSegment k data) s = .next s) ∧
    (l.used = true → (l.st = .running ∨ l.st = .cancelling) → l.kind = .objLoad n seg → seg < v.segs.length → s.dev.deadIn s.fuse (v.segBlocks seg) = none →
      (v.segs[seg]?).map (·.hash) ≠ some (sha256 data) →
      exec (.objLoadSegment k data) s = .next { s with dev := s.dev.cancelLong s.fuse k Config.signature 16 }) ∧
    (l.used = true → l.st = .running → l.kind = .objLoad n seg → seg < v.segs.length → s.dev.deadIn s.fuse (v.segBlocks seg) = none →
      ((v.segs[seg]?).map (·.hash) = some (sha256 data) →
        let d := (Dev.writeHome v (v.segLen seg / blockBytes) (v.headLen + unitBytes * seg) data s.dev).modLong k fun l =>
          { l with kind := .objLoad n (seg + 1), chunks := l.chunks + 1, bytes := l.bytes + data.length }
        (seg + 1 = v.segs.length → exec (.objLoadSegment k data) s = .next (s.onDev fun _ _ =>
          (d.modVer n fun v => { v with st := .active }).endLong k 0 (verHandle n v))) ∧
        (seg + 1 < v.segs.length → exec (.objLoadSegment k data) s = .next { s with dev := (d.boundary s.fuse k).2 }))) ∧
    (v.st = .retiring → (s.dev.retirementOf n).all (fun x => x.2.st = .running) = true → v.torn = none →
      (s.dev.refs n ≠ 0 → exec (.retireTeardown n) s = .next s) ∧
      (s.dev.refs n = 0 → ∃ t, exec (.retireTeardown n) s = .next t ∧ (t.dev.ver n).torn = some (s.dev.opens.map (·.uid)) ∧ (t.dev.ver n).st = .retiring ∧
        (∀ x, x < 4 → (t.dev.ver n).imageOn x = none) ∧ t.dev.opens = s.dev.opens ∧ t.dev.out = s.dev.out ∧ t.dev.longs = s.dev.longs)) ∧
    (∀ uids, v.torn = some uids →
      ((∃ u ∈ uids, (s.dev.openOf u).isSome = true) → exec (.retirePagesFree n) s = .next s) ∧
      ((∀ u ∈ uids, s.dev.openOf u = none) → ∃ t, exec (.retirePagesFree n) s = .next t ∧ t.dev.ver n = { gen := v.gen + 1 } ∧
        (∀ p ∈ v.pages, t.dev.pageState p = .free) ∧
        (∀ j l, s.dev.retirementOf n = some (j, l) → s.dev.long j = l → l.st ≠ .cancelling → t.dev.long j = { (s.dev.long j) with st := .done, error := 0#8, suspendPending := false, waiters := [] })))

/-- A step whose launches have ended writes its output records and commits: its command completes with what the step reports, in its group's turn; a
record that cannot be written ends it with the fault of that address (R271, R280 to R285). The next step of the die may then begin (R277). A
TRESTLE whose elements have all finished and whose transfers have all been served frees its contexts and completes with its result; an uncorrected word of a
unit's staging, or an uncorrected crossbar transfer, ends it with resource 0x33 or 0x34 (R207, R220, R221; which element and address its record names is
left open: log entry 83). -/
def Obligations.StepAndTrestleEnd : Prop :=
  ∀ (die : DieId) (uid : Nat) (s : State), s.dev.running = true →
    (s.dev.stepToCommit die = none → exec (.stepCommit die) s = .next s) ∧
    (∀ r o, s.dev.stepToCommit die = some (r, o) →
      (s.dev.badRecord s.fuse r o.func = none →
        exec (.stepCommit die) s = .next { s with dev := (s.dev.charge o r.charge).settle s.env [.done o.uid r.result, .stepBegin r.die] }) ∧
      (∀ t va, s.dev.badRecord s.fuse r o.func = some (t, va) →
        exec (.stepCommit die) s = .next { s with dev := s.dev.failFault s.env o (rtFault t va) })) ∧
    (∀ r o, s.dev.runOf uid = some r → s.dev.openOf uid = some o →
      (r.done = false ∨ s.dev.asks (.command uid) = true → exec (.trestleDone { uid := uid }) s = .next s) ∧
      (r.done = true → s.dev.asks (.command uid) = false →
        exec (.trestleDone { uid := uid }) s = .next { s with dev := (s.dev.dropRun uid).settle s.env [.done uid r.result] }) ∧
      (∀ (unit : Fin 640) (off : Fin 4096) (y c : Nat), r.ctxs.find? (fun x => x.1 = unit.val) = some (y, c) →
        (∃ k x, exec (.trestleDone { uid := uid, ecc := .staging unit off }) s = .next (s.onDev fun _ _ => (s.dev.free 84).2.failFault s.env o
          { error := Config.eccUncorrected, resource := 0x33, engine := 0xF0, ctx := some c, value := 4096 * c + off / 8 * 8, addr := some x, firing := some k })) ∧
        (∃ k x, exec (.trestleDone { uid := uid, ecc := .crossbar unit }) s = .next (s.onDev fun _ _ => (s.dev.free 84).2.failFault s.env o
          { error := Config.eccUncorrected, resource := 0x34, engine := 0xF0, ctx := some c, value := unit, addr := some x, firing := some k }))))

/-- A stream context's page walk that completes, its reads all served: the checks of R175 pass and the context translates again; or its command ends with the fault of the
check that failed, at that firing; or the context freezes on a resolution (R175, R191, R223). With no walk under way nothing happens. -/
def Obligations.WalksEnd : Prop :=
  ∀ (cl ph me ctx va : Nat) (w : Bool) (ecc : Ecc) (s : State), cl < 16 → ph < 32 → me < 4 → ctx < 8 → s.dev.running = true →
    let y := s.dev.streamCtx cl ph me ctx
    let a := s.dev.streamAccess cl ph w
    let t := (s.dev.finishWalk s.fuse a va ecc).1
    let d := (s.dev.finishWalk s.fuse a va ecc).2
    (y.walk = none ∨ s.dev.walks (.stream cl ph me ctx) = true → exec (.pageWalkDone (.stream cl ph me ctx) ecc) s = .next s) ∧
    (y.walk = some (va, w) → s.dev.walks (.stream cl ph me ctx) = false →
      (∀ pa, t = .pa pa → ∃ u, exec (.pageWalkDone (.stream cl ph me ctx) ecc) s = .next u ∧
        u.dev.streamCtx cl ph me ctx = { y with walk := none } ∧ u.dev.blk.tlb = (d.cacheWalk s.fuse (.stream cl ph me ctx) (d.coreUid cl ph) a va).blk.tlb ∧
        u.dev.opens = s.dev.opens ∧ u.dev.out = s.dev.out ∧ u.dev.blk.dram = s.dev.blk.dram) ∧
      (∀ code res v l, t = .fault code res v l → exec (.pageWalkDone (.stream cl ph me ctx) ecc) s = .next (s.onDev fun e _ =>
        d.engFault e cl ph (4 + me) (d.ctxInfo cl ph me ctx y.lin { error := code, resource := res, value := v, limit := l, addr := some va }))) ∧
      (∀ k, t = .resolve k → ∃ u z, exec (.pageWalkDone (.stream cl ph me ctx) ecc) s = .next u ∧
        (u.dev.streamCtx cl ph me ctx).frozen = some { va := va, write := w, since := s.time.toNat, resolution := z } ∧
        (u.dev.streamCtx cl ph me ctx).walk = none ∧ (∃ r ∈ u.dev.blk.resolutions, r.id = z ∧ r.kind = k ∧ (k.ofDie = true → r.die = cl / 4))))

/-- The runtime starts the resolution of a page on the wrong tier as a move of that one page to the die of the fault; with no free page there MG
clears, and the access will be served where it is; that of a segment without an image asks for the segment. A resolution ends once its move has, or its
segment is written: its waiting contexts translate again; one that has failed
ends every request that waits on it (R191 to R193). A context frozen longer than BLK_FAULT_DEADLINE ends its command with ERR_PAGE_FAULT and resource
0x25, no earlier than that deadline; a tile later than BLK_TIER_DEADLINE ends the command of its context with ERR_TIER_FAIL and resource 0x27 of the
bonded tier or 0x28 of the bulk tier (R188, R191). -/
def Obligations.ResolutionsAndDeadlines : Prop :=
  (∀ (id asid vpage leaf l : Nat) (r : Resolution) (s : State), s.dev.running = true → s.dev.resOf id = some r →
      let d := s.dev.setRes { r with started := true }
      let va := vpage * pageBytes
      let page := leafPa leaf / pageBytes
      (r.started = false → r.kind = .movingPage asid vpage → exec (.faultResolutionStart id) s = .next { s with dev := d }) ∧
      (r.started = false → r.kind = .mgPage asid vpage → d.pageMoving asid vpage = true → exec (.faultResolutionStart id) s = .next { s with dev := d }) ∧
      (r.started = false → r.kind = .mgPage asid vpage → d.pageMoving asid vpage = false → walkLower s.fuse d asid va = .leaf leaf l →
        (d.freeBonded r.die = 0 → exec (.faultResolutionStart id) s = .next { s with dev := d.clearMg s.fuse asid va }) ∧
        (d.freeBonded r.die ≠ 0 → exec (.faultResolutionStart id) s = .next (s.onDev fun _ _ => d.startMove s.env
          { uid := r.id, long := none, asid := asid, die := some r.die, resolution := true,
            pages := [{ va := va, src := page, dst := if s.fuse.atHome (some r.die) page then some page else none }] }))) ∧
      (∀ n seg, r.started = false → r.kind = .segment n seg →
        let there := ((d.ver n).imageOn r.die).any fun g => (g.unit seg).isSome
        (d.imaging n r.die = true ∨ there = true → exec (.faultResolutionStart id) s = .next { s with dev := d }) ∧
        (d.imaging n r.die = false → there = false → (d.findUnit r.die seg 0).isSome = true →
          exec (.faultResolutionStart id) s = .next { s with dev := d.askSegment s.env n r.die seg r.req }) ∧
        (d.imaging n r.die = false → there = false → d.findUnit r.die seg 0 = none → exec (.faultResolutionStart id) s = .next (s.onDev fun _ _ =>
          d.setRes { r with started := true, failed := some (BitVec.ofNat 8 Config.pageFault, 0x26, d.freeBonded r.die) }))) ∧
      (∀ n seg plain u, r.started = true → r.failed = none → r.kind = .segment n seg → ((s.dev.ver n).imageOn r.die).any (fun g => (g.unit seg).isSome) = false →
        s.dev.imaging n r.die = false → s.dev.asks (.command r.id) = false → s.dev.openSegment (s.dev.ver n) seg = .ok plain →
        s.dev.writeSegment s.env n r.die seg plain true r.req = some u → exec (.faultResolutionDone id) s = .next { s with dev := u.thaw s.env r.id }) ∧
      (r.started = false → exec (.faultResolutionDone id) s = .next s) ∧
      (∀ x, r.started = true → r.failed = some x → x.1.toNat = Config.pageFault → exec (.faultResolutionDone id) s = .next (s.onDev fun e _ =>
        s.dev.failWaiters e r.id fun va => { error := Config.pageFault, resource := x.2.1, value := va, limit := x.2.2, addr := some va })) ∧
      (r.started = true → r.failed = none → (r.kind = .mgPage asid vpage ∨ r.kind = .movingPage asid vpage) → s.dev.pageMoving asid vpage = false →
        s.dev.moveOf r.id = none → exec (.faultResolutionDone id) s = .next { s with dev := s.dev.thaw s.env r.id }) ∧
      (r.started = true → r.failed = none → (r.kind = .mgPage asid vpage ∨ r.kind = .movingPage asid vpage) → s.dev.pageMoving asid vpage = true →
        exec (.faultResolutionDone id) s = .next s)) ∧
  (∀ (cl ph me ctx : Nat) (s : State), cl < 16 → ph < 32 → me < 4 → ctx < 8 → s.dev.running = true →
      let y := s.dev.streamCtx cl ph me ctx
      let who : Requester := .stream cl ph me ctx
      (y.frozen = none → exec (.faultDeadlineExpiry who) s = .next s) ∧
      (∀ z, y.frozen = some z →
        let us := bitsAt s.dev.blk.faultDeadline.toNat 0 32
        ∃ t, exec (.faultDeadlineExpiry who) s = .next t ∧ t.time = BitVec.ofNat 64 (max s.time.toNat (z.since + us * Config.usTicks)) ∧
          t.dev = (s.upTo t).engFault { s.env with now := t.time.toNat } cl ph (4 + me) ((s.upTo t).ctxInfo cl ph me ctx y.lin
            { error := Config.pageFault, resource := 0x25, value := z.va, limit := us, addr := some z.va })) ∧
      (∀ pa since lin va, s.dev.lateTile s.env who = some (pa, since, lin, va) →
        let us := bitsAt s.dev.blk.tierDeadline.toNat 0 32
        ∃ t, exec (.tierDeadlineExpiry who) s = .next t ∧ t.time = BitVec.ofNat 64 (max s.time.toNat (since + us * Config.usTicks)) ∧
          t.dev = (s.upTo t).engFault { s.env with now := t.time.toNat } cl ph (4 + me) ((s.upTo t).ctxInfo cl ph me ctx lin
            { error := Config.tierFail, resource := if s.fuse.isBonded pa then 0x27 else 0x28, engine := 0xF2, value := pa, limit := us, addr := va }))) ∧
  (∀ (who : Requester) (s : State), who.wf = true → s.dev.running = true →
      (s.dev.lateTile s.env who = none → exec (.tierDeadlineExpiry who) s = .next s) ∧
      (∀ z, s.dev.freezeOf who = some z → ∃ t, exec (.faultDeadlineExpiry who) s = .next t ∧
        t.time = BitVec.ofNat 64 (max s.time.toNat (z.since + bitsAt s.dev.blk.faultDeadline.toNat 0 32 * Config.usTicks)) ∧
        t.dev = faultExpiry { s.env with now := t.time.toNat } (s.upTo t) who z) ∧
      (∀ pa since lin va, s.dev.lateTile s.env who = some (pa, since, lin, va) → ∃ t, exec (.tierDeadlineExpiry who) s = .next t ∧
        t.time = BitVec.ofNat 64 (max s.time.toNat (since + bitsAt s.dev.blk.tierDeadline.toNat 0 32 * Config.usTicks)) ∧
        t.dev = tierExpiry { s.env with now := t.time.toNat } (s.upTo t) who pa lin va))


/-- The patrol scrub counts a corrected word as written back and makes an uncorrected one read as such; a word that reads as uncorrected already is found so
again and logged; a stack that fails reads FAILED in BTR_STACK (R189, R195, R200, R224). -/
def Obligations.ScrubAndStacks : Prop :=
  ∀ (loc : ScrubAt) (pa a : Nat) (k : Fin 20) (s : State), s.dev.running = true →
    (∀ (w : Nat) (ecc : Ecc), s.fuse.isDram pa = true → bitsAt s.dev.blk.scrubPeriod.toNat 0 8 ≠ 0 → s.dev.unitDead s.fuse pa = false →
      s.dev.badIn (pa / 64 * 64) 64 = some w → ∃ t, exec (.scrubRead (.dram pa) ecc) s = .next t ∧ t.dev.blk.poison = s.dev.blk.poison ∧
        t.dev.blk.dram = s.dev.blk.dram ∧ t.dev.blk.eccLogAddr = BitVec.ofNat 48 w ∧ t.dev.blk.eccLogCount = min (s.dev.blk.eccLogCount + 1) 4095) ∧
    (∀ ecc : Ecc, s.fuse.clusterFitted (a / 0x4000000) = true → a / 0x4000000 < 16 → s.dev.blk.nearBad.contains (a / 8) = true →
      ∃ t, exec (.scrubRead (.near a) ecc) s = .next t ∧ t.dev.blk.nearBad = s.dev.blk.nearBad ∧ t.dev.blk.near = s.dev.blk.near ∧
        t.dev.blk.eccLogAddr = BitVec.ofNat 48 (nearBase + 8 * (a / 8))) ∧
    (s.fuse.isDram pa = true → bitsAt s.dev.blk.scrubPeriod.toNat 0 8 ≠ 0 → s.dev.unitDead s.fuse pa = false → s.dev.badIn (pa / 64 * 64) 64 = none →
      (∃ t, exec (.scrubRead (.dram pa) .corrected) s = .next t ∧ t.dev.blk.dram = s.dev.blk.dram ∧ t.dev.blk.poison = s.dev.blk.poison ∧
        (s.fuse.isBonded pa = true → Tab.get ({} : EccCount) (bondedDie pa) t.dev.blk.eccBonded
          = (Tab.get {} (bondedDie pa) s.dev.blk.eccBonded).add 1 0 1) ∧
        (s.fuse.isBonded pa = false → Tab.get ({} : EccCount) (s.fuse.channelOf pa) t.dev.blk.eccBulk
          = (Tab.get {} (s.fuse.channelOf pa) s.dev.blk.eccBulk).add 1 0 1)) ∧
      (∃ t, exec (.scrubRead (.dram pa) .uncorrected) s = .next t ∧ t.dev.blk.poison.contains (pa / 8) = true ∧ t.dev.blk.dram = s.dev.blk.dram ∧
        t.dev.blk.eccLogAddr = BitVec.ofNat 48 (8 * (pa / 8)) ∧ t.dev.blk.eccLogCount = min (s.dev.blk.eccLogCount + 1) 4095)) ∧
    (s.fuse.clusterFitted (a / 0x4000000) = true → a / 0x4000000 < 16 →
      ∃ t, exec (.scrubRead (.near a) .uncorrected) s = .next t ∧ t.dev.blk.nearBad.contains (a / 8) = true ∧ t.dev.blk.near = s.dev.blk.near ∧
        t.dev.blk.eccLogAddr = BitVec.ofNat 48 (nearBase + 8 * (a / 8)) ∧ t.dev.blk.eccLogTier = 1#3) ∧
    ((∀ pa, loc = .dram pa → bitsAt s.dev.blk.scrubPeriod.toNat 0 8 ≠ 0 → s.fuse.isDram pa = false ∨ s.dev.unitDead s.fuse pa = true) →
      (∀ a, loc = .near a → s.fuse.clusterFitted (a / 0x4000000) = false ∨ 16 ≤ a / 0x4000000) → exec (.scrubRead loc .uncorrected) s = .next s) ∧
    (k.val < s.fuse.stackCount → ∃ t, exec (.stackFailure k) s = .next t ∧ Tab.get 0#2 k.val t.dev.btr.stackSet = 3#2 ∧
      (∀ j, j ≠ k.val → Tab.get 0#2 j t.dev.btr.stackSet = Tab.get 0#2 j s.dev.btr.stackSet) ∧
      t = { s with dev := { s.dev with btr := { s.dev.btr with stackSet := t.dev.btr.stackSet } } })

/-- A write of BLK_TLB_INV of a live address space sets BUSY, of another sets ERROR, and is ignored while BUSY is 1; the invalidation drops the
translations of its pages and clears BUSY once no transfer uses one (R176, R199). A write of 1 to BLK_POOL_LOCK.LOCKED locks pools that meet
R167 and sets INVALID of others. -/
def Obligations.InvalidateAndLock : Prop :=
  ∀ (v : Quad) (s : State), s.dev.hostOpen = true →
    let b := s.dev.blk
    let asid := bitsAt v.toNat 0 16
    (b.tlbBusy = true → exec (.tlbInv v) s = .next s) ∧
    (b.tlbBusy = false → (badAsid asid || s.dev.deadAsid asid) = true →
      exec (.tlbInv v) s = .next { s with dev := { s.dev with blk := { b with tlbError := true } } }) ∧
    (b.tlbBusy = false → (badAsid asid || s.dev.deadAsid asid) = false → exec (.tlbInv v) s = .next { s with dev := { s.dev with blk := { b with
      tlbBusy := true, tlbError := false, tlbJob := some (asid, bitsAt b.tlbInvVa.toNat 16 36, bitsAt v.toNat 16 32) } } }) ∧
    (b.tlbJob = none → exec .tlbInvDone s = .next s) ∧
    (∀ as first n, b.tlbJob = some (as, first, n) → s.dev.running = true → n ≠ 0 →
      (s.dev.usesPages as first n = true → exec .tlbInvDone s = .next s) ∧
      (s.dev.usesPages as first n = false → exec .tlbInvDone s = .next { s with dev := { s.dev with blk := { b with
        tlb := b.tlb.filter (fun t => t.asid ≠ as || t.vpage < first || first + n ≤ t.vpage), tlbBusy := false, tlbJob := none } } })) ∧
    (∀ as first, b.tlbJob = some (as, first, 0) → s.dev.running = true → s.dev.usesPages as 0 (2 ^ 36) = false →
      ∃ t, exec .tlbInvDone s = .next t ∧ t.dev.blk.tlbBusy = false ∧ ∀ x ∈ t.dev.blk.tlb, x.asid = as → 2 ^ 36 ≤ x.vpage) ∧
    ((b.locked = true ∨ bitAt v.toNat 0 = false) → exec (.poolLock v) s = .next s) ∧
    (b.locked = false → bitAt v.toNat 0 = true →
      (s.dev.poolsOk s.fuse = true → exec (.poolLock v) s = .next { s with dev := { s.dev with blk := { b with
        locked := true, invalid := false, pages := [], reserve := (List.range s.fuse.dies).flatMap s.dev.reserveOf } } }) ∧
      (s.dev.poolsOk s.fuse = false → exec (.poolLock v) s = .next { s with dev := { s.dev with blk := { b with invalid := true } } }))

/-- A BAR2 read of DRAM or of the near tier returns its bytes and leaves every byte; one that is refused returns ones and counts in
BLK_BAR2_REFUSED, one of a hole returns zeros. A BAR2 write changes exactly the bytes it covers; a refused or poisoned one changes none and counts
(R168, R170, R377). -/
def Obligations.Bar2Accesses : Prop :=
  ∀ (f : FuncId) (off len : Nat) (data : List Byte) (s : State), s.dev.busUp = true →
    (barAccess off len 4096 = true → off + len ≤ 2 ^ s.dev.hif.bar2Log2 →
      (bar2Target s.env s.dev f off false = .refused → s.dev.ras.st = .running → exec (.bar2Read f off len) s = .next { s with dev := { s.dev with
        blk := { s.dev.blk with bar2Refused := min (s.dev.blk.bar2Refused + 1) (2 ^ 32 - 1) }
        out := s.dev.out ++ [.readData (List.replicate len 0xFF#8) false] } }) ∧
      (bar2Target s.env s.dev f off false = .hole → exec (.bar2Read f off len) s = .next { s with dev := { s.dev with
        out := s.dev.out ++ [.readData (List.replicate len 0#8) false] } }) ∧
      (∀ pa, bar2Target s.env s.dev f off false = .dram pa → s.dev.badIn pa len = none → ∃ t, exec (.bar2Read f off len) s = .next t ∧
        t.dev = { s.dev with arb := t.dev.arb, freeCount := t.dev.freeCount, out := s.dev.out ++ [.readData (Memory.read s.dev.blk.dram pa len) false] }) ∧
      (∀ a, bar2Target s.env s.dev f off false = .near a → (∀ w ∈ s.dev.blk.nearBad, 8 * w + 8 ≤ a ∨ a + len ≤ 8 * w) →
        exec (.bar2Read f off len) s = .next { s with dev := { s.dev with out := s.dev.out ++ [.readData (Memory.read s.dev.blk.near a len) false] } })) ∧
    (barAccess off data.length 512 = true → off + data.length ≤ 2 ^ s.dev.hif.bar2Log2 →
      (s.dev.ras.st = .running → exec (.bar2Write f off data true) s = .next { s with dev := { s.dev with
        blk := { s.dev.blk with bar2Refused := min (s.dev.blk.bar2Refused + 1) (2 ^ 32 - 1) } } }) ∧
      (bar2Target s.env s.dev f off true = .hole → exec (.bar2Write f off data false) s = .next s) ∧
      (∀ pa, bar2Target s.env s.dev f off true = .dram pa → Memory.wf s.dev.blk.dram = true → ∃ t, exec (.bar2Write f off data false) s = .next t ∧
        Memory.wf t.dev.blk.dram = true ∧ Memory.read t.dev.blk.dram pa data.length = data ∧
        (∀ x, x < pa ∨ pa + data.length ≤ x → Memory.get t.dev.blk.dram x = Memory.get s.dev.blk.dram x) ∧ t.dev.blk.near = s.dev.blk.near ∧
        t.dev.out = s.dev.out ∧ t.dev.opens = s.dev.opens) ∧
      (∀ a, bar2Target s.env s.dev f off true = .near a → Memory.wf s.dev.blk.near = true → ∃ t, exec (.bar2Write f off data false) s = .next t ∧
        Memory.wf t.dev.blk.near = true ∧ Memory.read t.dev.blk.near a data.length = data ∧
        (∀ x, x < a ∨ a + data.length ≤ x → Memory.get t.dev.blk.near x = Memory.get s.dev.blk.near x) ∧ t.dev.blk.dram = s.dev.blk.dram))

/-! ### The host link -/

/-- A doorbell of a live function whose queue is BOUND moves the SQ tail, or the CQ head and what is unread, of that queue alone, where its value lies
in the ring and, for a CQ head, within the entries written since the last one; it is ignored and counted in HIF_DB_ERR in every other case (R385). -/
def Obligations.DoorbellsTaken : Prop :=
  ∀ (f : FuncId) (q : QueueId) (v : Word) (s : State), s.dev.takesDoorbell f = true →
    let u := s.dev.queue f q
    let ignored : Host.Outcome State Fault Refusal := .next { s with dev := { s.dev with hif := { s.dev.hif with
      dbErr := Tab.put f (min (Tab.get 0 f s.dev.hif.dbErr + 1) (2 ^ 32 - 1)) s.dev.hif.dbErr
      dbErrQueue := Tab.put f q s.dev.hif.dbErrQueue } } }
    (u.st ≠ .bound → exec (.sqDoorbell f q v) s = ignored ∧ exec (.cqDoorbell f q v) s = ignored) ∧
    (u.st = .bound → u.sqSize ≤ v.toNat → exec (.sqDoorbell f q v) s = ignored) ∧
    (u.st = .bound → v.toNat < u.sqSize →
      exec (.sqDoorbell f q v) s = .next { s with dev := s.dev.setQueue f q { u with sqTail := v.toNat } }) ∧
    (u.st = .bound → u.cqSize ≤ v.toNat ∨ u.unread < u.freed v.toNat → exec (.cqDoorbell f q v) s = ignored) ∧
    (u.st = .bound → v.toNat < u.cqSize → u.freed v.toNat ≤ u.unread →
      exec (.cqDoorbell f q v) s = .next { s with dev := s.dev.setQueue f q { u with cqHead := v.toNat, unread := u.unread - u.freed v.toNat } })

/-- Commands that may be fetched join their queue in order and move SQ_HEAD on by their number, and the completion ring still has room for every
completion owed; nothing else of the queue changes, and no other queue. Commands that may not be fetched are not (R382). -/
def Obligations.CommandsFetched : Prop :=
  ∀ (f : FuncId) (q : QueueId) (l : List Command) (s : State), fetchWf l = true → s.dev.turnOf f q = true →
    let u := s.dev.queue f q
    (fetchAll f q l (s.dev.takeTurn f q) = none → exec (.commandFetch f q l) s = .next s) ∧
    (∀ d, fetchAll f q l (s.dev.takeTurn f q) = some d → ∃ t, exec (.commandFetch f q l) s = .next t ∧
      (t.dev.queue f q).fetched.map (·.cmd) = u.fetched.map (·.cmd) ++ l ∧ (t.dev.queue f q).sqHead = (u.sqHead + l.length) % u.sqSize ∧
      t.dev.queue f q = { u with sqHead := (t.dev.queue f q).sqHead, fetched := (t.dev.queue f q).fetched } ∧
      t.dev.owed f q ≤ (t.dev.queue f q).cqFree ∧ (∀ k, k ≠ 64 * f.val + q.val → Tab.get {} k t.dev.hif.queues = Tab.get {} k s.dev.hif.queues) ∧
      t.dev.opens = s.dev.opens ∧ t.dev.out = s.dev.out ∧ t.dev.blk = s.dev.blk) ∧
    (s.dev.mayFetch f q = true → fetchAll f q (l.take 1) (s.dev.takeTurn f q) ≠ none)

/-- A fetch that fails stops its queue with the code of its failure: the commands fetched before stay and run on, no completion is written, and until
ENABLE is written 0 and the queue set up again, nothing more is fetched (R383). -/
def Obligations.FailedFetchStops : Prop :=
  ∀ (f : FuncId) (q : QueueId) (why : FetchError) (s : State), s.dev.mayFetch f q = true → s.dev.turnOf f q = true →
    ∃ t, exec (.fetchFault f q why) s = .next t ∧
      t.dev.queue f q = { s.dev.queue f q with st := .stopped, err := match why with
        | .timeout => 0x1A#8
        | .unsupported | .completerAbort => 0x04#8
        | .poisoned => 0x15#8 } ∧
      (∀ c, t.dev.headOf f q c = s.dev.headOf f q c) ∧ t.dev.opens = s.dev.opens ∧ t.dev.out = s.dev.out ∧
      (∀ l, fetchWf l = true → exec (.commandFetch f q l) t = .next t) ∧
      (∃ u, exec (.queueEnable f q) t = .next u ∧ (u.dev.queue f q).st = .stopped) ∧
      (t.dev.hostOpen = true → ∃ u, exec (.queueDisable f q) t = .next u ∧ (u.dev.queue f q).st = .draining)

/-- ENABLE of an UNBOUND queue binds it with its rings empty and CQ_PHASE 1 where it passes the checks, and leaves the code in ERR where it does not;
ENABLE is ignored while the queue drains. A write of 0 makes a BOUND or STOPPED queue DRAINING, and it is UNBOUND once every completion it owes is
written (R380, R381). A vector that is unmasked sends the message its PBA bit holds (R384). -/
def Obligations.QueuesSetUp : Prop :=
  ∀ (f : FuncId) (q : QueueId) (v : Fin 64) (s : State),
    let u := s.dev.queue f q
    (s.dev.hostOpen = true → u.st = .unbound → s.dev.queueError s.env f u = 0 → exec (.queueEnable f q) s = .next { s with dev := s.dev.setQueue f q { u with
      enable := true, st := .bound, sqHead := 0, sqTail := 0, cqTail := 0, cqHead := 0, unread := 0, phase := true } }) ∧
    (s.dev.hostOpen = true → u.st = .unbound → s.dev.queueError s.env f u ≠ 0 → exec (.queueEnable f q) s = .next { s with dev := s.dev.setQueue f q { u with
      enable := true, err := BitVec.ofNat 8 (s.dev.queueError s.env f u) } }) ∧
    (u.st = .draining → exec (.queueEnable f q) s = .next s) ∧
    (s.dev.hostOpen = true → u.st = .bound ∨ u.st = .stopped →
      exec (.queueDisable f q) s = .next { s with dev := s.dev.setQueue f q { u with enable := false, st := .draining } }) ∧
    (u.st = .draining → s.dev.mayFetch f q = false ∧
      (s.dev.owed f q = 0 → exec (.queueDrainDone f q) s = .next { s with dev := s.dev.setQueue f q { u with st := .unbound } }) ∧
      (s.dev.owed f q ≠ 0 → exec (.queueDrainDone f q) s = .next s)) ∧
    (s.dev.linkLive = true → ∃ t, exec (.msixUnmask f v) s = .next t ∧ t.dev.hif.unmasked.contains (64 * f.val + v.val) = true ∧
      t.dev.hif.pba.contains (64 * f.val + v.val) = false ∧
      (s.dev.hif.pba.contains (64 * f.val + v.val) = true → t.dev.out = s.dev.out ++ [.msix f v]) ∧
      (s.dev.hif.pba.contains (64 * f.val + v.val) = false → t.dev.out = s.dev.out) ∧
      t.dev.hif.queues = s.dev.hif.queues ∧ t.dev.blk = s.dev.blk ∧ t.dev.opens = s.dev.opens)

/-- The dispatcher starts the head that it chooses for an executor, and none where it chooses none (R291). Cycle 0 of the cyclic table begins at
SCH_CYC_START or at the write that set ENABLE, each later one when the one before it ends, and it samples the slots; the next slot begins when the one
before it ends (R294). -/
def Obligations.DispatchAndSlots : Prop :=
  ∀ (die : DieId) (x : Executor) (s : State), s.dev.running = true →
    (x.wf = true → s.dev.inService = true →
      (s.dev.choice s.env die x = none → exec (.dispatch die x) s = .next s) ∧
      (∀ n owner h, s.dev.choice s.env die x = some (n, owner) → (s.dev.queue (n / 64) (n % 64)).fetched.head? = some h →
        let start (check : Env → Dev → OpenCmd → Option Reject) (run : Env → Dev → OpenCmd → Dev) : Res :=
          .next (s.onDev fun e d => (startCmd e d (n / 64) (n % 64) h owner check run).sweepLeavers e)
        (cmdIs opSpanLaunch h.cmd = true → exec (.dispatch die x) s = start spanLaunchCheck runSpanLaunch) ∧
        (cmdIs opSeqStep h.cmd = true → exec (.dispatch die x) s = start seqStepCheck runSeqStep) ∧
        (cmdIs opTrestle h.cmd = true → exec (.dispatch die x) s = start trestleCheck runTrestleCmd))) ∧
    (s.dev.sch.enabled = false → exec .cycleStart s = .next s ∧ exec .slotStart s = .next s) ∧
    (s.dev.sch.enabled = true →
      let begin_ := if s.dev.sch.inCycle then s.dev.sch.cycBegin + (s.dev.sch.cycle.map slotTicks).sum
        else max s.dev.sch.cycStart.toNat s.dev.sch.enabledAt
      ∃ t, exec .cycleStart s = .next t ∧ t.time = BitVec.ofNat 64 (max s.time.toNat begin_) ∧ t.dev = { s.upTo t with sch := { s.dev.sch with
        cycle := (List.range s.dev.sch.nslot).map s.dev.sch.slotReg, cycBegin := begin_, slotBegin := begin_, slot := 0, inCycle := true
        cycles := if s.dev.sch.inCycle then s.dev.sch.cycles + 1 else s.dev.sch.cycles } }) ∧
    (s.dev.sch.enabled = true → s.dev.sch.inCycle = true → s.dev.sch.slot + 1 < s.dev.sch.cycle.length →
      let end_ := s.dev.sch.slotBegin + slotTicks ((s.dev.sch.cycle[s.dev.sch.slot]?).getD 0#64)
      ∃ t, exec .slotStart s = .next t ∧ t.time = BitVec.ofNat 64 (max s.time.toNat end_) ∧
        t.dev = { s.upTo t with sch := { s.dev.sch with slot := s.dev.sch.slot + 1, slotBegin := end_ } })

/-- A write of 0 to SCH_FUNC.ENABLE resets the function, enabled or not, with completions; a reset over PCIe of a virtual function, the removal of
virtual functions, and a reset of the physical function reset each function named, those above the new NumVFs that the old one named, without
completions; none acts while PERST_N is asserted (R299). -/
def Obligations.FunctionResetsStart : Prop :=
  ∀ (f : FuncId) (n : Fin 32) (s : State),
    (s.dev.hostOpen = true →
      let v := putBit (s.dev.schFunc f).toNat 23 false
      bitAt v 23 = false ∧ exec (.funcDisable f) s = .next (s.onDev fun e d => Dev.resetFunc e (d.setSchFunc f (BitVec.ofNat 64 v)) f true)) ∧
    (s.dev.busUp = true →
      (f ≠ 0 → exec (.vfFlr f) s = .next (s.onDev fun e d => Dev.resetFunc e d f false)) ∧
      exec (.vfDisable n) s = .next (s.onDev fun e d =>
        let d := (List.range 32).foldl (fun (d : Dev) (g : Nat) => if n.val < g && g ≤ s.dev.hif.numVfs then Dev.resetFunc e d g false else d) d
        { d with hif := { d.hif with numVfs := n } }) ∧
      exec .pfFlr s = .next (s.onDev fun e d =>
        let d := ((List.range' 1 31) ++ [0]).foldl (fun (d : Dev) (g : Nat) => Dev.resetFunc e d g false) d
        { d with hif := { d.hif with numVfs := 0 } })) ∧
    (s.dev.pins.perst = true → exec (.vfDisable n) s = .next s ∧ exec .pfFlr s = .next s ∧ exec .linkLoss s = .next s ∧
      (f ≠ 0 → exec (.vfFlr f) s = .next s))

/-- A function whose commands have all ended leaves its reset: its queues, event counters, groups, long-operation slots, account and fault log are
clear, RESETTING is clear, and SCH_FUNC stands, with ENABLE set where it was written 1 meanwhile; other functions keep theirs (R300, R302). A link loss
resets every function without completions, ends object loads, and returns the HIF_ registers to their reset values (R391). -/
def Obligations.FunctionResetsEnd : Prop :=
  ∀ (f : FuncId) (s : State),
    (s.dev.pins.powered = true → s.dev.funcResetting f = true → s.dev.funcQuiet f = true → (∀ x ∈ s.dev.spans, x.2.st = .free ∨ x.2.func ≠ f) →
      ∃ t, exec (.funcResetComplete f) s = .next t ∧ t.dev.funcResetting f = false ∧
        (∀ q, q < 64 → t.dev.queue f q = {}) ∧ (∀ i, i < 1024 → t.dev.event f i = 0#64) ∧ (∀ g ∈ t.dev.groups, g.func ≠ f) ∧
        (∀ x ∈ t.dev.longs, x.2.used = true → x.2.func ≠ f) ∧ Tab.get 0 f.val t.dev.sch.acctFunc = 0 ∧ t.dev.faultSeqOf f = 0 ∧
        (∀ i, i < 256 → Tab.get 0#512 (256 * f + i) t.dev.ras.faultLog = 0#512) ∧
        (s.dev.hif.reenable.contains f.val = false → t.dev.schFunc f = s.dev.schFunc f) ∧
        (s.dev.hif.reenable.contains f.val = true → t.dev.schFunc f = BitVec.ofNat 64 (putBit (s.dev.schFunc f).toNat 23 true)) ∧
        (∀ g q i : Nat, g ≠ f.val → q < 64 → i < 1024 → t.dev.queue g q = s.dev.queue g q ∧ t.dev.event g i = s.dev.event g i ∧
          t.dev.funcResetting g = s.dev.funcResetting g ∧ t.dev.schFunc g = s.dev.schFunc g) ∧
        t.dev.blk = s.dev.blk ∧ t.dev.vers = s.dev.vers ∧ t.dev.seqs = s.dev.seqs ∧ t.dev.out = s.dev.out) ∧
    (s.dev.funcQuiet f = false → exec (.funcResetComplete f) s = .next s) ∧
    (s.dev.busUp = true →
      let d := (Dev.resetAllFuncs s.env s.dev).endLoads s.fuse
      ∃ t, exec .linkLoss s = .next t ∧ t.dev.hif.bar2Base = 0#64 ∧ t.dev.hif.bar2Map = [] ∧ t.dev.hif.dbErr = [] ∧ t.dev.hif.unmasked = [] ∧
        t.dev.hif.pba = [] ∧ t.dev.hif.downCount = min (d.hif.downCount + 1) 65535 ∧ t.dev.opens = d.opens ∧ t.dev.out = d.out ∧
        t.dev.hif.queues = d.hif.queues ∧ t.dev.hif.fresets = d.hif.fresets ∧ t.dev.ras = d.ras)

/-! ### Registers -/

/-- A write of the host acts where the package answers and serves the register: it does what its register's rule says with the 64 bits that result;
RAS_FENCE may change the core maps, and a package reset that RAS_RESET or RAS_UNRETIRE starts clears KF_VMAP; a write that is not aligned, and one of a package that is unpowered, under PERST_N or RETIRED, changes
nothing (R10, R347, R376). -/
def Obligations.HostWrites : Prop :=
  ∀ (f : FuncId) (off : BitVec 26) (wide : Bool) (value : Quad) (s : State),
    let o := off.toNat / 8 * 8
    let v := writtenValue s.env s.dev f off.toNat value.toNat wide
    (aligned off.toNat wide = true → s.dev.takesWrite f o v = true →
      let reset := (o = 0x800020 ∧ v % 8 = 4) ∨ o = 0x800050
      (o ≠ 0x800048 → ¬reset → exec (.registerWrite f off wide value) s = .next { s with dev := s.dev.writeReg s.env f o v false false }) ∧
      (reset → ∃ t, exec (.registerWrite f off wide value) s = .next t ∧ t.time = s.time ∧ t.dev = s.dev.writeReg s.env f o v false false ∧
        t.kf = if t.dev.inPackageReset && !s.dev.inPackageReset then { s.kf with vmap := [] } else s.kf) ∧
      (o = 0x800048 → exec (.registerWrite f off wide value) s = .next (s.rasFence v))) ∧
    (aligned off.toNat wide = false ∨ s.dev.busUp = false ∨ s.dev.ras.st = .retired ∨ (f ≠ 0 ∧ vfServed o = false) ∨
      (s.dev.ras.st = .parapet ∧ o ≠ 0x800060 ∧ o ≠ 0x800020) → exec (.registerWrite f off wide value) s = .next s)

/-- A read of BLK_BAR2_REFUSED returns the count and clears it (R170, R433); ARB_CLEAR with CLEAR set clears the counters that it names, and no
others (R238); a write of an event counter sets it and completes the WAITs that it meets (R135). -/
def Obligations.CountersReadAndClear : Prop :=
  ∀ (f : FuncId) (i : Fin 1024) (value : Quad) (s : State),
    (s.dev.busUp = true → s.dev.ras.st = .running → s.dev.sec.recovery = false →
      exec (.counterReadClear 0 0x300038#26 true) s = .next { s with dev := { s.dev with
        blk := { s.dev.blk with bar2Refused := 0 }, out := s.dev.out ++ [.readData (toBytes 8 s.dev.blk.bar2Refused) false] } }) ∧
    (s.dev.hostOpen = true → bitAt value.toNat 23 = false → exec (.arbClear value) s = .next s) ∧
    (s.dev.hostOpen = true → bitAt value.toNat 23 = true → ∃ t, exec (.arbClear value) s = .next t ∧
      t.dev = { s.dev with arb := { s.dev.arb with grants := t.dev.arb.grants, waits := t.dev.arb.waits, maxWait := t.dev.arb.maxWait } } ∧
      ∀ port k : Nat, k < 64 →
        let named := (bitAt value.toNat 10 = true ∨ port = bitsAt value.toNat 0 10) ∧ (bitAt value.toNat 22 = true ∨ k = bitsAt value.toNat 16 6)
        let key := 64 * port + k
        (named → Tab.get 0 key t.dev.arb.grants = 0 ∧ Tab.get 0 key t.dev.arb.waits = 0 ∧ Tab.get 0 key t.dev.arb.maxWait = 0) ∧
        (¬named → Tab.get 0 key t.dev.arb.grants = Tab.get 0 key s.dev.arb.grants ∧ Tab.get 0 key t.dev.arb.waits = Tab.get 0 key s.dev.arb.waits ∧
          Tab.get 0 key t.dev.arb.maxWait = Tab.get 0 key s.dev.arb.maxWait)) ∧
    (s.dev.hostOpen = true → (∀ x ∈ s.dev.seqs, x.2.leaver = none) → ∃ t, exec (.eventWrite f i value) s = .next t ∧ t.dev.event f i = value ∧
      (∀ g j : Nat, 1024 * g + j ≠ 1024 * f.val + i.val → t.dev.event g j = s.dev.event g j) ∧
      (∀ o, o ∈ t.dev.opens ↔ o ∈ s.dev.opens ∧ ∀ w ∈ s.dev.opens, w.func = f → w.opcode = opWait → cmdEvent w.cmd = i →
        waitMet w.cmd value.toNat = true → w.uid ≠ o.uid) ∧
      t.dev = { s.dev with events := t.dev.events, opens := t.dev.opens, hif := t.dev.hif, out := t.dev.out })

/-- RAS_RESET with GO set resets a usable core, cluster or die of a running package; it is ignored without GO, and for a unit that is fenced, absent or
covered by a reset under way. DOMAIN 4 resets the package, and KF_VMAP with it (R26, R344, R346, R354). -/
def Obligations.ResetsAsked : Prop :=
  ∀ (value : Quad) (s : State), s.dev.hostOpen = true → s.dev.running = true → bitAt value.toNat 63 = true →
    let v := value.toNat
    let cl := bitsAt v 8 4
    let ph := bitsAt v 12 5
    let n := bitsAt v 17 2
    (resetIs 1 value = true → s.dev.coveredBy (.core cl ph) = false →
      (s.fuse.clusterFitted cl = true → s.kf.coreFenced cl ph = false →
        exec (.resetCore .host value) s = .next (s.onDev fun e d => Dev.coreReset e d cl ph none)) ∧
      (s.fuse.clusterFitted cl = false ∨ s.kf.coreFenced cl ph = true → exec (.resetCore .host value) s = .next s)) ∧
    (resetIs 2 value = true → s.dev.coveredBy (.cluster cl) = false →
      (s.fuse.clusterFitted cl = true → s.kf.usable cl = true →
        exec (.resetCluster .host value) s = .next (s.onDev fun e d => Dev.clusterReset e d cl none)) ∧
      (s.fuse.clusterFitted cl = false ∨ s.kf.usable cl = false → exec (.resetCluster .host value) s = .next s)) ∧
    (resetIs 3 value = true → s.dev.coveredBy (.die n) = false →
      (s.fuse.dieFitted n = true → s.kf.dieDead n = false →
        exec (.resetDie .host value) s = .next (s.onDev fun e d => Dev.dieReset e d n none)) ∧
      (s.fuse.dieFitted n = false ∨ s.kf.dieDead n = true → exec (.resetDie .host value) s = .next s)) ∧
    (resetIs 3 value = true → s.dev.coveredBy (.die n) = true → exec (.resetDie .host value) s = .next s) ∧
    (resetIs 4 value = true → ∃ t, exec (.resetPackageWarm .host value) s = .next t ∧
      t.dev = Dev.warmReset s.env s.dev ∧ t.kf = if t.dev.inPackageReset && !s.dev.inPackageReset then { s.kf with vmap := [] } else s.kf) ∧
    (∀ lower : Quad, bitAt lower.toNat 63 = false →
      (resetIs 1 lower = true → exec (.resetCore .host lower) s = .next s) ∧ (resetIs 4 lower = true → exec (.resetPackageWarm .host lower) s = .next s))

/-- A fence of a healthy core sets its FENCED bit; the position that it held moves to the lowest-numbered healthy core that holds none, and every other
position stays; a cluster left with less than 30 healthy cores, and a cluster fenced as a whole, is no longer usable and has no valid entry
(R18, R19, R21, R25, R26). -/
def Obligations.FencesMoveTheMap : Prop :=
  ∀ (value : Quad) (s : State), s.dev.hostOpen = true → bitAt value.toNat 63 = true →
    let cl := bitsAt value.toNat 0 4
    let ph := bitsAt value.toNat 4 5
    let k := s.kf
    (fenceIs false value = true → s.fuse.clusterFitted cl = true → k.coreFenced cl ph = false → s.dev.ras.testing.contains (.cluster cl) = false →
      ∃ t, exec (.fenceCore .host value) s = .next t ∧ bitAt (t.kf.fencedOf cl).toNat ph = true ∧
        (∀ c p, c ≠ cl ∨ p ≠ ph → bitAt (t.kf.fencedOf c).toNat p = bitAt (k.fencedOf c).toNat p) ∧
        (∀ c, c ≠ cl → t.kf.usable c = k.usable c ∧ ∀ v, v < 30 → t.kf.physOf c v = k.physOf c v) ∧
        (k.healthy cl ≤ 30 → t.kf.usable cl = false ∧ ∀ v, v < 30 → t.kf.physOf cl v = none) ∧
        (30 < k.healthy cl → t.kf.usable cl = true ∧ (k.vposOf cl ph = none → t.kf.vmap = k.vmap) ∧
          ∀ v, k.vposOf cl ph = some v →
            t.kf.physOf cl v = (List.range 32).find? (fun p => !bitAt (t.kf.fencedOf cl).toNat p && ((List.range 30).all fun w => k.physOf cl w ≠ some p)) ∧
            ∀ w, w < 30 → w ≠ v → t.kf.physOf cl w = k.physOf cl w)) ∧
    (fenceIs true value = true → s.fuse.clusterFitted cl = true → k.usable cl = true →
      ∃ t, exec (.fenceCluster .host value) s = .next t ∧ t.kf.fenced = k.fenced ∧ t.kf.usable cl = false ∧ (∀ v, v < 30 → t.kf.physOf cl v = none) ∧
        (∀ c, c ≠ cl → t.kf.usable c = k.usable c ∧ ∀ v, v < 30 → t.kf.physOf c v = k.physOf c v)) ∧
    (fenceIs false value = true → k.coreFenced cl ph = true → exec (.fenceCore .host value) s = .next s) ∧
    (fenceIs true value = true → k.usable cl = false → exec (.fenceCluster .host value) s = .next s)

/-- Over the management bus a finished session writes what its role allows: a heartbeat clears the loss and begins the timeout anew, and the answer is
OK; outside a session the answer is ERR_NO_PERMISSION and no register changes. An accepted RAS_UNRETIRE erases the retirement record (R348, R365,
R394, R395). -/
def Obligations.SessionWrites : Prop :=
  ∀ (id : Nat) (x : Session) (value : Quad) (s : State), s.dev.pins.powered = true →
    (s.dev.session id = none → exec (.pwrHeartbeat (.session id) value) s = .next { s with dev := s.dev.emit (.response Config.noPermission []) }) ∧
    (s.dev.session id = some x → s.dev.ras.st = .running → s.dev.ras.coldReset = false → x.role = 1 → bitAt value.toNat 0 = true →
      exec (.pwrHeartbeat (.session id) value) s = .next { s with dev := { s.dev with
        pwr := { s.dev.pwr with hbLost := false, lastBeat := s.time.toNat }, out := s.dev.out ++ [.response Config.ok []] } }) ∧
    (s.dev.session id = some x → s.dev.ownerSession x = true → s.dev.ras.st ≠ .retired → s.dev.ras.st ≠ .resetting → s.dev.ras.coldReset = false →
      bitAt value.toNat 0 = true → exec (.rasUnretire (.session id) value) s = .next { s with dev := { s.dev with
        ras := { s.dev.ras with unretireStatus := 2#3 }, out := s.dev.out ++ [.response Config.ok []] } }) ∧
    (s.dev.session id = some x → s.dev.ownerSession x = true → s.dev.ras.st = .retired → s.dev.ras.coldReset = false → bitAt value.toNat 0 = true →
      (s.dev.ras.retiredBoot = false → exec (.rasUnretire (.session id) value) s = .next { s with dev := { s.dev with
        ras := { s.dev.ras with unretireStatus := 3#3 }, out := s.dev.out ++ [.response Config.ok []] } }) ∧
      (s.dev.ras.retiredBoot = true → ∃ t, exec (.rasUnretire (.session id) value) s = .next t ∧
        t.dev = (s.dev.unretire s.env value.toNat true).emit (.response Config.ok []) ∧ t.time = s.time ∧
        t.kf = if t.dev.inPackageReset && !s.dev.inPackageReset then { s.kf with vmap := [] } else s.kf)) ∧
    (s.dev.session id = none → s.dev.ras.st = .retired → s.dev.ras.retiredBoot = true → bitAt value.toNat 0 = true →
      exec (.rasUnretire (.session id) value) s = .next { s with dev := { s.dev with
        ras := { s.dev.ras with unretireStatus := 4#3 }, out := s.dev.out ++ [.response Config.noPermission []] } })

/-- VIA_MAPOUT_CLR acts only while VIA_MAINT.OPEN is 1, and then clears the port's two bits and leaves it DOWN; a write of VIA_MAPOUT for ports mapped out
already changes nothing; a peer state outside 0 to 4 is ignored, and the package's own entry is stored without further effect; TRAIN of a port that is
DOWN begins its training, with TRAFFIC as it stands; CLK_WAKE wakes a cluster that sleeps (R316 to R318, R335, R359). -/
def Obligations.ViaductAndClockWrites : Prop :=
  ∀ (p : PortId) (i : Fin 256) (cl : ClusterId) (value : Quad) (s : State), s.dev.hostOpen = true → s.fuse.part ≠ .kpv4S →
    (value.toNat = 2 ^ p.val → bitAt s.dev.via.maint.toNat 0 = false → exec (.mapoutClr .host value) s = .next s) ∧
    (value.toNat = 2 ^ p.val → bitAt s.dev.via.maint.toNat 0 = true → ∃ t, exec (.mapoutClr .host value) s = .next t ∧
      bitAt t.dev.via.mapout.toNat p = false ∧ bitAt t.dev.via.mapout.toNat (p + 4) = false ∧
      (∀ j, j < 8 → j ≠ p.val → j ≠ p.val + 4 → bitAt t.dev.via.mapout.toNat j = bitAt s.dev.via.mapout.toNat j) ∧
      (bitAt s.dev.via.mapout.toNat p = true → s.dev.via.portThere s.fuse p = true → t.dev.port p = { s.dev.port p with st := .down })) ∧
    exec (.mapout .host value) s = .next (s.onDev fun e d => d.writeMapout e value.toNat) ∧
    ((∀ j, j < 4 → value.toNat.testBit j = true → bitAt s.dev.via.mapout.toNat j = true) → s.dev.returnAll = s.dev → exec (.mapout .host value) s = .next s) ∧
    (4 < bitsAt value.toNat 0 3 → exec (.peerStateWrite .host i value) s = .next s) ∧
    (bitsAt value.toNat 0 3 ≤ 4 → i.val = s.dev.via.self → exec (.peerStateWrite .host i value) s = .next { s with dev := { s.dev with
      via := { s.dev.via with peers := Tab.set 0#3 i (BitVec.ofNat 3 (bitsAt value.toNat 0 3)) s.dev.via.peers } } }) ∧
    (bitsAt value.toNat 0 3 ≤ 4 → i.val ≠ s.dev.via.self → exec (.peerStateWrite .host i value) s = .next (s.onDev fun e d => d.writePeer e i value.toNat)) ∧
    (s.fuse.portFitted p = true → s.dev.linkLive = true → exec (.portTrain p .host) s = .next (s.onDev fun e d =>
      let d := (d.modPort p fun x => { x with traffic := (s.dev.port p).traffic }).serve p
      if (d.port p).st = .down || (d.port p).st = .mismatch then d.startTraining e.fuse e.now p else d)) ∧
    (value.toNat = 2 ^ cl.val → s.fuse.clusterFitted cl = true → s.kf.usable cl = true →
      ((s.dev.sleep cl).st ≠ .active → exec (.clkWake value) s = .next { s with dev := s.dev.setSleep cl { s.dev.sleep cl with waking := true } }) ∧
      ((s.dev.sleep cl).st = .active →
        exec (.clkWake value) s = .next { s with dev := s.dev.setSleep cl { s.dev.sleep cl with idleSince := s.time.toNat } }))

/-! ### Faults and resets -/

/-- A cause of R340 puts a package that runs or is reset into the parapet state: its open commands are gone, the cause bit is set and latched alone, and
LAST_CODE and LAST_TIME name it; in the parapet state it only adds its bit. EPO_N also takes what the cores and the near tier held (R340, R341,
R366). -/
def Obligations.ParapetEntered : Prop :=
  ∀ (i : Instr) (cause code : Nat) (n : DieId) (s : State), s.dev.pins.powered = true →
    ((i = .epoAssert ∧ cause = 0 ∧ code = Config.power) ∨ (i = .thermalTrip ∧ cause = 1 ∧ code = Config.thermal) ∨
      ((i = .supplyUndervoltage ∨ i = .supplyOvervoltage ∨ i = .regulatorFault ∨ i = .refclkLoss) ∧ cause = 2 ∧ code = Config.power) ∨
      (i = .hubControlEcc ∧ cause = 3 ∧ code = Config.eccUncorrected) ∨
      ((i = .hubWatchdogExpiry ∨ (i = .dieResetWatchdogExpiry n ∧ (s.dev.ras.resetting.any fun x => x.1 = .die n) = true ∧ s.dev.running = true)) ∧
        cause = 5 ∧ code = Config.hang)) →
    (s.dev.ras.st ≠ .parapet → s.dev.ras.st ≠ .retired → ∃ t, exec i s = .next t ∧ t.dev.ras.st = .parapet ∧ t.dev.opens = [] ∧ t.dev.groups = [] ∧
      bitAt t.dev.ras.cause.toNat cause = true ∧ t.dev.ras.latched = BitVec.ofNat 8 (2 ^ cause) ∧ t.dev.ras.lastCode = BitVec.ofNat 8 code ∧
      t.dev.ras.lastTime = t.time ∧ t.dev.ras.resetting = [] ∧ t.dev.pwr.hard = true ∧ (i = .epoAssert → t.dev.cores = [] ∧ t.dev.blk.near = [])) ∧
    (s.dev.ras.st = .parapet ∨ s.dev.ras.st = .retired → ∃ t, exec i s = .next t ∧ t.dev.ras.st = s.dev.ras.st ∧ t.dev.opens = s.dev.opens ∧
      t.dev.ras.cause = s.dev.ras.cause ||| BitVec.ofNat 8 (2 ^ cause) ∧ t.dev.ras.lastCode = s.dev.ras.lastCode)

/-- A reset that is under way ends once its self-tests have: RESETTING clears and its end is logged; the end of the package's own reset clears the
package, and the core maps are written again. A self-test that finds nothing is over; a core that fails it is fenced (R338, R344, R345). With AUTO set a parapet state whose causes allow it,
and which did not cut a package reset short, is left by a package-warm reset no earlier than the delay after it was entered; with AUTO clear it is held.
A RETIRED package writes its retirement record until it has booted from it (R343, R347, R407). -/
def Obligations.ResetsEndAndRecur : Prop :=
  (∀ (t : ResetTarget) (cl : ClusterId) (ph : CoreId) (n : DieId) (s : State),
      (t.wf = true → (s.dev.ras.resetting.any fun x => x.1 = t) = false → exec (.resetComplete t) s = .next s) ∧
      ((s.dev.ras.resetting.any fun x => x.1 = t) = true →
        let d : Dev := { s.dev with ras := { s.dev.ras with resetting := s.dev.ras.resetting.filter fun x => x.1 ≠ t } }
        (t = .core cl ph → exec (.resetComplete t) s = .next { s with dev := d.rasEvent s.env 3 0 cl ph 1 }) ∧
        (t = .cluster cl → s.dev.tested (insideCluster cl) = true → exec (.resetComplete t) s =
          .next { s with dev := (d.watchPiers s.env fun k => k = cl.val / 4).rasEvent s.env 3 0 cl 0xFF 2 }) ∧
        (t = .die n → s.dev.tested (insideDie n) = true → exec (.resetComplete t) s =
          .next { s with dev := (d.watchPiers s.env fun k => k = n.val).rasEvent s.env 3 0 0xFF 0xFF 3 }) ∧
        (t = .cluster cl → s.dev.tested (insideCluster cl) = false → exec (.resetComplete t) s = .next s) ∧
        (t = .package → s.dev.tested (fun _ => true) = true → ∃ u, exec (.resetComplete t) s = .next u ∧ u.time = s.time ∧
          u.dev = Dev.warmDone s.env s.dev ∧ u.kf = if s.dev.inPackageReset && !u.dev.inPackageReset then s.kf.boot else s.kf)) ∧
      (s.dev.ras.st = .running → s.dev.ras.testing.contains (.core cl ph) = true → (s.dev.ras.resetting.any fun x => x.1 = .core cl ph) = false →
        let d : Dev := { s.dev with ras := { s.dev.ras with testing := s.dev.ras.testing.filter (· ≠ .core cl ph), toFence := s.dev.ras.toFence } }
        (∀ failed : Word, bitAt failed.toNat ph = false → exec (.selfTestDone (.core cl ph) failed false) s = .next { s with dev := d }) ∧
        (∀ failed : Word, bitAt failed.toNat ph = true →
          exec (.selfTestDone (.core cl ph) failed false) s = .next (State.fenceCore { s with dev := d } cl ph none))) ∧
      (s.dev.ras.st = .running → s.dev.ras.testing.contains (.cluster cl) = true → (∀ x ∈ s.dev.ras.toFence, x.1 ≠ cl) →
        let d : Dev := { s.dev with ras := { s.dev.ras with
          testing := s.dev.ras.testing.filter (· ≠ .cluster cl), toFence := s.dev.ras.toFence.filter fun x => !(x.1 = cl) } }
        exec (.selfTestDone (.cluster cl) 0#32 false) s = .next { s with dev := d } ∧
        exec (.selfTestDone (.cluster cl) 0#32 true) s = .next (State.fenceCluster { s with dev := d } cl none) ∧
        exec (.selfTestDone (.cluster cl) (BitVec.ofNat 32 (2 ^ ph.val)) false) s = .next (State.fenceCore { s with dev := d } cl ph none))) ∧
  (∀ s : State,
      (s.dev.busUp = true → s.dev.ras.st = .parapet → bitAt s.dev.ras.ctrl.toNat 0 = true → s.dev.ras.noAuto = false → s.dev.allowsWarm = true →
        ∃ t, exec .autoReset s = .next t ∧
          t.time = BitVec.ofNat 64 (max s.time.toNat (s.dev.ras.lastTime.toNat + bitsAt s.dev.ras.ctrl.toNat 8 16 * 100000)) ∧
          t.dev = Dev.warmReset { s.env with now := t.time.toNat } (s.upTo t) ∧
          t.kf = if t.dev.inPackageReset && !s.dev.inPackageReset then { s.kf with vmap := [] } else s.kf) ∧
      (s.dev.ras.st ≠ .parapet ∨ bitAt s.dev.ras.ctrl.toNat 0 = false ∨ s.dev.ras.noAuto = true ∨ s.dev.allowsWarm = false → exec .autoReset s = .next s) ∧
      (s.dev.pins.powered = true → s.dev.ras.st = .retired → s.dev.ras.retiredBoot = false →
        ∃ l, l = toBytes 4 0x5452454B ++ List.replicate 4 0#8 ++ toBytes 8 s.fuse.deviceId.toNat ++ [s.dev.ras.lastCode, BitVec.ofNat 8 s.dev.ras.resets]
            ++ List.replicate 6 0#8 ++ toBytes 8 s.dev.ras.retiredAt ∧
          exec .retirementRecordWrite s = .next { s with dev := { s.dev with sec := { s.dev.sec with
            record := l ++ hmacSha256 (Config.recordKey s.fuse.deviceId) l } } }) ∧
      (s.dev.ras.st ≠ .retired ∨ s.dev.ras.retiredBoot = true → exec .retirementRecordWrite s = .next s))

/-- The watchdog of a core that counts resets the core with ERR_HANG once it has counted CORE_US, a command's deadline ends it with ERR_HANG no earlier
than that deadline, and a pier core's watchdog, PIER_MS at least after the pier cores were started, resets its die, or enters the parapet state the second
time within 60 s; each expiry is logged (R122, R337, R339, R350). -/
def Obligations.WatchdogsExpire : Prop :=
  ∀ (cl : ClusterId) (p : CoreId) (n : DieId) (pier : Fin 8) (uid : Nat) (o : OpenCmd) (s : State), s.dev.running = true →
    let env (t : State) : Env := { s.env with now := t.time.toNat }
    (s.fuse.clusterFitted cl = true → s.kf.coreFenced cl p = false → s.dev.coreCounts cl p = true → s.dev.coveredBy (.core cl p) = false →
      ∃ t, exec (.coreWatchdogExpiry cl p) s = .next t ∧ t.kf = s.kf ∧
        t.time = BitVec.ofNat 64 (s.time.toNat + (bitsAt s.dev.ras.wdt.toNat 0 16 * Config.usTicks - (s.dev.core cl p).still)) ∧
        t.dev = Dev.coreReset (env t) ((s.upTo t).rasEvent (env t) 6 Config.hang cl p 0 0x40) cl p (some
          { error := Config.hang, resource := 0x40, core := some (cl.val, p.val), value := ((s.upTo t).core cl p).still / Config.usTicks
            limit := bitsAt s.dev.ras.wdt.toNat 0 16 })) ∧
    (s.dev.coreCounts cl p = false → exec (.coreWatchdogExpiry cl p) s = .next s) ∧
    (s.dev.openOf uid = some o → s.dev.inDoubt o = false →
      let us := s.dev.deadlineUs o.cmd
      ∃ t, exec (.commandDeadlineExpiry uid) s = .next t ∧ t.time = BitVec.ofNat 64 (max s.time.toNat (o.start + us * Config.usTicks)) ∧
        t.dev = ((s.upTo t).rasEvent (env t) 6 Config.hang 0xFF 0xFF 0 0x41).failFault (env t) o
          { error := Config.hang, resource := 0x41, engine := 0xF2, value := (t.time.toNat - o.start) / Config.usTicks, limit := us,
            span := if o.opcode = opSpanLaunch || o.opcode = opSpanDrain then cmdField o.cmd 16 4 else 0 }) ∧
    (s.dev.openOf uid = none → exec (.commandDeadlineExpiry uid) s = .next s) ∧
    (s.fuse.dieFitted n = true → s.kf.usable (4 * n.val + pier.val / 2) = true →
      ∃ t, exec (.pierWatchdogExpiry n pier) s = .next t ∧ t.kf = s.kf ∧
        t.time = BitVec.ofNat 64 (max s.time.toNat
          (Tab.get 0 n.val s.dev.ras.pierFrom + bitsAt s.dev.ras.wdt.toNat 16 8 * (1000 * Config.usTicks))) ∧
        let d := (s.upTo t).rasEvent (env t) 6 Config.hang (4 * n.val + pier.val / 2) 0xFF 0 0x44
        let d : Dev := { d with ras := { d.ras with
          pierAt := Tab.put n.val t.time.toNat d.ras.pierAt, pierFrom := Tab.put n.val t.time.toNat d.ras.pierFrom } }
        let again := ∃ k at_, s.dev.ras.pierAt.find? (fun x : Nat × Nat => x.1 = n.val) = some (k, at_) ∧ t.time.toNat ≤ at_ + 60 * 100000000
        (again → t.dev = Dev.parapet (env t) d 5 Config.hang) ∧
        (¬again → s.dev.coveredBy (.die n) = true → t.dev = d) ∧
        (¬again → s.dev.coveredBy (.die n) = false → t.dev = Dev.dieReset (env t) d n (some
          { error := Config.hang, resource := 0x44, engine := 0xF2, value := pier, limit := bitsAt s.dev.ras.wdt.toNat 16 8 })))

/-- An uncorrected error in the control state of a core fences the core, in that of a cluster resets the cluster, and on a die bridge that the part has
ends the requests whose transfers met it; a core that has reached the corrected-error policy is logged, and is fenced once no launch occupies it or waits
(R17, R338, R337, R352). -/
def Obligations.ControlErrors : Prop :=
  ∀ (cl : ClusterId) (p : CoreId) (part : Fin 5) (cpart : Fin 3) (bridge : Fin 8) (me ctx uid k : Nat) (o : OpenCmd) (x : Xfer) (s : State),
    s.dev.running = true →
    let idle := ∀ k ∈ s.dev.spansOn (fun c q => c = cl && q = p.val), (s.dev.span k).running = none ∧ (s.dev.span k).waits = 0
    let why : FaultInfo := { error := Config.eccUncorrected, resource := 0x45, engine := 0xF2, value := bridge }
    (s.fuse.clusterFitted cl = true → s.kf.coreFenced cl p = false → s.dev.ras.testing.contains (.cluster cl.val) = false →
      (∃ t, exec (.coreControlEcc cl p part) s = .next t ∧ t.kf = s.kf.fenceCore cl p ∧ t = s.fenceCore cl p
        (some { error := Config.eccUncorrected, resource := 0x42, core := some (cl.val, p.val), value := part })) ∧
      (s.dev.ras.ceDue = [] → idle → ∃ t, exec (.cePolicyFence cl p) s = .next t ∧ t.kf = s.kf.fenceCore cl p) ∧
      (s.dev.ras.ceDue = [] → ¬idle → ∃ t, exec (.cePolicyFence cl p) s = .next t ∧ t.kf = s.kf ∧ t.dev.ras.ceDue = [(cl.val, p.val)] ∧
        bitAt t.dev.ras.alert.toNat 8 = true ∧ t.dev.opens = s.dev.opens ∧ t.dev.cores = s.dev.cores)) ∧
    (s.fuse.clusterFitted cl = true → s.kf.usable cl = true → s.dev.coveredBy (.cluster cl) = false →
      exec (.clusterControlEcc cl cpart) s = .next (s.onDev fun e d => Dev.clusterReset e d cl
        (some { error := Config.eccUncorrected, resource := 0x43, engine := 0xF1, value := cpart }))) ∧
    (s.kf.usable cl = false → exec (.clusterControlEcc cl cpart) s = .next s ∧ exec (.coreControlEcc cl p part) s = .next s ∧
      exec (.cePolicyFence cl p) s = .next s) ∧
    (s.fuse.part = .kpv2L → bridge.val ∉ [0, 1, 4] → exec (.bridgeEcc bridge [.command uid]) s = .next s) ∧
    (s.fuse.part ≠ .kpv2L ∨ bridge.val ∈ [0, 1, 4] →
      (me < 4 → ctx < 8 → (s.dev.streamCtx cl p me ctx).outst.head? = some x →
        exec (.bridgeEcc bridge [.stream cl p me ctx]) s = .next (s.onDev fun e d => d.engFault e cl p (4 + me) (d.ctxInfo cl p me ctx x.lin
          { why with addr := some x.va }))) ∧
      (s.dev.openOf uid = some o → exec (.bridgeEcc bridge [.command uid]) s = .next (s.onDev fun e d => d.failFault e o why)) ∧
      (k < 1024 → (s.dev.long k).used = true → (s.dev.long k).st.terminal = false →
        exec (.bridgeEcc bridge [.long k]) s = .next (s.onDev fun e d => d.failLong e.fuse e k why)) ∧
      (∀ (m : Move) (r : Resolution), s.dev.openOf uid = none → s.dev.moveOf uid = some m → s.dev.resOf uid = some r →
        exec (.bridgeEcc bridge [.command uid]) s = .next (s.onDev fun e d =>
          (d.abortMove e.fuse m).setRes { r with failed := some (BitVec.ofNat 8 Config.eccUncorrected, 0x45, bridge) })) ∧
      (∀ l : List Requester, l.all Requester.wf = true →
        exec (.bridgeEcc bridge l) s = .next (s.onDev fun e d => l.foldl (fun d w => bridgeVictim e d bridge w) d)))

/-! ### Power -/

/-- Power-on starts the always-on domain alone; the removal of power leaves the fuses, the key store, the board flash and the pins, and LOCAL_TIME at 0;
PERST_N asserted begins a cold reset that leaves no long operation, version, sequence or session, and counts for a package that is not RETIRED
(R344, R347, R356, R358, R388). -/
def Obligations.SupplyAndColdReset : Prop :=
  ∀ s : State,
    (s.dev.pins.powered = true → exec .powerOn s = .next s) ∧
    (s.dev.pins.powered = false → s.dev.pins.epo = false → s.dev.pins.brake = false →
      exec .powerOn s = .next { s with dev := { s.dev with pins := { s.dev.pins with powered := true } } }) ∧
    (s.dev.pins.powered = false → exec .powerRemoval s = .next s) ∧
    (s.dev.pins.powered = true → ∃ t, exec .powerRemoval s = .next t ∧ t.time = 0#64 ∧ t.kf = Kf.atPower s.fuse ∧ t.dev.opens = [] ∧ t.dev.cores = [] ∧
      t.dev.blk = {} ∧ t.dev.pwr = s.fuse.pwrReset ∧ t.dev.sec.flash = s.dev.sec.flash ∧ t.dev.sec.ownerKey = s.dev.sec.ownerKey ∧
      t.dev.sec.record = s.dev.sec.record ∧ t.dev.pins.powered = false ∧ t.dev.out = s.dev.out) ∧
    (s.dev.pins.powered = false ∨ s.dev.pins.perst = true →
      exec .perstAssert s = .next { s with dev := { s.dev with pins := { s.dev.pins with perst := true } } }) ∧
    (s.dev.pins.powered = true → s.dev.pins.perst = false →
      let d : Dev := { s.dev with pins := { s.dev.pins with perst := true, perstAt := s.time.toNat } }
      (∃ t, exec .perstAssert s = .next t ∧ t.dev.longs = [] ∧ t.dev.vers = [] ∧ t.dev.seqs = [] ∧ t.dev.steps = [] ∧ t.dev.blk.near = [] ∧
        t.dev.blk.locked = false ∧ t.dev.sec.running = none ∧ t.dev.mgmt.sessions = [] ∧ t.dev.ras.resetting = [] ∧ t.dev.hif.queues = [] ∧
        t.dev.sec.submitBusy = false) ∧
      (s.dev.ras.st = .retired → ∃ t, exec .perstAssert s = .next t ∧
        t.dev = Dev.coldStart s.env (d.cutFlash.rasEvent s.env 2 0 0xFF 0xFF 5) ∧ t.kf = { s.kf with vmap := [] }) ∧
      (s.dev.ras.st ≠ .retired → (d.countReset s.env 5).1 = false →
        ∃ t, exec .perstAssert s = .next t ∧
        t.dev = Dev.coldStart s.env ((d.countReset s.env 5).2.cutFlash.rasEvent s.env 2 0 0xFF 0xFF 5) ∧ t.kf = { s.kf with vmap := [] }) ∧
      (s.dev.ras.st ≠ .retired → (d.countReset s.env 5).1 = true → ∃ t, exec .perstAssert s = .next t ∧ t.dev.ras.st = .retired ∧
        t.kf = { s.kf with vmap := [] }))

/-- PERST_N released samples the straps and begins verified boot at its time or later; boot whose image runs, with no unit failed and no cause left, gives
every usable cluster its boot map, leaves the package RUNNING and the runtime READY; a RETIRED package stays RETIRED (R19, R26, R388, R389, R402). -/
def Obligations.BootRuns : Prop :=
  ∀ (straps : Straps) (prog : Option (List Byte)) (found : BootFound) (s : State),
    (s.dev.pins.powered = true → s.dev.pins.perst = true → ∃ t, exec (.perstRelease straps prog) s = .next t ∧
      t.time = BitVec.ofNat 64 (max s.time.toNat (s.dev.pins.perstAt + 1000 * Config.usTicks)) ∧
      t.dev = perstRelease { s.env with now := t.time.toNat } (s.upTo t) straps prog) ∧
    (s.dev.pins.powered = false ∨ s.dev.pins.perst = false → exec (.perstRelease straps prog) s = .next s) ∧
    (s.dev.busUp = false ∨ s.dev.sec.booting = false → exec (.bootReady found) s = .next s) ∧
    (s.dev.busUp = true → s.dev.sec.booting = true → s.dev.ras.st = .retired → ∃ t, exec (.bootReady found) s = .next t ∧ t.kf = s.kf ∧
      t.dev.ras.st = .retired ∧ t.dev.sec.booting = false ∧ t.dev.hif.ready = s.dev.hif.ready) ∧
    (∀ i, s.dev.busUp = true → s.dev.sec.booting = true → s.dev.sec.recovery = false → s.dev.ras.st = .resetting → s.dev.ras.coldReset = true →
      s.dev.sec.running = some i → found.failedCores = [] → found.failedPier = 0#16 → found.failedCh = 0#32 → s.dev.pins.epo = false →
      s.dev.pins.thermtrip = false → s.dev.pins.inputGood = true → s.dev.pins.refclk = true → s.dev.pwr.deferred = [] →
      ∃ t, exec (.bootReady found) s = .next t ∧ t.dev.ras.st = .running ∧ t.dev.hif.ready = true ∧ t.dev.sec.booting = false ∧
        t.dev.sec.floor = max s.dev.sec.floor i.floor ∧ t.dev.hif.gen = found.gen ∧ t.kf.fenced = s.kf.fenced ∧ t.kf.clusterMap = s.kf.clusterMap ∧
        (∀ c, c < s.fuse.channels → (Tab.get ({} : Channel) c t.dev.blk.channels).st = if bitAt found.slowCh.toNat c then 2#2 else 1#2) ∧
        (∀ c v, c < 16 → v < 30 → t.kf.physOf c v =
          if s.kf.usable c then ((List.range 32).filter fun p => !bitAt (s.kf.fencedOf c).toNat p)[v]? else none))

/-- PWRBRAKE_N and a junction at the forced-floor threshold put the governor at the brake floor and are counted; every pin's release only changes its
level, the input counts as good once it has lain in its range for 100 ms; a heartbeat missed for HB_TIMEOUT_MS is counted and holds the ceiling where it was (R356, R365 to R368). -/
def Obligations.PinsAndHeartbeat : Prop :=
  ∀ s : State,
    let p := s.dev.pwr
    let hard (q : Pwr) : Pwr := { q with ceiling := 100 * bitsAt q.brakeFloor.toNat 0 16, floor := 0, ballast := false, ballastShort := false, hard := true }
    (s.dev.pins.brake = true → exec .brakeAssert s = .next s) ∧
    (s.dev.pins.brake = false → s.dev.pins.powered = true → exec .brakeAssert s = .next { s with dev := { s.dev with
      pins := { s.dev.pins with brake := true }, pwr := hard { p with evBrake := min (p.evBrake + 1) 0xFFFF } } }) ∧
    (s.dev.pins.powered = true → p.forced = false → exec .thermalForcedFloor s = .next { s with dev := { s.dev with
      pwr := hard { p with forced := true, evForced := min (p.evForced + 1) 0xFFFF } } }) ∧
    (p.forced = true → exec .thermalForcedFloor s = .next s) ∧
    exec .brakeRelease s = .next { s with dev := { s.dev with pins := { s.dev.pins with brake := false } } } ∧
    exec .epoRelease s = .next { s with dev := { s.dev with pins := { s.dev.pins with epo := false } } } ∧
    exec .thermtripRelease s = .next { s with dev := { s.dev with pins := { s.dev.pins with thermtrip := false } } } ∧
    (s.dev.pins.powered = false ∨ s.dev.pins.inputGood = true →
      exec .inputWithinOperatingRange s = .next { s with dev := { s.dev with pins := { s.dev.pins with inputGood := true } } }) ∧
    (s.dev.pins.powered = true → s.dev.pins.inputGood = false → ∃ t, exec .inputWithinOperatingRange s = .next t ∧
      t.time = BitVec.ofNat 64 (max s.time.toNat (s.dev.pins.inputAt + 100000 * Config.usTicks)) ∧
      t.dev = { s.upTo t with pins := { s.dev.pins with inputGood := true } }) ∧
    exec .refclkPresent s = .next { s with dev := { s.dev with pins := { s.dev.pins with refclk := true } } } ∧
    (s.dev.pins.powered = true → p.hbLost = false → ∃ t, exec .heartbeatTimeout s = .next t ∧
      t.time = BitVec.ofNat 64 (max s.time.toNat (p.lastBeat + p.hbTimeoutMs * (1000 * Config.usTicks))) ∧
      t.dev = { s.upTo t with pwr := { p with hbLost := true, h := p.cf, evHb := min (p.evHb + 1) 0xFFFF } }) ∧
    (p.hbLost = true → exec .heartbeatTimeout s = .next s)

/-- One period of the governor, in units of 0.01 W: H, TL and CF follow R364 from what was measured; with the brake, in the parapet state, RETIRED, or
at 105 °C the ceiling is the brake floor and there is no floor, and else the ceiling is at most CF and one slew step above the draw, and the floor one
step below the draw (R362, R363, R364). -/
def Obligations.GovernorPeriods : Prop :=
  ∀ (m : Measured) (s : State), m.wf = true → s.dev.pins.powered = true →
    let p := s.dev.pwr
    let u := s.fuse
    let drawn := 100 * m.total.toNat
    let brakeW := 100 * p.brakeW
    ∃ t, exec (.governorPeriod m) s = .next t ∧ t.time = BitVec.ofNat 64 (max s.time.toNat ((p.lastPeriod + 1) * 1000)) ∧
      t.dev = { s.upTo t with pwr := t.dev.pwr, freeCount := t.dev.freeCount } ∧ t.dev.pwr.energy = p.energy + m.energy ∧
      (let tj := maxList 0 (t.dev.pwr.temps.map BitVec.toNat);
        (∀ k x, m.temps[k]? = some x → (k < 4 → u.dieFitted k = true) → t.dev.pwr.temps[k]? = some x) ∧
        (p.hbLost = true → t.dev.pwr.h = max (100 * p.safeCap) (p.h - p.slewStep)) ∧
        (p.hbLost = false → t.dev.pwr.h = 100 * u.tdp) ∧
        (tempOf p.throttleC < tj → t.dev.pwr.tl = max brakeW (min p.tl drawn - p.slewStep)) ∧
        (tj ≤ tempOf p.throttleC → tj < tempOf (p.throttleC - 2) → t.dev.pwr.tl = min (100 * u.tdp) (p.tl + p.slewStep)) ∧
        (tj ≤ tempOf p.throttleC → tempOf (p.throttleC - 2) ≤ tj → t.dev.pwr.tl = p.tl) ∧
        t.dev.pwr.cf = min (100 * p.capW) (min t.dev.pwr.h t.dev.pwr.tl) ∧
        (s.dev.ras.st = .parapet ∨ s.dev.ras.st = .retired ∨ s.dev.pins.brake = true ∨ tempOf 105 ≤ tj →
          t.dev.pwr.ceiling = brakeW ∧ t.dev.pwr.floor = 0 ∧ t.dev.pwr.hard = true) ∧
        (s.dev.ras.st ≠ .parapet → s.dev.ras.st ≠ .retired → s.dev.pins.brake = false → tj < tempOf 105 →
          t.dev.pwr.ceiling = min t.dev.pwr.cf (drawn + p.slewStep) ∧ t.dev.pwr.floor = drawn - p.slewStep ∧ t.dev.pwr.hard = false))

/-- A cluster that has been idle for NAP_US naps, one that has napped for DEEP_MS with its bit of DEEP_EN set loses its near tier and queues and sleeps
deeply, a wake ends ACTIVE and is counted where it left DEEP; nothing else of the package changes but the watchdogs' counts as LOCAL_TIME passes (R339,
R359, R360). -/
def Obligations.ClustersSleep : Prop :=
  ∀ (cl : ClusterId) (s : State), s.dev.running = true → s.fuse.clusterFitted cl = true → s.kf.usable cl = true →
    let z := s.dev.sleep cl
    (z.st = .active → s.dev.clusterIdle cl = true → ∃ t, exec (.clusterNap cl) s = .next t ∧
      t.time = BitVec.ofNat 64 (max s.time.toNat (z.idleSince + s.dev.pwr.napUs * Config.usTicks)) ∧
      t.dev = (s.upTo t).setSleep cl { z with st := .nap, napSince := t.time.toNat }) ∧
    (s.dev.clusterIdle cl = false → exec (.clusterNap cl) s = .next s) ∧
    (z.st = .nap → z.waking = false → s.dev.pwr.deepEn cl = true → (∀ p, p < 32 → (s.dev.core cl p).sleepy = true) → ∃ t, exec (.clusterDeep cl) s = .next t ∧
      t.time = BitVec.ofNat 64 (max s.time.toNat (z.napSince + s.dev.pwr.deepMs * (1000 * Config.usTicks))) ∧ (t.dev.sleep cl).st = .deep ∧
      (∀ c, c ≠ cl.val → t.dev.sleep c = s.dev.sleep c) ∧
      (∀ a, a / 0x4000000 = cl.val → Memory.get t.dev.blk.near a = 0#8) ∧
      (∀ a, a / 0x4000000 ≠ cl.val → Memory.get t.dev.blk.near a = Memory.get s.dev.blk.near a) ∧
      (∀ w, t.dev.blk.nearBad.contains w = (s.dev.blk.nearBad.contains w && decide (8 * w / 0x4000000 ≠ cl.val))) ∧
      (∀ p, p < 32 → t.dev.core cl p = { (s.upTo t).core cl p with
        engs := ((s.upTo t).core cl p).engs.map fun y => (y.1, { y.2 with regs := [], queues := [], outs := [] }) }) ∧
      (∀ c p, c ≠ cl.val → p < 32 → t.dev.core c p = (s.upTo t).core c p) ∧
      t.dev = { s.dev with
        cores := t.dev.cores, blk := { s.dev.blk with near := t.dev.blk.near, nearBad := t.dev.blk.nearBad }, pwr := { s.dev.pwr with sleep := t.dev.pwr.sleep } }) ∧
    (s.dev.pwr.deepEn cl = false → exec (.clusterDeep cl) s = .next s) ∧
    (z.st ≠ .active → exec (.clusterWake cl) s = .next { s with dev := s.dev.setSleep cl { z with waking := true } }) ∧
    (z.st = .active → exec (.clusterWake cl) s = .next s) ∧
    (z.waking = true → z.st = .deep → exec (.clusterWakeDone cl) s = .next { s with dev := s.dev.setSleep cl { z with
      st := .active, waking := false, idleSince := s.time.toNat, wakes := min (z.wakes + 1) (2 ^ 32 - 1) } }) ∧
    (z.waking = true → z.st ≠ .deep → exec (.clusterWakeDone cl) s = .next { s with dev := s.dev.setSleep cl { z with
      st := .active, waking := false, idleSince := s.time.toNat } }) ∧
    (z.waking = false → exec (.clusterWakeDone cl) s = .next s)

/-! ### The viaducts -/

/-- A flit that arrives out of sequence, or at a port that carries none, changes nothing. One in sequence that the tables deliver here does what its KIND
says where its source is UP, and is dropped and counted where it is not; one for another package goes on by the port the tables name; one at a port that
passes no traffic is dropped. Each frees its buffer, and the credits owed go back (R310, R311, R312, R319, R326). -/
def Obligations.FlitsTaken : Prop :=
  ∀ (i : Instr) (s : State), i.wf = true →
    (∀ r, flitRow i = some r →
      let f := r.flit
      let src := coordIdx f.srcX f.srcY
      let freed (d : Dev) : Dev := d.oweCredit r.port (flitChannel f)
      (s.dev.hears r.port = false ∨ f.lseq ≠ (s.dev.port r.port).rxSeq → exec i s = .next s) ∧
      (∀ d, s.dev.hears r.port = true → Dev.takeFlit s.env s.dev r.port f = some d →
        (f.vc = 2 → exec i s = .next { s with dev := (freed d).returnAll }) ∧
        (f.vc ≠ 2 → (d.port r.port).inService = false → exec i s = .next { s with dev := (freed d.countDrop).returnAll }) ∧
        (f.vc ≠ 2 → (d.port r.port).inService = true → d.hop s.fuse f = .here →
          (d.via.peer src = 2 → flitAssigned f = true → exec i s = .next { s with dev := (r.act s.env (freed d) src).returnAll }) ∧
          (d.via.peer src ≠ 2 ∨ flitAssigned f = false → exec i s = .next { s with dev := (freed d).countDrop.returnAll })) ∧
        (∀ q det, f.vc ≠ 2 → (d.port r.port).inService = true → d.hop s.fuse f = .out q det →
          exec i s = .next { s with dev := (d.enqueue q (some (r.port.val, flitChannel f)) { f with detour := det }).returnAll }))) ∧
    (∀ p f act, linkRow i = some (p, f, act) →
      (s.dev.hears p = false ∨ f.lseq ≠ (s.dev.port p).rxSeq → exec i s = .next s) ∧
      (∀ d, s.dev.hears p = true → Dev.takeFlit s.env s.dev p f = some d →
        (f.kind = .idle → exec i s = .next { s with dev := d.returnAll }) ∧
        (f.kind ≠ .idle → flitAssigned f = true → exec i s = .next { s with dev := (act s.env (d.oweCredit p 2)).returnAll }) ∧
        (f.kind ≠ .idle → flitAssigned f = false → exec i s = .next { s with dev := (d.oweCredit p 2).countDrop.returnAll })))

/-- A DOWN port tries to train every 100 ms, and one that does not finish in 2 ms is DOWN again; an UP port that loses a lane, or hears nothing for 30 µs,
fails; its peer's fault sets stop its traffic, and their end trains it anew; each UP port sends a HEARTBEAT every 10 µs; a bad CRC asks for the flit
expected (R312, R315, R316). An RTS refused for want of room is sent again after 10 µs, a participant in doubt repeats its vote and its query every 100 µs,
and one that voted NO its vote until it hears the decision (R324, R329, R330). -/
def Obligations.LinksAndResends : Prop :=
  ∀ (p : PortId) (f : FuncId) (group : Word) (uid : Nat) (s : State),
    let x := s.dev.port p
    let at_ (t n : Nat) (u : State) : Prop := u.time = BitVec.ofNat 64 (max s.time.toNat (t + n * Config.usTicks))
    let env (u : State) : Env := { s.env with now := u.time.toNat }
    (s.dev.linkLive = true →
      (x.st ≠ .down → exec (.portTrainingAttempt p) s = .next s) ∧
      (x.st = .down → ∃ u, exec (.portTrainingAttempt p) s = .next u ∧ at_ (x.tryAt s.time.toNat) 0 u ∧
        u.dev = ((s.upTo u).modPort p fun y => { y with nextTry := x.tryAt s.time.toNat + 100000 * Config.usTicks }).startTraining s.fuse u.time.toNat p) ∧
      (x.st = .training → ∃ u, exec (.trainingTimeout p) s = .next u ∧ at_ x.trainSince 2000 u ∧ (u.dev.port p).st = .down ∧
        (u.dev.port p).waiting = x.waiting.filter (fun y => !kindNeighbour y.2.kind) ∧ (∀ q, q ≠ p.val → u.dev.port q = s.dev.port q) ∧ u.dev.opens = s.dev.opens ∧ u.dev.out = s.dev.out) ∧
      (x.st ≠ .up → exec (.laneLockLoss p) s = .next s ∧ exec (.linkSilenceExpiry p) s = .next s ∧ exec (.peerFaultReceived p) s = .next s) ∧
      (x.st = .up → exec (.laneLockLoss p) s = .next (s.onDev fun e d => (Dev.ownFails e (Dev.linkFailure e.fuse e.now d p 3)).returnAll)) ∧
      (x.st = .up → ∃ u, exec (.linkSilenceExpiry p) s = .next u ∧ at_ x.lastRx 30 u ∧
        u.dev = (Dev.ownFails (env u) (Dev.linkFailure s.fuse u.time.toNat ((s.upTo u).rasEvent (env u) 6 Config.link) p 2)).returnAll) ∧
      (x.st = .up → exec (.peerFaultReceived p) s = .next { s with dev := s.dev.setPort p { x with st := .peerFault, traffic := false } }) ∧
      (x.st = .peerFault → exec (.peerFaultClear p) s = .next (s.onDev fun e d => d.startTraining e.fuse e.now p)) ∧
      (∃ u, exec .viaHeartbeatSend s = .next u ∧ at_ ((s.dev.via.beatAt / (10 * Config.usTicks) + 1) * (10 * Config.usTicks)) 0 u ∧
        u.dev = (List.range 4).foldl (fun d q => if (d.port q).st = .up then d.sendNeighbour q .heartbeat [] else d)
          { s.upTo u with via := { s.dev.via with beatAt := u.time.toNat } }) ∧
      (x.linked = true → exec (.flitCrcFailure p) s = .next (s.onDev fun _ d =>
        (d.setPort p { x with fecUncorr := min (x.fecUncorr + 1) (2 ^ 32 - 1) }).sendNeighbour p .lretry (toBytes 2 x.rxSeq)))) ∧
    (s.dev.running = true →
      (∀ y, s.dev.sendOf uid = some y → y.full = true → ∃ u, exec (.rtsResend uid) s = .next u ∧ at_ y.triedAt 10 u ∧
        u.dev = sendRts (env u) ((s.upTo u).setSend { y with full := false }) { y with full := false }) ∧
      (∀ y, s.dev.sendOf uid = some y → y.full = false → exec (.rtsResend uid) s = .next s) ∧
      (∀ g, s.dev.doubt f group.toNat = some g →
        (∃ u, exec (.voteResend f group) s = .next u ∧ at_ g.voteAt 100 u ∧
          u.dev = ((s.upTo u).setGroup { g with voteAt := u.time.toNat }).sendVote s.fuse (s.dev.coordPhys g.num) g.num .vote (some true)) ∧
        (s.dev.coordPeer g.num = some 2 → ∃ u, exec (.querySend f group) s = .next u ∧ at_ g.queryAt 100 u ∧
          u.dev = ((s.upTo u).setGroup { g with queryAt := u.time.toNat }).sendVote s.fuse (s.dev.coordPhys g.num) g.num .query none)) ∧
      (s.dev.doubt f group.toNat = none → exec (.querySend f group) s = .next s ∧
        (let voted := s.dev.via.noVotes.find? (fun y => y.func = f.val && y.group = group.toNat);
          (voted = none → exec (.voteResend f group) s = .next s) ∧
          (∀ y, voted = some y → ∃ u, exec (.voteResend f group) s = .next u ∧ at_ y.sentAt 100 u ∧ u.dev = (s.upTo u).voteNo (env u) y.func y.group))))

/-! ### The security processor -/

/-- An owner record that is submitted, 1,024 bytes long and passes its checks changes what its operation names and ends the submission with OK; any other
ends it with the code of its first failing check, and the key store stays (R403, R404, R409). A checked image boots, or is written to the flash, which
holds it once the write is done; a refused image ends the submission with its code (R399, R400, R403). With no such submission nothing changes. -/
def Obligations.SubmissionsEnd : Prop :=
  ∀ (l : List Byte) (s : State),
    let k := s.dev.sec
    let counted : Sec := { k with ownerCounter := BitVec.ofNat 32 (recCounter l) }
    let ended (x : Sec) (code : Nat) : Sec := { x with submitBusy := false, submitPhase := 0#2, submitErr := BitVec.ofNat 8 code }
    let row (op : Nat) : Instr := match op with
      | 1 => .claim l
      | 2 => .ownerRelease l
      | 3 => .pubEnrol l
      | 4 => .pubRemove l
      | 5 => .reqEnrol l
      | 6 => .reqRemove l
      | _ => .policy l
    (∀ op, 1 ≤ op → op ≤ 7 → recordIs op l = true →
      (s.dev.checking 1 = false → exec (row op) s = .next s) ∧
      (s.dev.checking 1 = true → k.submitLen ≠ 1024#64 → exec (row op) s = .next { s with dev := { s.dev with sec := ended k Config.badField } }) ∧
      (s.dev.checking 1 = true → k.submitLen = 1024#64 → recordError s.fuse k l ≠ 0 →
        exec (row op) s = .next { s with dev := { s.dev with sec := ended k (recordError s.fuse k l) } }) ∧
      (s.dev.checking 1 = true → k.submitLen = 1024#64 → recordError s.fuse k l = 0 → recOp l = op → ∃ t, exec (row op) s = .next t ∧
        t.dev = { s.dev with sec := t.dev.sec, mgmt := t.dev.mgmt } ∧
        (op = 1 → t.dev.sec = ended { counted with
          owned := true, ownerKey := some (recModulus l), reqSlots := Tab.put 0 { role := 3, hash := keyHash (recModulus l) } k.reqSlots } 0 ∧ t.dev.mgmt = s.dev.mgmt) ∧
        (op = 2 → t.dev.sec = ended { k with owned := false, ownerKey := none, pubKeys := [], reqSlots := [], plainForbid := false, ownerCounter := 0#32 } 0 ∧
          (∀ x ∈ t.dev.mgmt.sessions, x ∈ s.dev.mgmt.sessions ∧ x.slot = none)) ∧
        (op = 3 → t.dev.sec = ended { counted with pubKeys := Tab.put (recSlot l) (recModulus l) k.pubKeys } 0 ∧ t.dev.mgmt = s.dev.mgmt) ∧
        (op = 4 → t.dev.sec = ended { counted with pubKeys := Tab.erase (recSlot l) k.pubKeys } 0 ∧ t.dev.mgmt = s.dev.mgmt) ∧
        (op = 5 → t.dev.sec = ended { counted with
          reqSlots := Tab.put (recSlot l) { role := recRole l, hash := BitVec.ofNat 256 (bytesAt l 24 32) } k.reqSlots } 0 ∧ t.dev.mgmt = s.dev.mgmt) ∧
        (op = 6 → t.dev.sec = ended { counted with reqSlots := Tab.erase (recSlot l) k.reqSlots } 0 ∧
          (∀ x ∈ t.dev.mgmt.sessions, x ∈ s.dev.mgmt.sessions ∧ x.slot ≠ some (recSlot l))) ∧
        (op = 7 → t.dev.sec = ended { counted with plainForbid := bitAt (recPolicy l) 0 } 0 ∧ t.dev.mgmt = s.dev.mgmt))) ∧
    (s.dev.checking 2 = true → l.length = k.submitLen.toNat →
      (∀ c code, checkImage s.fuse k.floor l = .error (c, code) → exec (.imageBoot l) s = .next { s with dev := { s.dev with sec := ended k code } }) ∧
      (∀ i, checkImage s.fuse k.floor l = .ok i → ∃ t, exec (.imageBoot l) s = .next t ∧ t.dev = { s.dev with sec := t.dev.sec } ∧
        t.dev.sec.running = some i ∧ t.dev.sec.recovery = false ∧ t.dev.sec.booting = true ∧ t.dev.sec.fromHost = true ∧ t.dev.sec.submitBusy = false ∧
        t.dev.sec.submitErr = 0#8 ∧ t.dev.sec.flash = k.flash)) ∧
    (s.dev.checking 3 = true → l.length = k.submitLen.toNat →
      (∀ c code, checkImage s.fuse k.floor l = .error (c, code) → exec (.imageWriteFlash l) s = .next { s with dev := { s.dev with sec := ended k code } }) ∧
      (∀ i, checkImage s.fuse k.floor l = .ok i → ∃ t, exec (.imageWriteFlash l) s = .next t ∧ t.dev = { s.dev with sec := t.dev.sec } ∧
        t.dev.sec.submitPhase = 2#2 ∧ t.dev.sec.submitBusy = true ∧ t.dev.sec.flash = [] ∧
        ∃ u, exec .flashWriteDone t = .next u ∧ u.dev.sec.flash = l ∧ u.dev.sec.submitBusy = false ∧ u.dev.sec.submitErr = 0#8)) ∧
    (s.dev.pins.powered = true → k.submitBusy = true → k.submitPhase = 2#2 →
      exec .flashWriteDone s = .next { s with dev := { s.dev with sec := ended { k with flash := k.flashNew, flashNew := [] } Config.ok } }) ∧
    (k.submitBusy = false → exec (.imageBoot l) s = .next s ∧ exec (.imageWriteFlash l) s = .next s ∧ exec .flashWriteDone s = .next s)

/-! ### The management bus -/

/-- A register message with a field out of range answers ERR_BAD_FIELD, and outside a session ERR_NO_PERMISSION, and neither changes a register; in a
session a read returns its registers in order, and a write does what its role allows (R394, R395). KEY_EXCHANGE opens a session with a number of its own,
which serves once FINISH has ended its handshake with the role of the requester's key; END_SESSION closes it (R406). -/
def Obligations.SessionsAndMessages : Prop :=
  ∀ (w : Writer) (m : RegMessage) (slot : Fin 8) (id : Nat) (hash : Option (BitVec 256)) (chain : Bool) (s : State), s.dev.pins.powered = true →
    let answer (d : Dev) (code : Nat) (l : List Nat) : Host.Outcome State Fault Refusal := .next { s with dev := d.respond code l }
    let ss := s.dev.mgmt.sessions
    let withSessions (l : List Session) (n : Nat) : Dev := { s.dev with mgmt := { s.dev.mgmt with sessions := l, nextSession := n } }
    (messageFits m 32 = false → exec (.registerReadMessage w m) s = answer s.dev Config.badField []) ∧
    (messageFits m 32 = true → s.dev.inSession w = false → exec (.registerReadMessage w m) s = answer s.dev Config.noPermission []) ∧
    (messageFits m 32 = true → s.dev.inSession w = true → ∃ d l, exec (.registerReadMessage w m) s = answer d Config.ok l ∧ l.length = m.count ∧
      (l, d) = Dev.readMany s.env m.func m.count m.offset s.dev) ∧
    (messageFits m 1 = false → exec (.registerWriteMessage w m) s = answer s.dev Config.badField []) ∧
    (messageFits m 1 = true → s.dev.mgmtStatus w m.offset ≠ Config.ok → m.offset ≠ 0x800050 →
      exec (.registerWriteMessage w m) s = answer s.dev (s.dev.mgmtStatus w m.offset) []) ∧
    (messageFits m 1 = true → s.dev.mgmtStatus w m.offset = Config.ok → s.dev.sec.recovery = false →
      exec (.registerWriteMessage w m) s = .next ((s.writeReg 0 m.offset m.value.toNat true true).onDev fun _ d => d.respond Config.ok [])) ∧
    (slot.val ≤ 1 → exec (.spdmKeyExchange slot) s = answer (withSessions
      (ss ++ [{ id := s.dev.mgmt.nextSession, role := 0, slot := none, finished := false, abauzor := false }]) (s.dev.mgmt.nextSession + 1))
      0 [s.dev.mgmt.nextSession]) ∧
    (2 ≤ slot.val → exec (.spdmKeyExchange slot) s = answer s.dev 1 []) ∧
    ((ss.any fun x => x.id = id && !x.finished) = true → exec (.spdmFinish id hash chain) s = answer (withSessions
      (ss.map fun x => if x.id = id then x.finish s.dev.sec hash chain else x) s.dev.mgmt.nextSession) 0 []) ∧
    ((ss.any fun x => x.id = id && !x.finished) = false → exec (.spdmFinish id hash chain) s = answer s.dev 1 []) ∧
    (∀ x, s.dev.session id = some x → exec (.spdmHeartbeat id) s = answer s.dev 0 []) ∧
    (s.dev.session id = none → exec (.spdmHeartbeat id) s = answer s.dev 1 []) ∧
    ((ss.any fun x => x.id = id) = true →
      exec (.spdmEndSession id) s = answer (withSessions (ss.filter fun x => x.id ≠ id) s.dev.mgmt.nextSession) 0 []) ∧
    ((ss.any fun x => x.id = id) = false → exec (.spdmEndSession id) s = answer s.dev 1 [])

/-- A reading of a numeric or state sensor and of an effecter returns its register field; an effecter takes a value in its range from a writer that may
write it, and answers a code of PLDM else; the event poll returns the oldest event and drops it (R350, R393; the formats and codes of PLDM: log entry 16,
PRESUMED). -/
def Obligations.PldmAnswers : Prop :=
  ∀ (w : Writer) (record : Word) (id : Half) (value : Word) (s : State), s.dev.pins.powered = true →
    let answer (d : Dev) (code : Nat) (l : List Nat) : Host.Outcome State Fault Refusal := .next { s with dev := d.respond code l }
    let n := id.toNat
    exec .getPdrRepositoryInfo s = answer s.dev 0 [20] ∧
    (∀ k, pldmIds[record.toNat - 1]? = some k → exec (.getPdr record) s = .next { s with dev := (s.dev.respond 0 [k]).emit (.bytes (Config.pdrRecord k)) }) ∧
    (20 < record.toNat → exec (.getPdr record) s = answer s.dev 0x82 []) ∧
    (1 ≤ n → n ≤ 4 → exec (.getSensorReading id) s = answer s.dev 0 [bitsAt s.dev.pwr.input.toNat (16 * (n - 1)) 16]) ∧
    (5 ≤ n → n ≤ 10 → exec (.getSensorReading id) s = answer s.dev 0 [bitsAt (pwrTemp s.dev.pwr) (10 * (n - 5)) 10]) ∧
    (n = 11 → exec (.getSensorReading id) s = answer s.dev 0 [s.dev.pwr.energy % 2 ^ 64]) ∧
    (n = 0 ∨ 11 < n → exec (.getSensorReading id) s = answer s.dev 0x80 []) ∧
    (n = 0x20 → exec (.getStateSensorReadings id) s = answer s.dev 0 [s.dev.ras.st.code]) ∧
    (n = 0x21 → exec (.getStateSensorReadings id) s = answer s.dev 0 [bitsAt (pwrStatus s.fuse s.dev) 0 12]) ∧
    (n ≠ 0x20 → n ≠ 0x21 → exec (.getStateSensorReadings id) s = answer s.dev 0x80 []) ∧
    (0x100 ≤ n → n ≤ 0x106 → exec (.getNumericEffecterValue id) s = answer s.dev 0 [effecterValue s.dev.pwr n]) ∧
    (n < 0x100 ∨ 0x106 < n → exec (.getNumericEffecterValue id) s = answer s.dev 0x80 [] ∧ exec (.setNumericEffecterValue w id value) s = answer s.dev 0x80 []) ∧
    (0x100 ≤ n → n ≤ 0x106 → effecterFits s.fuse s.dev.pwr n value.toNat = false → exec (.setNumericEffecterValue w id value) s = answer s.dev 2 []) ∧
    (0x100 ≤ n → n ≤ 0x106 → effecterFits s.fuse s.dev.pwr n value.toNat = true → s.dev.mgmtStatus w (effecterWrite n value.toNat).1 ≠ Config.ok →
      exec (.setNumericEffecterValue w id value) s = answer s.dev 1 []) ∧
    (0x100 ≤ n → n ≤ 0x106 → effecterFits s.fuse s.dev.pwr n value.toNat = true → s.dev.mgmtStatus w (effecterWrite n value.toNat).1 = Config.ok →
      s.dev.ras.st = .running → n ≠ 0x106 → s.dev.pwr.brakeW ≠ 0 → ∃ t, exec (.setNumericEffecterValue w id value) s = .next t ∧ effecterValue t.dev.pwr n = value.toNat ∧
        t.dev = { s.dev with pwr := t.dev.pwr, out := s.dev.out ++ [.response 0 []] } ∧
        (∀ k, 0x100 ≤ k → k ≤ 0x106 → k ≠ n → effecterValue t.dev.pwr k = effecterValue s.dev.pwr k)) ∧
    (s.dev.mgmt.events = [] → exec .pollForPlatformEventMessage s = answer s.dev 0 []) ∧
    (∀ x l, s.dev.mgmt.events = x :: l → exec .pollForPlatformEventMessage s = .next (s.onDev fun _ d =>
      (({ d with mgmt := { d.mgmt with events := l } } : Dev).respond 0 [0xF0]).emit (.bytes (toBytes 32 x.toNat)))) ∧
    exec .pldmBaseDiscovery s = answer s.dev 0 [5, 62, 2 ^ 0x0B + 2 ^ 0x11 + 2 ^ 0x21 + 2 ^ 0x31 + 2 ^ 0x32, 2 ^ 16 + 2 ^ 17]

/-- MCTP control gives the endpoint's identity and takes an endpoint ID that is neither 0 nor 0xFF; I3C gives and takes the dynamic address and the
message lengths, and the target answers only at an address; SPDM gives its versions, capabilities, algorithms, certificate chains and digests, and signs
over the requester's nonce what a challenge or a measurement answers (R392, R405, R406; the formats and codes of the standards: log entry 16,
PRESUMED). -/
def Obligations.EndpointAnswers : Prop :=
  ∀ (a : BitVec 7) (eid sel typ index : Byte) (len : Half) (slot : Fin 8) (nonce : BitVec 256) (s : State), s.dev.pins.powered = true →
    let answer (code : Nat) (l : List Nat) : Host.Outcome State Fault Refusal := .next { s with dev := s.dev.respond code l }
    let bytes (l : List Byte) : Host.Outcome State Fault Refusal := .next { s with dev := s.dev.emit (.bytes l) }
    let mgmt (m : Mgmt) : State := { s with dev := { s.dev with mgmt := m } }
    let m := s.dev.mgmt
    (eid ≠ 0#8 → eid ≠ 0xFF#8 → exec (.setEndpointId eid) s = .next { s with dev := (mgmt { m with eid := eid }).dev.respond 0 [eid.toNat] }) ∧
    (eid = 0#8 ∨ eid = 0xFF#8 → exec (.setEndpointId eid) s = answer 2 []) ∧
    exec .getEndpointId s = answer 0 [m.eid.toNat] ∧ exec .getMessageTypeSupport s = answer 0 [1, 5, 6, 0x7E] ∧
    (typ.toNat ∈ [0xFF, 0, 1, 5, 6, 0x7E] → exec (.getMctpVersionSupport typ) s =
      .next { s with dev := (s.dev.respond 0 []).emit (.bytes (Config.mctpVersions typ.toNat)) }) ∧
    (typ.toNat ∉ [0xFF, 0, 1, 5, 6, 0x7E] → exec (.getMctpVersionSupport typ) s = answer 0x80 []) ∧
    (sel = 0#8 → exec (.getVendorDefinedMessageSupport sel) s = answer 0 [0xFF, 0, Config.vendorId.toNat]) ∧
    (sel ≠ 0#8 → exec (.getVendorDefinedMessageSupport sel) s = answer 2 []) ∧
    (m.dynAddr = 0#7 → exec (.entdaa a) s = .next ((mgmt { m with dynAddr := a }).onDev fun _ d => d.emit
      (.bytes (toBytes 6 (Config.i3cPid s.fuse.deviceId).toNat ++ [Config.i3cBcr, Config.i3cDcr])))) ∧
    (m.dynAddr ≠ 0#7 → exec (.entdaa a) s = .next s ∧ exec (.setnewda a) s = .next (mgmt { m with dynAddr := a }) ∧
      exec .getpid s = bytes (toBytes 6 (Config.i3cPid s.fuse.deviceId).toNat) ∧ exec .getbcr s = bytes [Config.i3cBcr] ∧
      exec .getdcr s = bytes [Config.i3cDcr] ∧ exec .getmrl s = bytes (toBytes 2 m.mrl.toNat) ∧ exec .getmwl s = bytes (toBytes 2 m.mwl.toNat)) ∧
    (m.dynAddr = 0#7 → exec (.setnewda a) s = .next s ∧ exec .getpid s = .next s) ∧
    exec .rstdaa s = .next (mgmt { m with dynAddr := 0#7 }) ∧ exec (.setmrl len) s = .next (mgmt { m with mrl := len }) ∧
    exec (.setmwl len) s = .next (mgmt { m with mwl := len }) ∧ exec .spdmGetVersion s = answer 0 [0x12, 0x13] ∧
    exec .spdmGetCapabilities s = answer 0 [2 ^ 1 + 2 ^ 2 + 2 ^ 4 + 2 ^ 6 + 2 ^ 7 + 2 ^ 8 + 2 ^ 9 + 2 ^ 13] ∧
    exec .spdmNegotiateAlgorithms s = answer 0 [0xC, 1, 2, 0x10, 2, 8] ∧
    exec .spdmGetDigests s = .next (s.onDev fun _ d => (d.respond 0 [3]).emit
      (.bytes (sha256Bytes (Config.certChain s.fuse.deviceId 0) ++ sha256Bytes (Config.certChain s.fuse.deviceId 1)))) ∧
    (slot.val ≤ 1 → exec (.spdmGetCertificate slot) s =
      .next { s with dev := (s.dev.respond 0 [slot.val]).emit (.bytes (Config.certChain s.fuse.deviceId slot.val)) }) ∧
    (slot.val ≤ 1 → ∃ x : BitVec 256, exec (.spdmChallenge slot nonce) s = .next (s.onDev fun e d =>
      let digest := sha256Bytes (Config.certChain e.fuse.deviceId slot.val)
      ({ d with freeCount := d.freeCount + 1 } : Dev).respond 0 [slot.val] |>.emit (.bytes (digest ++ toBytes 32 x.toNat
        ++ Config.deviceSign e.fuse.deviceId (toBytes 32 nonce.toNat ++ (digest ++ toBytes 32 x.toNat)))))) ∧
    (2 ≤ slot.val → exec (.spdmGetCertificate slot) s = answer 1 [] ∧ exec (.spdmChallenge slot nonce) s = answer 1 []) ∧
    (index = 0#8 → exec (.spdmGetMeasurements index nonce) s = .next { s with dev := (s.dev.respond 0 [8]).sign s.env nonce [] }) ∧
    (1 ≤ index.toNat → index.toNat ≤ 8 → exec (.spdmGetMeasurements index nonce) s = .next (s.onDev fun e d =>
      ((Dev.measureAll e [index.toNat] d).2.respond 0 [1]).sign e nonce (Dev.measureAll e [index.toNat] d).1)) ∧
    (8 < index.toNat → index ≠ 0xFF#8 → exec (.spdmGetMeasurements index nonce) s = answer 1 [])
end

