-- ==== Sys2Proof/Laws/Memory.lean ====
section
/-!
SUPPORT. Memories: reading after writing, and that every operation keeps the canonical form.
-/
namespace Sys2Proof.Machine

/-! ### Reading after writing -/

theorem Memory.get_put_same (m : Memory) (a : Nat) (b : Byte) (h : m.wf = true) : (m.put a b).get a = b := by
  induction m with
  | nil => by_cases e : b = 0#8 <;> simp [Memory.put, Memory.get, e]
  | cons x t ih =>
    obtain ⟨y, v⟩ := x
    have ht : Memory.wf t = true := by cases t <;> simp_all [Memory.wf]
    have hy : ∀ z, Memory.get t z ≠ 0#8 → y < z := by
      intro z hz
      clear ih
      induction t generalizing y v with
      | nil => simp [Memory.get] at hz
      | cons w t iht =>
        obtain ⟨w1, w2⟩ := w
        simp only [Memory.wf, Bool.and_eq_true, decide_eq_true_eq] at h
        simp only [Memory.get] at hz
        split at hz
        · rename_i e; subst e; exact h.1.2
        · exact lt_trans h.1.2 (iht w1 w2 h.2 (by cases t <;> simp_all [Memory.wf]) hz)
    simp only [Memory.put]
    split
    · rename_i hlt
      split
      · rename_i e
        simp only [Memory.get, e]
        split
        · rename_i e'; omega
        · by_contra hne
          have := hy a hne
          omega
      · simp [Memory.get]
    · split
      · rename_i e
        subst e
        split
        · rename_i e'
          rw [e']
          by_contra hne
          exact absurd (hy a hne) (lt_irrefl a)
        · simp [Memory.get]
      · rename_i h1 h2
        simp only [Memory.get, Ne.symm h2, if_false]
        exact ih ht

theorem Memory.get_put_other (m : Memory) {a a' : Nat} (h : a' ≠ a) (b : Byte) : (m.put a b).get a' = m.get a' := by
  induction m with
  | nil => by_cases e : b = 0#8 <;> simp [Memory.put, Memory.get, e, Ne.symm h]
  | cons x t ih =>
    obtain ⟨y, v⟩ := x
    simp only [Memory.put]
    split
    · split <;> simp [Memory.get, Ne.symm h]
    · split
      · rename_i e
        subst e
        split <;> simp [Memory.get, Ne.symm h]
      · simp only [Memory.get, ih]

/-! ### The canonical form -/

/-- The least address that a memory lists is at least `a`. -/
def Memory.from (a : Nat) (m : Memory) : Prop := ∀ c ∈ m, a ≤ c.1

theorem Memory.wf_cons (c : Host.Cell) (m : Memory) : Memory.wf (c :: m) = true ↔ c.2 ≠ 0#8 ∧ Memory.from (c.1 + 1) m ∧ m.wf = true := by
  induction m generalizing c with
  | nil => simp [Memory.wf, Memory.from]
  | cons d m ih =>
    rw [Memory.wf]
    simp only [Bool.and_eq_true, decide_eq_true_eq]
    constructor
    · rintro ⟨⟨h1, h2⟩, h3⟩
      refine ⟨h1, ?_, h3⟩
      have := (ih d).1 h3
      intro x hx
      rcases List.mem_cons.1 hx with rfl | hx
      · exact h2
      · have := this.2.1 x hx; omega
    · rintro ⟨h1, h2, h3⟩
      exact ⟨⟨h1, h2 d (by simp)⟩, h3⟩

theorem Memory.from_put (m : Memory) (l a : Nat) (b : Byte) (h : Memory.from l m) (ha : l ≤ a) : Memory.from l (m.put a b) := by
  induction m with
  | nil => by_cases e : b = 0#8 <;> simp [Memory.put, e, Memory.from, ha]
  | cons x t ih =>
    obtain ⟨y, v⟩ := x
    have hy : l ≤ y := h (y, v) (by simp)
    have ht : Memory.from l t := fun c hc => h c (by simp [hc])
    simp only [Memory.put]
    split
    · split
      · exact h
      · intro c hc
        rcases List.mem_cons.1 hc with rfl | hc
        · exact ha
        · exact h c hc
    · split
      · split
        · exact ht
        · intro c hc
          rcases List.mem_cons.1 hc with rfl | hc
          · exact ha
          · exact ht c hc
      · intro c hc
        rcases List.mem_cons.1 hc with rfl | hc
        · exact hy
        · exact ih ht c hc

theorem Memory.wf_put (m : Memory) (a : Nat) (b : Byte) (h : m.wf = true) : (m.put a b).wf = true := by
  induction m with
  | nil => by_cases e : b = 0#8 <;> simp [Memory.put, Memory.wf, e]
  | cons x t ih =>
    obtain ⟨y, v⟩ := x
    have h' := (Memory.wf_cons _ _).1 h
    simp only [Memory.put]
    split
    · rename_i hlt
      split
      · exact h
      · rename_i hb
        refine (Memory.wf_cons _ _).2 ⟨hb, ?_, h⟩
        intro c hc
        rcases List.mem_cons.1 hc with rfl | hc
        · exact hlt
        · have := h'.2.1 c hc; simp only at this ⊢; omega
    · split
      · rename_i e
        subst e
        split
        · exact h'.2.2
        · rename_i hb; exact (Memory.wf_cons _ _).2 ⟨hb, h'.2.1, h'.2.2⟩
      · rename_i h1 h2
        exact (Memory.wf_cons _ _).2 ⟨h'.1, Memory.from_put _ _ _ _ h'.2.1 (by simp only; omega), ih h'.2.2⟩

theorem Memory.wf_write (l : List Byte) (m : Memory) (a : Nat) (h : m.wf = true) : (m.write a l).wf = true := by
  induction l generalizing m a with
  | nil => exact h
  | cons b t ih => exact ih _ _ (Memory.wf_put m a b h)

theorem Memory.wf_filter (p : Host.Cell → Bool) (m : Memory) (h : m.wf = true) : Memory.wf (m.filter p) = true := by
  induction m with
  | nil => exact h
  | cons c t ih =>
    have h' := (Memory.wf_cons _ _).1 h
    by_cases hp : p c = true
    · simp only [List.filter_cons, hp, if_true]
      exact (Memory.wf_cons _ _).2 ⟨h'.1, fun x hx => h'.2.1 x (List.mem_of_mem_filter hx), ih h'.2.2⟩
    · simp only [List.filter_cons, hp]
      exact ih h'.2.2

theorem Memory.wf_clear (m : Memory) (a n : Nat) (h : m.wf = true) : (m.clear a n).wf = true := Memory.wf_filter _ m h

theorem Memory.wf_putCells (l : List Host.Cell) (m : Memory) (a : Nat) (h : m.wf = true) : (m.putCells a l).wf = true := by
  induction l generalizing m with
  | nil => exact h
  | cons c t ih => exact ih _ (Memory.wf_put m _ _ h)

theorem Memory.wf_copy (m : Memory) (src dst n : Nat) (h : m.wf = true) : (m.copy src dst n).wf = true :=
  Memory.wf_putCells _ _ _ (Memory.wf_clear m dst n h)

/-! ### Writes of more than a byte -/

theorem Memory.get_write_other (l : List Byte) (m : Memory) (a x : Nat) (h : x < a ∨ a + l.length ≤ x) : (m.write a l).get x = m.get x := by
  induction l generalizing m a with
  | nil => rfl
  | cons b t ih =>
    simp only [List.length_cons] at h
    have h1 : x ≠ a := by omega
    rw [Memory.write, ih (m.put a b) (a + 1) (by omega), Memory.get_put_other m h1]

theorem Memory.get_write_same (l : List Byte) (m : Memory) (a i : Nat) (h : m.wf = true) (hi : i < l.length) :
    (m.write a l).get (a + i) = l[i] := by
  induction l generalizing m a i with
  | nil => simp at hi
  | cons b t ih =>
    rw [Memory.write]
    cases i with
    | zero => rw [Memory.get_write_other t _ _ _ (by omega)]; simpa using Memory.get_put_same m a b h
    | succ i =>
      have := ih (m.put a b) (a + 1) i (Memory.wf_put m a b h) (by simpa using hi)
      rw [show a + (i + 1) = a + 1 + i by omega, this]
      simp

end Sys2Proof.Machine
end

