-- ==== Sys2Proof/Laws/Tab.lean ====
section
/-!
SUPPORT. Sparse tables: reading after writing and after erasing. The laws hold of every list, sorted or not.
-/
namespace Sys2Proof

@[simp] theorem Tab.get_nil {α : Type} (d : α) (k : Nat) : Tab.get d k [] = d := rfl

@[simp] theorem Tab.get_put_same {α : Type} (d : α) (k : Nat) (v : α) (t : Tab α) : Tab.get d k (Tab.put k v t) = v := by
  induction t with
  | nil => simp [Tab.put, Tab.get]
  | cons x t ih =>
    obtain ⟨j, w⟩ := x
    simp only [Tab.put]
    split
    · simp [Tab.get]
    · split
      · simp [Tab.get]
      · rename_i h; simp [Tab.get, Ne.symm h, ih]

theorem Tab.get_put_other {α : Type} (d : α) {k k' : Nat} (h : k' ≠ k) (v : α) (t : Tab α) :
    Tab.get d k' (Tab.put k v t) = Tab.get d k' t := by
  induction t with
  | nil => simp [Tab.put, Tab.get, Ne.symm h]
  | cons x t ih =>
    obtain ⟨j, w⟩ := x
    simp only [Tab.put]
    split
    · simp [Tab.get, Ne.symm h]
    · split
      · rename_i e; subst e; simp [Tab.get, Ne.symm h]
      · simp only [Tab.get, ih]

/-- Reading after keeping the entries whose index `p` allows. -/
theorem Tab.get_filter {α : Type} (d : α) (k : Nat) (p : Nat → Bool) (t : Tab α) :
    Tab.get d k (t.filter fun x => p x.1) = if p k then Tab.get d k t else d := by
  induction t with
  | nil => simp [Tab.get]
  | cons x t ih =>
    obtain ⟨j, w⟩ := x
    by_cases hj : p j = true
    · simp only [List.filter_cons, hj, if_true, Tab.get, ih]
      by_cases e : j = k
      · subst e; simp [hj]
      · simp [e]
    · simp only [Bool.not_eq_true] at hj
      by_cases e : j = k
      · subst e; simp [hj, ih]
      · simp [hj, Tab.get, ih, e]

@[simp] theorem Tab.get_erase_same {α : Type} (d : α) (k : Nat) (t : Tab α) : Tab.get d k (Tab.erase k t) = d := by
  have := Tab.get_filter d k (fun j => decide (j ≠ k)) t
  simpa [Tab.erase] using this

theorem Tab.get_erase_other {α : Type} (d : α) {k k' : Nat} (h : k' ≠ k) (t : Tab α) :
    Tab.get d k' (Tab.erase k t) = Tab.get d k' t := by
  have := Tab.get_filter d k' (fun j => decide (j ≠ k)) t
  simpa [Tab.erase, h] using this

@[simp] theorem Tab.get_set_same {α : Type} [DecidableEq α] (d : α) (k : Nat) (v : α) (t : Tab α) : Tab.get d k (Tab.set d k v t) = v := by
  unfold Tab.set; split
  · rename_i h; rw [Tab.get_erase_same, h]
  · exact Tab.get_put_same ..

theorem Tab.get_set_other {α : Type} [DecidableEq α] (d : α) {k k' : Nat} (h : k' ≠ k) (v : α) (t : Tab α) :
    Tab.get d k' (Tab.set d k v t) = Tab.get d k' t := by
  unfold Tab.set; split
  · exact Tab.get_erase_other d h t
  · exact Tab.get_put_other d h v t

/-- Reading after a map of a table's values. -/
theorem Tab.get_map {α : Type} (d : α) (k : Nat) (g : Nat → α → α) (t : Tab α) (h : (∀ x ∈ t, x.1 ≠ k) → g k d = d) :
    Tab.get d k (t.map fun x => (x.1, g x.1 x.2)) = g k (Tab.get d k t) := by
  induction t with
  | nil => exact (h (by simp)).symm
  | cons x t ih =>
    obtain ⟨j, w⟩ := x
    by_cases e : j = k
    · subst e; simp [Tab.get]
    · simp only [List.map_cons, Tab.get, if_neg e]
      exact ih fun g => h fun y hy => (List.mem_cons.1 hy).elim (fun r => r ▸ e) (g y)

/-- Reading a table of two parts, the first of which does not list the index. -/
theorem Tab.get_append {α : Type} (d : α) (k : Nat) (t u : Tab α) (h : ∀ x ∈ t, x.1 ≠ k) : Tab.get d k (t ++ u) = Tab.get d k u := by
  induction t with
  | nil => rfl
  | cons x t ih =>
    obtain ⟨j, w⟩ := x
    have hj : j ≠ k := h (j, w) (by simp)
    simp only [List.cons_append, Tab.get, hj, if_false]
    exact ih fun y hy => h y (by simp [hy])

/-- An index that no entry has reads as the default. -/
theorem Tab.get_absent {α : Type} (d : α) (k : Nat) (t : Tab α) (h : ∀ x ∈ t, x.1 ≠ k) : Tab.get d k t = d := by
  have := Tab.get_append d k t [] h
  simpa using this

end Sys2Proof
end

