-- ==== Sys2Proof/Laws/State.lean ====
section
/-!
SUPPORT. One law for each field and each update of the state: what an update leaves alone, and what a unit reads as after it was written.
-/
namespace Sys2Proof.Machine

/-! ### State -/

@[simp] theorem State.onDev_fuse (s : State) (f : Env → Dev → Dev) : (s.onDev f).fuse = s.fuse := rfl
@[simp] theorem State.onDev_kf (s : State) (f : Env → Dev → Dev) : (s.onDev f).kf = s.kf := rfl
@[simp] theorem State.onDev_time (s : State) (f : Env → Dev → Dev) : (s.onDev f).time = s.time := rfl
@[simp] theorem State.onDev_pending (s : State) (f : Env → Dev → Dev) : (s.onDev f).pending = s.pending := rfl
@[simp] theorem State.timeTo_fuse (s : State) (t : Nat) : (s.timeTo t).fuse = s.fuse := rfl
@[simp] theorem State.timeTo_kf (s : State) (t : Nat) : (s.timeTo t).kf = s.kf := rfl
@[simp] theorem State.timeTo_dev (s : State) (t : Nat) : (s.timeTo t).dev = s.dev := rfl
@[simp] theorem State.timeTo_pending (s : State) (t : Nat) : (s.timeTo t).pending = s.pending := rfl
@[simp] theorem State.onDev_dev (s : State) (f : Env → Dev → Dev) : (s.onDev f).dev = f s.env s.dev := rfl
@[simp] theorem State.timeTo_time (s : State) (t : Nat) : (s.timeTo t).time = BitVec.ofNat 64 (max s.time.toNat t) := rfl
@[simp] theorem State.tick_fuse (s : State) : s.tick.fuse = s.fuse := by unfold State.tick; split <;> rfl
@[simp] theorem State.tick_kf (s : State) : s.tick.kf = s.kf := by unfold State.tick; split <;> rfl
theorem State.tick_dev (s : State) : s.tick.dev = if s.dev.pins.powered then s.dev.countCores 1 else s.dev := by unfold State.tick; split <;> rfl
@[simp] theorem State.passTo_fuse (s : State) (t : Nat) : (s.passTo t).fuse = s.fuse := rfl
@[simp] theorem State.passTo_kf (s : State) (t : Nat) : (s.passTo t).kf = s.kf := rfl
@[simp] theorem State.passTo_pending (s : State) (t : Nat) : (s.passTo t).pending = s.pending := rfl
@[simp] theorem State.passTo_time (s : State) (t : Nat) : (s.passTo t).time = BitVec.ofNat 64 (max s.time.toNat t) := rfl
/-- The watchdogs of the cores alone count while time passes. -/
theorem Dev.countCores_rest (d : Dev) (n : Nat) : d.countCores n = { d with cores := (d.countCores n).cores } := rfl
theorem State.passTo_dev_rest (s : State) (t : Nat) : (s.passTo t).dev = { s.dev with cores := (s.passTo t).dev.cores } := rfl
@[simp] theorem State.tick_pending (s : State) : s.tick.pending = s.pending := by unfold State.tick; split <;> rfl
@[simp] theorem State.env_fuse (s : State) : s.env.fuse = s.fuse := rfl
@[simp] theorem State.env_kf (s : State) : s.env.kf = s.kf := rfl
@[simp] theorem State.env_now (s : State) : s.env.now = s.time.toNat := rfl

/-! ### The device -/

@[simp] theorem Dev.setCore_routes (d : Dev) (cl ph : Nat) (x : Core) : (d.setCore cl ph x).routes = d.routes := rfl
@[simp] theorem Dev.setCore_flights (d : Dev) (cl ph : Nat) (x : Core) : (d.setCore cl ph x).flights = d.flights := rfl
@[simp] theorem Dev.setCore_creditMsgs (d : Dev) (cl ph : Nat) (x : Core) : (d.setCore cl ph x).creditMsgs = d.creditMsgs := rfl
@[simp] theorem Dev.setCore_pairs (d : Dev) (cl ph : Nat) (x : Core) : (d.setCore cl ph x).pairs = d.pairs := rfl
@[simp] theorem Dev.setCore_spans (d : Dev) (cl ph : Nat) (x : Core) : (d.setCore cl ph x).spans = d.spans := rfl
@[simp] theorem Dev.setCore_disps (d : Dev) (cl ph : Nat) (x : Core) : (d.setCore cl ph x).disps = d.disps := rfl
@[simp] theorem Dev.setCore_defaultDeadline (d : Dev) (cl ph : Nat) (x : Core) : (d.setCore cl ph x).defaultDeadline = d.defaultDeadline := rfl
@[simp] theorem Dev.setCore_events (d : Dev) (cl ph : Nat) (x : Core) : (d.setCore cl ph x).events = d.events := rfl
@[simp] theorem Dev.setCore_groups (d : Dev) (cl ph : Nat) (x : Core) : (d.setCore cl ph x).groups = d.groups := rfl
@[simp] theorem Dev.setCore_opens (d : Dev) (cl ph : Nat) (x : Core) : (d.setCore cl ph x).opens = d.opens := rfl
@[simp] theorem Dev.setCore_nextUid (d : Dev) (cl ph : Nat) (x : Core) : (d.setCore cl ph x).nextUid = d.nextUid := rfl
@[simp] theorem Dev.setCore_longs (d : Dev) (cl ph : Nat) (x : Core) : (d.setCore cl ph x).longs = d.longs := rfl
@[simp] theorem Dev.setCore_blk (d : Dev) (cl ph : Nat) (x : Core) : (d.setCore cl ph x).blk = d.blk := rfl
@[simp] theorem Dev.setCore_btr (d : Dev) (cl ph : Nat) (x : Core) : (d.setCore cl ph x).btr = d.btr := rfl
@[simp] theorem Dev.setCore_arb (d : Dev) (cl ph : Nat) (x : Core) : (d.setCore cl ph x).arb = d.arb := rfl
@[simp] theorem Dev.setCore_vers (d : Dev) (cl ph : Nat) (x : Core) : (d.setCore cl ph x).vers = d.vers := rfl
@[simp] theorem Dev.setCore_seqs (d : Dev) (cl ph : Nat) (x : Core) : (d.setCore cl ph x).seqs = d.seqs := rfl
@[simp] theorem Dev.setCore_steps (d : Dev) (cl ph : Nat) (x : Core) : (d.setCore cl ph x).steps = d.steps := rfl
@[simp] theorem Dev.setCore_sch (d : Dev) (cl ph : Nat) (x : Core) : (d.setCore cl ph x).sch = d.sch := rfl
@[simp] theorem Dev.setCore_via (d : Dev) (cl ph : Nat) (x : Core) : (d.setCore cl ph x).via = d.via := rfl
@[simp] theorem Dev.setCore_ras (d : Dev) (cl ph : Nat) (x : Core) : (d.setCore cl ph x).ras = d.ras := rfl
@[simp] theorem Dev.setCore_pins (d : Dev) (cl ph : Nat) (x : Core) : (d.setCore cl ph x).pins = d.pins := rfl
@[simp] theorem Dev.setCore_pwr (d : Dev) (cl ph : Nat) (x : Core) : (d.setCore cl ph x).pwr = d.pwr := rfl
@[simp] theorem Dev.setCore_hif (d : Dev) (cl ph : Nat) (x : Core) : (d.setCore cl ph x).hif = d.hif := rfl
@[simp] theorem Dev.setCore_sec (d : Dev) (cl ph : Nat) (x : Core) : (d.setCore cl ph x).sec = d.sec := rfl
@[simp] theorem Dev.setCore_mgmt (d : Dev) (cl ph : Nat) (x : Core) : (d.setCore cl ph x).mgmt = d.mgmt := rfl
@[simp] theorem Dev.setCore_out (d : Dev) (cl ph : Nat) (x : Core) : (d.setCore cl ph x).out = d.out := rfl
@[simp] theorem Dev.setCore_freeCount (d : Dev) (cl ph : Nat) (x : Core) : (d.setCore cl ph x).freeCount = d.freeCount := rfl
@[simp] theorem Dev.setEng_routes (d : Dev) (cl ph n : Nat) (x : Eng) : (d.setEng cl ph n x).routes = d.routes := rfl
@[simp] theorem Dev.setEng_flights (d : Dev) (cl ph n : Nat) (x : Eng) : (d.setEng cl ph n x).flights = d.flights := rfl
@[simp] theorem Dev.setEng_creditMsgs (d : Dev) (cl ph n : Nat) (x : Eng) : (d.setEng cl ph n x).creditMsgs = d.creditMsgs := rfl
@[simp] theorem Dev.setEng_pairs (d : Dev) (cl ph n : Nat) (x : Eng) : (d.setEng cl ph n x).pairs = d.pairs := rfl
@[simp] theorem Dev.setEng_spans (d : Dev) (cl ph n : Nat) (x : Eng) : (d.setEng cl ph n x).spans = d.spans := rfl
@[simp] theorem Dev.setEng_disps (d : Dev) (cl ph n : Nat) (x : Eng) : (d.setEng cl ph n x).disps = d.disps := rfl
@[simp] theorem Dev.setEng_defaultDeadline (d : Dev) (cl ph n : Nat) (x : Eng) : (d.setEng cl ph n x).defaultDeadline = d.defaultDeadline := rfl
@[simp] theorem Dev.setEng_events (d : Dev) (cl ph n : Nat) (x : Eng) : (d.setEng cl ph n x).events = d.events := rfl
@[simp] theorem Dev.setEng_groups (d : Dev) (cl ph n : Nat) (x : Eng) : (d.setEng cl ph n x).groups = d.groups := rfl
@[simp] theorem Dev.setEng_opens (d : Dev) (cl ph n : Nat) (x : Eng) : (d.setEng cl ph n x).opens = d.opens := rfl
@[simp] theorem Dev.setEng_nextUid (d : Dev) (cl ph n : Nat) (x : Eng) : (d.setEng cl ph n x).nextUid = d.nextUid := rfl
@[simp] theorem Dev.setEng_longs (d : Dev) (cl ph n : Nat) (x : Eng) : (d.setEng cl ph n x).longs = d.longs := rfl
@[simp] theorem Dev.setEng_blk (d : Dev) (cl ph n : Nat) (x : Eng) : (d.setEng cl ph n x).blk = d.blk := rfl
@[simp] theorem Dev.setEng_btr (d : Dev) (cl ph n : Nat) (x : Eng) : (d.setEng cl ph n x).btr = d.btr := rfl
@[simp] theorem Dev.setEng_arb (d : Dev) (cl ph n : Nat) (x : Eng) : (d.setEng cl ph n x).arb = d.arb := rfl
@[simp] theorem Dev.setEng_vers (d : Dev) (cl ph n : Nat) (x : Eng) : (d.setEng cl ph n x).vers = d.vers := rfl
@[simp] theorem Dev.setEng_seqs (d : Dev) (cl ph n : Nat) (x : Eng) : (d.setEng cl ph n x).seqs = d.seqs := rfl
@[simp] theorem Dev.setEng_steps (d : Dev) (cl ph n : Nat) (x : Eng) : (d.setEng cl ph n x).steps = d.steps := rfl
@[simp] theorem Dev.setEng_sch (d : Dev) (cl ph n : Nat) (x : Eng) : (d.setEng cl ph n x).sch = d.sch := rfl
@[simp] theorem Dev.setEng_via (d : Dev) (cl ph n : Nat) (x : Eng) : (d.setEng cl ph n x).via = d.via := rfl
@[simp] theorem Dev.setEng_ras (d : Dev) (cl ph n : Nat) (x : Eng) : (d.setEng cl ph n x).ras = d.ras := rfl
@[simp] theorem Dev.setEng_pins (d : Dev) (cl ph n : Nat) (x : Eng) : (d.setEng cl ph n x).pins = d.pins := rfl
@[simp] theorem Dev.setEng_pwr (d : Dev) (cl ph n : Nat) (x : Eng) : (d.setEng cl ph n x).pwr = d.pwr := rfl
@[simp] theorem Dev.setEng_hif (d : Dev) (cl ph n : Nat) (x : Eng) : (d.setEng cl ph n x).hif = d.hif := rfl
@[simp] theorem Dev.setEng_sec (d : Dev) (cl ph n : Nat) (x : Eng) : (d.setEng cl ph n x).sec = d.sec := rfl
@[simp] theorem Dev.setEng_mgmt (d : Dev) (cl ph n : Nat) (x : Eng) : (d.setEng cl ph n x).mgmt = d.mgmt := rfl
@[simp] theorem Dev.setEng_out (d : Dev) (cl ph n : Nat) (x : Eng) : (d.setEng cl ph n x).out = d.out := rfl
@[simp] theorem Dev.setEng_freeCount (d : Dev) (cl ph n : Nat) (x : Eng) : (d.setEng cl ph n x).freeCount = d.freeCount := rfl
@[simp] theorem Dev.setSpan_cores (d : Dev) (k : Nat) (x : Span) : (d.setSpan k x).cores = d.cores := rfl
@[simp] theorem Dev.setSpan_routes (d : Dev) (k : Nat) (x : Span) : (d.setSpan k x).routes = d.routes := rfl
@[simp] theorem Dev.setSpan_flights (d : Dev) (k : Nat) (x : Span) : (d.setSpan k x).flights = d.flights := rfl
@[simp] theorem Dev.setSpan_creditMsgs (d : Dev) (k : Nat) (x : Span) : (d.setSpan k x).creditMsgs = d.creditMsgs := rfl
@[simp] theorem Dev.setSpan_pairs (d : Dev) (k : Nat) (x : Span) : (d.setSpan k x).pairs = d.pairs := rfl
@[simp] theorem Dev.setSpan_disps (d : Dev) (k : Nat) (x : Span) : (d.setSpan k x).disps = d.disps := rfl
@[simp] theorem Dev.setSpan_defaultDeadline (d : Dev) (k : Nat) (x : Span) : (d.setSpan k x).defaultDeadline = d.defaultDeadline := rfl
@[simp] theorem Dev.setSpan_events (d : Dev) (k : Nat) (x : Span) : (d.setSpan k x).events = d.events := rfl
@[simp] theorem Dev.setSpan_groups (d : Dev) (k : Nat) (x : Span) : (d.setSpan k x).groups = d.groups := rfl
@[simp] theorem Dev.setSpan_opens (d : Dev) (k : Nat) (x : Span) : (d.setSpan k x).opens = d.opens := rfl
@[simp] theorem Dev.setSpan_nextUid (d : Dev) (k : Nat) (x : Span) : (d.setSpan k x).nextUid = d.nextUid := rfl
@[simp] theorem Dev.setSpan_longs (d : Dev) (k : Nat) (x : Span) : (d.setSpan k x).longs = d.longs := rfl
@[simp] theorem Dev.setSpan_blk (d : Dev) (k : Nat) (x : Span) : (d.setSpan k x).blk = d.blk := rfl
@[simp] theorem Dev.setSpan_btr (d : Dev) (k : Nat) (x : Span) : (d.setSpan k x).btr = d.btr := rfl
@[simp] theorem Dev.setSpan_arb (d : Dev) (k : Nat) (x : Span) : (d.setSpan k x).arb = d.arb := rfl
@[simp] theorem Dev.setSpan_vers (d : Dev) (k : Nat) (x : Span) : (d.setSpan k x).vers = d.vers := rfl
@[simp] theorem Dev.setSpan_seqs (d : Dev) (k : Nat) (x : Span) : (d.setSpan k x).seqs = d.seqs := rfl
@[simp] theorem Dev.setSpan_steps (d : Dev) (k : Nat) (x : Span) : (d.setSpan k x).steps = d.steps := rfl
@[simp] theorem Dev.setSpan_sch (d : Dev) (k : Nat) (x : Span) : (d.setSpan k x).sch = d.sch := rfl
@[simp] theorem Dev.setSpan_via (d : Dev) (k : Nat) (x : Span) : (d.setSpan k x).via = d.via := rfl
@[simp] theorem Dev.setSpan_ras (d : Dev) (k : Nat) (x : Span) : (d.setSpan k x).ras = d.ras := rfl
@[simp] theorem Dev.setSpan_pins (d : Dev) (k : Nat) (x : Span) : (d.setSpan k x).pins = d.pins := rfl
@[simp] theorem Dev.setSpan_pwr (d : Dev) (k : Nat) (x : Span) : (d.setSpan k x).pwr = d.pwr := rfl
@[simp] theorem Dev.setSpan_hif (d : Dev) (k : Nat) (x : Span) : (d.setSpan k x).hif = d.hif := rfl
@[simp] theorem Dev.setSpan_sec (d : Dev) (k : Nat) (x : Span) : (d.setSpan k x).sec = d.sec := rfl
@[simp] theorem Dev.setSpan_mgmt (d : Dev) (k : Nat) (x : Span) : (d.setSpan k x).mgmt = d.mgmt := rfl
@[simp] theorem Dev.setSpan_out (d : Dev) (k : Nat) (x : Span) : (d.setSpan k x).out = d.out := rfl
@[simp] theorem Dev.setSpan_freeCount (d : Dev) (k : Nat) (x : Span) : (d.setSpan k x).freeCount = d.freeCount := rfl
@[simp] theorem Dev.setDisp_cores (d : Dev) (c n : Nat) (x : Disp) : (d.setDisp c n x).cores = d.cores := rfl
@[simp] theorem Dev.setDisp_routes (d : Dev) (c n : Nat) (x : Disp) : (d.setDisp c n x).routes = d.routes := rfl
@[simp] theorem Dev.setDisp_flights (d : Dev) (c n : Nat) (x : Disp) : (d.setDisp c n x).flights = d.flights := rfl
@[simp] theorem Dev.setDisp_creditMsgs (d : Dev) (c n : Nat) (x : Disp) : (d.setDisp c n x).creditMsgs = d.creditMsgs := rfl
@[simp] theorem Dev.setDisp_pairs (d : Dev) (c n : Nat) (x : Disp) : (d.setDisp c n x).pairs = d.pairs := rfl
@[simp] theorem Dev.setDisp_spans (d : Dev) (c n : Nat) (x : Disp) : (d.setDisp c n x).spans = d.spans := rfl
@[simp] theorem Dev.setDisp_defaultDeadline (d : Dev) (c n : Nat) (x : Disp) : (d.setDisp c n x).defaultDeadline = d.defaultDeadline := rfl
@[simp] theorem Dev.setDisp_events (d : Dev) (c n : Nat) (x : Disp) : (d.setDisp c n x).events = d.events := rfl
@[simp] theorem Dev.setDisp_groups (d : Dev) (c n : Nat) (x : Disp) : (d.setDisp c n x).groups = d.groups := rfl
@[simp] theorem Dev.setDisp_opens (d : Dev) (c n : Nat) (x : Disp) : (d.setDisp c n x).opens = d.opens := rfl
@[simp] theorem Dev.setDisp_nextUid (d : Dev) (c n : Nat) (x : Disp) : (d.setDisp c n x).nextUid = d.nextUid := rfl
@[simp] theorem Dev.setDisp_longs (d : Dev) (c n : Nat) (x : Disp) : (d.setDisp c n x).longs = d.longs := rfl
@[simp] theorem Dev.setDisp_blk (d : Dev) (c n : Nat) (x : Disp) : (d.setDisp c n x).blk = d.blk := rfl
@[simp] theorem Dev.setDisp_btr (d : Dev) (c n : Nat) (x : Disp) : (d.setDisp c n x).btr = d.btr := rfl
@[simp] theorem Dev.setDisp_arb (d : Dev) (c n : Nat) (x : Disp) : (d.setDisp c n x).arb = d.arb := rfl
@[simp] theorem Dev.setDisp_vers (d : Dev) (c n : Nat) (x : Disp) : (d.setDisp c n x).vers = d.vers := rfl
@[simp] theorem Dev.setDisp_seqs (d : Dev) (c n : Nat) (x : Disp) : (d.setDisp c n x).seqs = d.seqs := rfl
@[simp] theorem Dev.setDisp_steps (d : Dev) (c n : Nat) (x : Disp) : (d.setDisp c n x).steps = d.steps := rfl
@[simp] theorem Dev.setDisp_sch (d : Dev) (c n : Nat) (x : Disp) : (d.setDisp c n x).sch = d.sch := rfl
@[simp] theorem Dev.setDisp_via (d : Dev) (c n : Nat) (x : Disp) : (d.setDisp c n x).via = d.via := rfl
@[simp] theorem Dev.setDisp_ras (d : Dev) (c n : Nat) (x : Disp) : (d.setDisp c n x).ras = d.ras := rfl
@[simp] theorem Dev.setDisp_pins (d : Dev) (c n : Nat) (x : Disp) : (d.setDisp c n x).pins = d.pins := rfl
@[simp] theorem Dev.setDisp_pwr (d : Dev) (c n : Nat) (x : Disp) : (d.setDisp c n x).pwr = d.pwr := rfl
@[simp] theorem Dev.setDisp_hif (d : Dev) (c n : Nat) (x : Disp) : (d.setDisp c n x).hif = d.hif := rfl
@[simp] theorem Dev.setDisp_sec (d : Dev) (c n : Nat) (x : Disp) : (d.setDisp c n x).sec = d.sec := rfl
@[simp] theorem Dev.setDisp_mgmt (d : Dev) (c n : Nat) (x : Disp) : (d.setDisp c n x).mgmt = d.mgmt := rfl
@[simp] theorem Dev.setDisp_out (d : Dev) (c n : Nat) (x : Disp) : (d.setDisp c n x).out = d.out := rfl
@[simp] theorem Dev.setDisp_freeCount (d : Dev) (c n : Nat) (x : Disp) : (d.setDisp c n x).freeCount = d.freeCount := rfl
@[simp] theorem Dev.setQueue_cores (d : Dev) (f q : Nat) (x : Queue) : (d.setQueue f q x).cores = d.cores := rfl
@[simp] theorem Dev.setQueue_routes (d : Dev) (f q : Nat) (x : Queue) : (d.setQueue f q x).routes = d.routes := rfl
@[simp] theorem Dev.setQueue_flights (d : Dev) (f q : Nat) (x : Queue) : (d.setQueue f q x).flights = d.flights := rfl
@[simp] theorem Dev.setQueue_creditMsgs (d : Dev) (f q : Nat) (x : Queue) : (d.setQueue f q x).creditMsgs = d.creditMsgs := rfl
@[simp] theorem Dev.setQueue_pairs (d : Dev) (f q : Nat) (x : Queue) : (d.setQueue f q x).pairs = d.pairs := rfl
@[simp] theorem Dev.setQueue_spans (d : Dev) (f q : Nat) (x : Queue) : (d.setQueue f q x).spans = d.spans := rfl
@[simp] theorem Dev.setQueue_disps (d : Dev) (f q : Nat) (x : Queue) : (d.setQueue f q x).disps = d.disps := rfl
@[simp] theorem Dev.setQueue_defaultDeadline (d : Dev) (f q : Nat) (x : Queue) : (d.setQueue f q x).defaultDeadline = d.defaultDeadline := rfl
@[simp] theorem Dev.setQueue_events (d : Dev) (f q : Nat) (x : Queue) : (d.setQueue f q x).events = d.events := rfl
@[simp] theorem Dev.setQueue_groups (d : Dev) (f q : Nat) (x : Queue) : (d.setQueue f q x).groups = d.groups := rfl
@[simp] theorem Dev.setQueue_opens (d : Dev) (f q : Nat) (x : Queue) : (d.setQueue f q x).opens = d.opens := rfl
@[simp] theorem Dev.setQueue_nextUid (d : Dev) (f q : Nat) (x : Queue) : (d.setQueue f q x).nextUid = d.nextUid := rfl
@[simp] theorem Dev.setQueue_longs (d : Dev) (f q : Nat) (x : Queue) : (d.setQueue f q x).longs = d.longs := rfl
@[simp] theorem Dev.setQueue_blk (d : Dev) (f q : Nat) (x : Queue) : (d.setQueue f q x).blk = d.blk := rfl
@[simp] theorem Dev.setQueue_btr (d : Dev) (f q : Nat) (x : Queue) : (d.setQueue f q x).btr = d.btr := rfl
@[simp] theorem Dev.setQueue_arb (d : Dev) (f q : Nat) (x : Queue) : (d.setQueue f q x).arb = d.arb := rfl
@[simp] theorem Dev.setQueue_vers (d : Dev) (f q : Nat) (x : Queue) : (d.setQueue f q x).vers = d.vers := rfl
@[simp] theorem Dev.setQueue_seqs (d : Dev) (f q : Nat) (x : Queue) : (d.setQueue f q x).seqs = d.seqs := rfl
@[simp] theorem Dev.setQueue_steps (d : Dev) (f q : Nat) (x : Queue) : (d.setQueue f q x).steps = d.steps := rfl
@[simp] theorem Dev.setQueue_sch (d : Dev) (f q : Nat) (x : Queue) : (d.setQueue f q x).sch = d.sch := rfl
@[simp] theorem Dev.setQueue_via (d : Dev) (f q : Nat) (x : Queue) : (d.setQueue f q x).via = d.via := rfl
@[simp] theorem Dev.setQueue_ras (d : Dev) (f q : Nat) (x : Queue) : (d.setQueue f q x).ras = d.ras := rfl
@[simp] theorem Dev.setQueue_pins (d : Dev) (f q : Nat) (x : Queue) : (d.setQueue f q x).pins = d.pins := rfl
@[simp] theorem Dev.setQueue_pwr (d : Dev) (f q : Nat) (x : Queue) : (d.setQueue f q x).pwr = d.pwr := rfl
@[simp] theorem Dev.setQueue_sec (d : Dev) (f q : Nat) (x : Queue) : (d.setQueue f q x).sec = d.sec := rfl
@[simp] theorem Dev.setQueue_mgmt (d : Dev) (f q : Nat) (x : Queue) : (d.setQueue f q x).mgmt = d.mgmt := rfl
@[simp] theorem Dev.setQueue_out (d : Dev) (f q : Nat) (x : Queue) : (d.setQueue f q x).out = d.out := rfl
@[simp] theorem Dev.setQueue_freeCount (d : Dev) (f q : Nat) (x : Queue) : (d.setQueue f q x).freeCount = d.freeCount := rfl
@[simp] theorem Dev.setEvent_cores (d : Dev) (f i : Nat) (x : Quad) : (d.setEvent f i x).cores = d.cores := rfl
@[simp] theorem Dev.setEvent_routes (d : Dev) (f i : Nat) (x : Quad) : (d.setEvent f i x).routes = d.routes := rfl
@[simp] theorem Dev.setEvent_flights (d : Dev) (f i : Nat) (x : Quad) : (d.setEvent f i x).flights = d.flights := rfl
@[simp] theorem Dev.setEvent_creditMsgs (d : Dev) (f i : Nat) (x : Quad) : (d.setEvent f i x).creditMsgs = d.creditMsgs := rfl
@[simp] theorem Dev.setEvent_pairs (d : Dev) (f i : Nat) (x : Quad) : (d.setEvent f i x).pairs = d.pairs := rfl
@[simp] theorem Dev.setEvent_spans (d : Dev) (f i : Nat) (x : Quad) : (d.setEvent f i x).spans = d.spans := rfl
@[simp] theorem Dev.setEvent_disps (d : Dev) (f i : Nat) (x : Quad) : (d.setEvent f i x).disps = d.disps := rfl
@[simp] theorem Dev.setEvent_defaultDeadline (d : Dev) (f i : Nat) (x : Quad) : (d.setEvent f i x).defaultDeadline = d.defaultDeadline := rfl
@[simp] theorem Dev.setEvent_groups (d : Dev) (f i : Nat) (x : Quad) : (d.setEvent f i x).groups = d.groups := rfl
@[simp] theorem Dev.setEvent_opens (d : Dev) (f i : Nat) (x : Quad) : (d.setEvent f i x).opens = d.opens := rfl
@[simp] theorem Dev.setEvent_nextUid (d : Dev) (f i : Nat) (x : Quad) : (d.setEvent f i x).nextUid = d.nextUid := rfl
@[simp] theorem Dev.setEvent_longs (d : Dev) (f i : Nat) (x : Quad) : (d.setEvent f i x).longs = d.longs := rfl
@[simp] theorem Dev.setEvent_blk (d : Dev) (f i : Nat) (x : Quad) : (d.setEvent f i x).blk = d.blk := rfl
@[simp] theorem Dev.setEvent_btr (d : Dev) (f i : Nat) (x : Quad) : (d.setEvent f i x).btr = d.btr := rfl
@[simp] theorem Dev.setEvent_arb (d : Dev) (f i : Nat) (x : Quad) : (d.setEvent f i x).arb = d.arb := rfl
@[simp] theorem Dev.setEvent_vers (d : Dev) (f i : Nat) (x : Quad) : (d.setEvent f i x).vers = d.vers := rfl
@[simp] theorem Dev.setEvent_seqs (d : Dev) (f i : Nat) (x : Quad) : (d.setEvent f i x).seqs = d.seqs := rfl
@[simp] theorem Dev.setEvent_steps (d : Dev) (f i : Nat) (x : Quad) : (d.setEvent f i x).steps = d.steps := rfl
@[simp] theorem Dev.setEvent_sch (d : Dev) (f i : Nat) (x : Quad) : (d.setEvent f i x).sch = d.sch := rfl
@[simp] theorem Dev.setEvent_via (d : Dev) (f i : Nat) (x : Quad) : (d.setEvent f i x).via = d.via := rfl
@[simp] theorem Dev.setEvent_ras (d : Dev) (f i : Nat) (x : Quad) : (d.setEvent f i x).ras = d.ras := rfl
@[simp] theorem Dev.setEvent_pins (d : Dev) (f i : Nat) (x : Quad) : (d.setEvent f i x).pins = d.pins := rfl
@[simp] theorem Dev.setEvent_pwr (d : Dev) (f i : Nat) (x : Quad) : (d.setEvent f i x).pwr = d.pwr := rfl
@[simp] theorem Dev.setEvent_hif (d : Dev) (f i : Nat) (x : Quad) : (d.setEvent f i x).hif = d.hif := rfl
@[simp] theorem Dev.setEvent_sec (d : Dev) (f i : Nat) (x : Quad) : (d.setEvent f i x).sec = d.sec := rfl
@[simp] theorem Dev.setEvent_mgmt (d : Dev) (f i : Nat) (x : Quad) : (d.setEvent f i x).mgmt = d.mgmt := rfl
@[simp] theorem Dev.setEvent_out (d : Dev) (f i : Nat) (x : Quad) : (d.setEvent f i x).out = d.out := rfl
@[simp] theorem Dev.setEvent_freeCount (d : Dev) (f i : Nat) (x : Quad) : (d.setEvent f i x).freeCount = d.freeCount := rfl
@[simp] theorem Dev.setLong_cores (d : Dev) (k : Nat) (x : LongOp) : (d.setLong k x).cores = d.cores := rfl
@[simp] theorem Dev.setLong_routes (d : Dev) (k : Nat) (x : LongOp) : (d.setLong k x).routes = d.routes := rfl
@[simp] theorem Dev.setLong_flights (d : Dev) (k : Nat) (x : LongOp) : (d.setLong k x).flights = d.flights := rfl
@[simp] theorem Dev.setLong_creditMsgs (d : Dev) (k : Nat) (x : LongOp) : (d.setLong k x).creditMsgs = d.creditMsgs := rfl
@[simp] theorem Dev.setLong_pairs (d : Dev) (k : Nat) (x : LongOp) : (d.setLong k x).pairs = d.pairs := rfl
@[simp] theorem Dev.setLong_spans (d : Dev) (k : Nat) (x : LongOp) : (d.setLong k x).spans = d.spans := rfl
@[simp] theorem Dev.setLong_disps (d : Dev) (k : Nat) (x : LongOp) : (d.setLong k x).disps = d.disps := rfl
@[simp] theorem Dev.setLong_defaultDeadline (d : Dev) (k : Nat) (x : LongOp) : (d.setLong k x).defaultDeadline = d.defaultDeadline := rfl
@[simp] theorem Dev.setLong_events (d : Dev) (k : Nat) (x : LongOp) : (d.setLong k x).events = d.events := rfl
@[simp] theorem Dev.setLong_groups (d : Dev) (k : Nat) (x : LongOp) : (d.setLong k x).groups = d.groups := rfl
@[simp] theorem Dev.setLong_opens (d : Dev) (k : Nat) (x : LongOp) : (d.setLong k x).opens = d.opens := rfl
@[simp] theorem Dev.setLong_nextUid (d : Dev) (k : Nat) (x : LongOp) : (d.setLong k x).nextUid = d.nextUid := rfl
@[simp] theorem Dev.setLong_blk (d : Dev) (k : Nat) (x : LongOp) : (d.setLong k x).blk = d.blk := rfl
@[simp] theorem Dev.setLong_btr (d : Dev) (k : Nat) (x : LongOp) : (d.setLong k x).btr = d.btr := rfl
@[simp] theorem Dev.setLong_arb (d : Dev) (k : Nat) (x : LongOp) : (d.setLong k x).arb = d.arb := rfl
@[simp] theorem Dev.setLong_vers (d : Dev) (k : Nat) (x : LongOp) : (d.setLong k x).vers = d.vers := rfl
@[simp] theorem Dev.setLong_seqs (d : Dev) (k : Nat) (x : LongOp) : (d.setLong k x).seqs = d.seqs := rfl
@[simp] theorem Dev.setLong_steps (d : Dev) (k : Nat) (x : LongOp) : (d.setLong k x).steps = d.steps := rfl
@[simp] theorem Dev.setLong_sch (d : Dev) (k : Nat) (x : LongOp) : (d.setLong k x).sch = d.sch := rfl
@[simp] theorem Dev.setLong_via (d : Dev) (k : Nat) (x : LongOp) : (d.setLong k x).via = d.via := rfl
@[simp] theorem Dev.setLong_ras (d : Dev) (k : Nat) (x : LongOp) : (d.setLong k x).ras = d.ras := rfl
@[simp] theorem Dev.setLong_pins (d : Dev) (k : Nat) (x : LongOp) : (d.setLong k x).pins = d.pins := rfl
@[simp] theorem Dev.setLong_pwr (d : Dev) (k : Nat) (x : LongOp) : (d.setLong k x).pwr = d.pwr := rfl
@[simp] theorem Dev.setLong_hif (d : Dev) (k : Nat) (x : LongOp) : (d.setLong k x).hif = d.hif := rfl
@[simp] theorem Dev.setLong_sec (d : Dev) (k : Nat) (x : LongOp) : (d.setLong k x).sec = d.sec := rfl
@[simp] theorem Dev.setLong_mgmt (d : Dev) (k : Nat) (x : LongOp) : (d.setLong k x).mgmt = d.mgmt := rfl
@[simp] theorem Dev.setLong_out (d : Dev) (k : Nat) (x : LongOp) : (d.setLong k x).out = d.out := rfl
@[simp] theorem Dev.setLong_freeCount (d : Dev) (k : Nat) (x : LongOp) : (d.setLong k x).freeCount = d.freeCount := rfl
@[simp] theorem Dev.setVer_cores (d : Dev) (k : Nat) (x : Version) : (d.setVer k x).cores = d.cores := rfl
@[simp] theorem Dev.setVer_routes (d : Dev) (k : Nat) (x : Version) : (d.setVer k x).routes = d.routes := rfl
@[simp] theorem Dev.setVer_flights (d : Dev) (k : Nat) (x : Version) : (d.setVer k x).flights = d.flights := rfl
@[simp] theorem Dev.setVer_creditMsgs (d : Dev) (k : Nat) (x : Version) : (d.setVer k x).creditMsgs = d.creditMsgs := rfl
@[simp] theorem Dev.setVer_pairs (d : Dev) (k : Nat) (x : Version) : (d.setVer k x).pairs = d.pairs := rfl
@[simp] theorem Dev.setVer_spans (d : Dev) (k : Nat) (x : Version) : (d.setVer k x).spans = d.spans := rfl
@[simp] theorem Dev.setVer_disps (d : Dev) (k : Nat) (x : Version) : (d.setVer k x).disps = d.disps := rfl
@[simp] theorem Dev.setVer_defaultDeadline (d : Dev) (k : Nat) (x : Version) : (d.setVer k x).defaultDeadline = d.defaultDeadline := rfl
@[simp] theorem Dev.setVer_events (d : Dev) (k : Nat) (x : Version) : (d.setVer k x).events = d.events := rfl
@[simp] theorem Dev.setVer_groups (d : Dev) (k : Nat) (x : Version) : (d.setVer k x).groups = d.groups := rfl
@[simp] theorem Dev.setVer_opens (d : Dev) (k : Nat) (x : Version) : (d.setVer k x).opens = d.opens := rfl
@[simp] theorem Dev.setVer_nextUid (d : Dev) (k : Nat) (x : Version) : (d.setVer k x).nextUid = d.nextUid := rfl
@[simp] theorem Dev.setVer_longs (d : Dev) (k : Nat) (x : Version) : (d.setVer k x).longs = d.longs := rfl
@[simp] theorem Dev.setVer_blk (d : Dev) (k : Nat) (x : Version) : (d.setVer k x).blk = d.blk := rfl
@[simp] theorem Dev.setVer_btr (d : Dev) (k : Nat) (x : Version) : (d.setVer k x).btr = d.btr := rfl
@[simp] theorem Dev.setVer_arb (d : Dev) (k : Nat) (x : Version) : (d.setVer k x).arb = d.arb := rfl
@[simp] theorem Dev.setVer_seqs (d : Dev) (k : Nat) (x : Version) : (d.setVer k x).seqs = d.seqs := rfl
@[simp] theorem Dev.setVer_steps (d : Dev) (k : Nat) (x : Version) : (d.setVer k x).steps = d.steps := rfl
@[simp] theorem Dev.setVer_sch (d : Dev) (k : Nat) (x : Version) : (d.setVer k x).sch = d.sch := rfl
@[simp] theorem Dev.setVer_via (d : Dev) (k : Nat) (x : Version) : (d.setVer k x).via = d.via := rfl
@[simp] theorem Dev.setVer_ras (d : Dev) (k : Nat) (x : Version) : (d.setVer k x).ras = d.ras := rfl
@[simp] theorem Dev.setVer_pins (d : Dev) (k : Nat) (x : Version) : (d.setVer k x).pins = d.pins := rfl
@[simp] theorem Dev.setVer_pwr (d : Dev) (k : Nat) (x : Version) : (d.setVer k x).pwr = d.pwr := rfl
@[simp] theorem Dev.setVer_hif (d : Dev) (k : Nat) (x : Version) : (d.setVer k x).hif = d.hif := rfl
@[simp] theorem Dev.setVer_sec (d : Dev) (k : Nat) (x : Version) : (d.setVer k x).sec = d.sec := rfl
@[simp] theorem Dev.setVer_mgmt (d : Dev) (k : Nat) (x : Version) : (d.setVer k x).mgmt = d.mgmt := rfl
@[simp] theorem Dev.setVer_out (d : Dev) (k : Nat) (x : Version) : (d.setVer k x).out = d.out := rfl
@[simp] theorem Dev.setVer_freeCount (d : Dev) (k : Nat) (x : Version) : (d.setVer k x).freeCount = d.freeCount := rfl
@[simp] theorem Dev.setSeq_cores (d : Dev) (k : Nat) (x : Seq) : (d.setSeq k x).cores = d.cores := rfl
@[simp] theorem Dev.setSeq_routes (d : Dev) (k : Nat) (x : Seq) : (d.setSeq k x).routes = d.routes := rfl
@[simp] theorem Dev.setSeq_flights (d : Dev) (k : Nat) (x : Seq) : (d.setSeq k x).flights = d.flights := rfl
@[simp] theorem Dev.setSeq_creditMsgs (d : Dev) (k : Nat) (x : Seq) : (d.setSeq k x).creditMsgs = d.creditMsgs := rfl
@[simp] theorem Dev.setSeq_pairs (d : Dev) (k : Nat) (x : Seq) : (d.setSeq k x).pairs = d.pairs := rfl
@[simp] theorem Dev.setSeq_spans (d : Dev) (k : Nat) (x : Seq) : (d.setSeq k x).spans = d.spans := rfl
@[simp] theorem Dev.setSeq_disps (d : Dev) (k : Nat) (x : Seq) : (d.setSeq k x).disps = d.disps := rfl
@[simp] theorem Dev.setSeq_defaultDeadline (d : Dev) (k : Nat) (x : Seq) : (d.setSeq k x).defaultDeadline = d.defaultDeadline := rfl
@[simp] theorem Dev.setSeq_events (d : Dev) (k : Nat) (x : Seq) : (d.setSeq k x).events = d.events := rfl
@[simp] theorem Dev.setSeq_groups (d : Dev) (k : Nat) (x : Seq) : (d.setSeq k x).groups = d.groups := rfl
@[simp] theorem Dev.setSeq_opens (d : Dev) (k : Nat) (x : Seq) : (d.setSeq k x).opens = d.opens := rfl
@[simp] theorem Dev.setSeq_nextUid (d : Dev) (k : Nat) (x : Seq) : (d.setSeq k x).nextUid = d.nextUid := rfl
@[simp] theorem Dev.setSeq_longs (d : Dev) (k : Nat) (x : Seq) : (d.setSeq k x).longs = d.longs := rfl
@[simp] theorem Dev.setSeq_blk (d : Dev) (k : Nat) (x : Seq) : (d.setSeq k x).blk = d.blk := rfl
@[simp] theorem Dev.setSeq_btr (d : Dev) (k : Nat) (x : Seq) : (d.setSeq k x).btr = d.btr := rfl
@[simp] theorem Dev.setSeq_arb (d : Dev) (k : Nat) (x : Seq) : (d.setSeq k x).arb = d.arb := rfl
@[simp] theorem Dev.setSeq_vers (d : Dev) (k : Nat) (x : Seq) : (d.setSeq k x).vers = d.vers := rfl
@[simp] theorem Dev.setSeq_steps (d : Dev) (k : Nat) (x : Seq) : (d.setSeq k x).steps = d.steps := rfl
@[simp] theorem Dev.setSeq_sch (d : Dev) (k : Nat) (x : Seq) : (d.setSeq k x).sch = d.sch := rfl
@[simp] theorem Dev.setSeq_via (d : Dev) (k : Nat) (x : Seq) : (d.setSeq k x).via = d.via := rfl
@[simp] theorem Dev.setSeq_ras (d : Dev) (k : Nat) (x : Seq) : (d.setSeq k x).ras = d.ras := rfl
@[simp] theorem Dev.setSeq_pins (d : Dev) (k : Nat) (x : Seq) : (d.setSeq k x).pins = d.pins := rfl
@[simp] theorem Dev.setSeq_pwr (d : Dev) (k : Nat) (x : Seq) : (d.setSeq k x).pwr = d.pwr := rfl
@[simp] theorem Dev.setSeq_hif (d : Dev) (k : Nat) (x : Seq) : (d.setSeq k x).hif = d.hif := rfl
@[simp] theorem Dev.setSeq_sec (d : Dev) (k : Nat) (x : Seq) : (d.setSeq k x).sec = d.sec := rfl
@[simp] theorem Dev.setSeq_mgmt (d : Dev) (k : Nat) (x : Seq) : (d.setSeq k x).mgmt = d.mgmt := rfl
@[simp] theorem Dev.setSeq_out (d : Dev) (k : Nat) (x : Seq) : (d.setSeq k x).out = d.out := rfl
@[simp] theorem Dev.setSeq_freeCount (d : Dev) (k : Nat) (x : Seq) : (d.setSeq k x).freeCount = d.freeCount := rfl
@[simp] theorem Dev.setPort_cores (d : Dev) (p : Nat) (x : Port) : (d.setPort p x).cores = d.cores := rfl
@[simp] theorem Dev.setPort_routes (d : Dev) (p : Nat) (x : Port) : (d.setPort p x).routes = d.routes := rfl
@[simp] theorem Dev.setPort_flights (d : Dev) (p : Nat) (x : Port) : (d.setPort p x).flights = d.flights := rfl
@[simp] theorem Dev.setPort_creditMsgs (d : Dev) (p : Nat) (x : Port) : (d.setPort p x).creditMsgs = d.creditMsgs := rfl
@[simp] theorem Dev.setPort_pairs (d : Dev) (p : Nat) (x : Port) : (d.setPort p x).pairs = d.pairs := rfl
@[simp] theorem Dev.setPort_spans (d : Dev) (p : Nat) (x : Port) : (d.setPort p x).spans = d.spans := rfl
@[simp] theorem Dev.setPort_disps (d : Dev) (p : Nat) (x : Port) : (d.setPort p x).disps = d.disps := rfl
@[simp] theorem Dev.setPort_defaultDeadline (d : Dev) (p : Nat) (x : Port) : (d.setPort p x).defaultDeadline = d.defaultDeadline := rfl
@[simp] theorem Dev.setPort_events (d : Dev) (p : Nat) (x : Port) : (d.setPort p x).events = d.events := rfl
@[simp] theorem Dev.setPort_groups (d : Dev) (p : Nat) (x : Port) : (d.setPort p x).groups = d.groups := rfl
@[simp] theorem Dev.setPort_opens (d : Dev) (p : Nat) (x : Port) : (d.setPort p x).opens = d.opens := rfl
@[simp] theorem Dev.setPort_nextUid (d : Dev) (p : Nat) (x : Port) : (d.setPort p x).nextUid = d.nextUid := rfl
@[simp] theorem Dev.setPort_longs (d : Dev) (p : Nat) (x : Port) : (d.setPort p x).longs = d.longs := rfl
@[simp] theorem Dev.setPort_blk (d : Dev) (p : Nat) (x : Port) : (d.setPort p x).blk = d.blk := rfl
@[simp] theorem Dev.setPort_btr (d : Dev) (p : Nat) (x : Port) : (d.setPort p x).btr = d.btr := rfl
@[simp] theorem Dev.setPort_arb (d : Dev) (p : Nat) (x : Port) : (d.setPort p x).arb = d.arb := rfl
@[simp] theorem Dev.setPort_vers (d : Dev) (p : Nat) (x : Port) : (d.setPort p x).vers = d.vers := rfl
@[simp] theorem Dev.setPort_seqs (d : Dev) (p : Nat) (x : Port) : (d.setPort p x).seqs = d.seqs := rfl
@[simp] theorem Dev.setPort_steps (d : Dev) (p : Nat) (x : Port) : (d.setPort p x).steps = d.steps := rfl
@[simp] theorem Dev.setPort_sch (d : Dev) (p : Nat) (x : Port) : (d.setPort p x).sch = d.sch := rfl
@[simp] theorem Dev.setPort_ras (d : Dev) (p : Nat) (x : Port) : (d.setPort p x).ras = d.ras := rfl
@[simp] theorem Dev.setPort_pins (d : Dev) (p : Nat) (x : Port) : (d.setPort p x).pins = d.pins := rfl
@[simp] theorem Dev.setPort_pwr (d : Dev) (p : Nat) (x : Port) : (d.setPort p x).pwr = d.pwr := rfl
@[simp] theorem Dev.setPort_hif (d : Dev) (p : Nat) (x : Port) : (d.setPort p x).hif = d.hif := rfl
@[simp] theorem Dev.setPort_sec (d : Dev) (p : Nat) (x : Port) : (d.setPort p x).sec = d.sec := rfl
@[simp] theorem Dev.setPort_mgmt (d : Dev) (p : Nat) (x : Port) : (d.setPort p x).mgmt = d.mgmt := rfl
@[simp] theorem Dev.setPort_out (d : Dev) (p : Nat) (x : Port) : (d.setPort p x).out = d.out := rfl
@[simp] theorem Dev.setPort_freeCount (d : Dev) (p : Nat) (x : Port) : (d.setPort p x).freeCount = d.freeCount := rfl
@[simp] theorem Dev.setSleep_cores (d : Dev) (c : Nat) (x : Sleep) : (d.setSleep c x).cores = d.cores := rfl
@[simp] theorem Dev.setSleep_routes (d : Dev) (c : Nat) (x : Sleep) : (d.setSleep c x).routes = d.routes := rfl
@[simp] theorem Dev.setSleep_flights (d : Dev) (c : Nat) (x : Sleep) : (d.setSleep c x).flights = d.flights := rfl
@[simp] theorem Dev.setSleep_creditMsgs (d : Dev) (c : Nat) (x : Sleep) : (d.setSleep c x).creditMsgs = d.creditMsgs := rfl
@[simp] theorem Dev.setSleep_pairs (d : Dev) (c : Nat) (x : Sleep) : (d.setSleep c x).pairs = d.pairs := rfl
@[simp] theorem Dev.setSleep_spans (d : Dev) (c : Nat) (x : Sleep) : (d.setSleep c x).spans = d.spans := rfl
@[simp] theorem Dev.setSleep_disps (d : Dev) (c : Nat) (x : Sleep) : (d.setSleep c x).disps = d.disps := rfl
@[simp] theorem Dev.setSleep_defaultDeadline (d : Dev) (c : Nat) (x : Sleep) : (d.setSleep c x).defaultDeadline = d.defaultDeadline := rfl
@[simp] theorem Dev.setSleep_events (d : Dev) (c : Nat) (x : Sleep) : (d.setSleep c x).events = d.events := rfl
@[simp] theorem Dev.setSleep_groups (d : Dev) (c : Nat) (x : Sleep) : (d.setSleep c x).groups = d.groups := rfl
@[simp] theorem Dev.setSleep_opens (d : Dev) (c : Nat) (x : Sleep) : (d.setSleep c x).opens = d.opens := rfl
@[simp] theorem Dev.setSleep_nextUid (d : Dev) (c : Nat) (x : Sleep) : (d.setSleep c x).nextUid = d.nextUid := rfl
@[simp] theorem Dev.setSleep_longs (d : Dev) (c : Nat) (x : Sleep) : (d.setSleep c x).longs = d.longs := rfl
@[simp] theorem Dev.setSleep_blk (d : Dev) (c : Nat) (x : Sleep) : (d.setSleep c x).blk = d.blk := rfl
@[simp] theorem Dev.setSleep_btr (d : Dev) (c : Nat) (x : Sleep) : (d.setSleep c x).btr = d.btr := rfl
@[simp] theorem Dev.setSleep_arb (d : Dev) (c : Nat) (x : Sleep) : (d.setSleep c x).arb = d.arb := rfl
@[simp] theorem Dev.setSleep_vers (d : Dev) (c : Nat) (x : Sleep) : (d.setSleep c x).vers = d.vers := rfl
@[simp] theorem Dev.setSleep_seqs (d : Dev) (c : Nat) (x : Sleep) : (d.setSleep c x).seqs = d.seqs := rfl
@[simp] theorem Dev.setSleep_steps (d : Dev) (c : Nat) (x : Sleep) : (d.setSleep c x).steps = d.steps := rfl
@[simp] theorem Dev.setSleep_sch (d : Dev) (c : Nat) (x : Sleep) : (d.setSleep c x).sch = d.sch := rfl
@[simp] theorem Dev.setSleep_via (d : Dev) (c : Nat) (x : Sleep) : (d.setSleep c x).via = d.via := rfl
@[simp] theorem Dev.setSleep_ras (d : Dev) (c : Nat) (x : Sleep) : (d.setSleep c x).ras = d.ras := rfl
@[simp] theorem Dev.setSleep_pins (d : Dev) (c : Nat) (x : Sleep) : (d.setSleep c x).pins = d.pins := rfl
@[simp] theorem Dev.setSleep_hif (d : Dev) (c : Nat) (x : Sleep) : (d.setSleep c x).hif = d.hif := rfl
@[simp] theorem Dev.setSleep_sec (d : Dev) (c : Nat) (x : Sleep) : (d.setSleep c x).sec = d.sec := rfl
@[simp] theorem Dev.setSleep_mgmt (d : Dev) (c : Nat) (x : Sleep) : (d.setSleep c x).mgmt = d.mgmt := rfl
@[simp] theorem Dev.setSleep_out (d : Dev) (c : Nat) (x : Sleep) : (d.setSleep c x).out = d.out := rfl
@[simp] theorem Dev.setSleep_freeCount (d : Dev) (c : Nat) (x : Sleep) : (d.setSleep c x).freeCount = d.freeCount := rfl
@[simp] theorem Dev.setSchFunc_cores (d : Dev) (f : Nat) (x : Quad) : (d.setSchFunc f x).cores = d.cores := rfl
@[simp] theorem Dev.setSchFunc_routes (d : Dev) (f : Nat) (x : Quad) : (d.setSchFunc f x).routes = d.routes := rfl
@[simp] theorem Dev.setSchFunc_flights (d : Dev) (f : Nat) (x : Quad) : (d.setSchFunc f x).flights = d.flights := rfl
@[simp] theorem Dev.setSchFunc_creditMsgs (d : Dev) (f : Nat) (x : Quad) : (d.setSchFunc f x).creditMsgs = d.creditMsgs := rfl
@[simp] theorem Dev.setSchFunc_pairs (d : Dev) (f : Nat) (x : Quad) : (d.setSchFunc f x).pairs = d.pairs := rfl
@[simp] theorem Dev.setSchFunc_spans (d : Dev) (f : Nat) (x : Quad) : (d.setSchFunc f x).spans = d.spans := rfl
@[simp] theorem Dev.setSchFunc_disps (d : Dev) (f : Nat) (x : Quad) : (d.setSchFunc f x).disps = d.disps := rfl
@[simp] theorem Dev.setSchFunc_defaultDeadline (d : Dev) (f : Nat) (x : Quad) : (d.setSchFunc f x).defaultDeadline = d.defaultDeadline := rfl
@[simp] theorem Dev.setSchFunc_events (d : Dev) (f : Nat) (x : Quad) : (d.setSchFunc f x).events = d.events := rfl
@[simp] theorem Dev.setSchFunc_groups (d : Dev) (f : Nat) (x : Quad) : (d.setSchFunc f x).groups = d.groups := rfl
@[simp] theorem Dev.setSchFunc_opens (d : Dev) (f : Nat) (x : Quad) : (d.setSchFunc f x).opens = d.opens := rfl
@[simp] theorem Dev.setSchFunc_nextUid (d : Dev) (f : Nat) (x : Quad) : (d.setSchFunc f x).nextUid = d.nextUid := rfl
@[simp] theorem Dev.setSchFunc_longs (d : Dev) (f : Nat) (x : Quad) : (d.setSchFunc f x).longs = d.longs := rfl
@[simp] theorem Dev.setSchFunc_blk (d : Dev) (f : Nat) (x : Quad) : (d.setSchFunc f x).blk = d.blk := rfl
@[simp] theorem Dev.setSchFunc_btr (d : Dev) (f : Nat) (x : Quad) : (d.setSchFunc f x).btr = d.btr := rfl
@[simp] theorem Dev.setSchFunc_arb (d : Dev) (f : Nat) (x : Quad) : (d.setSchFunc f x).arb = d.arb := rfl
@[simp] theorem Dev.setSchFunc_vers (d : Dev) (f : Nat) (x : Quad) : (d.setSchFunc f x).vers = d.vers := rfl
@[simp] theorem Dev.setSchFunc_seqs (d : Dev) (f : Nat) (x : Quad) : (d.setSchFunc f x).seqs = d.seqs := rfl
@[simp] theorem Dev.setSchFunc_steps (d : Dev) (f : Nat) (x : Quad) : (d.setSchFunc f x).steps = d.steps := rfl
@[simp] theorem Dev.setSchFunc_via (d : Dev) (f : Nat) (x : Quad) : (d.setSchFunc f x).via = d.via := rfl
@[simp] theorem Dev.setSchFunc_ras (d : Dev) (f : Nat) (x : Quad) : (d.setSchFunc f x).ras = d.ras := rfl
@[simp] theorem Dev.setSchFunc_pins (d : Dev) (f : Nat) (x : Quad) : (d.setSchFunc f x).pins = d.pins := rfl
@[simp] theorem Dev.setSchFunc_pwr (d : Dev) (f : Nat) (x : Quad) : (d.setSchFunc f x).pwr = d.pwr := rfl
@[simp] theorem Dev.setSchFunc_hif (d : Dev) (f : Nat) (x : Quad) : (d.setSchFunc f x).hif = d.hif := rfl
@[simp] theorem Dev.setSchFunc_sec (d : Dev) (f : Nat) (x : Quad) : (d.setSchFunc f x).sec = d.sec := rfl
@[simp] theorem Dev.setSchFunc_mgmt (d : Dev) (f : Nat) (x : Quad) : (d.setSchFunc f x).mgmt = d.mgmt := rfl
@[simp] theorem Dev.setSchFunc_out (d : Dev) (f : Nat) (x : Quad) : (d.setSchFunc f x).out = d.out := rfl
@[simp] theorem Dev.setSchFunc_freeCount (d : Dev) (f : Nat) (x : Quad) : (d.setSchFunc f x).freeCount = d.freeCount := rfl
@[simp] theorem Dev.emit_cores (d : Dev) (o : Output) : (d.emit o).cores = d.cores := rfl
@[simp] theorem Dev.emit_routes (d : Dev) (o : Output) : (d.emit o).routes = d.routes := rfl
@[simp] theorem Dev.emit_flights (d : Dev) (o : Output) : (d.emit o).flights = d.flights := rfl
@[simp] theorem Dev.emit_creditMsgs (d : Dev) (o : Output) : (d.emit o).creditMsgs = d.creditMsgs := rfl
@[simp] theorem Dev.emit_pairs (d : Dev) (o : Output) : (d.emit o).pairs = d.pairs := rfl
@[simp] theorem Dev.emit_spans (d : Dev) (o : Output) : (d.emit o).spans = d.spans := rfl
@[simp] theorem Dev.emit_disps (d : Dev) (o : Output) : (d.emit o).disps = d.disps := rfl
@[simp] theorem Dev.emit_defaultDeadline (d : Dev) (o : Output) : (d.emit o).defaultDeadline = d.defaultDeadline := rfl
@[simp] theorem Dev.emit_events (d : Dev) (o : Output) : (d.emit o).events = d.events := rfl
@[simp] theorem Dev.emit_groups (d : Dev) (o : Output) : (d.emit o).groups = d.groups := rfl
@[simp] theorem Dev.emit_opens (d : Dev) (o : Output) : (d.emit o).opens = d.opens := rfl
@[simp] theorem Dev.emit_nextUid (d : Dev) (o : Output) : (d.emit o).nextUid = d.nextUid := rfl
@[simp] theorem Dev.emit_longs (d : Dev) (o : Output) : (d.emit o).longs = d.longs := rfl
@[simp] theorem Dev.emit_blk (d : Dev) (o : Output) : (d.emit o).blk = d.blk := rfl
@[simp] theorem Dev.emit_btr (d : Dev) (o : Output) : (d.emit o).btr = d.btr := rfl
@[simp] theorem Dev.emit_arb (d : Dev) (o : Output) : (d.emit o).arb = d.arb := rfl
@[simp] theorem Dev.emit_vers (d : Dev) (o : Output) : (d.emit o).vers = d.vers := rfl
@[simp] theorem Dev.emit_seqs (d : Dev) (o : Output) : (d.emit o).seqs = d.seqs := rfl
@[simp] theorem Dev.emit_steps (d : Dev) (o : Output) : (d.emit o).steps = d.steps := rfl
@[simp] theorem Dev.emit_sch (d : Dev) (o : Output) : (d.emit o).sch = d.sch := rfl
@[simp] theorem Dev.emit_via (d : Dev) (o : Output) : (d.emit o).via = d.via := rfl
@[simp] theorem Dev.emit_ras (d : Dev) (o : Output) : (d.emit o).ras = d.ras := rfl
@[simp] theorem Dev.emit_pins (d : Dev) (o : Output) : (d.emit o).pins = d.pins := rfl
@[simp] theorem Dev.emit_pwr (d : Dev) (o : Output) : (d.emit o).pwr = d.pwr := rfl
@[simp] theorem Dev.emit_hif (d : Dev) (o : Output) : (d.emit o).hif = d.hif := rfl
@[simp] theorem Dev.emit_sec (d : Dev) (o : Output) : (d.emit o).sec = d.sec := rfl
@[simp] theorem Dev.emit_mgmt (d : Dev) (o : Output) : (d.emit o).mgmt = d.mgmt := rfl
@[simp] theorem Dev.emit_freeCount (d : Dev) (o : Output) : (d.emit o).freeCount = d.freeCount := rfl
@[simp] theorem Dev.charge_cores (d : Dev) (o : OpenCmd) (n : Nat) : (d.charge o n).cores = d.cores := rfl
@[simp] theorem Dev.charge_routes (d : Dev) (o : OpenCmd) (n : Nat) : (d.charge o n).routes = d.routes := rfl
@[simp] theorem Dev.charge_flights (d : Dev) (o : OpenCmd) (n : Nat) : (d.charge o n).flights = d.flights := rfl
@[simp] theorem Dev.charge_creditMsgs (d : Dev) (o : OpenCmd) (n : Nat) : (d.charge o n).creditMsgs = d.creditMsgs := rfl
@[simp] theorem Dev.charge_pairs (d : Dev) (o : OpenCmd) (n : Nat) : (d.charge o n).pairs = d.pairs := rfl
@[simp] theorem Dev.charge_spans (d : Dev) (o : OpenCmd) (n : Nat) : (d.charge o n).spans = d.spans := rfl
@[simp] theorem Dev.charge_disps (d : Dev) (o : OpenCmd) (n : Nat) : (d.charge o n).disps = d.disps := rfl
@[simp] theorem Dev.charge_defaultDeadline (d : Dev) (o : OpenCmd) (n : Nat) : (d.charge o n).defaultDeadline = d.defaultDeadline := rfl
@[simp] theorem Dev.charge_events (d : Dev) (o : OpenCmd) (n : Nat) : (d.charge o n).events = d.events := rfl
@[simp] theorem Dev.charge_groups (d : Dev) (o : OpenCmd) (n : Nat) : (d.charge o n).groups = d.groups := rfl
@[simp] theorem Dev.charge_opens (d : Dev) (o : OpenCmd) (n : Nat) : (d.charge o n).opens = d.opens := rfl
@[simp] theorem Dev.charge_nextUid (d : Dev) (o : OpenCmd) (n : Nat) : (d.charge o n).nextUid = d.nextUid := rfl
@[simp] theorem Dev.charge_longs (d : Dev) (o : OpenCmd) (n : Nat) : (d.charge o n).longs = d.longs := rfl
@[simp] theorem Dev.charge_blk (d : Dev) (o : OpenCmd) (n : Nat) : (d.charge o n).blk = d.blk := rfl
@[simp] theorem Dev.charge_btr (d : Dev) (o : OpenCmd) (n : Nat) : (d.charge o n).btr = d.btr := rfl
@[simp] theorem Dev.charge_arb (d : Dev) (o : OpenCmd) (n : Nat) : (d.charge o n).arb = d.arb := rfl
@[simp] theorem Dev.charge_vers (d : Dev) (o : OpenCmd) (n : Nat) : (d.charge o n).vers = d.vers := rfl
@[simp] theorem Dev.charge_seqs (d : Dev) (o : OpenCmd) (n : Nat) : (d.charge o n).seqs = d.seqs := rfl
@[simp] theorem Dev.charge_steps (d : Dev) (o : OpenCmd) (n : Nat) : (d.charge o n).steps = d.steps := rfl
@[simp] theorem Dev.charge_via (d : Dev) (o : OpenCmd) (n : Nat) : (d.charge o n).via = d.via := rfl
@[simp] theorem Dev.charge_ras (d : Dev) (o : OpenCmd) (n : Nat) : (d.charge o n).ras = d.ras := rfl
@[simp] theorem Dev.charge_pins (d : Dev) (o : OpenCmd) (n : Nat) : (d.charge o n).pins = d.pins := rfl
@[simp] theorem Dev.charge_pwr (d : Dev) (o : OpenCmd) (n : Nat) : (d.charge o n).pwr = d.pwr := rfl
@[simp] theorem Dev.charge_hif (d : Dev) (o : OpenCmd) (n : Nat) : (d.charge o n).hif = d.hif := rfl
@[simp] theorem Dev.charge_sec (d : Dev) (o : OpenCmd) (n : Nat) : (d.charge o n).sec = d.sec := rfl
@[simp] theorem Dev.charge_mgmt (d : Dev) (o : OpenCmd) (n : Nat) : (d.charge o n).mgmt = d.mgmt := rfl
@[simp] theorem Dev.charge_out (d : Dev) (o : OpenCmd) (n : Nat) : (d.charge o n).out = d.out := rfl
@[simp] theorem Dev.charge_freeCount (d : Dev) (o : OpenCmd) (n : Nat) : (d.charge o n).freeCount = d.freeCount := rfl

@[simp] theorem Dev.rasEvent_cores (d : Dev) (e : Env) (k c x y z r : Nat) : (d.rasEvent e k c x y z r).cores = d.cores := rfl
@[simp] theorem Dev.rasEvent_routes (d : Dev) (e : Env) (k c x y z r : Nat) : (d.rasEvent e k c x y z r).routes = d.routes := rfl
@[simp] theorem Dev.rasEvent_flights (d : Dev) (e : Env) (k c x y z r : Nat) : (d.rasEvent e k c x y z r).flights = d.flights := rfl
@[simp] theorem Dev.rasEvent_creditMsgs (d : Dev) (e : Env) (k c x y z r : Nat) : (d.rasEvent e k c x y z r).creditMsgs = d.creditMsgs := rfl
@[simp] theorem Dev.rasEvent_pairs (d : Dev) (e : Env) (k c x y z r : Nat) : (d.rasEvent e k c x y z r).pairs = d.pairs := rfl
@[simp] theorem Dev.rasEvent_spans (d : Dev) (e : Env) (k c x y z r : Nat) : (d.rasEvent e k c x y z r).spans = d.spans := rfl
@[simp] theorem Dev.rasEvent_disps (d : Dev) (e : Env) (k c x y z r : Nat) : (d.rasEvent e k c x y z r).disps = d.disps := rfl
@[simp] theorem Dev.rasEvent_defaultDeadline (d : Dev) (e : Env) (k c x y z r : Nat) : (d.rasEvent e k c x y z r).defaultDeadline = d.defaultDeadline := rfl
@[simp] theorem Dev.rasEvent_events (d : Dev) (e : Env) (k c x y z r : Nat) : (d.rasEvent e k c x y z r).events = d.events := rfl
@[simp] theorem Dev.rasEvent_groups (d : Dev) (e : Env) (k c x y z r : Nat) : (d.rasEvent e k c x y z r).groups = d.groups := rfl
@[simp] theorem Dev.rasEvent_opens (d : Dev) (e : Env) (k c x y z r : Nat) : (d.rasEvent e k c x y z r).opens = d.opens := rfl
@[simp] theorem Dev.rasEvent_nextUid (d : Dev) (e : Env) (k c x y z r : Nat) : (d.rasEvent e k c x y z r).nextUid = d.nextUid := rfl
@[simp] theorem Dev.rasEvent_longs (d : Dev) (e : Env) (k c x y z r : Nat) : (d.rasEvent e k c x y z r).longs = d.longs := rfl
@[simp] theorem Dev.rasEvent_blk (d : Dev) (e : Env) (k c x y z r : Nat) : (d.rasEvent e k c x y z r).blk = d.blk := rfl
@[simp] theorem Dev.rasEvent_btr (d : Dev) (e : Env) (k c x y z r : Nat) : (d.rasEvent e k c x y z r).btr = d.btr := rfl
@[simp] theorem Dev.rasEvent_arb (d : Dev) (e : Env) (k c x y z r : Nat) : (d.rasEvent e k c x y z r).arb = d.arb := rfl
@[simp] theorem Dev.rasEvent_vers (d : Dev) (e : Env) (k c x y z r : Nat) : (d.rasEvent e k c x y z r).vers = d.vers := rfl
@[simp] theorem Dev.rasEvent_seqs (d : Dev) (e : Env) (k c x y z r : Nat) : (d.rasEvent e k c x y z r).seqs = d.seqs := rfl
@[simp] theorem Dev.rasEvent_steps (d : Dev) (e : Env) (k c x y z r : Nat) : (d.rasEvent e k c x y z r).steps = d.steps := rfl
@[simp] theorem Dev.rasEvent_sch (d : Dev) (e : Env) (k c x y z r : Nat) : (d.rasEvent e k c x y z r).sch = d.sch := rfl
@[simp] theorem Dev.rasEvent_via (d : Dev) (e : Env) (k c x y z r : Nat) : (d.rasEvent e k c x y z r).via = d.via := rfl
@[simp] theorem Dev.rasEvent_pins (d : Dev) (e : Env) (k c x y z r : Nat) : (d.rasEvent e k c x y z r).pins = d.pins := rfl
@[simp] theorem Dev.rasEvent_pwr (d : Dev) (e : Env) (k c x y z r : Nat) : (d.rasEvent e k c x y z r).pwr = d.pwr := rfl
@[simp] theorem Dev.rasEvent_hif (d : Dev) (e : Env) (k c x y z r : Nat) : (d.rasEvent e k c x y z r).hif = d.hif := rfl
@[simp] theorem Dev.rasEvent_sec (d : Dev) (e : Env) (k c x y z r : Nat) : (d.rasEvent e k c x y z r).sec = d.sec := rfl
@[simp] theorem Dev.rasEvent_out (d : Dev) (e : Env) (k c x y z r : Nat) : (d.rasEvent e k c x y z r).out = d.out := rfl
@[simp] theorem Dev.rasEvent_freeCount (d : Dev) (e : Env) (k c x y z r : Nat) : (d.rasEvent e k c x y z r).freeCount = d.freeCount := rfl

@[simp] theorem Dev.writeFault_cores (d : Dev) (e : Env) (f q c : Nat) (i : FaultInfo) : (d.writeFault e f q c i).2.cores = d.cores := rfl
@[simp] theorem Dev.writeFault_routes (d : Dev) (e : Env) (f q c : Nat) (i : FaultInfo) : (d.writeFault e f q c i).2.routes = d.routes := rfl
@[simp] theorem Dev.writeFault_flights (d : Dev) (e : Env) (f q c : Nat) (i : FaultInfo) : (d.writeFault e f q c i).2.flights = d.flights := rfl
@[simp] theorem Dev.writeFault_creditMsgs (d : Dev) (e : Env) (f q c : Nat) (i : FaultInfo) : (d.writeFault e f q c i).2.creditMsgs = d.creditMsgs := rfl
@[simp] theorem Dev.writeFault_pairs (d : Dev) (e : Env) (f q c : Nat) (i : FaultInfo) : (d.writeFault e f q c i).2.pairs = d.pairs := rfl
@[simp] theorem Dev.writeFault_spans (d : Dev) (e : Env) (f q c : Nat) (i : FaultInfo) : (d.writeFault e f q c i).2.spans = d.spans := rfl
@[simp] theorem Dev.writeFault_disps (d : Dev) (e : Env) (f q c : Nat) (i : FaultInfo) : (d.writeFault e f q c i).2.disps = d.disps := rfl
@[simp] theorem Dev.writeFault_defaultDeadline (d : Dev) (e : Env) (f q c : Nat) (i : FaultInfo) : (d.writeFault e f q c i).2.defaultDeadline = d.defaultDeadline := rfl
@[simp] theorem Dev.writeFault_events (d : Dev) (e : Env) (f q c : Nat) (i : FaultInfo) : (d.writeFault e f q c i).2.events = d.events := rfl
@[simp] theorem Dev.writeFault_groups (d : Dev) (e : Env) (f q c : Nat) (i : FaultInfo) : (d.writeFault e f q c i).2.groups = d.groups := rfl
@[simp] theorem Dev.writeFault_opens (d : Dev) (e : Env) (f q c : Nat) (i : FaultInfo) : (d.writeFault e f q c i).2.opens = d.opens := rfl
@[simp] theorem Dev.writeFault_nextUid (d : Dev) (e : Env) (f q c : Nat) (i : FaultInfo) : (d.writeFault e f q c i).2.nextUid = d.nextUid := rfl
@[simp] theorem Dev.writeFault_longs (d : Dev) (e : Env) (f q c : Nat) (i : FaultInfo) : (d.writeFault e f q c i).2.longs = d.longs := rfl
@[simp] theorem Dev.writeFault_blk (d : Dev) (e : Env) (f q c : Nat) (i : FaultInfo) : (d.writeFault e f q c i).2.blk = d.blk := rfl
@[simp] theorem Dev.writeFault_btr (d : Dev) (e : Env) (f q c : Nat) (i : FaultInfo) : (d.writeFault e f q c i).2.btr = d.btr := rfl
@[simp] theorem Dev.writeFault_arb (d : Dev) (e : Env) (f q c : Nat) (i : FaultInfo) : (d.writeFault e f q c i).2.arb = d.arb := rfl
@[simp] theorem Dev.writeFault_vers (d : Dev) (e : Env) (f q c : Nat) (i : FaultInfo) : (d.writeFault e f q c i).2.vers = d.vers := rfl
@[simp] theorem Dev.writeFault_seqs (d : Dev) (e : Env) (f q c : Nat) (i : FaultInfo) : (d.writeFault e f q c i).2.seqs = d.seqs := rfl
@[simp] theorem Dev.writeFault_steps (d : Dev) (e : Env) (f q c : Nat) (i : FaultInfo) : (d.writeFault e f q c i).2.steps = d.steps := rfl
@[simp] theorem Dev.writeFault_sch (d : Dev) (e : Env) (f q c : Nat) (i : FaultInfo) : (d.writeFault e f q c i).2.sch = d.sch := rfl
@[simp] theorem Dev.writeFault_via (d : Dev) (e : Env) (f q c : Nat) (i : FaultInfo) : (d.writeFault e f q c i).2.via = d.via := rfl
@[simp] theorem Dev.writeFault_pins (d : Dev) (e : Env) (f q c : Nat) (i : FaultInfo) : (d.writeFault e f q c i).2.pins = d.pins := rfl
@[simp] theorem Dev.writeFault_pwr (d : Dev) (e : Env) (f q c : Nat) (i : FaultInfo) : (d.writeFault e f q c i).2.pwr = d.pwr := rfl
@[simp] theorem Dev.writeFault_hif (d : Dev) (e : Env) (f q c : Nat) (i : FaultInfo) : (d.writeFault e f q c i).2.hif = d.hif := rfl
@[simp] theorem Dev.writeFault_sec (d : Dev) (e : Env) (f q c : Nat) (i : FaultInfo) : (d.writeFault e f q c i).2.sec = d.sec := rfl
@[simp] theorem Dev.writeFault_mgmt (d : Dev) (e : Env) (f q c : Nat) (i : FaultInfo) : (d.writeFault e f q c i).2.mgmt = d.mgmt := rfl
@[simp] theorem Dev.writeFault_out (d : Dev) (e : Env) (f q c : Nat) (i : FaultInfo) : (d.writeFault e f q c i).2.out = d.out := rfl
@[simp] theorem Dev.writeFault_freeCount (d : Dev) (e : Env) (f q c : Nat) (i : FaultInfo) : (d.writeFault e f q c i).2.freeCount = d.freeCount := rfl

/-! ### Reading back -/

@[simp] theorem Dev.core_setCore (d : Dev) (cl ph : Nat) (x : Core) : (d.setCore cl ph x).core cl ph = x := by simp [Dev.core, Dev.setCore]
@[simp] theorem Dev.span_setSpan (d : Dev) (k : Nat) (x : Span) : (d.setSpan k x).span k = x := by simp [Dev.span, Dev.setSpan]
@[simp] theorem Dev.disp_setDisp (d : Dev) (c n : Nat) (x : Disp) : (d.setDisp c n x).disp c n = x := by simp [Dev.disp, Dev.setDisp]
@[simp] theorem Dev.queue_setQueue (d : Dev) (f q : Nat) (x : Queue) : (d.setQueue f q x).queue f q = x := by simp [Dev.queue, Dev.setQueue]
@[simp] theorem Dev.event_setEvent (d : Dev) (f i : Nat) (x : Quad) : (d.setEvent f i x).event f i = x := by simp [Dev.event, Dev.setEvent]
@[simp] theorem Dev.long_setLong (d : Dev) (k : Nat) (x : LongOp) : (d.setLong k x).long k = x := by simp [Dev.long, Dev.setLong]
@[simp] theorem Dev.ver_setVer (d : Dev) (k : Nat) (x : Version) : (d.setVer k x).ver k = x := by simp [Dev.ver, Dev.setVer]
@[simp] theorem Dev.seq_setSeq (d : Dev) (k : Nat) (x : Seq) : (d.setSeq k x).seq k = x := by simp [Dev.seq, Dev.setSeq]
@[simp] theorem Dev.port_setPort (d : Dev) (p : Nat) (x : Port) : (d.setPort p x).port p = x := by simp [Dev.port, Dev.setPort]
@[simp] theorem Dev.sleep_setSleep (d : Dev) (c : Nat) (x : Sleep) : (d.setSleep c x).sleep c = x := by simp [Dev.sleep, Dev.setSleep]
@[simp] theorem Dev.schFunc_setSchFunc (d : Dev) (f : Nat) (x : Quad) : (d.setSchFunc f x).schFunc f = x := by simp [Dev.schFunc, Dev.setSchFunc]
@[simp] theorem Dev.eng_setEng (d : Dev) (cl ph n : Nat) (x : Eng) : (d.setEng cl ph n x).eng cl ph n = x := by
  simp [Dev.eng, Dev.setEng, Dev.modCore, Dev.core, Dev.setCore]

theorem Dev.span_setSpan_other (d : Dev) {k k' : Nat} (h : k' ≠ k) (x : Span) : (d.setSpan k x).span k' = d.span k' := by
  simp [Dev.span, Dev.setSpan, Tab.get_put_other _ h]
theorem Dev.long_setLong_other (d : Dev) {k k' : Nat} (h : k' ≠ k) (x : LongOp) : (d.setLong k x).long k' = d.long k' := by
  simp [Dev.long, Dev.setLong, Tab.get_put_other _ h]
theorem Dev.ver_setVer_other (d : Dev) {k k' : Nat} (h : k' ≠ k) (x : Version) : (d.setVer k x).ver k' = d.ver k' := by
  simp [Dev.ver, Dev.setVer, Tab.get_put_other _ h]
theorem Dev.seq_setSeq_other (d : Dev) {k k' : Nat} (h : k' ≠ k) (x : Seq) : (d.setSeq k x).seq k' = d.seq k' := by
  simp [Dev.seq, Dev.setSeq, Tab.get_put_other _ h]
theorem Dev.port_setPort_other (d : Dev) {p p' : Nat} (h : p' ≠ p) (x : Port) : (d.setPort p x).port p' = d.port p' := by
  simp [Dev.port, Dev.setPort, Tab.get_put_other _ h]
theorem Dev.sleep_setSleep_other (d : Dev) {c c' : Nat} (h : c' ≠ c) (x : Sleep) : (d.setSleep c x).sleep c' = d.sleep c' := by
  simp [Dev.sleep, Dev.setSleep, Tab.get_put_other _ h]
theorem Dev.schFunc_setSchFunc_other (d : Dev) {f f' : Nat} (h : f' ≠ f) (x : Quad) : (d.setSchFunc f x).schFunc f' = d.schFunc f' := by
  simp [Dev.schFunc, Dev.setSchFunc, Tab.get_put_other _ h]
theorem Dev.queue_setQueue_other (d : Dev) {f q f' q' : Nat} (h : 64 * f' + q' ≠ 64 * f + q) (x : Queue) : (d.setQueue f q x).queue f' q' = d.queue f' q' := by
  simp [Dev.queue, Dev.setQueue, Tab.get_put_other _ h]
theorem Dev.event_setEvent_other (d : Dev) {f i f' i' : Nat} (h : 1024 * f' + i' ≠ 1024 * f + i) (x : Quad) : (d.setEvent f i x).event f' i' = d.event f' i' := by
  simp [Dev.event, Dev.setEvent, Tab.get_put_other _ h]
theorem Dev.disp_setDisp_other (d : Dev) {c n c' n' : Nat} (h : 16 * c' + n' ≠ 16 * c + n) (x : Disp) : (d.setDisp c n x).disp c' n' = d.disp c' n' := by
  simp [Dev.disp, Dev.setDisp, Tab.get_put_other _ h]
theorem Dev.core_setCore_other (d : Dev) {c n c' n' : Nat} (h : 32 * c' + n' ≠ 32 * c + n) (x : Core) : (d.setCore c n x).core c' n' = d.core c' n' := by
  simp [Dev.core, Dev.setCore, Tab.get_put_other _ h]

/-! ### The watchdogs' count as LOCAL_TIME passes -/

@[simp] theorem Dev.countCores_routes (d : Dev) (n : Nat) : (d.countCores n).routes = d.routes := rfl
@[simp] theorem Dev.countCores_flights (d : Dev) (n : Nat) : (d.countCores n).flights = d.flights := rfl
@[simp] theorem Dev.countCores_creditMsgs (d : Dev) (n : Nat) : (d.countCores n).creditMsgs = d.creditMsgs := rfl
@[simp] theorem Dev.countCores_pairs (d : Dev) (n : Nat) : (d.countCores n).pairs = d.pairs := rfl
@[simp] theorem Dev.countCores_spans (d : Dev) (n : Nat) : (d.countCores n).spans = d.spans := rfl
@[simp] theorem Dev.countCores_disps (d : Dev) (n : Nat) : (d.countCores n).disps = d.disps := rfl
@[simp] theorem Dev.countCores_defaultDeadline (d : Dev) (n : Nat) : (d.countCores n).defaultDeadline = d.defaultDeadline := rfl
@[simp] theorem Dev.countCores_events (d : Dev) (n : Nat) : (d.countCores n).events = d.events := rfl
@[simp] theorem Dev.countCores_groups (d : Dev) (n : Nat) : (d.countCores n).groups = d.groups := rfl
@[simp] theorem Dev.countCores_opens (d : Dev) (n : Nat) : (d.countCores n).opens = d.opens := rfl
@[simp] theorem Dev.countCores_nextUid (d : Dev) (n : Nat) : (d.countCores n).nextUid = d.nextUid := rfl
@[simp] theorem Dev.countCores_longs (d : Dev) (n : Nat) : (d.countCores n).longs = d.longs := rfl
@[simp] theorem Dev.countCores_blk (d : Dev) (n : Nat) : (d.countCores n).blk = d.blk := rfl
@[simp] theorem Dev.countCores_btr (d : Dev) (n : Nat) : (d.countCores n).btr = d.btr := rfl
@[simp] theorem Dev.countCores_arb (d : Dev) (n : Nat) : (d.countCores n).arb = d.arb := rfl
@[simp] theorem Dev.countCores_vers (d : Dev) (n : Nat) : (d.countCores n).vers = d.vers := rfl
@[simp] theorem Dev.countCores_seqs (d : Dev) (n : Nat) : (d.countCores n).seqs = d.seqs := rfl
@[simp] theorem Dev.countCores_steps (d : Dev) (n : Nat) : (d.countCores n).steps = d.steps := rfl
@[simp] theorem Dev.countCores_sch (d : Dev) (n : Nat) : (d.countCores n).sch = d.sch := rfl
@[simp] theorem Dev.countCores_via (d : Dev) (n : Nat) : (d.countCores n).via = d.via := rfl
@[simp] theorem Dev.countCores_ras (d : Dev) (n : Nat) : (d.countCores n).ras = d.ras := rfl
@[simp] theorem Dev.countCores_pins (d : Dev) (n : Nat) : (d.countCores n).pins = d.pins := rfl
@[simp] theorem Dev.countCores_pwr (d : Dev) (n : Nat) : (d.countCores n).pwr = d.pwr := rfl
@[simp] theorem Dev.countCores_hif (d : Dev) (n : Nat) : (d.countCores n).hif = d.hif := rfl
@[simp] theorem Dev.countCores_sec (d : Dev) (n : Nat) : (d.countCores n).sec = d.sec := rfl
@[simp] theorem Dev.countCores_mgmt (d : Dev) (n : Nat) : (d.countCores n).mgmt = d.mgmt := rfl
@[simp] theorem Dev.countCores_out (d : Dev) (n : Nat) : (d.countCores n).out = d.out := rfl
@[simp] theorem Dev.countCores_freeCount (d : Dev) (n : Nat) : (d.countCores n).freeCount = d.freeCount := rfl
@[simp] theorem State.passTo_dev_routes (s : State) (t : Nat) : (s.passTo t).dev.routes = s.dev.routes := rfl
@[simp] theorem State.passTo_dev_flights (s : State) (t : Nat) : (s.passTo t).dev.flights = s.dev.flights := rfl
@[simp] theorem State.passTo_dev_creditMsgs (s : State) (t : Nat) : (s.passTo t).dev.creditMsgs = s.dev.creditMsgs := rfl
@[simp] theorem State.passTo_dev_pairs (s : State) (t : Nat) : (s.passTo t).dev.pairs = s.dev.pairs := rfl
@[simp] theorem State.passTo_dev_spans (s : State) (t : Nat) : (s.passTo t).dev.spans = s.dev.spans := rfl
@[simp] theorem State.passTo_dev_disps (s : State) (t : Nat) : (s.passTo t).dev.disps = s.dev.disps := rfl
@[simp] theorem State.passTo_dev_defaultDeadline (s : State) (t : Nat) : (s.passTo t).dev.defaultDeadline = s.dev.defaultDeadline := rfl
@[simp] theorem State.passTo_dev_events (s : State) (t : Nat) : (s.passTo t).dev.events = s.dev.events := rfl
@[simp] theorem State.passTo_dev_groups (s : State) (t : Nat) : (s.passTo t).dev.groups = s.dev.groups := rfl
@[simp] theorem State.passTo_dev_opens (s : State) (t : Nat) : (s.passTo t).dev.opens = s.dev.opens := rfl
@[simp] theorem State.passTo_dev_nextUid (s : State) (t : Nat) : (s.passTo t).dev.nextUid = s.dev.nextUid := rfl
@[simp] theorem State.passTo_dev_longs (s : State) (t : Nat) : (s.passTo t).dev.longs = s.dev.longs := rfl
@[simp] theorem State.passTo_dev_blk (s : State) (t : Nat) : (s.passTo t).dev.blk = s.dev.blk := rfl
@[simp] theorem State.passTo_dev_btr (s : State) (t : Nat) : (s.passTo t).dev.btr = s.dev.btr := rfl
@[simp] theorem State.passTo_dev_arb (s : State) (t : Nat) : (s.passTo t).dev.arb = s.dev.arb := rfl
@[simp] theorem State.passTo_dev_vers (s : State) (t : Nat) : (s.passTo t).dev.vers = s.dev.vers := rfl
@[simp] theorem State.passTo_dev_seqs (s : State) (t : Nat) : (s.passTo t).dev.seqs = s.dev.seqs := rfl
@[simp] theorem State.passTo_dev_steps (s : State) (t : Nat) : (s.passTo t).dev.steps = s.dev.steps := rfl
@[simp] theorem State.passTo_dev_sch (s : State) (t : Nat) : (s.passTo t).dev.sch = s.dev.sch := rfl
@[simp] theorem State.passTo_dev_via (s : State) (t : Nat) : (s.passTo t).dev.via = s.dev.via := rfl
@[simp] theorem State.passTo_dev_ras (s : State) (t : Nat) : (s.passTo t).dev.ras = s.dev.ras := rfl
@[simp] theorem State.passTo_dev_pins (s : State) (t : Nat) : (s.passTo t).dev.pins = s.dev.pins := rfl
@[simp] theorem State.passTo_dev_pwr (s : State) (t : Nat) : (s.passTo t).dev.pwr = s.dev.pwr := rfl
@[simp] theorem State.passTo_dev_hif (s : State) (t : Nat) : (s.passTo t).dev.hif = s.dev.hif := rfl
@[simp] theorem State.passTo_dev_sec (s : State) (t : Nat) : (s.passTo t).dev.sec = s.dev.sec := rfl
@[simp] theorem State.passTo_dev_mgmt (s : State) (t : Nat) : (s.passTo t).dev.mgmt = s.dev.mgmt := rfl
@[simp] theorem State.passTo_dev_out (s : State) (t : Nat) : (s.passTo t).dev.out = s.dev.out := rfl
@[simp] theorem State.passTo_dev_freeCount (s : State) (t : Nat) : (s.passTo t).dev.freeCount = s.dev.freeCount := rfl

/-- A core whose watchdog does not count keeps its count; every other has counted on by as much as LOCAL_TIME. -/
theorem Dev.core_countCores (d : Dev) (n cl : Nat) {ph : Nat} (hp : ph < 32) : (d.countCores n).core cl ph =
    if d.coreCounts cl ph then { d.core cl ph with still := (d.core cl ph).still + n } else d.core cl ph := by
  let g (k : Nat) (c : Core) : Core := if d.coreCounts (k / 32) (k % 32) then { c with still := c.still + n } else c
  have e : (d.countCores n).cores = d.cores.map fun x => (x.1, g x.1 x.2) :=
    List.map_congr_left fun x _ => by simp only [g]; split <;> rfl
  have at_ (c : Core) : g (32 * cl + ph) c = if d.coreCounts cl ph then { c with still := c.still + n } else c := by
    have hc : (32 * cl + ph) / 32 = cl := by omega
    have hm : (32 * cl + ph) % 32 = ph := by omega
    simp only [g, hc, hm]
  have unlisted (h : ∀ x ∈ d.cores, x.1 ≠ 32 * cl + ph) : g (32 * cl + ph) {} = {} := by
    have : d.core cl ph = {} := Tab.get_absent _ _ _ h
    rw [at_]; simp [Dev.coreCounts, this]
  unfold Dev.core
  rw [e, Tab.get_map {} _ g d.cores unlisted, at_]

theorem Dev.eng_countCores (d : Dev) (n cl k : Nat) {ph : Nat} (hp : ph < 32) : (d.countCores n).eng cl ph k = d.eng cl ph k := by
  unfold Dev.eng; rw [Dev.core_countCores d n cl hp]; split <;> rfl

end Sys2Proof.Machine
end

