-- ==== Sys2Proof/Laws/Ops.lean ====
section
/-!
SUPPORT. What the shared operations can do: the outcomes of a row, the completion of a command and its entry, the message of a queue.
-/
namespace Sys2Proof.Machine

/-! ### Outcomes of rows -/

theorem onDev_next {s t : State} {f : Env → Dev → Dev} : onDev s f = .next t ↔ t = s.onDev f := by
  unfold onDev; constructor <;> intro h
  · exact (Host.Outcome.next.inj h).symm
  · rw [h]

theorem onDevAt_next {s t : State} {n : Nat} {f : Env → Dev → Dev} : onDevAt s n f = .next t ↔ t = (s.passTo n).onDev f := by
  unfold onDevAt; constructor <;> intro h
  · exact (Host.Outcome.next.inj h).symm
  · rw [h]

theorem guarded_next {b : Bool} {r : Res} {t : State} : guarded b r = .next t ↔ b = true ∧ r = .next t := by
  unfold guarded; cases b <;> simp

theorem guarded_true (r : Res) : guarded true r = r := rfl
theorem guarded_false (r : Res) : guarded false r = .refused .illFormed := rfl

/-! ### Completions -/

/-- A message touches nothing but the output and the pending bits. -/
theorem Dev.msix_cases (d : Dev) (f v : Nat) :
    d.msix f v = d.emit (.msix f v) ∨ ∃ l, d.msix f v = { d with hif := { d.hif with pba := l } } := by
  unfold Dev.msix; split
  · exact .inl rfl
  · exact .inr ⟨_, rfl⟩

@[simp] theorem Dev.msix_queue (d : Dev) (f v g q : Nat) : (d.msix f v).queue g q = d.queue g q := by
  rcases d.msix_cases f v with h | ⟨l, h⟩ <;> rw [h] <;> rfl

@[simp] theorem Dev.msix_opens (d : Dev) (f v : Nat) : (d.msix f v).opens = d.opens := by
  rcases d.msix_cases f v with h | ⟨l, h⟩ <;> rw [h] <;> rfl

@[simp] theorem Dev.msix_events (d : Dev) (f v : Nat) : (d.msix f v).events = d.events := by
  rcases d.msix_cases f v with h | ⟨l, h⟩ <;> rw [h] <;> rfl

@[simp] theorem Dev.post_opens (d : Dev) (f q : Nat) (c : Command) (h st fl r : Nat) : (d.post f q c h st fl r).opens = d.opens := by
  unfold Dev.post; split <;> simp

@[simp] theorem Dev.post_events (d : Dev) (f q : Nat) (c : Command) (h st fl r : Nat) : (d.post f q c h st fl r).events = d.events := by
  unfold Dev.post; split <;> simp

/-- A completion touches its queue, the pending bits and the output alone. -/
theorem Dev.post_rest (d : Dev) (f q : Nat) (c : Command) (h st fl r : Nat) :
    d.post f q c h st fl r =
      { d with hif := { d.hif with queues := (d.post f q c h st fl r).hif.queues, pba := (d.post f q c h st fl r).hif.pba }
               out := (d.post f q c h st fl r).out } := by
  by_cases hn : cmdNotify c = true
  · simp only [Dev.post, hn, if_true]
    generalize (Queue.mk ..) = u
    rcases Dev.msix_cases ((d.setQueue f q u).emit (.completion f q (d.queue f q).cqTail
      (completionEntry (cmdId c) q h st (fl + 128 * bit (d.queue f q).phase) r))) f (d.queue f q).vector with e | ⟨l, e⟩ <;> rw [e] <;> rfl
  · simp only [Dev.post, hn]
    rfl

@[simp] theorem Dev.msix_queues (d : Dev) (f v : Nat) : (d.msix f v).hif.queues = d.hif.queues := by
  rcases d.msix_cases f v with h | ⟨l, h⟩ <;> rw [h] <;> rfl

theorem Dev.post_queues_other (d : Dev) (f q : Nat) (c : Command) (h st fl r : Nat) {k : Nat} (hk : k ≠ 64 * f + q) :
    Tab.get {} k (d.post f q c h st fl r).hif.queues = Tab.get {} k d.hif.queues := by
  unfold Dev.post
  dsimp only
  split
  · rw [Dev.msix_queues]; exact Tab.get_put_other _ hk _ _
  · exact Tab.get_put_other _ hk _ _

/-- The queue after a completion: CQ_TAIL moves on, the phase inverts at the wrap, one more entry is unread (R119). -/
theorem Dev.post_queue (d : Dev) (f q : Nat) (c : Command) (h st fl r : Nat) :
    (d.post f q c h st fl r).queue f q =
      { d.queue f q with
        cqTail := ((d.queue f q).cqTail + 1) % (d.queue f q).cqSize
        phase := if ((d.queue f q).cqTail + 1) % (d.queue f q).cqSize = 0 then !(d.queue f q).phase else (d.queue f q).phase
        unread := (d.queue f q).unread + 1 } := by
  have hq : ∀ (d : Dev) (o : Output) (f q : Nat), (d.emit o).queue f q = d.queue f q := fun _ _ _ _ => rfl
  unfold Dev.post; split <;> simp [hq]

/-- A message adds at most itself to the output. -/
theorem Dev.msix_out (d : Dev) (f v : Nat) : ∃ l, (d.msix f v).out = d.out ++ l := by
  rcases d.msix_cases f v with h | ⟨l, h⟩ <;> rw [h]
  · exact ⟨_, rfl⟩
  · exact ⟨[], by simp⟩

/-- The output of a completion: the entry at CQ_TAIL, and with NOTIFY at most a message after it (R119, R384). -/
theorem Dev.post_out (d : Dev) (f q : Nat) (c : Command) (h st fl r : Nat) :
    ∃ l, (d.post f q c h st fl r).out = d.out ++ .completion f q (d.queue f q).cqTail
      (completionEntry (cmdId c) q h st (fl + 128 * bit (d.queue f q).phase) r) :: l ∧ (cmdNotify c = false → l = []) := by
  unfold Dev.post
  dsimp only
  split
  · rename_i hn
    obtain ⟨l, hl⟩ := Dev.msix_out ((d.setQueue f q { d.queue f q with
      cqTail := ((d.queue f q).cqTail + 1) % (d.queue f q).cqSize
      phase := if ((d.queue f q).cqTail + 1) % (d.queue f q).cqSize = 0 then !(d.queue f q).phase else (d.queue f q).phase
      unread := (d.queue f q).unread + 1 }).emit (.completion f q (d.queue f q).cqTail
        (completionEntry (cmdId c) q h st (fl + 128 * bit (d.queue f q).phase) r))) f (d.queue f q).vector
    exact ⟨l, by rw [hl]; simp [Dev.emit], by simp [hn]⟩
  · exact ⟨[], rfl, fun _ => rfl⟩

@[simp] theorem Dev.funcResetting_opens (d : Dev) (l : List OpenCmd) (f : Nat) : ({ d with opens := l } : Dev).funcResetting f = d.funcResetting f := rfl

/-- A completion takes the command off the open ones. -/
theorem Dev.complete_opens (d : Dev) (uid st r fl : Nat) : (d.complete uid st r fl).opens = d.opens.filter fun o => o.uid ≠ uid := by
  unfold Dev.complete
  split
  · rename_i h
    have : ∀ o ∈ d.opens, o.uid ≠ uid := by
      intro o ho hu
      have := List.find?_eq_none.1 h o ho
      simp [hu] at this
    exact (List.filter_eq_self.2 fun o ho => by simp [this o ho]).symm
  · split
    · rfl
    · dsimp only; split <;> simp

@[simp] theorem Dev.complete_events (d : Dev) (uid st r fl : Nat) : (d.complete uid st r fl).events = d.events := by
  unfold Dev.complete
  split
  · rfl
  · split
    · rfl
    · dsimp only; split <;> simp

/-- A completion of an open command that is not silent, of a function that is not under reset, posts its status and result. -/
theorem Dev.complete_open (d : Dev) {uid : Nat} {o : OpenCmd} (st r fl : Nat) (h : d.openOf uid = some o) (hq : o.quiet = false)
    (hf : d.funcResetting o.func = false) :
    d.complete uid st r fl = ({ d with opens := d.opens.filter fun x => x.uid ≠ uid } : Dev).post o.func o.queue o.cmd o.sqHead st fl r := by
  unfold Dev.complete
  simp [h, hq, hf]

end Sys2Proof.Machine
end

