-- ==== Sys2Proof/Laws/Registers.lean ====
section
/-!
SUPPORT. What a write of a register does: by the host, where the package serves it and where not, and over the management bus.
-/
namespace Sys2Proof.Machine

/-- A package that serves the host outside recovery mode takes every aligned 64-bit write of the physical function, and a function's own. -/
theorem takesWrite_of_open {d : Dev} (h : d.hostOpen = true) (f off v : Nat) (hf : f = 0 ∨ vfServed off = true) : d.takesWrite f off v = true := by
  simp only [Dev.hostOpen, Dev.bar0Open, Bool.and_eq_true, Bool.not_eq_true'] at h
  obtain ⟨⟨h1, h2⟩, h3⟩ := h
  have h2 : d.ras.st = .running ∨ d.ras.st = .resetting := by simpa using h2
  have hf : (decide (f = 0) || vfServed off) = true := by simpa using hf
  rcases h2 with h2 | h2 <;> simp [Dev.takesWrite, Dev.answersHost, h1, h2, h3, hf]

/-- An aligned 64-bit write of the host is a write of that register. -/
theorem hostWrite_open {s : State} (h : s.dev.hostOpen = true) (f off v : Nat) (ha : off % 8 = 0) (hf : f = 0 ∨ vfServed off = true) :
    s.hostWrite f off true v = s.writeReg f off v false false := by
  have ho : off / 8 * 8 = off := by omega
  simp [State.hostWrite, writtenValue, aligned, ha, ho, takesWrite_of_open h f off v hf]

/-- A write begins a package reset: RAS_RESET with DOMAIN 4, and RAS_UNRETIRE. -/
def startsReset (off v : Nat) : Prop := (off = 0x800020 ∧ v % 8 = 4) ∨ off = 0x800050

/-- A register other than RAS_FENCE is written outside the core maps, but for KF_VMAP where a package reset begins. -/
theorem writeReg_dev {s : State} (f off v : Nat) (m a : Bool) (h : off ≠ 0x800048) (h1 : ¬startsReset off v) :
    s.writeReg f off v m a = { s with dev := s.dev.writeReg s.env f off v m a } := by
  simp only [startsReset, not_or] at h1
  simp [State.writeReg, h, h1.1, h1.2, State.onDev]
theorem writeReg_reset {s : State} (f off v : Nat) (m a : Bool) (h : startsReset off v) :
    s.writeReg f off v m a = s.onReset fun e d => d.writeReg e f off v m a := by
  rcases h with ⟨rfl, h⟩ | rfl <;> simp_all [State.writeReg]

/-- A package reset that begins clears KF_VMAP; nothing else of the maps, and LOCAL_TIME, ever changes with it. -/
theorem onReset_dev (s : State) (f : Env → Dev → Dev) : (s.onReset f).dev = f s.env s.dev := by
  cases h : (f s.env s.dev).inPackageReset && !s.dev.inPackageReset <;> simp [State.onReset, State.onDev, h]
theorem onReset_time (s : State) (f : Env → Dev → Dev) : (s.onReset f).time = s.time := by
  cases h : (f s.env s.dev).inPackageReset && !s.dev.inPackageReset <;> simp [State.onReset, State.onDev, h]
theorem onReset_kf (s : State) (f : Env → Dev → Dev) : (s.onReset f).kf =
    if (f s.env s.dev).inPackageReset && !s.dev.inPackageReset then { s.kf with vmap := [] } else s.kf := by
  cases h : (f s.env s.dev).inPackageReset && !s.dev.inPackageReset <;> simp [State.onReset, State.onDev, h]

@[simp] theorem onReset_fuse (s : State) (f : Env → Dev → Dev) : (s.onReset f).fuse = s.fuse := by
  cases h : (f s.env s.dev).inPackageReset && !s.dev.inPackageReset <;> simp [State.onReset, State.onDev, h]
@[simp] theorem onReset_pending (s : State) (f : Env → Dev → Dev) : (s.onReset f).pending = s.pending := by
  cases h : (f s.env s.dev).inPackageReset && !s.dev.inPackageReset <;> simp [State.onReset, State.onDev, h]

/-- The end of a package reset writes the core maps anew; nothing else. -/
theorem loaded_cases (s t : State) : (s.loaded t = t ∧ (s.dev.inPackageReset && !t.dev.inPackageReset) = false) ∨
    (s.loaded t = { t with kf := t.kf.boot } ∧ (s.dev.inPackageReset && !t.dev.inPackageReset) = true) := by
  unfold State.loaded; split
  · exact .inr ⟨rfl, ‹_›⟩
  · exact .inl ⟨rfl, eq_false_of_ne_true ‹_›⟩

/-- A package that is not supplied takes no message. -/
theorem mgmtWrite_unpowered {s : State} (h : s.dev.pins.powered = false) (w : Writer) (off v : Nat) : s.mgmtWrite w off v = s := by
  simp [State.mgmtWrite, h]

/-- A write that is refused over the management bus is answered and changes nothing; that of RAS_UNRETIRE leaves its reason. -/
theorem mgmtWrite_refused {s : State} (h : s.dev.pins.powered = true) (w : Writer) (off v : Nat) (hs : s.dev.mgmtStatus w off ≠ Config.ok)
    (ho : off ≠ 0x800050) : s.mgmtWrite w off v = { s with dev := s.dev.emit (.response (s.dev.mgmtStatus w off) []) } := by
  simp [State.mgmtWrite, h, hs, ho, State.onDev]

/-- A write that is accepted over the management bus acts and is answered. -/
theorem mgmtWrite_accepted {s : State} (h : s.dev.pins.powered = true) (w : Writer) (off v : Nat) (hs : s.dev.mgmtStatus w off = Config.ok)
    (hr : s.dev.sec.recovery = false) :
    s.mgmtWrite w off v = (s.writeReg 0 off v true true).onDev fun _ d => d.emit (.response Config.ok []) := by
  simp [State.mgmtWrite, h, hs, hr]

end Sys2Proof.Machine
end

