-- ==== Sys2Proof/Laws/Start.lean ====
section
/-!
SUPPORT. How a Control ISA command starts: its number is new, it stands last among the open commands, and a completion at once leaves the rest of the
package alone.
-/
namespace Sys2Proof.Machine

theorem foldl_max_ge (l : List Nat) (a : Nat) : a ≤ l.foldl max a ∧ ∀ x ∈ l, x ≤ l.foldl max a := by
  induction l generalizing a with
  | nil => simp
  | cons b t ih =>
    have h := ih (max a b)
    refine ⟨le_trans (le_max_left a b) h.1, fun x hx => ?_⟩
    rcases List.mem_cons.1 hx with rfl | hx
    · exact le_trans (le_max_right a x) h.1
    · exact h.2 x hx

/-- No open command has the fresh number. -/
theorem Dev.freshUid_new (d : Dev) (o : OpenCmd) (h : o ∈ d.opens) : o.uid ≠ d.freshUid := by
  have := (foldl_max_ge (d.opens.map fun o => o.uid + 1) d.nextUid).2 (o.uid + 1) (List.mem_map.2 ⟨o, h, rfl⟩)
  unfold Dev.freshUid; omega

theorem Dev.filter_freshUid (d : Dev) : (d.opens.filter fun o => o.uid ≠ d.freshUid) = d.opens :=
  List.filter_eq_self.2 fun o h => by simp [d.freshUid_new o h]

section
variable (d : Dev) (e : Env) (f q : Nat) (x : Fetched) (owner : Bool)

@[simp] theorem Dev.openHead_uid : (d.openHead e f q x owner).1.uid = d.freshUid := rfl
@[simp] theorem Dev.openHead_cmd : (d.openHead e f q x owner).1.cmd = x.cmd := rfl
@[simp] theorem Dev.openHead_func : (d.openHead e f q x owner).1.func = f := rfl
@[simp] theorem Dev.openHead_queueNo : (d.openHead e f q x owner).1.queue = q := rfl
@[simp] theorem Dev.openHead_sqHead : (d.openHead e f q x owner).1.sqHead = x.sqHead := rfl
@[simp] theorem Dev.openHead_quiet : (d.openHead e f q x owner).1.quiet = false := rfl
@[simp] theorem Dev.openHead_die : (d.openHead e f q x owner).1.die = (d.queue f q).dieOf := rfl
@[simp] theorem Dev.openHead_opens : (d.openHead e f q x owner).2.opens = d.opens ++ [(d.openHead e f q x owner).1] := rfl

/-- Nothing but the queue, the open commands and the next number changes when a command is opened. -/
theorem Dev.openHead_rest : (d.openHead e f q x owner).2 =
    { d with hif := { d.hif with queues := (d.openHead e f q x owner).2.hif.queues }, nextUid := d.freshUid + 1
             opens := d.opens ++ [(d.openHead e f q x owner).1] } := rfl

theorem Dev.openHead_queue : (d.openHead e f q x owner).2.queue f q =
    { d.queue f q with fetched := (d.queue f q).fetched.tail, heldSince := none, exec := none } :=
  Dev.queue_setQueue d f q _

/-- The opened command is the one that its number names. -/
@[simp] theorem Dev.openHead_openOf : (d.openHead e f q x owner).2.openOf d.freshUid = some (d.openHead e f q x owner).1 := by
  have : d.opens.find? (fun o => o.uid = d.freshUid) = none :=
    List.find?_eq_none.2 fun o h => by simp [d.freshUid_new o h]
  simp [Dev.openOf, List.find?_append, this]

end

/-- The queues other than its own do not change when a command is opened. -/
theorem Dev.openHead_queues_other (d : Dev) (e : Env) (f q : Nat) (x : Fetched) (owner : Bool) {k : Nat} (hk : k ≠ 64 * f + q) :
    Tab.get {} k (d.openHead e f q x owner).2.hif.queues = Tab.get {} k d.hif.queues := Tab.get_put_other _ hk _ _

/-- A device that differs in queues and the next number alone posts a completion. -/
theorem Dev.completed_of_post (d d1 : Dev) (f q : Nat) (x : Fetched) (status result : Nat)
    (h1 : d1 = { d with hif := { d.hif with queues := d1.hif.queues }, nextUid := d1.nextUid })
    (h2 : d1.queue f q = { d.queue f q with fetched := (d.queue f q).fetched.tail, heldSince := none, exec := none })
    (h3 : ∀ k, k ≠ 64 * f + q → Tab.get {} k d1.hif.queues = Tab.get {} k d.hif.queues) :
    Completed d (d1.post f q x.cmd x.sqHead status 0 result) f q x status result := by
  have hout : d1.out = d.out := by rw [h1]
  constructor
  · have h := Dev.post_rest d1 f q x.cmd x.sqHead status 0 result
    generalize d1.post f q x.cmd x.sqHead status 0 result = p at h ⊢
    rw [h1] at h
    rw [h]
  · rw [Dev.post_queue, h2]; rfl
  · intro k hk
    rw [Dev.post_queues_other _ _ _ _ _ _ _ _ hk, h3 k hk]
  · obtain ⟨l, e1, e2⟩ := Dev.post_out d1 f q x.cmd x.sqHead status 0 result
    refine ⟨l, ?_, e2⟩
    rw [e1, h2, hout, Nat.zero_add]

/-- A completion that a command posts at its start, seen from before the start. -/
theorem Dev.completed_of_open (d : Dev) (e : Env) (f q : Nat) (x : Fetched) (owner : Bool) (status result : Nat)
    (hf : d.funcResetting f = false) :
    Completed d ((d.openHead e f q x owner).2.complete d.freshUid status result) f q x status result := by
  have hf' : (d.openHead e f q x owner).2.funcResetting (d.openHead e f q x owner).1.func = false := hf
  rw [Dev.complete_open _ status result 0 (Dev.openHead_openOf d e f q x owner) rfl hf']
  have ho : ((d.openHead e f q x owner).2.opens.filter fun y => y.uid ≠ d.freshUid) = d.opens := by
    rw [Dev.openHead_opens, List.filter_append, d.filter_freshUid]; simp
  rw [ho]
  exact Dev.completed_of_post d _ f q x status result rfl (Dev.openHead_queue d e f q x owner)
    fun k hk => Dev.openHead_queues_other d e f q x owner hk

/-- A head that may start is at the head of its queue. -/
theorem Dev.mayStart_head {d : Dev} {e : Env} {f q : Nat} {c : Command} {x : Fetched} {owner : Bool}
    (h : d.mayStart e f q c = some (x, owner)) : d.headOf f q c = some x := by
  unfold Dev.mayStart at h
  split at h
  · exact absurd h (by simp)
  · rename_i y hy
    have : ∀ (o : Option (Fetched × Bool)), (∀ z b, o = some (z, b) → z = y) → o = some (x, owner) → d.headOf f q c = some x := by
      intro o ho hx
      rw [hy, ho x owner hx]
    refine this _ ?_ h
    intro z b hz
    dsimp only at hz
    split at hz
    · simp_all
    · split at hz
      · split at hz <;> simp_all
      · simp at hz
    · split at hz <;> simp_all

/-- What the head of a queue is. -/
theorem Dev.headOf_spec {d : Dev} {f q : Nat} {c : Command} {x : Fetched} (h : d.headOf f q c = some x) :
    (d.inService = true ∧ d.funcLive f = true ∧ (d.queue f q).st ≠ .unbound ∧ d.queueBlocked f q = false) ∧
    (d.queue f q).fetched.head? = some x ∧ x.cmd = c := by
  unfold Dev.headOf at h
  split at h
  · rename_i hc
    simp only [Bool.and_eq_true, Bool.not_eq_true', decide_eq_true_eq] at hc
    split at h
    · rename_i y hy
      split at h
      · rename_i hcmd
        obtain rfl : y = x := by simpa using h
        exact ⟨⟨hc.1.1.1, hc.1.1.2, hc.1.2, hc.2⟩, hy, hcmd⟩
      · simp at h
    · simp at h
  · simp at h

theorem Dev.headOf_live {d : Dev} {f q : Nat} {c : Command} {x : Fetched} (h : d.headOf f q c = some x) : d.funcResetting f = false := by
  have := (Dev.headOf_spec h).1.2.1
  simp only [Dev.funcLive, Bool.and_eq_true, Bool.not_eq_true'] at this
  exact this.2

end Sys2Proof.Machine
end

