-- ==== Sys2Proof/Laws/Tiers.lean ====
section
/-!
SUPPORT. What the shared operations of the memory tiers can do: looking for a free place round a range, the translation cache, and the requests of the fixed
slots, which touch the arbiters alone.
-/
namespace Sys2Proof.Machine

/-! ### Looking for a place -/

theorem findFrom_some {p : Nat → Bool} {start n g : Nat} (h : findFrom p start n = some g) : start ≤ g ∧ g < start + n ∧ p g = true := by
  induction n generalizing start with
  | zero => cases h
  | succ n ih =>
    by_cases hp : p start = true
    · rw [findFrom, if_pos hp] at h; cases h; exact ⟨le_refl _, by omega, hp⟩
    · rw [findFrom, if_neg hp] at h
      obtain ⟨a, b, c⟩ := ih h
      exact ⟨by omega, by omega, c⟩

theorem findFrom_isSome {p : Nat → Bool} {start n g : Nat} (a : start ≤ g) (b : g < start + n) (h : p g = true) : (findFrom p start n).isSome = true := by
  induction n generalizing start with
  | zero => omega
  | succ n ih =>
    by_cases hp : p start = true
    · rw [findFrom, if_pos hp]; rfl
    · have : start ≠ g := fun e => hp (e ▸ h)
      rw [findFrom, if_neg hp]; exact ih (by omega) (by omega)

/-- What is found lies in the range and has the property. -/
theorem findRound_some {p : Nat → Bool} {base n point g : Nat} (h : findRound p base n point = some g) : base ≤ g ∧ g < base + n ∧ p g = true := by
  by_cases hn : n = 0
  · rw [findRound, if_pos hn] at h; cases h
  · have hm : point % n < n := Nat.mod_lt _ (by omega)
    rw [findRound, if_neg hn] at h
    cases e : findFrom p (base + point % n) (n - point % n) with
    | some y =>
      rw [e] at h; cases h
      obtain ⟨a, b, c⟩ := findFrom_some e
      exact ⟨by omega, by omega, c⟩
    | none =>
      rw [e] at h
      obtain ⟨a, b, c⟩ := findFrom_some h
      exact ⟨a, by omega, c⟩

/-- A place of the range that has the property is never missed, wherever the search begins. -/
theorem findRound_isSome {p : Nat → Bool} {base n g : Nat} (point : Nat) (a : base ≤ g) (b : g < base + n) (h : p g = true) :
    (findRound p base n point).isSome = true := by
  have hn : n ≠ 0 := by omega
  rw [findRound, if_neg hn]
  by_cases c : base + point % n ≤ g
  · have := findFrom_isSome (p := p) (start := base + point % n) (n := n - point % n) c (by omega) h
    obtain ⟨y, hy⟩ := Option.isSome_iff_exists.1 this
    rw [hy]; rfl
  · have := findFrom_isSome (p := p) (start := base) (n := point % n) a (by omega) h
    cases findFrom p (base + point % n) (n - point % n) with
    | some y => rfl
    | none => exact this

/-- Whether a place is found does not depend on where the search begins. -/
theorem findRound_point (p : Nat → Bool) (base n x y : Nat) : (findRound p base n x).isSome = (findRound p base n y).isSome := by
  have one : ∀ x y, (findRound p base n x).isSome = true → (findRound p base n y).isSome = true := fun x y h => by
    obtain ⟨g, hg⟩ := Option.isSome_iff_exists.1 h
    obtain ⟨a, b, c⟩ := findRound_some hg
    exact findRound_isSome y a b c
  exact Bool.eq_iff_iff.2 ⟨one x y, one y x⟩

theorem Dev.findUnit_point (d : Dev) (die k x y : Nat) : (d.findUnit die k x).isSome = (d.findUnit die k y).isSome := by
  unfold Dev.findUnit
  generalize stackOrder die k = l
  induction l with
  | nil => rfl
  | cons s t ih =>
    have h := findRound_point d.unitFree (d.stackUnits die s).1 (d.stackUnits die s).2 x y
    simp only [List.findSome?_cons]
    cases hx : findRound d.unitFree (d.stackUnits die s).1 (d.stackUnits die s).2 x <;>
      cases hy : findRound d.unitFree (d.stackUnits die s).1 (d.stackUnits die s).2 y <;> rw [hx, hy] at h
    · exact ih
    · cases h
    · cases h
    · rfl

/-- A segment is written on a die exactly where the die has a free unit for it. -/
theorem Dev.writeSegment_isSome (e : Env) (d : Dev) (n die i : Nat) (plain : List Byte) (pinned : Bool) (r : FixReq) :
    (d.writeSegment e n die i plain pinned r).isSome = (d.findUnit die i 0).isSome := by
  rw [Dev.findUnit_point d die i 0 (d.free 64).1.toNat]
  unfold Dev.writeSegment Dev.takeUnit
  have : ∀ x, (d.free 64).2.findUnit die i x = d.findUnit die i x := fun _ => rfl
  dsimp only
  rw [this]
  cases d.findUnit die i (d.free 64).1.toNat <;> rfl

/-! ### The fixed slots -/

section
variable (d : Dev) (e : Env) (now p k : Nat)

@[simp] theorem Dev.fixedOf_setFixed (l : List FixReq) : (d.setFixed p k l).fixedOf p k = l := Tab.get_set_same _ _ _ _
@[simp] theorem Dev.arbSlot_setArbSlot (x : ArbSlot) : (d.setArbSlot p k x).arbSlot p k = x := Tab.get_set_same _ _ _ _
theorem Dev.arbSlot_setArbSlot_other (x : ArbSlot) {q j : Nat} (h : 64 * q + j ≠ 64 * p + k) : (d.setArbSlot p k x).arbSlot q j = d.arbSlot q j :=
  Tab.get_set_other _ h _ _
theorem Dev.fixedOf_setFixed_other (l : List FixReq) {q j : Nat} (h : 64 * q + j ≠ 64 * p + k) : (d.setFixed p k l).fixedOf q j = d.fixedOf q j :=
  Tab.get_set_other _ h _ _
@[simp] theorem Dev.arbSlot_setFixed (l : List FixReq) (q j : Nat) : (d.setFixed p k l).arbSlot q j = d.arbSlot q j := rfl
@[simp] theorem Dev.fixedOf_setArbSlot (x : ArbSlot) (q j : Nat) : (d.setArbSlot p k x).fixedOf q j = d.fixedOf q j := rfl

theorem Dev.setFixed_rest (l : List FixReq) : d.setFixed p k l = { d with arb := (d.setFixed p k l).arb } := rfl
theorem Dev.setArbSlot_rest (x : ArbSlot) : d.setArbSlot p k x = { d with arb := (d.setArbSlot p k x).arb } := rfl

/-- Presenting a request touches the arbiters alone. -/
theorem Dev.present_cases : ∃ a, d.present now p k = { d with arb := a } := by
  unfold Dev.present; split
  · exact ⟨d.arb, rfl⟩
  · split
    · exact ⟨d.arb, rfl⟩
    · exact ⟨_, rfl⟩

/-- A slot that presents a request goes on presenting it; one that has a request presents its oldest. -/
theorem Dev.present_busy (h : (d.arbSlot p k).ready = true) : d.present now p k = d := by unfold Dev.present; rw [if_pos h]
theorem Dev.present_ready (h : d.fixedOf p k ≠ []) : ((d.present now p k).arbSlot p k).ready = true := by
  by_cases hr : (d.arbSlot p k).ready = true
  · rw [Dev.present_busy d now p k hr]; exact hr
  · unfold Dev.present; rw [if_neg hr]
    cases e : d.fixedOf p k with
    | nil => exact absurd e h
    | cons r t => simp

/-- Asking touches the arbiters alone. -/
theorem Dev.ask_cases (r : FixReq) : ∃ a, d.ask e k r = { d with arb := a } := by
  obtain ⟨a, h⟩ := Dev.present_cases (d.setFixed (e.fuse.arbiterOf r.pa) k (d.fixedOf (e.fuse.arbiterOf r.pa) k ++ [r])) e.now (e.fuse.arbiterOf r.pa) k
  exact ⟨a, h⟩

theorem foldl_arb {α : Type} {f : Dev → α → Dev} (h : ∀ d x, ∃ a, f d x = { d with arb := a }) (l : List α) (d : Dev) :
    ∃ a, l.foldl f d = { d with arb := a } := by
  induction l generalizing d with
  | nil => exact ⟨d.arb, rfl⟩
  | cons x t ih =>
    obtain ⟨a, g⟩ := h d x
    rw [List.foldl_cons, g]; exact ih { d with arb := a }

theorem Dev.askRange_cases (r : FixReq) (n : Nat) (slot : Nat → Nat → Option Nat) : ∃ a, d.askRange e r n slot = { d with arb := a } := by
  refine foldl_arb (fun d i => ?_) _ d
  dsimp only
  split
  · exact Dev.ask_cases ..
  · exact ⟨d.arb, rfl⟩

/-- A data move draws which mover moves each block, and asks. -/
theorem Dev.moved_cases (die pa n : Nat) (r : FixReq) : ∃ a c, Dev.moved e d die pa n r = { d with arb := a, freeCount := c } := by
  obtain ⟨a, h⟩ := Dev.askRange_cases (d.free (2 * blocksOf pa n)).2 e { r with pa := pa } n
    fun i q => some ((if q < 640 then 16 else 4 * die) + bitsAt (d.free (2 * blocksOf pa n)).1.toNat (2 * i) 2)
  exact ⟨a, _, h⟩

/-- The places of a walk's entries are read, or drawn. -/
theorem Dev.walkPath_cases (u : Fuses) (a : Access) (va : Nat) : ∃ c, (d.walkPath u a va).2 = { d with freeCount := c } := by
  unfold Dev.walkPath; split
  · exact ⟨d.freeCount, rfl⟩
  · exact ⟨_, rfl⟩

/-- A walk that begins asks for its first entry. -/
theorem Dev.askWalk_cases (who : Option Requester) (a : Access) (va : Nat) : ∃ x c, d.askWalk e who a va = { d with arb := x, freeCount := c } := by
  obtain ⟨c, h⟩ := d.walkPath_cases e.fuse a va
  unfold Dev.askWalk; split
  · exact ⟨d.arb, d.freeCount, rfl⟩
  · dsimp only; split
    · exact ⟨d.arb, c, h⟩
    · rename_i x t _
      obtain ⟨y, g⟩ := Dev.ask_cases (d.walkPath e.fuse a va).2 e 15 { who := who, pa := x.2, n := 1, va := some va, path := t.map (·.2) }
      exact ⟨y, c, by rw [g, h]⟩

/-- A requester that withdraws asks for nothing any more. -/
theorem Dev.asks_withdraw (who : Requester) : (d.withdraw who).asks who = false := by
  unfold Dev.asks Dev.withdraw Dev.withdrawBy
  rw [List.any_eq_false]
  intro x hx h
  obtain ⟨r, hr, g⟩ := List.any_eq_true.1 h
  obtain ⟨y, -, rfl⟩ := List.mem_map.1 (List.mem_filter.1 hx).1
  have := (List.mem_filter.1 hr).2
  simp_all

/-- A served transfer touches the arbiters and the units' counters alone. -/
theorem Dev.servedFixed_cases : ∃ a b, d.servedFixed e p k = { d with arb := a, btr := b } := by
  unfold Dev.servedFixed; split
  · exact ⟨_, d.btr, rfl⟩
  · rename_i r t _
    dsimp only
    have step : ∀ v : Dev, (∃ a b, v = { d with arb := a, btr := b }) → ∃ a b, v.present e.now p k = { d with arb := a, btr := b } := by
      rintro _ ⟨a, b, rfl⟩
      obtain ⟨a', h⟩ := Dev.present_cases { d with arb := a, btr := b } e.now p k
      exact ⟨a', b, h⟩
    apply step
    have ask : ∀ (v : Dev) (q : FixReq), (∃ a b, v = { d with arb := a, btr := b }) → ∃ a b, v.ask e 15 q = { d with arb := a, btr := b } := by
      rintro _ q ⟨a, b, rfl⟩
      obtain ⟨a', h⟩ := Dev.ask_cases { d with arb := a, btr := b } e 15 q
      exact ⟨a', b, h⟩
    have base : ∀ (v : Dev) (x : ArbSlot) (l : List FixReq), (∃ a b, v = { d with arb := a, btr := b }) →
        ∃ a b, (v.setFixed p k l).setArbSlot p k x = { d with arb := a, btr := b } := by
      rintro _ x l ⟨a, b, rfl⟩; exact ⟨_, b, rfl⟩
    split
    · split
      · exact ask _ _ (base _ _ _ (by split; exacts [⟨d.arb, _, rfl⟩, ⟨d.arb, d.btr, rfl⟩]))
      · exact base _ _ _ (by split; exacts [⟨d.arb, _, rfl⟩, ⟨d.arb, d.btr, rfl⟩])
    · exact base _ _ _ (by split; exacts [⟨d.arb, _, rfl⟩, ⟨d.arb, d.btr, rfl⟩])

end

end Sys2Proof.Machine
end

