-- ==== Sys2Proof/Tests/Slice0.lean ====
section
/-!
SUPPORT. Tests of the model. For every statement with hypotheses, a state and operands that meet them (`witness_<statement>`, a clause's boundary values
where it has a range); for every check of well-formedness, terms that it refuses (`smoke_…`); single steps and the formats and algorithms against values
that come from the spec's tables and from the standards (`test_…`).
-/
namespace Sys2Proof.Tests
open Sys2Proof.Machine

/- The tests are checked one after another: their kernel evaluations would otherwise all wait at once, each in a thread of its own. -/
set_option Elab.async false

/-! ### States and commands -/

/-- A Control ISA command of opcode `op` with CMD_ID 7: each field as its byte offset and value (R116, R117). -/
def cmd (op : Nat) (fields : List (Nat × Nat)) : Command :=
  BitVec.ofNat 512 (op + 7 * 2 ^ 16 + (fields.map fun x => x.2 * 2 ^ (8 * x.1)).sum)

/-- A package that runs, its runtime READY. -/
def up : Dev := { pins := { perst := false }, hif := { ready := true } }

/-- A bound queue of function 0 on die 0 with rings of 16 entries and ASID 1, these commands fetched. -/
def bound (l : List Command) : Queue :=
  { cfg := 0x10404#64, st := .bound, enable := true, phase := true, sqTail := 5, fetched := l.map fun c => { cmd := c, sqHead := 1 } }

/-- The package with these commands in queue 3 of function 0. -/
def serving (l : List Command) : Dev := { up with hif := { ready := true, queues := [(3, bound l)] } }

/-- A state of that package at LOCAL_TIME 1000. -/
def at_ (d : Dev) : State := { State.reset with dev := d, time := 1000#64 }

/-- Whether a row completes in a state with a property. -/
def after (r : Res) (p : State → Bool) : Bool :=
  match r with
  | .next t => p t
  | _ => false

def isRefused (r : Res) : Bool :=
  match r with
  | .refused .illFormed => true
  | _ => false

/-! ### Witnesses: the machine and the Control ISA -/

theorem witness_RowsComplete : Instr.wf .powerOn = true ∧ Instr.wf (.nop 0 0 (cmd 0x14 [])) = false := by decide +kernel

theorem next_of_after {r : Res} {p : State → Bool} (h : after r p = true) : ∃ t, r = .next t ∧ p t = true := by
  cases r <;> simp_all [after]

theorem witness_IdleCountsTime :
    (up.pins.powered = true ∧ (at_ up).pending = [] ∧ up.coreCounts 15 31 = false) ∧ ({ State.reset with dev := { pins := { powered := false } } } : State).dev.pins.powered = false := by
  decide +kernel

theorem witness_MapsAndTimeFrame :
    ∃ t, exec (.nop 0 3 (cmd 0x01 [])) (at_ (serving [cmd 0x01 []])) = .next t ∧ mayFence (.nop 0 3 (cmd 0x01 [])) = false ∧
      mayMoveTime (.nop 0 3 (cmd 0x01 [])) = false ∧ t.dev.out ≠ [] := by
  obtain ⟨t, h, p⟩ := next_of_after (r := exec (.nop 0 3 (cmd 0x01 [])) (at_ (serving [cmd 0x01 []]))) (p := fun t => t.dev.out ≠ []) (by decide +kernel)
  exact ⟨t, h, rfl, rfl, by simpa using p⟩

/-- Cluster 0 usable with every core healthy, its positions 0 and 1 on cores 1 and 0. -/
def mapped : Kf := { clusterMap := 1#16, vmap := [(0, 0x81#8), (1, 0x80#8)] }

theorem mapped_physOf (c v : Nat) : mapped.physOf c v = if 32 * c + v = 0 then some 1 else if 32 * c + v = 1 then some 0 else none := by
  unfold Kf.physOf Kf.vmapEntry mapped Tab.get Tab.get Tab.get
  by_cases h0 : 32 * c + v = 0
  · rw [if_pos h0.symm, if_pos h0]; decide
  · rw [if_neg (Ne.symm h0), if_neg h0]
    by_cases h1 : 32 * c + v = 1
    · rw [if_pos h1.symm, if_pos h1]; decide
    · rw [if_neg (Ne.symm h1), if_neg h1]; decide

theorem mapped_sound : mapped.Sound where
  staffed := by
    have h : ∀ c, c < 16 → mapped.usable c = true → 30 ≤ mapped.healthy c := by decide +kernel
    exact h
  healthy := fun c v p _ _ h => by
    rw [mapped_physOf] at h
    have hc : c = 0 := Decidable.byContradiction fun hc => by rw [if_neg (by omega), if_neg (by omega)] at h; cases h
    subst hc
    refine ⟨by decide, ?_⟩
    split at h
    · cases h; decide
    · split at h <;> cases h
      decide
  distinct := fun c v w p _ _ _ h k => by
    rw [mapped_physOf] at h k
    split at h
    · split at k
      · omega
      · split at k
        · cases h; cases k
        · cases k
    · split at h
      · split at k
        · cases h; cases k
        · split at k
          · omega
          · cases k
      · cases h

theorem witness_SoundMapsKept : ∃ t, ({ at_ up with kf := mapped } : State).kf.Sound ∧ step { at_ up with kf := mapped } = .next t :=
  ⟨_, mapped_sound, rfl⟩

/-- A part with core 0 of cluster 0 fenced at test. -/
def fusedFault : State :=
  { at_ up with fuse := { fusedCores := [(0, 1#32)] }, kf := { fenced := [(0, 1#32)] } }

theorem witness_FencedCoresStay :
    (∃ t, step fusedFault = .next t ∧ (∀ rest, fusedFault.pending ≠ .powerRemoval :: rest) ∧ bitAt (fusedFault.kf.fencedOf 0).toNat 0 = true) ∧
    (∃ t, step { fusedFault with pending := [.powerRemoval] } = .next t ∧ fusedFault.dev.pins.powered = true) ∧ fusedFault.FusedFenced := by
  refine ⟨⟨_, rfl, fun rest => by simp [fusedFault, at_, State.reset], by decide +kernel⟩, ⟨_, rfl, rfl⟩, fun c p h => ?_⟩
  exact h

/-- A span of function 0 that stands LOADED in slot 5 of die 0 on one core. -/
def loadedSpan : Span := { st := .loaded, nplace := 1, ncores := 1, cores := [{ idx := 0, cl := 0, phys := 0 }] }
/-- SPAN_LAUNCH of it in group `g`. -/
def launch5 (g : Nat) : Command := cmd 0x03 [(12, g), (16, 20)]
def launching (g : Nat) (l : List Group) : Dev := { serving [launch5 g] with spans := [(5, loadedSpan)], groups := l }
/-- The same state with the command opened, as its checks see it. -/
def opened (d : Dev) (c : Command) : OpenCmd × Dev := d.openHead (at_ d).env 0 3 { cmd := c, sqHead := 1 } false

theorem witness_ControlCommandStarts :
    ∃ r r0, ctlRow (.spanLaunch 0 3 (launch5 9)) = some r ∧ ctlRow (.spanLaunch 0 3 (launch5 0)) = some r0 ∧
      r.start (at_ (launching 9 [])) = some ({ cmd := launch5 9, sqHead := 1 }, false) ∧
      r.check (at_ up).env (opened (launching 9 []) (launch5 9)).2 (opened (launching 9 []) (launch5 9)).1 = none ∧
      (opened (launching 9 []) (launch5 9)).1.group ≠ 0 ∧ (opened (launching 9 []) (launch5 9)).2.groupOf 0 9 = none ∧
      r.check (at_ up).env (opened (launching 9 [{ func := 0, num := 9 }]) (launch5 9)).2 (opened (launching 9 []) (launch5 9)).1 = none ∧
      (opened (launching 9 [{ func := 0, num := 9 }]) (launch5 9)).2.groupOf 0 9 = some { func := 0, num := 9 } ∧
      r.check (at_ up).env (opened (launching 9 [{ func := 0, num := 9, aborted := true }]) (launch5 9)).2 (opened (launching 9 []) (launch5 9)).1 = none ∧
      r0.start (at_ (launching 0 [])) = some ({ cmd := launch5 0, sqHead := 1 }, false) ∧
      r0.check (at_ up).env (opened (launching 0 []) (launch5 0)).2 (opened (launching 0 []) (launch5 0)).1 = none ∧
      (opened (launching 0 []) (launch5 0)).1.group = 0 ∧
      r0.check (at_ up).env (opened { serving [launch5 0] with spans := [] } (launch5 0)).2 (opened (launching 0 []) (launch5 0)).1 = some (Config.badHandle, 16) :=
  ⟨_, _, rfl, rfl, by decide +kernel⟩

theorem witness_FailedCheckChangesNothing :
    ∃ r, ctlRow (.nop 0 3 (cmd 0x01 [(9, 1)])) = some r ∧ Instr.wf (.nop 0 3 (cmd 0x01 [(9, 1)])) = true ∧
      r.start (at_ (serving [cmd 0x01 [(9, 1)]])) = some ({ cmd := cmd 0x01 [(9, 1)], sqHead := 1 }, false) ∧
      r.check (at_ up).env (opened (serving [cmd 0x01 [(9, 1)]]) (cmd 0x01 [(9, 1)])).2 (opened (serving [cmd 0x01 [(9, 1)]]) (cmd 0x01 [(9, 1)])).1
        = some (Config.badField, 9) :=
  ⟨_, rfl, by decide +kernel⟩

theorem witness_CommandWaitsItsTurn :
    (∃ r, ctlRow (.nop 0 3 (cmd 0x01 [])) = some r) ∧ Instr.wf (.nop 0 3 (cmd 0x01 [])) = true ∧ Dev.inService {} = false ∧
      Dev.funcLive { up with hif := { up.hif with fresets := [(0, true)] } } 0 = false ∧ (up.queue 0 3).st = .unbound ∧
      Dev.queueBlocked { serving [cmd 0x01 []] with opens := [(opened up (cmd 0x0A [])).1] } 0 3 = true ∧
      (((serving [cmd 0x14 []]).queue 0 3).fetched.head?.map (·.cmd)) ≠ some (cmd 0x01 []) :=
  ⟨⟨_, rfl⟩, by decide +kernel⟩

/-- The package with an open command of queue 3. -/
def busy3 (c : Command) (l : List Command) : Dev := { serving l with opens := [(opened up c).1], nextUid := 2 }

theorem witness_NopAndTimestamp :
    (cmdFence (cmd 0x01 [(1, 2)]) = true ∧ cmdIs opNop (cmd 0x01 [(1, 2)]) = true ∧ cmdIs opTimestamp (cmd 0x14 [(1, 2)]) = true ∧
      (busy3 (cmd 0x02 []) [cmd 0x01 [(1, 2)]]).queueClear 0 3 = false) ∧
    ((serving [cmd 0x14 []]).headOf 0 3 (cmd 0x14 []) = some { cmd := cmd 0x14 [], sqHead := 1 } ∧ reservedBytes (cmd 0x14 []) = [] ∧
      bitAt ((serving []).funcClasses 0) (cmdClass (cmd 0x14 [])) = true ∧ cmdIs opTimestamp (cmd 0x14 []) = true ∧ cmdIs opNop (cmd 0x01 []) = true ∧
      (serving [cmd 0x01 []]).headOf 0 3 (cmd 0x01 []) = some { cmd := cmd 0x01 [], sqHead := 1 } ∧ reservedBytes (cmd 0x01 []) = []) ∧
    (let c := cmd 0x01 [(12, 1), (63, 1)]
     (serving [c]).headOf 0 3 c = some { cmd := c, sqHead := 1 } ∧ cmdIs opNop c = true ∧ reservedBytes c = [12, 63] ∧
      (let d : Dev := { serving [cmd 0x01 []] with sch := { funcs := [(0, 0xC00000#64)] } }
       d.headOf 0 3 (cmd 0x01 []) = some { cmd := cmd 0x01 [], sqHead := 1 } ∧ bitAt (d.funcClasses 0) (cmdClass (cmd 0x01 [])) = false)) := by
  decide +kernel

theorem witness_BadOpcodeCompletes :
    cmdOpcode (cmd 0x00 []) = 0x00 ∧ 0x1B ≤ cmdOpcode (cmd 0x1B []) ∧
      (serving [cmd 0x1B []]).headOf 0 3 (cmd 0x1B []) = some { cmd := cmd 0x1B [], sqHead := 1 } ∧
      (serving [cmd 0x00 []]).headOf 0 3 (cmd 0x00 []) = some { cmd := cmd 0x00 [], sqHead := 1 } := by decide +kernel

/-- WAIT for event counter 1,023 to reach 5; SIGNAL adding 5; BARRIER 2 of two participants. -/
def wait5 : Command := cmd 0x0A [(16, 1023), (24, 5)]
def signal5 : Command := cmd 0x0B [(16, 1023), (24, 5)]
def barrier2 : Command := cmd 0x0C [(16, 2), (17, 2)]

theorem witness_EventsAndBarriers :
    (eventCheck (at_ up).env (opened (serving [wait5]) wait5).2 (opened (serving [wait5]) wait5).1 = none ∧ cmdIs opWait wait5 = true ∧
      (serving [wait5]).headOf 0 3 wait5 = some { cmd := wait5, sqHead := 1 } ∧ waitMet wait5 0 = false ∧ waitMet wait5 5 = true ∧
      ({ serving [wait5] with events := [(1023, 5#64)] } : Dev).event 0 1023 = 5#64) ∧
    (eventCheck (at_ up).env (opened (serving [signal5]) signal5).2 (opened (serving [signal5]) signal5).1 = none ∧ cmdIs opSignal signal5 = true ∧
      (serving [signal5]).headOf 0 3 signal5 = some { cmd := signal5, sqHead := 1 }) ∧
    (barrierCheck (at_ up).env (opened (serving [barrier2]) barrier2).2 (opened (serving [barrier2]) barrier2).1 = none ∧ cmdIs opBarrier barrier2 = true ∧
      (serving [barrier2]).headOf 0 3 barrier2 = some { cmd := barrier2, sqHead := 1 } ∧
      ((serving [barrier2]).atBarrier 0 2).length + 1 < barCount barrier2) ∧
    (let other : OpenCmd := { (opened up barrier2).1 with queue := 9 }
     let d : Dev := { serving [barrier2] with opens := [other], nextUid := 2 }
     barrierCheck (at_ up).env (opened d barrier2).2 (opened d barrier2).1 = none ∧ d.headOf 0 3 barrier2 = some { cmd := barrier2, sqHead := 1 } ∧
      barCount barrier2 ≤ (d.atBarrier 0 (barNumber barrier2)).length + 1) := by decide +kernel

/-- DISPENSE_SET of dispenser 3 of cluster 0, which the span in slot 5 owns: START 2, LIMIT 9. -/
def set3 : Command := cmd 0x05 [(17, 3), (20, 2), (24, 9)]
def dispensing : Dev := { serving [set3] with spans := [(5, { loadedSpan with disps := [(0, 3, 100)] })], disps := [(3, { owner := some 5, pLimit := 100#32 })] }

theorem witness_DispenserProgrammed :
    dispensing.headOf 0 3 set3 = some { cmd := set3, sqHead := 1 } ∧ cmdIs opDispenseSet set3 = true ∧
      dispenseSetCheck (at_ up).env (opened dispensing set3).2 (opened dispensing set3).1 = none := by decide +kernel

/-- A long operation of function 0 in slot 1023, generation 4, and a LONG_ command that names it. -/
def longOp (k : LongKind) (st : LongSt) : LongOp := { used := true, gen := 4, kind := k, st := st }
def longCmd (op : Nat) : Command := cmd op [(16, 1023), (19, 4)]
def longDev (op : Nat) (k : LongKind) (st : LongSt) : Dev := { serving [longCmd op] with longs := [(1023, longOp k st)] }
def longReady (op : Nat) (k : LongKind) (st : LongSt) : Bool :=
  let d := longDev op k st
  d.headOf 0 3 (longCmd op) = some { cmd := longCmd op, sqHead := 1 } && cmdOpcode (longCmd op) = op &&
    longCheck (at_ up).env (opened d (longCmd op)).2 (opened d (longCmd op)).1 = none && longSlot (longCmd op) = 1023 && d.long 1023 = longOp k st

theorem witness_LongOperationCommands :
    longReady opLongQuery .move .running = true ∧ longReady opLongResume .move .suspended = true ∧ longReady opLongResume .move .running = true ∧
    longReady opLongSuspend .move .done = true ∧ longReady opLongSuspend .move .running = true ∧ longReady opLongSuspend (.objRetire 2) .running = true ∧
    longReady opLongCancel .move .done = true ∧ longReady opLongCancel .move .running = true ∧
    (longOp .move .running).chunked = true ∧ (longOp (.objRetire 2) .running).chunked = false ∧
    (longDev opLongSuspend .move .running).longFixed (longOp .move .running) = false ∧
    (longDev opLongSuspend (.objRetire 2) .running).longFixed (longOp (.objRetire 2) .running) = false ∧
    ({ up with vers := [(2, { torn := some [] })] } : Dev).longFixed (longOp (.objRetire 2) .running) = true := by decide +kernel

theorem witness_LaunchStarts :
    let d := launching 0 []
    cmdIs opSpanLaunch (launch5 0) = true ∧ d.mayStart (at_ d).env 0 3 (launch5 0) = some ({ cmd := launch5 0, sqHead := 1 }, false) ∧
      spanLaunchCheck (at_ d).env (opened d (launch5 0)).2 (opened d (launch5 0)).1 = none ∧ cmdGroup (launch5 0) = 0 ∧ cmdSlot (launch5 0) = 5 ∧
      (d.span 5).st = .loaded ∧ (d.span 5).waiting = [] ∧ (d.span 5).running = none ∧ (d.span 5).drain = none ∧ (d.span 5).reload = false ∧
      (d.span 5).keyed = false ∧ d.epochAstray 5 = false ∧ d.unpaired 5 = false := by decide +kernel

/-- An open SPAN_LOAD, SPAN_LAUNCH or SPAN_DRAIN, number 1. -/
def openOp (c : Command) : OpenCmd := { (opened up c).1 with uid := 1 }
def spanDev (p : Span) (c : Command) : Dev := { up with spans := [(5, p)], opens := [openOp c], nextUid := 2 }

theorem witness_SpanCommandsEnd :
    (let d := spanDev { loadedSpan with st := .running, running := some 1 } (launch5 0)
     d.running = true ∧ (d.span 5).running = some 1 ∧ d.sinksEnded 5 = true ∧
      (((d.markIdle 1000 5).restEngines 5).modSpan 5 fun p => { p with running := none, st := if p.drain.isSome then .draining else .loaded }).openOf 1
        = some (openOp (launch5 0)) ∧ (openOp (launch5 0)).opcode ≠ opSeqStep) ∧
    (let d := spanDev { loadedSpan with st := .loading, loadCmd := some 1 } (cmd 0x02 [(25, 5)])
     d.running = true ∧ (d.span 5).loadCmd = some 1 ∧ (d.span 5).st = .loading ∧ d.clustersActive (d.span 5) = true ∧ d.coresReady (d.span 5) = true ∧
      d.replace mapped 5 ≠ none) ∧
    (let d := spanDev { loadedSpan with st := .draining, keyed := true, drain := some 1 } (cmd 0x04 [(16, 20)])
     d.running = true ∧ (d.span 5).st = .draining ∧ (d.span 5).keyed = true ∧ d.sinksKeyed 5 = true ∧ d.hasSender 5 = false ∧ (d.span 5).drain = some 1) ∧
    (let d := spanDev { loadedSpan with reload := true } (launch5 0)
     d.running = true ∧ (d.span 5).reload = true ∧ (d.span 5).st ≠ .free ∧ (d.span 5).st ≠ .loading ∧ d.clustersActive (d.span 5) = true ∧
      d.coresReady (d.span 5) = true ∧ d.replace mapped 5 ≠ none) ∧
    (spanDev { loadedSpan with vroutes := [{ net := 0, src := .port 29 0 0, dsts := [] }] } (launch5 0)).replace mapped 5 = none := by decide +kernel

/-! ### Witnesses: the engine fabric -/

/-- Engine `e` of physical core 31 of cluster 15, at vector port 0 of either direction. -/
def port15 (e : Nat) : EngPort := { cl := 15, phys := 31, eng := e, net := .vector, port := 0 }
def corePort (e : Nat) : RouteDst := .port (port15 e)
/-- The package with these engines on that core, and a route of CE 0 to CE 1 and to send endpoint 31 of die 3. -/
def cored (l : Tab Eng) (free : Nat) : Dev :=
  { up with
    cores := [(511, { engs := l })]
    routes := [{ slot := 192, die := 3, net := .vector, src := .port (port15 0), dsts := [corePort 1, .sendEp 3 31], links := [], free := [free, 8], bases := [0, 0] }]
    pairs := [{ sDie := 3, sEp := 31, rDie := 0, rEp := 0, sSpan := some (3, 0), rSpan := some (0, 1), credit := 1 }] }
def dataTok (n : Nat) : Token := token .data n 0#4 7#512
def flight (t : Token) (dst : RouteDst) : Flight := { src := .port (port15 0), dst := dst, tok := t }

theorem witness_TokenArrives :
    (let d := { cored [] 8 with flights := [flight (dataTok 3) (corePort 1)] }
     (corePort 1).wf = true ∧ d.flights.find? (fun f => f.dst = corePort 1) = some (flight (dataTok 3) (corePort 1)) ∧
      d.coreLive (at_ d).env 15 31 = true ∧ arrivalFault d (port15 1) (queueKey .vector 0) (dataTok 3) .good = none ∧
      (arrivalFault d (port15 1) (queueKey .vector 0) (dataTok 4) .good).isSome = true ∧
      arrivalFault d (port15 1) (queueKey .vector 0) (dataTok 3) .corrected = none ∧
      (arrivalFault d (port15 1) (queueKey .vector 0) (dataTok 3) .uncorrected).isSome = true) ∧
    (let d := { cored [] 8 with flights := [flight (dataTok 3) (.sendEp 3 31)] }
     d.flights.find? (fun f => f.dst = .sendEp 3 31) = some (flight (dataTok 3) (.sendEp 3 31)) ∧ d.running = true) := by decide +kernel

/-- Receive endpoint 31 of die 3, with a route to CE 1, of the pair that holds these items; its span runs in slot 1 of die 0. -/
def receiving (free : Nat) (buf : List HandItem) : Dev :=
  { up with
    spans := [(1, { loadedSpan with st := .running, running := some 1 })]
    routes := [{ slot := 1, die := 3, net := .vector, src := .recvEp 3 31, dsts := [corePort 1], links := [], free := [free], bases := [16] }]
    pairs := [{ sDie := 0, sEp := 0, rDie := 3, rEp := 31, sSpan := some (3, 0), rSpan := some (0, 1), buf := buf, rKey := true }] }
/-- Its pair presents the token of this tag, or none, and whether its destination takes that. -/
def presents (free : Nat) (buf : List HandItem) (want : Option Nat) (go : Bool) : Bool :=
  let d := receiving free buf
  match d.routeFrom (.recvEp 3 31), d.pairInto 3 31 with
  | some r, some p => d.running && p.rSpan = some (0, 1) && (d.span 1).running.isSome && (p.next r).map (·.1) = want &&
      r.views.all (fun v => d.mayGo v.1 v.2.1 v.2.2 (want.getD 0 % 16)) = go
  | _, _ => false

theorem witness_TokensAndCredits_endpoint :
    presents 2 [.tok 17 .data 5#512, .tok 16 .data 6#512] (some 16) true = true ∧ presents 2 [.tok 19 .data 5#512] (some 19) true = true ∧
      presents 1 [.tok 19 .data 5#512] (some 19) false = true ∧ presents 2 [.tok 20 .data 5#512] none true = true ∧ presents 2 [] none true = true ∧
      up.routeFrom (.recvEp 3 31) = none ∧ (RouteSrc.recvEp 3 31).wf = true ∧ up.creditMsgs.find? (fun m => m.src = .recvEp 3 31) = none := by decide +kernel

theorem witness_TokensAndCredits :
    (let d := cored [(0, { outs := [(4, [dataTok 3])] })] 2
     (RouteSrc.port (port15 0)).wf = true ∧ d.routeFrom (.port (port15 0)) = d.routes.head? ∧ d.routes.head?.isSome = true ∧ d.coreLive (at_ d).env 15 31 = true ∧
      Tab.get [] (queueKey .vector 0) (d.eng 15 31 0).outs = [dataTok 3] ∧
      (d.routes.all fun r => r.views.all fun v => d.mayGo v.1 v.2.1 v.2.2 (dataTok 3).tag.toNat) = true) ∧
    ((cored [] 1).routes.all fun r => r.views.all fun v => (cored [] 1).mayGo v.1 v.2.1 v.2.2 (dataTok 3).tag.toNat) = false ∧
    (token .keystone 0 0#4 0#512).kind = .keystone ∧ (dataTok 3).kind ≠ .keystone ∧
    (let m : CreditMsg := { src := .port (port15 0), dst := corePort 1, slots := 1, base := 2 }
     let d := { cored [] 1 with creditMsgs := [m] }
     d.running = true ∧ d.creditMsgs.find? (fun m => m.src = .port (port15 0)) = some m) := by decide +kernel

/-- A CE program of one phase that takes vector input 0 and writes vector output 0. -/
def ceProg (firings ldst : Nat) : CeProg :=
  { ordered := false, serial := false, sfEn := false, sfStage := 0, steer := 0, tap := 0, firings := firings, iterArg := false, iters := 2,
    phases := [{ first := 0, vin := 1, sin := 0, cin := 0, ldst := ldst, vout := 1, sout := false, cout := false, ldn := 0, stages := [] }] }
def ceAt (firings ldst fired loads : Nat) : Eng :=
  { st := stRunning, prog := .ce (ceProg firings ldst), limit := 2, queues := [(4, { toks := [dataTok 0] })], iters := [(0, { fired := fired, loads := loads })] }

theorem witness_KeystonesForward :
    (let d := cored [(0, { st := stDraining, prog := .ce (ceProg 1 0), keyIn := true })] 8
     d.coreLive (at_ d).env 15 31 = true ∧ d.keystoneReady 15 31 0 (d.eng 15 31 0) = true) ∧
    (let d := cored [(1, { st := stDraining, prog := .ce (ceProg 1 0), queues := [(4, { key := true, seen := true })] })] 8
     d.coreLive (at_ d).env 15 31 = true ∧ d.keystoneReady 15 31 1 (d.eng 15 31 1) = true ∧ d.running = true) ∧
    ((receiving 8 [.endMark]).running = true ∧ ((receiving 8 [.endMark]).routeFrom (.recvEp 3 31)).isSome = true ∧
      ((receiving 8 [.endMark]).pairInto 3 31).any (fun p => p.mayForward && p.rSpan = some (0, 1)) = true ∧
      ((receiving 8 [.tok 16 .data 5#512, .endMark]).pairInto 3 31).any (fun p => !p.mayForward && p.rSpan = some (0, 1)) = true) := by decide +kernel

def ceWitness (x : Eng) (p : CeProg) (j loads : Nat) (ovf : Bool) : Bool :=
  let d := cored [(0, x)] 8
  let u := p.unit x.limit
  let outs (j : Nat) : List Nat := match p.phaseAt j with
    | some h => h.outputs
    | none => []
  x.prog = .ce p && d.coreLive (at_ d).env 15 31 && x.fires && p.steer = 0 && u.pick x.settling (u.nextOuts x.settling outs (d.routedOuts 15 31 0)) = some 0
    && (x.settling.iter 0).fired = j && match p.phaseAt j with
      | none => false
      | some h => match ceCompute x p h (x.settling.consume 0 ((u.nextIns x.settling 0).getD [])).1 (if j = h.first then 0 else loads) none with
        | .done .. => !ovf
        | .overflow .. => ovf

/-- A CE that selects, its control on control input 0 at the first firing, whose later firings load `ldst`. -/
def ceSelect (firings ldst : Nat) : CeProg :=
  { ceProg firings 0 with steer := 1, phases :=
    [{ first := 0, vin := 1, sin := 0, cin := 1, ldst := 0, vout := 3, sout := false, cout := false, ldn := 0, stages := [] },
     { first := 1, vin := 1, sin := 0, cin := 0, ldst := ldst, vout := 3, sout := false, cout := false, ldn := 0, stages := [] }] }
def selecting (firings ldst fired loads : Nat) : Eng :=
  { st := stRunning, prog := .ce (ceSelect firings ldst), limit := 1, queues := [(4, { toks := [dataTok 0] }), (8, { toks := [dataTok 0] })],
    iters := [(0, { fired := fired, loads := loads, ctl := if fired = 0 then none else some true })] }
def steerWitness (firings ldst fired loads : Nat) (ovf : Bool) : Bool :=
  let x := selecting firings ldst fired loads
  let p := ceSelect firings ldst
  let d := cored [(0, x)] 8
  let u := p.unit x.limit
  let outs (j : Nat) : List Nat := match p.phaseAt j with
    | some h => h.outputs
    | none => []
  x.prog = .ce p && d.coreLive (at_ d).env 15 31 && x.fires && p.steer ≠ 0 && u.pick x.settling (u.nextOuts x.settling outs (d.routedOuts 15 31 0)) = some 0
    && (x.settling.iter 0).fired = fired && match takeSteered u x.settling 0, p.phaseAt fired with
      | some (first, true, taken, _), some h => first = (fired = 0) &&
        (match ceCompute x p h (stageToks u true taken (d.free 512).1) (if fired = h.first then 0 else loads) (some (inTok taken (u.named true))) with
        | .done .. => !ovf
        | .overflow .. => ovf)
      | _, _ => false

theorem witness_CeFires : ceWitness (ceAt 1 0 0 0) (ceProg 1 0) 0 0 false = true ∧ ceWitness (ceAt 40 1 32 32) (ceProg 40 1) 32 32 true = true ∧
    steerWitness 1 0 0 0 false = true ∧ steerWitness 40 1 32 31 false = true ∧ steerWitness 40 1 33 32 true = true := by
  decide +kernel

/-- An ME whose context 7 reads the SRAM, 16 firings of one iteration. -/
def ctx7 : CtxProg :=
  { role := 0, nlev := 1, ilev := 1, tok2 := false, out := 0, laneb := 4, vin := 0, gate := 0, gq := 0, lstride := 4, leadEn := false, lead := 0, sig := false,
    sout := false, inplace := false, loops := [{ carg := false, count := 16, sstride := 64, tstride := 0 }], sbase := 0, istride := 0, vargEn := false,
    varg := 0, vbase := 0 }
def meProg : MeProg := { ordered := false, steer := 0, budget := 0, window := 1, sfirings := 0, ctxs := [(7, ctx7)] }
def fill (granted write : Bool) : Xfer := { lin := 0, va := 4096, pa := 4096, sram := 0, write := write, port := 0, granted := granted, data := List.replicate 64 5#8 }
def streaming (st : BitVec 3) (c : Ctx) : Dev := cored [(7, { st := st, prog := .me meProg, ctxs := [(7, c)] })] 8

theorem witness_StreamsFire :
    (let d := streaming stRunning { counts := [16] }
     (d.eng 15 31 7).prog = .me meProg ∧ d.coreLive (at_ d).env 15 31 = true ∧ (d.eng 15 31 7).fires = true ∧ meProg.steer = 0 ∧ meProg.ctx? 7 = some ctx7 ∧
      genFree meProg (d.eng 15 31 7) (7, ctx7) = true ∧ (d.eng 15 31 7).st = stRunning) ∧
    (∀ w : Bool, let d := streaming stRunning { outst := [fill true w] }
     (d.streamCtx 15 31 3 7).outst.find? (fun t => t.lin = 0 && t.granted) = some (fill true w) ∧ d.running = true ∧ (d.sleep 15).st = .active ∧
      (fill true w).write = w ∧ d.badIn (fill true w).pa 64 = none ∧ d.unitDead {} (fill true w).pa = false ∧
      ({ d with btr := { stackSet := [(0, 3#2)] } } : Dev).unitDead {} (fill true w).pa = true) ∧
    (let p : MeProg := { meProg with steer := 1, sfirings := 1, ctxs := [] }
     let d := cored [(7, { st := stRunning, prog := .me p })] 8
     (d.eng 15 31 7).prog = .me p ∧ d.coreLive (at_ d).env 15 31 = true ∧ (d.eng 15 31 7).fires = true ∧ p.steer ≠ 0) := by decide +kernel

/-- Port 671, the last channel, with a request of slot 17, and with a context that waits for a dynamic slot. -/
def asked : Dev := { up with arb := { fixed := [(64 * 671 + 17, [{ pa := 0x57FFFFFFFC0, n := 1 }])] } }
def waitsSlot : Dev :=
  { streaming stRunning { outst := [{ fill false false with port := 671, since := none }] } with
    arb := { waiting := [{ port := 671, cl := 15, phys := 31, me := 3, ctx := 7, d := 9#32 }] } }

theorem witness_PortRounds :
    up.running = true ∧ State.reset.fuse.arbFitted 671 = true ∧ up.portDead 671 = false ∧ (up.presentAll (at_ up).env 671).winner 671 = none ∧
      (asked.presentAll (at_ up).env 671).winner 671 = some 17 ∧ asked.portDead 671 = false ∧ up.nextWait 671 = none ∧
      ({ up with btr := { stackSet := [(19, 3#2)] } } : Dev).portDead 639 = true ∧ State.reset.fuse.arbFitted 639 = true ∧
      waitsSlot.freeSlot 671 = some 18 ∧ waitsSlot.nextWait 671 = some { port := 671, cl := 15, phys := 31, me := 3, ctx := 7, d := 9#32 } ∧
      (∃ x ∈ (waitsSlot.streamCtx 15 31 3 7).outst, x.port = 671 ∧ x.granted = false) := by decide +kernel

/-! ### Witnesses: the memory system -/

/-- A long move of the pages from 0 on in slot 1023, each copied to the page after it plus 64. -/
def moveOf (pages : Nat) (switched : Bool) : Move :=
  { uid := 1, long := some 1023, asid := 1, die := some 0, switched := switched
    pages := (List.range pages).map fun i => { va := i * 65536, src := i, dst := some (64 + i) } }
def moving (m : Move) (l : LongOp) : Dev := { up with longs := [(1023, l)], blk := { moves := [m] } }
def moveWitness (pages : Nat) (st : LongSt) (suspend : Bool) : Bool :=
  let m := moveOf pages false
  let d := moving m { longOp .move st with suspendPending := suspend }
  let v := ((d.copyChunk m).setMove m.nextChunk).modLong 1023 fun l => { l with chunks := l.chunks + 1 }
  d.running && d.moveOf 1 = some m && !m.switched && !m.waiting && (d.long 1023).st ≠ .suspended && !d.asks m.who && m.chunk.all (fun p => p.dst ≠ none)
    && (v.long 1023).st = st && (v.long 1023).suspendPending = suspend
    && (if pages = 33 then m.nextChunk.copied < m.nextChunk.pages.length else m.nextChunk.pages.length ≤ m.nextChunk.copied)

theorem witness_MoveAdvances :
    moveWitness 33 .cancelling false = true ∧ moveWitness 33 .running true = true ∧ moveWitness 33 .running false = true ∧
      moveWitness 32 .running false = true ∧
    (let m := moveOf 2 false
     ({ moving m (longOp .move .running) with arb := { fixed := [(16, [{ who := some m.who, pa := 0, n := 1 }])] } } : Dev).asks m.who = true ∧
      (({ m with pages := m.pages.map fun p => { p with dst := none } } : Move).chunk.any fun p => p.dst = none) = true ∧
      (({ m with long := none } : Move).nextChunk.pages.length ≤ ({ m with long := none } : Move).nextChunk.copied)) ∧
    (({ moveOf 33 false with long := none } : Move).nextChunk.copied < ({ moveOf 33 false with long := none } : Move).nextChunk.pages.length) ∧
    (let d := moving (moveOf 32 true) (longOp .move .running)
     d.running = true ∧ d.moveOf 1 = some (moveOf 32 true) ∧ d.readsSource (moveOf 32 true) = false) ∧
    ({ streaming stRunning { outst := [fill true false] } with blk := { moves := [moveOf 32 true] } } : Dev).readsSource (moveOf 32 true) = true ∧
    (let m := { moveOf 2 true with long := none }
     (moving m {}).moveOf 1 = some m ∧ m.switched = true ∧ m.resolution = false ∧ (moving m {}).readsSource m = false) := by decide +kernel

/-- A version of two segments in entry 16383, its home in the bulk pages from 0x4000000 on and its first segment on die 3. -/
@[irreducible] def zeroHash : BitVec 256 := sha256 (List.replicate 4096 0#8)
def version (st : VerSt) (h : BitVec 256) : Version :=
  { st := st, gen := 2, payloadLen := 0x201000, headLen := 8192, pages := (List.range 34).map fun i => 0x4000000 + i
    segs := [{ hash := h, tag := 0#128, len := 0x200000 }, { hash := h, tag := 0#128, len := 4096 }]
    images := [(3, { pinned := true, pages := [(0, 16384), (1, 16385)], complete := true, used := 0 })] }
def objects (v : Version) (l : LongOp) : Dev := { up with vers := [(16383, v)], longs := [(1023, l)] }

theorem read_empty (a n : Nat) : Memory.read [] a n = List.replicate n 0#8 := by
  induction n generalizing a with
  | zero => rfl
  | succ n ih => rw [Memory.read, ih, List.replicate_succ]; rfl

theorem segBlocks_one (st : VerSt) (h : BitVec 256) : (version st h).segBlocks 1 = [0x40000202000] := by
  have : (version .active 0#256).segBlocks 1 = [0x40000202000] := by decide +kernel
  exact this

theorem notPoisoned {d : Dev} (v : Version) (h : d.blk.poison = []) : d.poisonedSegment v 1 = none := by
  simp [Dev.poisonedSegment, Dev.badIn, h]

theorem openSegment_plain (d : Dev) (v : Version) (i : Nat) (s : Segment) (g : v.segs[i]? = some s) (p : d.poisonedSegment v i = none)
    (n : v.encrypted = false) (h : sha256 (d.homeSegment v i) = s.hash) : d.openSegment v i = .ok (d.homeSegment v i) := by
  unfold Dev.openSegment Dev.storedSegment
  rw [g, p, n]
  simp [h]

/-- The last segment opens where memory lists nothing: its home holds 4,096 zero bytes. -/
theorem openSegment_zero (d : Dev) (m : d.blk.dram = []) (p : d.blk.poison = []) :
    d.openSegment (version .active zeroHash) 1 = .ok (List.replicate 4096 0#8) := by
  have h : d.homeSegment (version .active zeroHash) 1 = List.replicate 4096 0#8 := by
    rw [Dev.homeSegment, segBlocks_one, List.flatMap_singleton, m]; exact read_empty _ _
  have e := openSegment_plain d (version .active zeroHash) 1 { hash := zeroHash, tag := 0#128, len := 4096 } rfl (notPoisoned _ p) rfl
    (by rw [h]; unfold zeroHash; exact Eq.refl _)
  rw [e, h]

/-- The requester of the IMAGE in slot 1023. -/
def imageReq : FixReq := { who := some (.long 1023), pa := 0, n := 0 }

theorem writeOn_there (e : Env) (l : LongOp) (p : List Byte) :
    writeOn e 16383 1 p imageReq [3] (objects (version .active zeroHash) l) = some ([], objects (version .active zeroHash) l) := by
  have h : (((objects (version .active zeroHash) l).ver 16383).imageOn 3).any (fun g => (g.unit 1).isSome) = true := by
    show ((version .active zeroHash).imageOn 3).any (fun g => (g.unit 1).isSome) = true
    generalize zeroHash = h
    rfl
  rw [writeOn, if_pos h, writeOn]

theorem witness_ImageAdvances :
    (∀ st : LongSt, let l := longOp (.image 16383 [3] 1) st
     let d := objects (version .active zeroHash) l
     d.running = true ∧ (d.long 1023).used = true ∧ (d.long 1023).kind = .image 16383 [3] 1 ∧ 1 < (d.ver 16383).segs.length ∧
      d.asks (.long 1023) = false ∧ d.openSegment (d.ver 16383) 1 = .ok (List.replicate 4096 0#8) ∧
      writeOn (at_ up).env 16383 1 (List.replicate 4096 0#8) imageReq [3] d = some ([], d)) ∧
    (let d := { objects (version .active 0#256) (longOp (.image 16383 [3] 0) .running) with arb := { fixed := [(16, [{ imageReq with n := 1 }])] } }
     d.asks (.long 1023) = true ∧ (writeOn (at_ up).env 16383 0 [] imageReq [2] d).isNone = true) ∧
    (({ version .active 0#256 with segs := [] } : Version).segs.length ≤ 0 ∧ (0 : Nat) < (version .active 0#256).segs.length ∧ ({} : LongOp).used = false) ∧
    (({ up with blk := { poison := [0x40000202000 / 8] } } : Dev).poisonedSegment (version .active 0#256) 1).isSome = true ∧
    ((version .active zeroHash).segs.length = 1 + 1 ∧ 0 + 1 < (version .active zeroHash).segs.length) ∧
    (let d := objects (version .active 0#256) (longOp (.image 16383 [3] 1) .running)
     d.poisonedSegment (d.ver 16383) 1 = none) ∧
    (∀ l : List Nat, let d := { up with vers := [(16383, { evicted := [(3, [16384], l)] })], opens := [openOp (launch5 0)] }
     (d.running = true) ∧ (l = [1] → ∀ y ∈ (d.ver 16383).evicted, y.1 = 3 → y.2.2.any (fun u => (d.openOf u).isSome) = true) ∧
      (l = [2] → ∃ y ∈ (d.ver 16383).evicted, y.1 = 3 ∧ y.2.2.any (fun u => (d.openOf u).isSome) = false)) := by
  refine ⟨fun st => ⟨rfl, rfl, rfl, Nat.le_refl 2, rfl, openSegment_zero _ rfl rfl, writeOn_there _ _ _⟩, by decide +kernel, by decide +kernel, by decide +kernel,
    ⟨rfl, Nat.le_refl 2⟩, by decide +kernel, fun l => ⟨rfl, ?_, ?_⟩⟩
  · rintro rfl y hy -
    obtain rfl : y = (3, [16384], [1]) := by simpa [Dev.ver, Tab.get] using hy
    decide +kernel
  · rintro rfl
    exact ⟨(3, [16384], [2]), by decide +kernel, rfl, by decide +kernel⟩

theorem witness_ObjectsMove :
    (let d := objects (version .loading zeroHash) (longOp (.objLoad 16383 1) .running)
     d.running = true ∧ (d.long 1023).used = true ∧ (d.long 1023).st = .running ∧ (d.long 1023).kind = .objLoad 16383 1 ∧ 1 + 1 = (d.ver 16383).segs.length ∧
      (((d.ver 16383).segs[1]?).map (·.hash) = some (sha256 (List.replicate 4096 0#8)))) ∧
    (((version .loading 0#256).segs[0]?).map (·.hash) ≠ some (sha256 []) ∧ 0 + 1 < (version .loading 0#256).segs.length ∧
      Dev.deadIn {} {} ((version .loading 0#256).segBlocks 0) = none ∧ Dev.deadIn {} {} ((version .loading 0#256).segBlocks 1) = none ∧
      (Dev.deadIn {} { blk := { channels := (List.range 32).map fun c => (c, { st := 3#2 }) } } ((version .loading 0#256).segBlocks 1)).isSome = true ∧
      ((objects (version .loading 0#256) (longOp (.objLoad 16383 1) .cancelling)).long 1023).st = .cancelling ∧ (up.long 1023).used = false) ∧
    (let d := objects (version .retiring 0#256) (longOp (.objRetire 16383) .running)
     (d.ver 16383).st = .retiring ∧ (d.retirementOf 16383).all (fun x => x.2.st = .running) = true ∧ (d.ver 16383).torn = none ∧ d.refs 16383 = 0 ∧
      Dev.refs { d with spans := [(5, { loadedSpan with entry := 16383 })] } 16383 ≠ 0) ∧
    (let d := { objects { version .retiring 0#256 with torn := some [1] } (longOp (.objRetire 16383) .running) with opens := [openOp (launch5 0)] }
     (d.ver 16383).torn = some [1] ∧ (∃ u ∈ [1], (d.openOf u).isSome = true) ∧ ∀ u ∈ [2], d.openOf u = none) :=
  ⟨⟨rfl, rfl, rfl, rfl, rfl, by show some zeroHash = _; unfold zeroHash; exact Eq.refl _⟩, by decide +kernel, by decide +kernel, by decide +kernel⟩

/-- A step that has computed its results, with one output record at VA 0, and a TRESTLE. -/
def stepping (done : Bool) (d : Dev) : Dev :=
  { d with steps := [{ uid := 1, die := 3, asid := 1, plan := 0, out := 0, entries := [{ seq := 0, phase := 0, draftMax := 0, sample := 0, tokens := 1, tokVa := 0 }],
                       computed := true }]
           opens := [openOp (cmd 0x11 [])], btr := { runs := [{ uid := 1, die := 3, stackSet := 1, asid := 1, done := done }] } }
/-- Address space 1, page 0 of which has this leaf. -/
def space (leaf : Nat) (d : Dev) : Dev :=
  let d := { d with blk := { d.blk with asids := [(1, 0x8001#64)] } }
  (((d.setEntry 0x8000 0x10001).setEntry 0x10000 0x11001).setEntry 0x11000 0x12001).setEntry 0x12000 leaf

theorem witness_StepAndTrestleEnd :
    up.running = true ∧ up.stepToCommit 3 = none ∧
    (let d := stepping true (space 0x50003 up)
     (d.stepToCommit 3).isSome = true ∧ (d.stepToCommit 3).all (fun x => d.badRecord {} x.1 x.2.func = none) = true ∧
      (d.runOf 1).any (fun r => r.done = true) = true) ∧
    (let d := stepping false up
     (d.stepToCommit 3).any (fun x => (d.badRecord {} x.1 x.2.func).isSome) = true ∧ (d.runOf 1).any (fun r => r.done = false) = true ∧
      d.asks (.command 1) = false ∧ (d.openOf 1).isSome = true ∧
      ({ d with arb := { fixed := [(0, [{ who := some (.command 1), pa := 0, n := 1 }])] } } : Dev).asks (.command 1) = true) ∧
    (let r : TrestleRun := { uid := 1, die := 3, stackSet := 1, asid := 1, ctxs := [(639, 14)] }
     r.ctxs.find? (fun x => x.1 = (639 : Fin 640).val) = some (639, 14)) := by decide +kernel

/-- The core's context 7 of ME 3 waits for the walk of an address of page 0. -/
def walking (leaf : Nat) (c : Ctx) : Dev :=
  space leaf { streaming stRunning c with
    cores := [(511, { span := some (3, 0), engs := [(7, { st := stRunning, prog := .me meProg, ctxs := [(7, c)] })] })]
    spans := [(192, { loadedSpan with st := .running, asid := 1 })] }
def walkTo (leaf : Nat) : Trans × Option (Nat × Bool) :=
  let d := walking leaf { walk := some (0x1200, false) }
  ((d.finishWalk {} (d.streamAccess 15 31 false) 0x1200 .good).1, (d.streamCtx 15 31 3 7).walk)

theorem witness_WalksEnd :
    walkTo 0x50001 = (.pa 0x51200, some (0x1200, false)) ∧ walkTo 0 = (.fault Config.pageFault 0x20 0x1200 1, some (0x1200, false)) ∧
      walkTo 0x50005 = (.resolve (.mgPage 1 0), some (0x1200, false)) ∧ (walking 0 {}).running = true ∧ ((walking 0 {}).streamCtx 15 31 3 7).walk = none ∧
      (walking 0x50001 { walk := some (0x1200, false) }).walks (.stream 15 31 3 7) = false ∧
      ({ walking 0x50001 { walk := some (0x1200, false) } with
        arb := { fixed := [(64 * 639 + 15, [{ who := some (.stream 15 31 3 7), pa := 0, n := 1 }])] } } : Dev).walks (.stream 15 31 3 7) = true := by
  decide +kernel

def resolving (k : ResKind) (started : Bool) (failed : Option (Byte × Nat × Nat)) (m : List Move) (pool : Tab Quad) : Dev :=
  let d := space 0x50005 up
  { d with blk := { d.blk with
    resolutions := [{ id := 9, die := 0, kind := k, started := started, failed := failed }], moves := m, locked := true, poolBonded := pool } }

/-- The resolution of segment 0 or 1 of the version in entry 16383 on a die, with or without an IMAGE of it, and with this pool. -/
def segRes (die seg : Nat) (started imaging : Bool) (pool : Tab Quad) : Dev :=
  let v := version .active 0#256
  { objects v (longOp (.image 16383 [die] 0) (if imaging then .running else .done)) with
    blk := { resolutions := [{ id := 9, die := die, kind := .segment 16383 seg, started := started }], locked := true, poolBonded := pool } }
/-- What the row looks at: an IMAGE of it, the segment in the die's image, a free unit. -/
def segParts (die seg : Nat) (imaging : Bool) (pool : Tab Quad) : Bool × Bool × Bool :=
  let d := segRes die seg false imaging pool
  (d.imaging 16383 die, ((d.ver 16383).imageOn die).any (fun g => (g.unit seg).isSome), (d.findUnit die seg 0).isSome)

theorem witness_ResolutionsAndDeadlines_segments :
    ((segRes 3 1 false false []).running = true ∧ ((segRes 3 1 false false []).resOf 9).any (fun r => !r.started && r.kind = .segment 16383 1) = true ∧
      ((segRes 3 1 true false []).resOf 9).any (fun r => r.started && r.failed = none) = true) ∧
    segParts 2 1 true [] = (true, false, false) ∧ segParts 3 1 false [] = (false, true, false) ∧ segParts 2 1 false [] = (false, false, false) ∧
    segParts 0 1 false [(0, BitVec.ofNat 64 (48 * 2 ^ 27))] = (false, false, true) ∧
    (segRes 0 1 true false [(0, BitVec.ofNat 64 (48 * 2 ^ 27))]).asks (.command 9) = false := by decide +kernel

/-- Its write finds the unit. -/
theorem witness_ResolutionsAndDeadlines_written (l : List Byte) (r : FixReq) :
    ((segRes 0 1 true false [(0, BitVec.ofNat 64 (48 * 2 ^ 27))]).writeSegment (at_ up).env 16383 0 1 l true r).isSome = true := by
  rw [Dev.writeSegment_isSome]; decide +kernel

theorem witness_ResolutionsAndDeadlines_opens :
    let d : Dev := { objects (version .active zeroHash) {} with blk := { resolutions := [{ id := 9, die := 0, kind := .segment 16383 1, started := true }] } }
    d.openSegment (d.ver 16383) 1 = .ok (List.replicate 4096 0#8) := openSegment_zero _ rfl rfl

theorem witness_ResolutionsAndDeadlines :
    (let k : ResKind := .mgPage 1 0
     ((resolving k false none [] []).running = true ∧ ((resolving k false none [] []).resOf 9).any (fun r => !r.started && r.kind = k) = true ∧
      (resolving (.movingPage 1 0) false none [] []).resOf 9 ≠ none) ∧
     (resolving k false none [{ moveOf 1 false with uid := 3 }] []).pageMoving 1 0 = true ∧ (resolving k false none [] []).pageMoving 1 0 = false ∧
     walkLower {} (resolving k false none [] []) 1 0 = .leaf 0x50005 0x12000 ∧ (resolving k false none [] []).freeBonded 0 = 0 ∧
     (resolving k false none [] [(0, 0x8000000#64)]).freeBonded 0 ≠ 0 ∧
     ((resolving k true (some (0x13#8, 0x25, 7)) [] []).resOf 9).any (fun r => r.started && r.failed.any fun x => x.1.toNat = Config.pageFault) = true ∧
     ((resolving k true none [] []).resOf 9).any (fun r => r.started && r.failed = none) = true ∧ (resolving k true none [] []).pageMoving 1 0 = false ∧
     (resolving k true none [] []).moveOf 9 = none ∧ (resolving k true none [{ moveOf 1 false with uid := 9 }] []).pageMoving 1 0 = true) ∧
    ((walking 0 { frozen := some { va := 0x1200, write := false, since := 40, resolution := 9 } }).streamCtx 15 31 3 7).frozen
        = some { va := 0x1200, write := false, since := 40, resolution := 9 } ∧
    ((walking 0 {}).streamCtx 15 31 3 7).frozen = none ∧ (walking 0 {}).lateTile (at_ up).env (.stream 15 31 3 7) = none ∧
    (let z : Freeze := { va := 0x1200, write := false, since := 40, resolution := 9 }
     let d := { up with btr := { runs := [{ uid := 1, die := 3, stackSet := 1, asid := 1, frozen := some z, stall := some (4096, 40, 4096) }] } }
     (Requester.command 1).wf = true ∧ d.freezeOf (.command 1) = some z ∧ (d.lateTile (at_ up).env (.command 1)).isSome = true) ∧
    (walking 0 { outst := [{ fill true false with since := some 40 }] }).lateTile (at_ up).env (.stream 15 31 3 7) = some (4096, 40, 0, some 4096) := by decide +kernel

theorem witness_ScrubAndStacks :
    up.running = true ∧ State.reset.fuse.isDram 0x4FFFFFFFC0 = true ∧ State.reset.fuse.isBonded 0x4FFFFFFFC0 = true ∧
      State.reset.fuse.isDram 0x57FFFFFFFC0 = true ∧ State.reset.fuse.isBonded 0x57FFFFFFFC0 = false ∧ bitsAt up.blk.scrubPeriod.toNat 0 8 ≠ 0 ∧
      up.unitDead {} 0x4FFFFFFFC0 = false ∧ State.reset.fuse.clusterFitted (0x3FFFFFF8 / 0x4000000) = true ∧ 0x3FFFFFF8 / 0x4000000 < 16 ∧
      State.reset.fuse.isDram 0x5000000000 = false ∧ 19 < State.reset.fuse.stackCount := by decide +kernel

def invalidating (n : Nat) : Dev :=
  let d := walking 0 { outst := [fill true false] }
  { d with blk := { d.blk with tlbBusy := true, tlbJob := some (1, 0, n) } }
/-- Pools of 48 units at the bottom of each die's range. -/
def poolsSet : Dev := { up with blk := { poolBonded := (List.range 4).map fun d => (d, BitVec.ofNat 64 (0xA000 * d + 48 * 2 ^ 27)) } }

theorem witness_InvalidateAndLock :
    up.hostOpen = true ∧ up.blk.tlbBusy = false ∧ (invalidating 1).blk.tlbBusy = true ∧ (badAsid 0 || up.deadAsid 0) = true ∧
      (badAsid 1 || (space 0 up).deadAsid 1) = false ∧ up.blk.tlbJob = none ∧ (invalidating 1).running = true ∧ (invalidating 1).usesPages 1 0 1 = true ∧
      ({ space 0 up with blk := { (space 0 up).blk with tlbJob := some (1, 0, 1) } } : Dev).usesPages 1 0 1 = false ∧
      ({ space 0 up with blk := { (space 0 up).blk with tlbJob := some (1, 5, 0) } } : Dev).usesPages 1 0 (2 ^ 36) = false ∧
      up.blk.locked = false ∧ bitAt (1#64).toNat 0 = true ∧ poolsSet.poolsOk {} = true ∧ up.poolsOk {} = false := by decide +kernel

theorem witness_Bar2Accesses :
    up.busUp = true ∧ barAccess 0 4096 4096 = true ∧ barAccess 4095 1 4096 = true ∧ 4095 + 1 ≤ 2 ^ up.hif.bar2Log2 ∧
      bar2Target (at_ up).env up 1 0 false = .refused ∧ up.ras.st = .running ∧ bar2Target (at_ up).env up 0 4096 false = .dram 4096 ∧ up.badIn 4096 512 = none ∧
      bar2Target (at_ up).env up 0 4096 true = .dram 4096 ∧ barAccess 0 512 512 = true ∧ Memory.wf up.blk.dram = true ∧
    (let d := { up with hif := { up.hif with bar2Base := 0x80000000000#64 } }
     bar2Target (at_ d).env d 0 8 false = .near 8 ∧ bar2Target (at_ d).env d 0 8 true = .near 8 ∧ (∀ w ∈ d.blk.nearBad, 8 * w + 8 ≤ 8 ∨ 8 + 8 ≤ 8 * w)) := by
  decide +kernel

/-! ### Witnesses: the host link -/

theorem witness_DoorbellsTaken :
    let d := serving []
    d.takesDoorbell 0 = true ∧ (d.queue 0 4).st ≠ .bound ∧ (d.queue 0 3).st = .bound ∧ (d.queue 0 3).sqSize ≤ 16 ∧ 15 < (d.queue 0 3).sqSize ∧
      (d.queue 0 3).cqSize ≤ 16 ∧ (d.queue 0 3).unread < (d.queue 0 3).freed 1 ∧ 0 < (d.queue 0 3).cqSize ∧ (d.queue 0 3).freed 0 ≤ (d.queue 0 3).unread ∧
    (let u := { bound [] with unread := 15, cqHead := 0 }
     15 < u.cqSize ∧ u.freed 15 ≤ u.unread) := by decide +kernel

theorem witness_CommandsFetched :
    let d := serving []
    let l := List.replicate 5 (cmd 0x01 [])
    fetchWf l = true ∧ fetchWf (List.replicate 8 (cmd 0x01 [])) = true ∧ d.turnOf 0 3 = true ∧ (fetchAll 0 3 l (d.takeTurn 0 3)).isSome = true ∧
      (fetchAll 0 3 (List.replicate 6 (cmd 0x01 [])) (d.takeTurn 0 3)).isNone = true ∧ d.mayFetch 0 3 = true := by decide +kernel

theorem witness_FailedFetchStops : (serving []).mayFetch 0 3 = true ∧ (serving []).turnOf 0 3 = true ∧ (serving []).hostOpen = true := by decide +kernel

def settingUp (u : Queue) : Dev :=
  { up with hif := { ready := true, queues := [(3, u)], unmasked := [], pba := [63] }, blk := { asids := [(1, 0x8001#64)] } }

theorem witness_QueuesSetUp :
    (let u : Queue := { cfg := 0x10404#64 }
     (settingUp u).hostOpen = true ∧ ((settingUp u).queue 0 3).st = .unbound ∧ (settingUp u).queueError (at_ up).env 0 u = 0 ∧
      (settingUp {}).queueError (at_ up).env 0 {} ≠ 0) ∧
    ((settingUp (bound [])).queue 0 3).st = .bound ∧ ((settingUp { bound [] with st := .stopped }).queue 0 3).st = .stopped ∧
    (let u : Queue := { bound [] with st := .draining }
     ((settingUp u).queue 0 3).st = .draining ∧ (settingUp u).owed 0 3 = 0 ∧ (settingUp { u with fetched := [{ cmd := 1#512, sqHead := 1 }] }).owed 0 3 ≠ 0) ∧
    (settingUp {}).linkLive = true ∧ (settingUp {}).hif.pba.contains (64 * 0 + 63) = true ∧ up.hif.pba.contains (64 * 0 + 63) = false := by decide +kernel

/-- The package with a held head for an executor. -/
def heldHead (c : Command) (x : Executor) : Dev :=
  { launching 0 [] with hif := { ready := true, queues := [(3, { bound [c] with heldSince := some 7, exec := some x })] } }
def chosen (c : Command) (x : Executor) : Bool :=
  (heldHead c x).running && x.wf && (heldHead c x).inService && (heldHead c x).choice (at_ up).env 0 x = some (3, false)
    && ((heldHead c x).queue 0 3).fetched.head? = some { cmd := c, sqHead := 1 }
def cyclic (slot : Nat) : Sch := { cycCtrl := 0x101#64, inCycle := true, cycle := [0x64#64, 0x64#64], slot := slot }

theorem witness_DispatchAndSlots :
    chosen (launch5 0) (.span 5) = true ∧ cmdIs opSpanLaunch (launch5 0) = true ∧
      chosen (cmd 0x11 []) .steps = true ∧ cmdIs opSeqStep (cmd 0x11 []) = true ∧ chosen (cmd 0x09 [(16, 1), (17, 1)]) .trestle = true ∧
      cmdIs opTrestle (cmd 0x09 [(16, 1), (17, 1)]) = true ∧ up.choice (at_ up).env 0 .steps = none ∧ up.sch.enabled = false ∧
      ({ cyclic 0 with inCycle := false }).enabled = true ∧ (cyclic 0).enabled = true ∧ (cyclic 0).inCycle = true ∧ (cyclic 0).slot + 1 < (cyclic 0).cycle.length ∧
      (∀ x ∈ [Executor.span 255, .steps, .trestle], x.wf = true) ∧ up.inService = true := by decide +kernel

theorem witness_FunctionResetsStart :
    up.hostOpen = true ∧ up.funcEnabled 31 = true ∧ ({ up with sch := { funcs := [(31, 0#64)] } } : Dev).funcEnabled 31 = false ∧ up.busUp = true ∧
      (31 : FuncId) ≠ 0 ∧ State.reset.dev.pins.perst = true ∧ (3 : Fin 32).val < 31 ∧
      31 ≤ ({ up with hif := { up.hif with numVfs := 31 } } : Dev).hif.numVfs := by decide +kernel

def underReset (reenable : List Nat) (o : List OpenCmd) : Dev := { up with hif := { ready := true, fresets := [(31, true)], reenable := reenable }, opens := o }

theorem witness_FunctionResetsEnd :
    (∀ l ∈ [[], [31]], (underReset l []).pins.powered = true ∧ (underReset l []).funcResetting 31 = true ∧ (underReset l []).funcQuiet 31 = true ∧
      (∀ x ∈ (underReset l []).spans, x.2.st = .free ∨ x.2.func ≠ 31)) ∧
    (underReset [] []).hif.reenable.contains 31 = false ∧ (underReset [31] []).hif.reenable.contains 31 = true ∧
      (underReset [] [{ openOp (launch5 0) with func := 31 }]).funcQuiet 31 = false ∧ up.busUp = true := by decide +kernel

/-! ### Witnesses: registers -/

theorem witness_HostWrites :
    aligned 0x800048 true = true ∧ up.takesWrite 0 0x800048 0 = true ∧ aligned 0x800020 true = true ∧ up.takesWrite 0 0x800020 4 = true ∧
      (0x8000000000000004 : Nat) % 8 = 4 ∧ aligned 0x800050 true = true ∧ up.takesWrite 0 0x800050 1 = true ∧ aligned 0x100000 true = true ∧ up.takesWrite 0 0x100000 0 = true ∧
      aligned 0x100004 true = false ∧ State.reset.dev.busUp = false ∧ (31 : Nat) ≠ 0 ∧ vfServed 0x100000 = false ∧
      ({ up with ras := { st := .retired } } : Dev).ras.st = .retired ∧ ({ up with ras := { st := .parapet } } : Dev).ras.st = .parapet := by decide +kernel

theorem witness_CountersReadAndClear :
    up.busUp = true ∧ up.ras.st = .running ∧ up.sec.recovery = false ∧ up.hostOpen = true ∧ bitAt (0#64).toNat 23 = false ∧ bitAt (0x80029F#64).toNat 23 = true ∧
      (bitsAt (0x80029F#64).toNat 0 10 = 671 ∧ bitAt (0x80029F#64).toNat 10 = false ∧ bitAt (0xC00400#64).toNat 10 = true ∧ bitAt (0xC00400#64).toNat 22 = true) ∧
      (∀ x ∈ up.seqs, x.2.leaver = none) := by decide +kernel

/-- RAS_RESET of a domain with GO, of core 31 of cluster 15 and die 3. -/
def goReset (domain : Nat) : Quad := BitVec.ofNat 64 (domain + 15 * 2 ^ 8 + 31 * 2 ^ 12 + 3 * 2 ^ 17 + 2 ^ 63)

theorem witness_ResetsAsked :
    up.hostOpen = true ∧ up.running = true ∧ (∀ n ∈ [1, 2, 3, 4], bitAt (goReset n).toNat 63 = true ∧ resetIs n (goReset n) = true) ∧
      bitsAt (goReset 1).toNat 8 4 = 15 ∧ bitsAt (goReset 1).toNat 12 5 = 31 ∧ bitsAt (goReset 3).toNat 17 2 = 3 ∧
      up.coveredBy (.core 15 31) = false ∧ up.coveredBy (.cluster 15) = false ∧ up.coveredBy (.die 3) = false ∧
      State.reset.fuse.clusterFitted 15 = true ∧ State.reset.kf.coreFenced 15 31 = false ∧ State.reset.kf.usable 15 = true ∧ State.reset.fuse.dieFitted 3 = true ∧
      State.reset.kf.dieDead 3 = false ∧ mapped.coreFenced 15 31 = true ∧ mapped.usable 15 = false ∧ mapped.dieDead 3 = true ∧
      ({ up with ras := { resetting := [(.die 3, 0)] } } : Dev).coveredBy (.die 3) = true ∧ bitAt (1#64).toNat 63 = false ∧ resetIs 1 1#64 = true ∧
      resetIs 4 4#64 = true := by decide +kernel

def goFence (whole : Bool) (ph : Nat) : Quad := BitVec.ofNat 64 (ph * 2 ^ 4 + bit whole * 2 ^ 9 + 2 ^ 63)
/-- The core maps of a package that has booted, with these cores of cluster 0 fenced. -/
def booted (fenced : Word) : Kf := Kf.boot { fenced := [(0, fenced)] }

theorem witness_FencesMoveTheMap :
    up.hostOpen = true ∧ bitAt (goFence false 0).toNat 63 = true ∧ bitAt (goFence true 0).toNat 63 = true ∧ fenceIs false (goFence false 0) = true ∧
      fenceIs true (goFence true 0) = true ∧ State.reset.fuse.clusterFitted 0 = true ∧ (booted 0#32).coreFenced 0 0 = false ∧ (booted 0#32).usable 0 = true ∧
      up.ras.testing.contains (.cluster 0) = false ∧ 30 < (booted 0#32).healthy 0 ∧ (booted 0#32).vposOf 0 0 = some 0 ∧ (booted 0#32).vposOf 0 31 = none ∧
      (booted 3#32).healthy 0 ≤ 30 ∧ (booted 3#32).coreFenced 0 2 = false ∧ (booted 3#32).coreFenced 0 0 = true ∧ mapped.usable 1 = false := by decide +kernel

def session (role : Nat) (slot : Option Nat) : Session := { id := 4, role := role, slot := slot, finished := true, abauzor := false }
def managed (x : List Session) (st : PkgSt) (boot : Bool) : Dev :=
  { up with mgmt := { sessions := x }, ras := { st := st, retiredBoot := boot }, sec := { owned := true, ownerKey := some 1#3072, reqSlots := [(0, { role := 3, hash := 0#256 })] } }

theorem witness_SessionWrites :
    (managed [] .running false).pins.powered = true ∧ (managed [] .running false).session 4 = none ∧
      (managed [session 1 (some 2)] .running false).session 4 = some (session 1 (some 2)) ∧ (session 1 (some 2)).role = 1 ∧ bitAt (1#64).toNat 0 = true ∧
      (managed [session 3 (some 0)] .running false).session 4 = some (session 3 (some 0)) ∧
      (managed [session 3 (some 0)] .running false).ownerSession (session 3 (some 0)) = true ∧
      (managed [session 3 (some 0)] .retired true).ownerSession (session 3 (some 0)) = true ∧ (managed [session 3 (some 0)] .retired true).ras.retiredBoot = true ∧
      (managed [session 3 (some 0)] .retired false).ras.coldReset = false ∧ (managed [] .retired true).session 4 = none := by decide +kernel

def via (mapout : Byte) (open_ : Quad) : Dev := { up with via := { mapout := mapout, maint := open_, pos := 0x1055#64, ports := [(3, { st := .disabled })] } }

theorem witness_ViaductAndClockWrites :
    up.hostOpen = true ∧ State.reset.fuse.part ≠ .kpv4S ∧ (8#64).toNat = 2 ^ (3 : PortId).val ∧ bitAt (via 0x88#8 0#64).via.maint.toNat 0 = false ∧
      bitAt (via 0x88#8 1#64).via.maint.toNat 0 = true ∧ bitAt (via 0x88#8 1#64).via.mapout.toNat 3 = true ∧ (via 0x88#8 1#64).via.portThere {} 3 = true ∧
      (∀ j, j < 4 → (8#64).toNat.testBit j = true → bitAt (via 0x88#8 0#64).via.mapout.toNat j = true) ∧ (via 0x88#8 0#64).returnAll = via 0x88#8 0#64 ∧
      4 < bitsAt (5#64).toNat 0 3 ∧ bitsAt (4#64).toNat 0 3 ≤ 4 ∧ (via 0#8 0#64).via.self = 0x55 ∧ State.reset.fuse.portFitted 3 = true ∧ up.linkLive = true ∧
      (0x8000#64).toNat = 2 ^ (15 : ClusterId).val ∧ (up.sleep 15).st = .active ∧
      ({ up with pwr := { sleep := [(15, { st := .deep })] } } : Dev).sleep 15 = { st := .deep } := by decide +kernel

/-! ### Witnesses: reliability, power and boot -/

def inState (st : PkgSt) (r : Ras) : Dev := { up with ras := { r with st := st } }

theorem witness_ParapetEntered :
    up.pins.powered = true ∧ up.running = true ∧ up.ras.st ≠ .parapet ∧ up.ras.st ≠ .retired ∧
      (({ up with ras := { resetting := [(.die 3, 0)] } } : Dev).ras.resetting.any fun x => x.1 = .die 3) = true ∧
      (inState .parapet {}).ras.st = .parapet ∧ (inState .retired {}).ras.st = .retired ∧ (inState .retired {}).pins.powered = true := by decide +kernel

theorem witness_ResetsEndAndRecur :
    ResetTarget.wf (.core 15 31) = true ∧ (up.ras.resetting.any fun x => x.1 = .core 15 31) = false ∧
      (∀ t ∈ [ResetTarget.core 15 31, .cluster 15, .die 3, .package],
        (({ up with ras := { resetting := [(t, 0)] } } : Dev).ras.resetting.any fun x => x.1 = t) = true ∧
        ({ up with ras := { resetting := [(t, 0)] } } : Dev).tested (fun _ => true) = true ∧
        ({ up with ras := { resetting := [(t, 0)] } } : Dev).tested (insideCluster 15) = true ∧
        ({ up with ras := { resetting := [(t, 0)] } } : Dev).tested (insideDie 3) = true) ∧
      ({ up with ras := { resetting := [(.cluster 15, 0)], testing := [.cluster 15] } } : Dev).tested (insideCluster 15) = false ∧
      (inState .running { testing := [.core 15 31] }).ras.testing.contains (.core 15 31) = true ∧ bitAt (0x7FFFFFFF#32).toNat 31 = false ∧
      bitAt (0x80000000#32).toNat 31 = true ∧ (inState .running { testing := [.cluster 15] }).ras.testing.contains (.cluster 15) = true ∧
      (∀ x ∈ up.ras.toFence, x.1 ≠ 15) ∧
    ((inState .parapet { cause := 2#8, latched := 2#8 }).busUp = true ∧ bitAt (inState .parapet {}).ras.ctrl.toNat 0 = true ∧
      (inState .parapet {}).ras.noAuto = false ∧ (inState .parapet { latched := 2#8 }).allowsWarm = true ∧
      (inState .parapet { latched := 1#8 }).allowsWarm = false ∧ bitAt (inState .parapet { ctrl := 0xA00#64 }).ras.ctrl.toNat 0 = false ∧
      (inState .parapet { noAuto := true }).ras.noAuto = true ∧ (inState .retired {}).ras.retiredBoot = false ∧
      (inState .retired { retiredBoot := true }).ras.retiredBoot = true) := by decide +kernel

def lastXfer : Xfer := { lin := 3, va := 0x1000, pa := 0, sram := 0, write := false, port := 0 }
/-- Core 31 of cluster 15, on the running span in slot 5, an engine holding a keystone that it does not take, with or without a transfer outstanding. -/
def stuckCore (moving : Bool) : Dev :=
  { up with spans := [(5, { st := .running, running := some 1, cores := [{ idx := 0, cl := 15, phys := 31 }] })],
            cores := [(511, { span := some (0, 5), engs := [(0, { queues := [(0, { key := true })], ctxs := if moving then [(0, { outst := [lastXfer] })] else [] })] })] }
def lastCluster : Kf := { clusterMap := 0x8000#16 }

theorem witness_WatchdogsExpire :
    (stuckCore false).running = true ∧ State.reset.fuse.clusterFitted 15 = true ∧ lastCluster.coreFenced 15 31 = false ∧ (stuckCore false).coreCounts 15 31 = true ∧
      (stuckCore false).coveredBy (.core 15 31) = false ∧ (stuckCore true).coreCounts 15 31 = false ∧
      ({ up with opens := [openOp wait5] } : Dev).openOf 1 = some (openOp wait5) ∧ ({ up with opens := [openOp wait5] } : Dev).inDoubt (openOp wait5) = false ∧
      up.openOf 1 = none ∧ State.reset.fuse.dieFitted 3 = true ∧ lastCluster.usable (4 * 3 + 7 / 2) = true ∧
      up.ras.pierAt.find? (fun x : Nat × Nat => x.1 = 3) = none ∧ up.coveredBy (.die 3) = false ∧
      ({ up with ras := { pierAt := [(3, 1000)] } } : Dev).ras.pierAt.find? (fun x : Nat × Nat => x.1 = 3) = some (3, 1000) ∧
      (6000001000#64).toNat ≤ 1000 + 60 * 100000000 := by decide +kernel

def pulling (x : Xfer) : Dev :=
  { up with cores := [(511, { engs := [(7, { ctxs := [(7, { outst := [x] })] })] })] }
theorem witness_ControlErrors :
    up.running = true ∧ State.reset.fuse.clusterFitted 15 = true ∧ lastCluster.coreFenced 15 31 = false ∧ up.ras.testing.contains (.cluster 15) = false ∧
      (∀ k ∈ up.spansOn (fun c q => c = 15 && q = 31), (up.span k).running = none ∧ (up.span k).waits = 0) ∧ up.ras.ceDue = [] ∧
      Fuses.part {} ≠ .kpv2L ∧ Fuses.part { part := .kpv2L } = .kpv2L ∧ (7 : Fin 8).val ∉ [0, 1, 4] ∧ (4 : Fin 8).val ∈ [0, 1, 4] ∧
      ({ up with opens := [openOp wait5] } : Dev).openOf 1 = some (openOp wait5) ∧
      (let d := moving (moveOf 2 false) (longOp .move .running)
       (d.long 1023).used = true ∧ (d.long 1023).st.terminal = false) ∧
      (let d := { up with blk := { moves := [{ moveOf 1 false with uid := 9, long := none, resolution := true }],
                                   resolutions := [{ id := 9, die := 0, kind := .mgPage 1 0, started := true }] } }
       d.openOf 9 = none ∧ (d.moveOf 9).isSome = true ∧ (d.resOf 9).isSome = true) ∧
      [Requester.stream 15 31 3 7, .command 1, .long 1023].all Requester.wf = true ∧
      (∃ k ∈ (stuckCore false).spansOn (fun c q => c = 15 && q = 31), ((stuckCore false).span k).running ≠ none) ∧
      lastCluster.usable 15 = true ∧ up.coveredBy (.cluster 15) = false ∧ lastCluster.usable 0 = false ∧
      ((pulling lastXfer).streamCtx 15 31 3 7).outst.head? = some lastXfer := by decide +kernel

theorem witness_SupplyAndColdReset :
    up.pins.powered = true ∧ up.pins.perst = false ∧ (({ up with pins := { powered := false } } : Dev).pins.powered = false ∧
      ({ up with pins := { powered := false } } : Dev).pins.epo = false ∧ ({ up with pins := { powered := false } } : Dev).pins.brake = false) ∧
      State.reset.dev.pins.perst = true ∧ (inState .retired {}).ras.st = .retired ∧ (inState .running {}).ras.st ≠ .retired ∧
      (({ up with pins := { perst := true, perstAt := 1000 } } : Dev).countReset (at_ up).env 5).1 = false ∧
      (({ up with ras := { hist := [(0, 5), (0, 4), (0, 5)] } } : Dev).countReset (at_ up).env 5).1 = true := by decide +kernel

def bootingWith (st : PkgSt) (i : Option FwInfo) : Dev :=
  { up with sec := { booting := true, recovery := false, running := i }, ras := { st := st, coldReset := true } }
def foundNothing : BootFound := { slowCh := 2#32, failedCh := 0#32, failedCores := [], failedPier := 0#16, gen := 5#4, width := 4#4 }

theorem witness_BootRuns :
    State.reset.dev.pins.powered = true ∧ State.reset.dev.pins.perst = true ∧ up.sec.booting = false ∧ State.reset.dev.busUp = false ∧
      (bootingWith .retired none).busUp = true ∧ (bootingWith .retired none).sec.booting = true ∧ (bootingWith .retired none).ras.st = .retired ∧
      (let i : FwInfo := { version := 3, svn := 2, floor := 1, header := 0#256, comps := [] }
       let d := bootingWith .resetting (some i)
       d.busUp = true ∧ d.sec.booting = true ∧ d.sec.recovery = false ∧ d.ras.st = .resetting ∧ d.ras.coldReset = true ∧ d.sec.running = some i ∧
        foundNothing.failedCores = [] ∧ foundNothing.failedPier = 0#16 ∧ foundNothing.failedCh = 0#32 ∧ d.pins.epo = false ∧ d.pins.thermtrip = false ∧
        d.pins.inputGood = true ∧ d.pins.refclk = true ∧ d.pwr.deferred = []) := by decide +kernel

theorem witness_PinsAndHeartbeat :
    up.pins.brake = false ∧ up.pins.powered = true ∧ up.pwr.forced = false ∧ ({ up with pins := { brake := true } } : Dev).pins.brake = true ∧
      ({ up with pwr := { forced := true } } : Dev).pwr.forced = true ∧ ({ up with pwr := { hbLost := false } } : Dev).pwr.hbLost = false ∧
      up.pwr.hbLost = true ∧ ({ up with pins := { up.pins with inputGood := false } } : Dev).pins.inputGood = false ∧ up.pins.inputGood = true := by decide +kernel

/-- What a governor period measured, every junction at `t` quarter degrees above -40 °C. -/
def reading (t : Nat) : Measured :=
  { mv := 12000#16, total := 2000#16, useful := 1990#16, ballast := 0#16, temps := List.replicate 6 (BitVec.ofNat 10 t), energy := 200 }
def hottest (t : Nat) : Nat := maxList 0 ((governorPeriod (at_ up).env up (reading t)).pwr.temps.map BitVec.toNat)

theorem witness_GovernorPeriods :
    (reading 500).wf = true ∧ up.pins.powered = true ∧ up.pwr.hbLost = true ∧ ({ up with pwr := { hbLost := false } } : Dev).pwr.hbLost = false ∧
      tempOf up.pwr.throttleC = 540 ∧ tempOf (up.pwr.throttleC - 2) = 532 ∧ hottest 541 = 541 ∧ hottest 531 = 531 ∧ hottest 540 = 540 ∧ hottest 532 = 532 ∧
      hottest (tempOf 105) = tempOf 105 ∧ up.ras.st ≠ .parapet ∧ up.ras.st ≠ .retired ∧ up.pins.brake = false ∧ hottest 579 < tempOf 105 := by decide +kernel

def sleeping (z : Sleep) : Dev := { up with pwr := { up.pwr with sleep := [(15, z)] } }

theorem witness_ClustersSleep :
    up.running = true ∧ State.reset.fuse.clusterFitted 15 = true ∧ lastCluster.usable 15 = true ∧ (up.sleep 15).st = .active ∧ up.clusterIdle 15 = true ∧
      (stuckCore false).clusterIdle 15 = false ∧ ((sleeping { st := .nap }).sleep 15).st = .nap ∧ ((sleeping { st := .nap }).sleep 15).waking = false ∧
      (sleeping { st := .nap }).pwr.deepEn 15 = true ∧ (∀ p, p < 32 → ((sleeping { st := .nap }).core 15 p).sleepy = true) ∧
      ({ up with pwr := { sleepPolicy := 0#64 } } : Dev).pwr.deepEn 15 = false ∧
      ((sleeping { st := .deep, waking := true, wakes := 2 ^ 32 - 2 }).sleep 15) = { st := .deep, waking := true, wakes := 2 ^ 32 - 2 } ∧
      ((sleeping { st := .deep, waking := true, wakes := 2 ^ 32 - 1 }).sleep 15).wakes = 2 ^ 32 - 1 ∧
      ((sleeping { st := .nap, waking := true }).sleep 15).waking = true := by decide +kernel

/-! ### Witnesses: the viaducts and the management bus -/

def flit (k : FlitKind) (vc x : Nat) (payload : List Byte) : Flit :=
  { dstX := x, dstY := 5, srcX := 5, srcY := 6, srcLX := 5, srcLY := 6, vc := vc, detour := false, last := false, kind := k, tag := 0, xfer := 0, lseq := 1023,
    cvc := 0, credits := 0, payload := payload }
/-- The package at (5, 5), port 3 with `traffic`, the peer at (5, 6) in state `peer`. -/
def linkedUp (traffic : Bool) (peer : BitVec 3) : Dev :=
  { up with via := { pos := 0x1055#64, peers := [(0x65, peer)], ports := [(3, { st := .up, traffic := traffic, rxSeq := 1023 })] } }
def takes (d : Dev) (f : Flit) (h : Hop) : Bool := match Dev.takeFlit (at_ up).env d 3 f with
  | some t => d.hears 3 && (t.port 3).inService && t.hop {} f = h
  | none => false

theorem witness_FlitsTaken_rows :
    (∃ r, flitRow (.cts 3 (flit .cts 0 5 [])) = some r) ∧ ∃ x, linkRow (.ident 3 (flit .ident 2 0 [0#8, 1#8, 4#8])) = some x := ⟨⟨_, rfl⟩, _, rfl⟩

theorem witness_FlitsTaken :
    Instr.wf (.cts 3 (flit .cts 0 5 [])) = true ∧ up.hears 3 = false ∧ Instr.wf (.ident 3 (flit .ident 2 0 [0#8, 1#8, 4#8])) = true ∧
      (let d := linkedUp true 2#3
       d.hears 3 = true ∧ (flit .cts 0 5 []).lseq = (d.port 3).rxSeq ∧ (flit .cts 0 5 []).lseq ≠ (({ d with via := {} } : Dev).port 3).rxSeq ∧
        takes d (flit .cts 0 5 []) .here = true ∧ takes d (flit .cts 0 4 []) (.out 3 false) = true ∧ takes d (flit .cts 2 5 []) .here = true ∧
        d.via.peer 0x65 = 2) ∧
      takes (linkedUp false 2#3) (flit .cts 0 5 []) .here = false ∧ (linkedUp true 3#3).via.peer 0x65 ≠ 2 ∧
      flitAssigned (flit .cts 0 5 []) = true ∧ flitAssigned (flit .nack 0 5 [3#8]) = false ∧
      flitAssigned (flit .ident 2 0 [0#8, 1#8, 4#8]) = true ∧ flitAssigned (flit .ident 2 0 [0#8, 1#8, 5#8]) = false := by decide +kernel

def inDoubt (peer : BitVec 3) : Dev :=
  { up with via := { lmap := [(0xFF, 0x165#64)], peers := [(0x65, peer)] }, groups := [{ func := 31, num := 0xFF000001, inDoubt := true }] }
def sending (full : Bool) : ViaSend := { uid := 1, xfer := 0, dst := 0x65, vc := 0, tag := 0, len := 64, va := 0, asid := 1, full := full }
def portIn (st : PortSt) : Dev := { up with via := { ports := [(3, { st := st })] } }

theorem witness_LinksAndResends :
    up.linkLive = true ∧ up.running = true ∧ (∀ st ∈ [PortSt.down, .training, .up, .peerFault], ((portIn st).port 3).st = st ∧ (portIn st).linkLive = true) ∧
      ((portIn .up).port 3).linked = true ∧
      (∀ full, ({ up with via := { sends := [sending full] } } : Dev).sendOf 1 = some (sending full)) ∧
      (let d := { up with via := { noVotes := [{ func := 31, group := 0xFF000001, sentAt := 40 }] } }
       d.doubt 31 (0xFF000001#32).toNat = none ∧ (d.via.noVotes.find? fun y => y.func = (31 : FuncId).val && y.group = (0xFF000001#32).toNat).isSome = true ∧
        up.via.noVotes.find? (fun y => y.func = (31 : FuncId).val && y.group = (0xFF000001#32).toNat) = none) ∧
      (inDoubt 2#3).coordPeer 0xFF000001 = some 2 ∧ (inDoubt 2#3).doubt 31 (0xFF000001#32).toNat = some { func := 31, num := 0xFF000001, inDoubt := true } ∧ up.doubt 31 (0xFF000001#32).toNat = none := by
  decide +kernel

def message (f n off : Nat) : RegMessage := { func := f, count := n, offset := off, value := 1#64 }
def inSession (role : Nat) : Dev := { up with mgmt := { sessions := [session role none] } }
def unfinished : Dev := { up with mgmt := { sessions := [{ session 0 none with finished := false }] } }

theorem witness_SessionsAndMessages :
    up.pins.powered = true ∧ messageFits (message 31 32 0x800000) 32 = true ∧ messageFits (message 31 33 0x800000) 32 = false ∧
      messageFits (message 32 1 0x800000) 32 = false ∧ messageFits (message 0 1 0x800004) 32 = false ∧ messageFits (message 0 1 0x800048) 1 = true ∧
      messageFits (message 0 2 0x800048) 1 = false ∧ up.inSession .host = false ∧ (inSession 1).inSession (.session 4) = true ∧
      (inSession 0).mgmtStatus (.session 4) 0x800048 ≠ Config.ok ∧ (inSession 1).mgmtStatus (.session 4) 0x800048 = Config.ok ∧ (inSession 1).sec.recovery = false ∧
      ((0 : Fin 8).val ≤ 1 ∧ (1 : Fin 8).val ≤ 1 ∧ 2 ≤ (2 : Fin 8).val) ∧ (unfinished.mgmt.sessions.any fun x => x.id = 4 && !x.finished) = true ∧
      (up.mgmt.sessions.any fun x => x.id = 4 && !x.finished) = false ∧ (inSession 1).session 4 = some (session 1 none) ∧ up.session 4 = none ∧
      ((inSession 1).mgmt.sessions.any fun x => x.id = 4) = true ∧ (up.mgmt.sessions.any fun x => x.id = 4) = false := by decide +kernel

theorem witness_PldmAnswers :
    up.pins.powered = true ∧ (∃ k, pldmIds[(20#32).toNat - 1]? = some k) ∧ 20 < (21#32).toNat ∧ (pldmIds[(0#32).toNat - 1]?).isSome = true ∧
      (inSession 1).ras.st = .running ∧
      (∀ x ∈ [(0x100, 2800), (0x101, 200), (0x102, 900), (0x103, 2800), (0x104, 65535), (0x105, 95)],
        effecterFits {} up.pwr x.1 x.2 = true ∧ (inSession 1).mgmtStatus (.session 4) (effecterWrite x.1 x.2).1 = Config.ok ∧ effecterFits {} up.pwr x.1 0 = false) ∧
      up.mgmtStatus .host (effecterWrite 0x100 2800).1 ≠ Config.ok ∧ (inSession 1).pwr.brakeW ≠ 0 ∧ up.mgmt.events = [] ∧
      ({ up with mgmt := { events := [1#256] } } : Dev).mgmt.events = 1#256 :: [] := by
  refine ⟨by decide +kernel, ⟨_, rfl⟩, by decide +kernel⟩

theorem witness_EndpointAnswers :
    up.pins.powered = true ∧ (8#8).toNat ≠ 0 ∧ (0xFE#8 : Byte) ≠ 0xFF#8 ∧ (0x7E#8).toNat ∈ [0xFF, 0, 1, 5, 6, 0x7E] ∧ (2#8).toNat ∉ [0xFF, 0, 1, 5, 6, 0x7E] ∧
      up.mgmt.dynAddr = 0#7 ∧ ({ up with mgmt := { dynAddr := 8#7 } } : Dev).mgmt.dynAddr ≠ 0#7 ∧ (1 : Fin 8).val ≤ 1 ∧ 2 ≤ (2 : Fin 8).val ∧
      1 ≤ (8#8).toNat ∧ (8#8).toNat ≤ 8 ∧ 8 < (9#8).toNat ∧ (9#8 : Byte) ≠ 0xFF#8 := by decide +kernel

/-! ### Witnesses: the security processor -/

/-- An RSA-3072 modulus; the signatures below were made with its private key, outside the model. -/
def modulus : Nat :=
  0xbcc19303f77bbaccc5f6b198f3e6cdc4b28f0758c8408b66c8e88b7b330a8b0e5152826de6990811cd9bc52dc1c15c85e6c5e6a5007964d3dc18ccf4 * 2 ^ 2592 +
  0x16f220acde819224a3af6975316427f1e7206b12cf19d750f4e785377a96ffdde8544de5ba032e2ef9ffa46d5378dd5e06194dd4b4a9c44a6ef57e3d * 2 ^ 2112 +
  0x16cd0566b7d03ce26a5bb3151b4e7d08cbadf6606cc1fe88ac6d93907e2486a30195b8fed62c9ac71bb2777de7bd54be5f8dd756996243426aff61b0 * 2 ^ 1632 +
  0x98374a07bafc1ab0c7053e95d67ed8e1df5d8bac02440abd5f159ef3e1fcfc934597bbadcfebb8c21f051b836056b66af170f744561d5691c3a0fa55 * 2 ^ 1152 +
  0xc14bfe9587206c23d288c5e8c17230779fec99e1edfd22736428da1bbd64b7342cf651a7fd7252c645fb5b8df8882ef65406f87582b392a55598fcbe * 2 ^ 672 +
  0x206c1475ee5bbe85fd6765e4de0f26f627070650c80390be6a86afea2e0b3103ad99844d669e5c33637541b8f9da608ea75ca1e5d5180509e2316300 * 2 ^ 192 +
  0xebae905af985c19b945a547d96ec401171f7da1b5341f873
/-- Its RSASSA-PSS signature over bytes 0 to 447 of `claimed`. -/
def sigClaim : Nat :=
  0x91f303cca3a36491b2afa08473c1a52e4dc7520fd7dfda0a158b4dcadb2054784bb08fa314ec7206fa455db4777663af14c26c585f1a2bea639c8220 * 2 ^ 2592 +
  0xf8ba8ca1bd2e4bda4105b250b31ed294eb7c1d396e5ec1f29ac0c4b1e1b28391e0391844fbf6338ad91aca5df4a3c52e322834c5cbf9536a7b0b9e88 * 2 ^ 2112 +
  0xf9b8b35243601d25d0294c7be50b99fc93eb65ef061eef06ccb73bc65e234f2bef4def4db60594fc90b5522a9c456486b3df8891926ddc8f3a175f81 * 2 ^ 1632 +
  0xb546ce6b468372ca85d06da0eece32c0732373b1b865ea8e2b5055856abcf16fa7d406503d907c23acba9e578064366eb35be1474c982d5d198b64d7 * 2 ^ 1152 +
  0xc9bc5589d36ca337280598bf3fd14bf08708327dc3ee18c3d219595e5bf69a449704fde37ce33de343a666fea0ba737308284d4ef0623f992b6ad2f2 * 2 ^ 672 +
  0x2ec547c916f4064593b84d493e6227b12ee53e64625942ad1976a11acdcd6b4570fc398c0b5a22b7dd74d9131be98c936b96562d0193c715651f37d5 * 2 ^ 192 +
  0x48f8d3ad2948e8d7719ad1ca80035f66db5ea034d294b6a6
/-- The same of `policied`. -/
def sigPolicy : Nat :=
  0x61b3b1a5f1d3be019b3a1412e4f3a5c7c53a9c1b80e227b3df0b93a1412f58daef7fb7bfc2f87c255020bfded4774ac5afcb838ac0917640764c3807 * 2 ^ 2592 +
  0xfec9a45d1fc19e1d2c23d7757f76e931dece9a50dbc54bb77c9e6c20dfdb07ba184400d4b09e9c1c598b7fd37c67a158d1e8f8f0e015f8faf84beb00 * 2 ^ 2112 +
  0x06afadbccee0eabf52d7a2f20ce65919c173e06f888c11cd7f7bb1a659ae4dc33a5358dc008f58395b15bc45913f39f48691973b4d2ec73fc4ca53fb * 2 ^ 1632 +
  0x2bfdb95406f965d351769b9ab79b9d7e79c053c20c34f7954f0a8d51820c086181230cd82ae27a5898d9baa881fc052ad2fd77ec414189e6abe0fbcc * 2 ^ 1152 +
  0x4099dc805edb577c5d00fb9fa8dd0904ee1ff100830722cf4a8abfd0ee770f2f70aa0f4e59f527fa0a3c91d4073157fb7ff2649b8eb7520c65d6ba1b * 2 ^ 672 +
  0x0694b310967c0bc3e33e32436e66676ac3db402f753b91b02a9220f2bcfe37bded8011e3a0fa4ef3a11d368c72a83b06b77d81abbc9498d7f035031c * 2 ^ 192 +
  0x2c832474cb4ea348ab4214538f203be70ce937f8d95f2c21
/-- The same of `image`. -/
def sigImage : Nat :=
  0xb94157abfb3c582a71f8a65183482727a3732bb5fddee4d4d714717470dc828043ef6a189fdd8e26fae1ed297d5c6917d3a0d70413650c4592be0edf * 2 ^ 2592 +
  0x1b1dbe5a9ace4f9db3fa8a21df9c65af936fa5f5bc6d719b0e189ec2de6d29f0e41797e461ad4baf16ead25dccadd919ac5d90555f24215351362446 * 2 ^ 2112 +
  0x46b216b41bb1d931eecb5f050645c3fd7cb3bab9a85913882ebe9506f6e371e66ef1ca3466c06a58d738642ded105c3eea5e83208c07f13c13442d55 * 2 ^ 1632 +
  0x659d13fe51d02196e2c6ef8567d00a0cdc4aa121d052e7fbf709a7933ffe852786f02c18ce376aa02052cbedd171ca305ce17cc26785073f196aa143 * 2 ^ 1152 +
  0x1f67083c64041f7479d42c61ebdba9e3adefd503865719d7be5eea9e233594704f80a5c2adce4aabcbd2633cdb9c8b8b7c0f4815f0b8516ed332ce08 * 2 ^ 672 +
  0x64d5cd727f5d91b80950970276565fbbd0b2c0863b84a87799e19c0b7b2215ce04a0a0ad4c93abbd45d16b4bf4680261e61f2054a9a522c04ef9a9e6 * 2 ^ 192 +
  0x76c2a250a869d09f6e7892eaa1b61536bc3333bd39579ef8
/-- SHA-256 of its public key, and of no bytes. -/
def keyRoot : Nat := 0x856da8f79e778f0f398dce8ab62c16f3bfd3fb6cc66e04756359e586903017a0
def emptyHash : Nat := 0x55b852781b9995a44c939b64e441ae2724b96f99c8f4fb9a141cfc9842c4b0e3

/-- A number in `n` bytes, its highest first. -/
def bigEndian (n v : Nat) : List Byte := (toBytes n v).reverse

/-- CLAIM of that key, and POLICY 1 with COUNTER 5, each 1,024 bytes. -/
def claimed : List Byte :=
  toBytes 4 0x4F52454B ++ [1#8] ++ List.replicate 59 0#8 ++ toBytes 384 modulus ++ bigEndian 384 sigClaim ++ List.replicate 192 0#8
def policied : List Byte :=
  toBytes 4 0x4F52454B ++ [7#8, 0#8, 0#8, 1#8] ++ List.replicate 8 0#8 ++ [5#8] ++ List.replicate 431 0#8 ++ bigEndian 384 sigPolicy ++ List.replicate 192 0#8

def component (k : Nat) : List Byte := toBytes 4 k ++ List.replicate 4 0#8 ++ toBytes 8 4096 ++ toBytes 32 emptyHash
/-- A signed image of 4,096 bytes: version 3, SVN 2, floor 1, three components without bytes. -/
def image : List Byte :=
  toBytes 4 0x4D57464B ++ [1#8] ++ List.replicate 3 0#8 ++ [3#8, 0#8, 0#8, 0#8, 2#8, 1#8, 3#8, 0#8] ++ toBytes 8 4096 ++ List.replicate 40 0#8
    ++ component 1 ++ component 2 ++ component 3 ++ List.replicate 240 0#8 ++ bigEndian 384 sigImage ++ toBytes 384 modulus ++ toBytes 4 65537
    ++ List.replicate 2876 0#8

def submitting (kind len : Nat) (s : Sec) : Dev :=
  { up with sec := { s with submitBusy := true, submitPhase := 1#2, submitKind := kind, submitLen := BitVec.ofNat 64 len } }
def owner : Sec := { owned := true, ownerKey := some (BitVec.ofNat 3072 modulus), ownerCounter := 4#32 }

/-- The bytes are those of the operation and their fields stand where R404 puts them. -/
theorem claimed_fields : claimed.length = 1024 ∧ recordIs 1 claimed = true ∧ recOp claimed = 1 ∧ recordOk claimed = true := by decide +kernel
theorem policied_fields : policied.length = 1024 ∧ recordIs 7 policied = true ∧ recOp policied = 7 ∧ recordOk policied = true := by decide +kernel

theorem witness_SubmissionsEnd_records :
    (submitting 1 1024 {}).checking 1 = true ∧ (submitting 1 1024 {}).sec.submitLen = 1024#64 ∧ up.checking 1 = false ∧
      (submitting 1 1023 {}).sec.submitLen ≠ 1024#64 ∧ recordError {} (submitting 1 1024 {}).sec [] ≠ 0 := by decide +kernel

theorem witness_SubmissionsEnd_claim : recordError {} {} claimed = 0 := by decide +kernel
theorem witness_SubmissionsEnd_policy : recordError {} owner policied = 0 := by decide +kernel

/-- A part whose fuses trust that key. -/
def trusting : Fuses := { fwRootHash := BitVec.ofNat 256 keyRoot }

theorem image_header : image.length = 4096 ∧ fwHeaderOk trusting image = true ∧ fwEntriesOk image = true ∧ bytesAt image 12 1 = 2 := by decide +kernel

theorem witness_SubmissionsEnd_image : (checkImage trusting 2 image).toBool = true := by decide +kernel
theorem witness_SubmissionsEnd_refused :
    (submitting 2 4096 {}).checking 2 = true ∧ (submitting 3 4096 {}).checking 3 = true ∧ (submitting 2 4096 {}).sec.submitLen.toNat = 4096 ∧
      checkImage trusting 0 [] = .error (2, Config.badField) ∧ (submitting 2 0 {}).sec.submitLen.toNat = ([] : List Byte).length ∧
      (submitting 2 0 {}).checking 2 = true ∧ (up.sec.submitBusy = false ∧ up.pins.powered = true ∧
        ({ submitting 3 4096 {} with sec := { (submitting 3 4096 {}).sec with submitPhase := 2#2 } } : Dev).sec.submitPhase = 2#2 ∧
        (submitting 3 4096 {}).sec.submitBusy = true) := by
  refine ⟨by decide +kernel, by decide +kernel, by decide +kernel, rfl, by decide +kernel⟩

/-! ### Terms that are no command: each is refused -/

def refuses (l : List Instr) : Bool := l.all fun i => !i.wf && isRefused (exec i (at_ up))

/-- A Control ISA row with an opcode that is not its own; BAD_OPCODE with one that R117 assigns. -/
theorem smoke_control : refuses [.nop 0 0 (cmd 0x14 []), .badOpcode 0 0 (cmd 0x01 []), .spanLoad 0 0 (cmd 0x03 []), .spanLaunch 0 0 (cmd 0x02 []),
    .spanDrain 0 0 (cmd 0x03 []), .dispenseSet 0 0 (cmd 0x06 []), .move 0 0 (cmd 0x05 []), .image 0 0 (cmd 0x06 []), .evictImage 0 0 (cmd 0x07 []),
    .wait 0 0 (cmd 0x0B []), .signal 0 0 (cmd 0x0A []), .barrier 0 0 (cmd 0x0A []), .commit 0 0 (cmd 0x0E []), .abort 0 0 (cmd 0x0D [])] = true := by
  decide +kernel
theorem smoke_control2 : refuses [.viaSend 0 0 (cmd 0x10 []), .viaRecv 0 0 (cmd 0x0F []), .seqStep 0 0 (cmd 0x12 []), .admitSession 0 0 (cmd 0x11 []),
    .release 0 0 (cmd 0x12 []), .timestamp 0 0 (cmd 0x01 []), .longSuspend 0 0 (cmd 0x01 []), .longResume 0 0 (cmd 0x01 []), .longCancel 0 0 (cmd 0x01 []),
    .longQuery 0 0 (cmd 0x01 []), .objLoad 0 0 (cmd 0x01 []) [], .objRetire 0 0 (cmd 0x01 [])] = true := by decide +kernel
/-- A TRESTLE row with another OP. -/
theorem smoke_trestle : refuses [.gather 0 0 (cmd 0x09 [(16, 2)]), .scatter 0 0 (cmd 0x09 [(16, 1)]), .scatterAdd 0 0 (cmd 0x09 [(16, 1)]),
    .decode 0 0 (cmd 0x09 [(16, 1)]), .reduce 0 0 (cmd 0x09 [(16, 1)]), .update 0 0 (cmd 0x09 [(16, 1)]), .pfxLookup 0 0 (cmd 0x09 [(16, 1)]),
    .pfxInsert 0 0 (cmd 0x09 [(16, 1)]), .score 0 0 (cmd 0x09 [(16, 1)])] = true := by decide +kernel
/-- Units, ports and targets past the last, a fetch without commands, a register value of another domain, a count that is not six. -/
theorem smoke_units : refuses [.commandFetch 0 0 [], .dispatch 0 (.span 256), .tokenArrival (.sendEp 4 0) .good, .tokenSend (.recvEp 0 32),
    .creditReturn (.port ⟨16, 0, 0, .vector, 0⟩), .keystoneForward (.engine 0 32 0), .tierDeadlineExpiry (.stream 0 0 4 0), .pageWalkDone (.long 1024) .good,
    .faultDeadlineExpiry (.stream 0 0 0 8), .bridgeEcc 0 [.long 1024], .governorPeriod { reading 500 with temps := [] }, .vfFlr 0] = true := by
  decide +kernel
theorem smoke_registers : refuses [.resetCore .host 2#64, .resetCluster .host 1#64, .resetDie .host 1#64, .resetPackageWarm .host 1#64,
    .resetComplete (.die 4), .selfTestDone (.cluster 16) 0#32 false, .fenceCore .host 0x200#64, .fenceCluster .host 0#64, .bar2Read 0 4095 2,
    .bar2Read 0 0 0, .bar2Write 0 0 (List.replicate 513 0#8) false] = true := by decide +kernel
/-- A flit row with another KIND, and a field past its width; an owner record of another operation. -/
theorem smoke_flits : refuses [.idle 0 (flit .data 0 0 []), .data 0 (flit .rts 0 0 []), .rts 0 (flit .data 0 0 []), .cts 0 (flit .data 0 0 []),
    .nack 0 (flit .data 0 0 []), .endAck 0 (flit .data 0 0 []), .linkFail 0 (flit .data 0 0 []), .xferAbort 0 (flit .data 0 0 []),
    .vote 0 (flit .data 0 0 []), .decision 0 (flit .data 0 0 []), .query 0 (flit .data 0 0 []), .decisionAck 0 (flit .data 0 0 []),
    .heartbeat 0 (flit .data 0 0 []), .ident 0 (flit .data 0 0 []), .withdraw 0 (flit .data 0 0 []), .lretry 0 (flit .data 0 0 []),
    .data 0 (flit .data 4 0 []), .data 0 (flit .data 0 16 [])] = true := by decide +kernel
theorem smoke_records : refuses [.claim [0#8, 0#8, 0#8, 0#8, 2#8], .ownerRelease [], .pubEnrol [], .pubRemove [], .reqEnrol [], .reqRemove [], .policy []] = true := by
  decide +kernel

/-! ### One step of a few rows; expected values from the spec's tables -/

/-- What a step with this command in front sends. -/
def sends (i : Instr) (d : Dev) (l : List Output) : Bool := after (step { at_ d with pending := [i] }) fun t => t.dev.out = l && t.pending.isEmpty
/-- A completion entry of R119 in slot 0 of function 0's queue 3: CMD_ID 7, STATUS, PHASE 1, QUEUE 3, SQ_HEAD 1, RESULT. -/
def entry (status result : Nat) : Output :=
  .completion 0 3 0 (BitVec.ofNat 128 (7 + status * 2 ^ 16 + 0x80 * 2 ^ 24 + 3 * 2 ^ 32 + 1 * 2 ^ 48 + result * 2 ^ 64))

theorem test_nop : sends (.nop 0 3 (cmd 0x01 [])) (serving [cmd 0x01 []]) [entry 0 0] = true := by decide +kernel
theorem test_nop_reserved : sends (.nop 0 3 (cmd 0x01 [(12, 1)])) (serving [cmd 0x01 [(12, 1)]]) [entry 0x02 12] = true := by decide +kernel
theorem test_badOpcode : sends (.badOpcode 0 3 (cmd 0x2A [])) (serving [cmd 0x2A []]) [entry 0x01 0] = true := by decide +kernel
theorem test_timestamp : sends (.timestamp 0 3 (cmd 0x14 [])) (serving [cmd 0x14 []]) [entry 0 1000] = true := by decide +kernel
theorem test_signal : after (exec (.signal 0 3 signal5) (at_ { serving [signal5] with events := [(1023, 7#64)] })) (fun t => t.dev.event 0 1023 = 12#64) = true := by
  decide +kernel
theorem test_wait : sends (.wait 0 3 wait5) { serving [wait5] with events := [(1023, 5#64)] } [entry 0 5] = true := by decide +kernel
theorem test_idle_queue : after (step (at_ up)) (fun t => t.time = 1001#64 && t.dev = up) = true := by decide +kernel
theorem test_brake : after (exec .brakeAssert (at_ up)) (fun t => t.dev.pwr.ceiling = 90000 && t.dev.pwr.evBrake = 1) = true := by decide +kernel
theorem test_epo : after (exec .epoAssert (at_ up)) (fun t => t.dev.ras.st = .parapet && t.dev.ras.lastCode = 0x1B#8 && t.dev.ras.cause = 1#8) = true := by
  decide +kernel
theorem test_getEndpointId : sends .getEndpointId { up with mgmt := { eid := 9#8 } } [.response 0 [9]] = true := by decide +kernel
/-- The identity of each ordering number in configuration space (R375). -/
theorem test_configSpace : cfgDeviceId { part := .kpv4A } = 0x4B10 ∧ cfgDeviceId { part := .kpv4S } = 0x4B11 ∧ cfgDeviceId { part := .kpv2L } = 0x4B12 ∧
    cfgVfDeviceId = 0x4B1F ∧ cfgClassCode = 0x120000 ∧ cfgRevisionId { stepping := 0x2A#8 } = 0x2A := by decide +kernel
/-- A CTS flit: KIND 3 at bits [31:28], XFER 0x123 at [75:64], LSEQ 1023 at [85:76], and what the bytes give back (R309). -/
theorem test_flit :
    (let f := { flit .cts 0 5 (List.replicate 240 1#8) with xfer := 0x123 }
     (flitBytes f).take 12 = [0x55#8, 0x65#8, 0x65#8, 0x30#8, 0#8, 0#8, 0#8, 0#8, 0x23#8, 0xF1#8, 0x3F#8, 0#8] ∧ (flitBytes f).length = 256 ∧
      flitOf (flitBytes f) = some f ∧ flitOf ((flitBytes f).set 9 0xF0#8) = none) := by decide +kernel
theorem test_readLimit : sends (.counterReadClear 0 0x800028 true) up [.readData (toBytes 8 3) false] = true := by decide +kernel

/-! ### Number formats and standard algorithms: the values of the formats' definitions and of the standards' own examples -/

/-- Ties go to even, and 448 is the largest E4M3 number (R100, R103). -/
theorem test_convert : cvt 0 false false 0x3F808000 = 0x3F80 ∧ cvt 0 false false 0x3F818000 = 0x3F82 ∧ cvt 2 false true 0x7F800000 = 0x7E ∧
    cvt 2 true false 0x7E = 0x43E00000 ∧ cvt 4 false true 0xC3800000 = 0x80 ∧ cvt 1 true false 0x3C00 = 0x3F800000 := by decide +kernel
/-- 1 + 2^-24 is a tie, which falls to 1; the same with 1 + 2^-23 rises (R102). -/
theorem test_add : fpAdd 0x3F800000 0x33800000 = 0x3F800000 ∧ fpAdd 0x3F800001 0x33800000 = 0x3F800002 ∧ fpMul 0x40000000 0xC0400000 = 0xC0C00000 ∧
    fpAdd 0x7F800000 0xFF800000 = 0x7FC00000 := by decide +kernel
theorem test_sha256_abc : sha256Bytes [0x61#8, 0x62#8, 0x63#8] =
    toBytesBE 32 0xBA7816BF8F01CFEA414140DE5DAE2223B00361A396177A9CB410FF61F20015AD := by decide +kernel
theorem test_crc32 : crc32 ((List.range 9).map fun i => BitVec.ofNat 8 (0x31 + i)) = 0xCBF43926 := by decide +kernel
theorem test_sipHash : sipHash24 ((List.range 16).map (BitVec.ofNat 8)) ((List.range 15).map (BitVec.ofNat 8)) = 0xA129CA6149BE45E5 := by decide +kernel
theorem test_philox : philoxDraw 0 0 0 0 = 0x6627E8D5 := by decide +kernel
theorem test_aes256 : aesEncrypt (aesKeys ((List.range 32).map (BitVec.ofNat 8))) (toBytesBE 16 0x00112233445566778899AABBCCDDEEFF) =
    toBytesBE 16 0x8EA2B7CA516745BFEAFC49904B496089 := by decide +kernel
theorem test_gcm_empty : gcmDecrypt (List.replicate 32 0#8) (List.replicate 12 0#8) [] [] (toBytesBE 16 0x530F8AFBC74536B9A963B4F1C4CB738B) = some [] := by
  decide +kernel

end Sys2Proof.Tests
end

section
/-!
PROOFS. Accesses of the host: BAR2 reads and writes (R168, R170, R377), register writes (R10, R347, R376), the counters that a read or a register clears
(R170, R238, R433), and the write of an event counter (R135).
-/
namespace Sys2Proof.Machine

/-! ### The rows -/

theorem exec_bar2Read (f : FuncId) (off len : Nat) (s : State) : exec (.bar2Read f off len) s = execBar2Read f off len s := rfl
theorem exec_bar2Write (f : FuncId) (off : Nat) (data : List Byte) (poisoned : Bool) (s : State) :
    exec (.bar2Write f off data poisoned) s = execBar2Write f off data poisoned s := rfl
theorem exec_registerWrite (f : FuncId) (off : BitVec 26) (wide : Bool) (value : Quad) (s : State) :
    exec (.registerWrite f off wide value) s = .next (s.hostWrite f off.toNat wide value.toNat) := rfl
theorem exec_counterReadClear (f : FuncId) (off : BitVec 26) (wide : Bool) (s : State) :
    exec (.counterReadClear f off wide) s = .next (s.onDev fun e d => hostRead e d f off.toNat wide) := rfl
theorem exec_arbClear (value : Quad) (s : State) : exec (.arbClear value) s = .next (s.hostWrite 0 0x500018 true value.toNat) := rfl
theorem exec_eventWrite (f : FuncId) (i : Fin 1024) (value : Quad) (s : State) :
    exec (.eventWrite f i value) s = .next (s.hostWrite f (0x200000 + 8 * i) true value.toNat) := rfl

/-! ### Memories -/

/-- What was written is read. -/
theorem Memory.read_write_same (l : List Byte) (m : Memory) (a : Nat) (h : m.wf = true) : (m.write a l).read a l.length = l := by
  induction l generalizing m a with
  | nil => rfl
  | cons b t ih =>
    have head : ((m.put a b).write (a + 1) t).get a = b := by
      rw [Memory.get_write_other t _ _ _ (by omega), Memory.get_put_same m a b h]
    rw [List.length_cons, Memory.read, Memory.write, head, ih _ _ (Memory.wf_put m a b h)]

/-! ### BAR2 (R168, R170, R377) -/

/-- An access that lies in BAR2, of a size that BAR2 takes, is served. -/
theorem execBar2Read_served {f : FuncId} {off len : Nat} {s : State} (hb : s.dev.busUp = true) (ha : barAccess off len 4096 = true)
    (hl : off + len ≤ 2 ^ s.dev.hif.bar2Log2) :
    exec (.bar2Read f off len) s = .next { s with dev := bar2Read s.env s.dev f off len } := by
  simp [exec_bar2Read, execBar2Read, guarded, ha, onDev, State.onDev, Dev.bar2Hit, hb, hl]
theorem execBar2Write_served {f : FuncId} {off : Nat} {data : List Byte} {p : Bool} {s : State} (hb : s.dev.busUp = true)
    (ha : barAccess off data.length 512 = true) (hl : off + data.length ≤ 2 ^ s.dev.hif.bar2Log2) :
    exec (.bar2Write f off data p) s = .next { s with dev := bar2Write s.env s.dev f off data p } := by
  simp [exec_bar2Write, execBar2Write, guarded, ha, onDev, State.onDev, Dev.bar2Hit, hb, hl]

theorem Dev.bar2Refuse_running {d : Dev} (h : d.ras.st = .running) :
    d.bar2Refuse = { d with blk := { d.blk with bar2Refused := min (d.blk.bar2Refused + 1) (2 ^ 32 - 1) } } := by
  rw [Dev.bar2Refuse, if_pos h]

/-- The walk and the requests of an access to DRAM touch the arbiters, and draw free values, alone. -/
theorem Dev.bar2Asked_cases (e : Env) (d : Dev) (f off : Nat) (r : FixReq) (n : Nat) :
    ∃ a c, (d.bar2Walk e f off).askRange e r n hostSlot = { d with arb := a, freeCount := c } := by
  have walk : ∃ a c, d.bar2Walk e f off = { d with arb := a, freeCount := c } := by
    unfold Dev.bar2Walk; split
    · exact ⟨d.arb, d.freeCount, rfl⟩
    · exact Dev.askWalk_cases ..
  obtain ⟨a, c, hw⟩ := walk
  obtain ⟨b, ha⟩ := Dev.askRange_cases (d.bar2Walk e f off) e r n hostSlot
  exact ⟨b, c, by rw [ha, hw]⟩

/-- No word of the near tier that a read meets is bad. -/
theorem nearBad_unmet {bad : List Nat} {a len : Nat} (h : ∀ w ∈ bad, 8 * w + 8 ≤ a ∨ a + len ≤ 8 * w) :
    ((List.range (len / 8 + 2)).find? fun i => bad.contains (a / 8 + i) && 8 * (a / 8 + i) < a + len) = none := by
  refine List.find?_eq_none.2 fun i _ => ?_
  simp only [Bool.and_eq_true, List.contains_iff_mem, decide_eq_true_eq, not_and]
  intro hm
  have := h _ hm
  omega

section
variable {e : Env} {d : Dev} {f off len : Nat} {data : List Byte}

theorem bar2Read_refused (ht : bar2Target e d f off false = .refused) (hr : d.ras.st = .running) :
    bar2Read e d f off len = { d with
      blk := { d.blk with bar2Refused := min (d.blk.bar2Refused + 1) (2 ^ 32 - 1) }
      out := d.out ++ [.readData (List.replicate len 0xFF#8) false] } := by
  simp only [bar2Read, ht, Dev.bar2Refuse_running hr]; rfl

theorem bar2Read_hole (ht : bar2Target e d f off false = .hole) :
    bar2Read e d f off len = { d with out := d.out ++ [.readData (List.replicate len 0#8) false] } := by
  simp only [bar2Read, ht]; rfl

theorem bar2Read_dram {pa : Nat} (ht : bar2Target e d f off false = .dram pa) (hb : d.badIn pa len = none) :
    ∃ a c, bar2Read e d f off len =
      { d with arb := a, freeCount := c, out := d.out ++ [.readData (Memory.read d.blk.dram pa len) false] } := by
  obtain ⟨a, c, h⟩ := Dev.bar2Asked_cases e d f off { pa := pa, n := 0 } len
  have hb' : ({ d with arb := a, freeCount := c } : Dev).badIn pa len = none := hb
  exact ⟨a, c, by simp only [bar2Read, ht, h, hb']; rfl⟩

theorem bar2Read_near {a : Nat} (ht : bar2Target e d f off false = .near a)
    (hb : ∀ w ∈ d.blk.nearBad, 8 * w + 8 ≤ a ∨ a + len ≤ 8 * w) :
    bar2Read e d f off len = { d with out := d.out ++ [.readData (Memory.read d.blk.near a len) false] } := by
  simp only [bar2Read, ht, nearBad_unmet hb]; rfl

theorem bar2Write_poisoned (hr : d.ras.st = .running) : bar2Write e d f off data true =
    { d with blk := { d.blk with bar2Refused := min (d.blk.bar2Refused + 1) (2 ^ 32 - 1) } } := by
  simp only [bar2Write, if_true, Dev.bar2Refuse_running hr]

theorem bar2Write_hole (ht : bar2Target e d f off true = .hole) : bar2Write e d f off data false = d := by
  simp [bar2Write, ht]

theorem bar2Write_dram {pa : Nat} (ht : bar2Target e d f off true = .dram pa) :
    ∃ a c, bar2Write e d f off data false =
      (({ d with arb := a, freeCount := c } : Dev).writePa pa data).unpoison pa data.length := by
  obtain ⟨a, c, h⟩ := Dev.bar2Asked_cases e d f off { pa := pa, n := 0 } data.length
  exact ⟨a, c, by simp [bar2Write, ht, h]⟩

theorem bar2Write_near {a : Nat} (ht : bar2Target e d f off true = .near a) : bar2Write e d f off data false = d.nearWrite a data := by
  simp [bar2Write, ht]

end

/-- Settles O32: an access that BAR2 serves is what its target says, and a write to memory is read back and leaves every other byte. -/
theorem bar2Accesses : Obligations.Bar2Accesses := by
  intro f off len data s hb
  refine ⟨fun ha hl => ?_, fun ha hl => ?_⟩
  · rw [execBar2Read_served hb ha hl]
    refine ⟨fun ht hr => ?_, fun ht => ?_, fun pa ht hp => ?_, fun a ht hn => ?_⟩
    · rw [bar2Read_refused ht hr]
    · rw [bar2Read_hole ht]
    · obtain ⟨a, c, h⟩ := bar2Read_dram ht hp
      exact ⟨_, rfl, by rw [h]⟩
    · rw [bar2Read_near ht hn]
  · rw [execBar2Write_served hb ha hl, execBar2Write_served hb ha hl]
    refine ⟨fun hr => ?_, fun ht => ?_, fun pa ht hw => ?_, fun a ht hw => ?_⟩
    · rw [bar2Write_poisoned hr]
    · rw [bar2Write_hole ht]
    · obtain ⟨a, c, h⟩ := bar2Write_dram (data := data) ht
      rw [h]
      exact ⟨_, rfl, Memory.wf_write data _ pa hw, Memory.read_write_same data _ pa hw, Memory.get_write_other data _ pa, rfl, rfl, rfl⟩
    · rw [bar2Write_near ht]
      exact ⟨_, rfl, Memory.wf_write data _ a hw, Memory.read_write_same data _ a hw, Memory.get_write_other data _ a, rfl⟩

/-! ### Register writes of the host (R10, R341, R347, R376) -/

/-- A write that is aligned, and that the package takes, is a write of the register that it meets. -/
theorem hostWrite_taken {s : State} {f off v : Nat} {wide : Bool} (ha : aligned off wide = true)
    (ht : s.dev.takesWrite f (off / 8 * 8) (writtenValue s.env s.dev f off v wide) = true) :
    s.hostWrite f off wide v = s.writeReg f (off / 8 * 8) (writtenValue s.env s.dev f off v wide) false false := by
  simp [State.hostWrite, ha, ht]

/-- A write that is not aligned, or that the package does not take, changes nothing. -/
theorem hostWrite_ignored {s : State} {f off v : Nat} {wide : Bool} (h : aligned off wide = false ∨
    s.dev.takesWrite f (off / 8 * 8) (writtenValue s.env s.dev f off v wide) = false) : s.hostWrite f off wide v = s := by
  rcases h with h | h <;> simp [State.hostWrite, h]

/-- No write is taken without the bus, while RETIRED, of a register that a virtual function does not have, or of one that the parapet state closes. -/
theorem takesWrite_closed {d : Dev} {f off : Nat} (v : Nat) (h : d.busUp = false ∨ d.ras.st = .retired ∨ (f ≠ 0 ∧ vfServed off = false) ∨
    (d.ras.st = .parapet ∧ off ≠ 0x800060 ∧ off ≠ 0x800020)) : d.takesWrite f off v = false := by
  rcases h with h | h | ⟨hf, hs⟩ | ⟨hp, h1, h2⟩
  · simp [Dev.takesWrite, Dev.answersHost, h]
  · simp [Dev.takesWrite, Dev.answersHost, h]
  · simp [Dev.takesWrite, hf, hs]
  · simp [Dev.takesWrite, hp, h1, h2]

/-- Settles O40: a write that the package takes is the register's own write, and any other leaves the state. -/
theorem hostWrites : Obligations.HostWrites := by
  intro f off wide value s o v
  rw [exec_registerWrite]
  refine ⟨fun ha ht => ?_, fun h => ?_⟩
  · rw [hostWrite_taken ha ht]
    refine ⟨fun hfence hreset => ?_, fun hreset => ?_, fun hfence => ?_⟩
    · exact congrArg _ (writeReg_dev f o v false false hfence hreset)
    · rw [writeReg_reset _ _ _ _ _ hreset]
      exact ⟨_, rfl, onReset_time _ _, onReset_dev _ _, by rw [onReset_kf, onReset_dev]⟩
    · exact congrArg _ (if_pos hfence)
  · refine congrArg _ (hostWrite_ignored ?_)
    exact h.imp_right fun h => takesWrite_closed (f := f) v (by simpa using h)

/-! ### Counters that a read or a register clears (R170, R238, R433) -/

/-- A read of BLK_BAR2_REFUSED by the host. -/
theorem hostRead_bar2Refused {e : Env} {d : Dev} (hb : d.busUp = true) (hr : d.ras.st = .running) (hs : d.sec.recovery = false) :
    hostRead e d 0 0x300038 true = { d with
      blk := { d.blk with bar2Refused := 0 }, out := d.out ++ [.readData (toBytes 8 d.blk.bar2Refused) false] } := by
  have answers : d.answersHost = true := by simp [Dev.answersHost, hb, hr]
  have served : d.serves 0 0x300038 false = .value := by simp [Dev.serves, Dev.parapetHeld, hr, hs]
  have value : d.read64 e 0 0x300038 false = (d.blk.bar2Refused, d) := by rw [Dev.read64, served]; rfl
  have cleared : clearRead d 0 0x300038 true true = { d with blk := { d.blk with bar2Refused := 0 } } := rfl
  have read : d.readReg e 0 0x300038 false true true = (d.blk.bar2Refused, { d with blk := { d.blk with bar2Refused := 0 } }) := by
    simp [Dev.readReg, served, value, cleared]
  simp [hostRead, answers, aligned, read, Dev.emit]

/-- ARB_CLEAR written by the host. -/
theorem exec_arbClear_open {s : State} (h : s.dev.hostOpen = true) (value : Quad) :
    exec (.arbClear value) s = .next { s with dev := arbClear s.dev value.toNat } := by
  rw [exec_arbClear, hostWrite_open h 0 0x500018 _ (by decide) (.inl rfl), writeReg_dev _ _ _ _ _ (by decide) (by simp [startsReset])]
  rfl

/-- ARB_CLEAR names the counters of a port, or of every port, and of a slot of it, or of every slot (R238). -/
def arbNamed (v port k : Nat) : Bool := (bitAt v 10 || port = bitsAt v 0 10) && (bitAt v 22 || k = bitsAt v 16 6)

theorem arbNamed_iff {v port k : Nat} :
    arbNamed v port k = true ↔ (bitAt v 10 = true ∨ port = bitsAt v 0 10) ∧ (bitAt v 22 = true ∨ k = bitsAt v 16 6) := by
  simp [arbNamed]

/-- The counters that ARB_CLEAR leaves. -/
def arbKept (v : Nat) (t : Tab Nat) : Tab Nat := t.filter fun x => !arbNamed v (x.1 / 64) (x.1 % 64)

/-- A counter that is named reads 0, any other as before. -/
theorem get_arbKept (v port : Nat) {k : Nat} (hk : k < 64) (t : Tab Nat) :
    Tab.get 0 (64 * port + k) (arbKept v t) = if arbNamed v port k then 0 else Tab.get 0 (64 * port + k) t := by
  have hp : (64 * port + k) / 64 = port := by omega
  have hs : (64 * port + k) % 64 = k := by omega
  rw [arbKept, Tab.get_filter 0 (64 * port + k) (fun j => !arbNamed v (j / 64) (j % 64)), hp, hs]
  cases arbNamed v port k <;> rfl

theorem arbClear_unset {v : Nat} (d : Dev) (h : bitAt v 23 = false) : arbClear d v = d := by simp [arbClear, h]
theorem arbClear_set {v : Nat} (d : Dev) (h : bitAt v 23 = true) :
    arbClear d v = { d with arb := { d.arb with
      grants := arbKept v d.arb.grants, waits := arbKept v d.arb.waits, maxWait := arbKept v d.arb.maxWait } } := by
  rw [arbClear, if_pos h]; rfl

/-! ### The write of an event counter (R135) -/

/-- A completion touches the open commands, the queues and the output alone. -/
theorem Dev.complete_cases (d : Dev) (uid st r fl : Nat) :
    ∃ o h u, d.complete uid st r fl = { d with opens := o, hif := h, out := u } := by
  unfold Dev.complete
  split
  · exact ⟨d.opens, d.hif, d.out, rfl⟩
  · split
    · exact ⟨_, d.hif, d.out, rfl⟩
    · dsimp only
      split <;> rw [Dev.post_rest] <;> exact ⟨_, _, _, rfl⟩

/-- So do the completions of a list of commands. -/
theorem Dev.finishAll_cases (l : List OpenCmd) (v : Nat) (d : Dev) :
    ∃ o h u, l.foldl (fun d o => d.finish o v) d = { d with opens := o, hif := h, out := u } := by
  induction l generalizing d with
  | nil => exact ⟨d.opens, d.hif, d.out, rfl⟩
  | cons x t ih =>
    obtain ⟨o, h, u, hx⟩ := d.complete_cases x.uid Config.ok v 0
    obtain ⟨o', h', u', ht⟩ := ih (d.finish x v)
    refine ⟨o', h', u', ?_⟩
    rw [List.foldl_cons, ht, Dev.finish, hx]

/-- The completions of a list of commands take these off the open ones, and no others. -/
theorem Dev.mem_finishAll_opens (l : List OpenCmd) (v : Nat) (d : Dev) (o : OpenCmd) :
    o ∈ (l.foldl (fun d o => d.finish o v) d).opens ↔ o ∈ d.opens ∧ ∀ w ∈ l, w.uid ≠ o.uid := by
  induction l generalizing d with
  | nil => simp
  | cons x t ih =>
    rw [List.foldl_cons, ih, Dev.finish, Dev.complete_opens, List.mem_filter, List.forall_mem_cons, and_assoc]
    simp [ne_comm]

/-- Where no RELEASE waits for a step, none is swept. -/
theorem Dev.sweepLeavers_none {d : Dev} (e : Env) (h : ∀ x ∈ d.seqs, x.2.leaver = none) : d.sweepLeavers e = d := by
  have : (d.seqs.filter fun x => x.2.leaver.isSome && (x.2.st = .ready || x.2.st = .parked)
      && !d.pendingStep e.fuse x.2.die (seqHandle x.1 x.2)) = [] :=
    List.filter_eq_nil_iff.2 fun x hx => by simp [h x hx]
  rw [Dev.sweepLeavers, this, List.foldl_nil]

/-- The WAITs that a value of an event counter meets. -/
def Dev.metWaits (d : Dev) (f i v : Nat) : List OpenCmd :=
  d.opens.filter fun o => o.func = f && o.opcode = opWait && cmdEvent o.cmd = i && waitMet o.cmd v

theorem Dev.mem_metWaits {d : Dev} {f i v : Nat} {w : OpenCmd} :
    w ∈ d.metWaits f i v ↔ w ∈ d.opens ∧ w.func = f ∧ w.opcode = opWait ∧ cmdEvent w.cmd = i ∧ waitMet w.cmd v = true := by
  simp [Dev.metWaits, and_assoc]

theorem Dev.setCounter_eq (d : Dev) (f i : Nat) (v : Quad) :
    d.setCounter f i v = (d.metWaits f i v.toNat).foldl (fun d o => d.finish o v.toNat) (d.setEvent f i v) := rfl

theorem Dev.setCounter_cases (d : Dev) (f i : Nat) (v : Quad) :
    ∃ o h u, d.setCounter f i v = { d.setEvent f i v with opens := o, hif := h, out := u } := by
  rw [Dev.setCounter_eq]; exact Dev.finishAll_cases ..

theorem Dev.mem_setCounter_opens {d : Dev} {f i : Nat} {v : Quad} {o : OpenCmd} :
    o ∈ (d.setCounter f i v).opens ↔ o ∈ d.opens ∧ ∀ w ∈ d.metWaits f i v.toNat, w.uid ≠ o.uid := by
  rw [Dev.setCounter_eq, Dev.mem_finishAll_opens, Dev.setEvent_opens]

/-- An event counter written by the host, where no RELEASE waits for a step. -/
theorem exec_eventWrite_open {s : State} (h : s.dev.hostOpen = true) (hl : ∀ x ∈ s.dev.seqs, x.2.leaver = none) (f : FuncId) (i : Fin 1024)
    (value : Quad) : exec (.eventWrite f i value) s = .next { s with dev := s.dev.setCounter f i value } := by
  have hi := i.isLt
  have served : vfServed (0x200000 + 8 * i) = true := by simp [vfServed]; omega
  have block : (0x200000 + 8 * (i : Nat)) / 0x100000 = 2 := by omega
  have counter : place (0x200000 + 8 * i) 0x200000 1024 8 = some ((i : Nat), 0) := by
    rw [place, if_pos (by simp; omega)]; simp
  have seqs : (s.dev.setCounter f i value).seqs = s.dev.seqs := by
    obtain ⟨o, h, u, e⟩ := s.dev.setCounter_cases f i value
    rw [e]; rfl
  have written : s.dev.writeReg s.env f (0x200000 + 8 * i) value.toNat false false = s.dev.setCounter f i value := by
    rw [Dev.writeReg, block]
    simp only [writeSpn, counter, q64, BitVec.ofNat_toNat, BitVec.setWidth_eq]
    rw [if_neg (by omega), Dev.sweepLeavers_none _ (seqs ▸ hl)]
  rw [exec_eventWrite, hostWrite_open h f _ _ (by omega) (.inr served), writeReg_dev _ _ _ _ _ (by omega) (by simp only [startsReset]; omega), written]

/-- Settles O41: each row is the read or the write of its register, whose counters and WAITs the lemmas above name. -/
theorem countersReadAndClear : Obligations.CountersReadAndClear := by
  intro f i value s
  refine ⟨fun hb hr hs => ?_, fun ho hv => ?_, fun ho hv => ?_, fun ho hl => ?_⟩
  · exact congrArg (fun d => Host.Outcome.next { s with dev := d }) (hostRead_bar2Refused (e := s.env) hb hr hs)
  · rw [exec_arbClear_open ho, arbClear_unset _ hv]
  · rw [exec_arbClear_open ho, arbClear_set _ hv]
    refine ⟨_, rfl, rfl, fun port k hk => ?_⟩
    simp only [get_arbKept _ _ hk, ← arbNamed_iff]
    exact ⟨fun hn => by simp [hn], fun hn => by simp [hn]⟩
  · rw [exec_eventWrite_open ho hl]
    obtain ⟨o, h, u, e⟩ := s.dev.setCounter_cases f i value
    refine ⟨_, rfl, ?_, fun g j hj => ?_, fun o => ?_, ?_⟩
    · rw [e]; exact Dev.event_setEvent s.dev f i value
    · rw [e]; exact Dev.event_setEvent_other s.dev hj value
    · simp only [Dev.mem_setCounter_opens, Dev.mem_metWaits, and_imp]
    · rw [e]; rfl

end Sys2Proof.Machine
end

section
/-!
PROOFS. The core maps (R18, R19, R25, R26): what a fence of a core or of a cluster and the boot assignment leave of FENCED, CLUSTER_MAP and KF_VMAP, and that
each keeps the maps sound.
-/
namespace Sys2Proof

/-! ### Tables of two parts and of consecutive indices -/

/-- An index that the second part of a table does not list is read in the first. -/
theorem Tab.get_append_left {α : Type} (d : α) (k : Nat) (t u : Tab α) (h : ∀ x ∈ u, x.1 ≠ k) : Tab.get d k (t ++ u) = Tab.get d k t := by
  induction t with
  | nil => exact Tab.get_absent d k u h
  | cons x t ih => simp only [List.cons_append, Tab.get, ih]

/-- A table that lists an entry for each index below `n`. -/
theorem Tab.get_rangeMap {α : Type} (d : α) (g : Nat → α) {n c : Nat} (h : c < n) : Tab.get d c ((List.range n).map fun i => (i, g i)) = g c := by
  induction n with
  | zero => omega
  | succ n ih =>
    rw [List.range_succ, List.map_append]
    by_cases e : c = n
    · subst e
      rw [Tab.get_append _ _ _ _ fun x hx => ?_]
      · simp [Tab.get]
      · obtain ⟨i, hi, rfl⟩ := List.mem_map.1 hx
        exact Nat.ne_of_lt (List.mem_range.1 hi)
    · rw [Tab.get_append_left _ _ _ _ fun x hx => ?_]
      · exact ih (by omega)
      · obtain ⟨i, hi, rfl⟩ := List.mem_map.1 hx
        simp only [List.mem_singleton] at hi
        exact hi ▸ Ne.symm e

/-- A table that lists consecutive indices from `b` on reads as the list of its values. -/
theorem Tab.get_zipIdx {α β : Type} (d : β) (g : α → β) (l : List α) (b n v : Nat) :
    Tab.get d (b + n + v) ((l.zipIdx n).map fun x => (b + x.2, g x.1)) = (l[v]?.map g).getD d := by
  induction l generalizing n v with
  | nil => rfl
  | cons x t ih =>
    rw [List.zipIdx_cons, List.map_cons, Tab.get]
    cases v with
    | zero => simp
    | succ v =>
      rw [if_neg (by simp), show b + n + (v + 1) = b + (n + 1) + v by omega, ih]
      simp

end Sys2Proof

namespace Sys2Proof.Machine

/-! ### Single bits -/

theorem bitAt_mark (w : Word) (p q : Nat) : bitAt (w ||| (1#32 <<< p)).toNat q = (bitAt w.toNat q || (decide (q = p) && decide (q < 32))) := by
  have h : (w ||| (1#32 <<< p)).getLsbD q = (w.getLsbD q || (decide (q = p) && decide (q < 32))) := by
    rw [BitVec.getLsbD_or, BitVec.getLsbD_shiftLeft, BitVec.getLsbD_one, Bool.eq_iff_iff]
    simp only [Bool.or_eq_true, Bool.and_eq_true, Bool.not_eq_true', decide_eq_true_eq, decide_eq_false_iff_not]
    exact or_congr_right (by omega)
  exact h

theorem bitAt_clear (w : BitVec 16) (c i : Nat) : bitAt (w &&& ~~~(1#16 <<< c)).toNat i = (bitAt w.toNat i && decide (i ≠ c)) := by
  have h : (w &&& ~~~(1#16 <<< c)).getLsbD i = (w.getLsbD i && decide (i ≠ c)) := by
    rw [BitVec.getLsbD_and, BitVec.getLsbD_not, BitVec.getLsbD_shiftLeft, BitVec.getLsbD_one]
    cases hi : w.getLsbD i
    · rfl
    · have : i < 16 := BitVec.lt_of_getLsbD hi
      rw [Bool.eq_iff_iff]
      simp only [Bool.true_and, Bool.and_eq_true, Bool.not_eq_true', Bool.not_eq_false', decide_eq_true_eq, Bool.and_eq_false_iff, decide_eq_false_iff_not]
      omega
  exact h

/-- The sum of the powers of two that a set of positions below `n` names has the bits of that set. -/
theorem bitAt_sum (p : Nat → Bool) (n i : Nat) :
    bitAt (((List.range n).filter p).foldl (fun v c => v + 2 ^ c) 0) i = (decide (i < n) && p i) ∧
    ((List.range n).filter p).foldl (fun v c => v + 2 ^ c) 0 < 2 ^ n := by
  induction n with
  | zero => simp [bitAt]
  | succ n ih =>
    obtain ⟨bits, below⟩ := ih
    simp only [bitAt] at bits ⊢
    rw [List.range_succ, List.filter_append, List.foldl_append]
    generalize ((List.range n).filter p).foldl (fun v c => v + 2 ^ c) 0 = v at bits below ⊢
    cases hn : p n
    · simp only [List.filter_cons, hn, List.filter_nil, List.foldl_nil, Bool.false_eq_true, if_false]
      refine ⟨?_, by rw [pow_succ]; omega⟩
      rw [bits]
      rcases Nat.lt_trichotomy i n with h | rfl | h
      · simp [h, Nat.lt_succ_of_lt h]
      · simp [hn]
      · simp [show ¬i < n by omega, show ¬i < n + 1 by omega]
    · simp only [List.filter_cons, hn, List.filter_nil, List.foldl_cons, List.foldl_nil, if_true]
      refine ⟨?_, by rw [pow_succ]; omega⟩
      rw [Nat.add_comm]
      rcases Nat.lt_trichotomy i n with h | rfl | h
      · rw [Nat.testBit_two_pow_add_gt h, bits]; simp [h, Nat.lt_succ_of_lt h]
      · rw [Nat.testBit_two_pow_add_eq, bits]; simp [hn]
      · have : 2 ^ n + v < 2 ^ i := lt_of_lt_of_le (by rw [pow_succ]; omega) (Nat.pow_le_pow_right (by omega) h)
        rw [Nat.testBit_eq_false_of_lt this]; simp [show ¬i < n + 1 by omega]

theorem clusterFitted_lt {u : Fuses} {c : Nat} (h : u.clusterFitted c = true) : c < 16 := by
  unfold Fuses.clusterFitted Fuses.dieFitted at h
  split at h
  all_goals
    have := of_decide_eq_true h
    omega

/-! ### A core marked as fenced -/

/-- FENCED of a core sets, and nothing else happens. -/
def Kf.mark (k : Kf) (c p : Nat) : Kf := { k with fenced := Tab.put c (k.fencedOf c ||| (1#32 <<< p)) k.fenced }

/-- A virtual position moves to a core, or to none. -/
def Kf.reseat (k : Kf) (c v : Nat) : Option Nat → Kf
  | some q => { k with vmap := Tab.put (32 * c + v) (BitVec.ofNat 8 (0x80 + q)) k.vmap }
  | none => { k with vmap := Tab.erase (32 * c + v) k.vmap }

section
variable (k : Kf) (c p : Nat)

@[simp] theorem Kf.mark_vmap : (k.mark c p).vmap = k.vmap := rfl
@[simp] theorem Kf.mark_usable (i : Nat) : (k.mark c p).usable i = k.usable i := rfl
@[simp] theorem Kf.mark_physOf (i v : Nat) : (k.mark c p).physOf i v = k.physOf i v := rfl

theorem Kf.mark_fencedBit (i q : Nat) : bitAt ((k.mark c p).fencedOf i).toNat q =
    (bitAt (k.fencedOf i).toNat q || (decide (i = c ∧ q = p) && decide (q < 32))) := by
  unfold Kf.fencedOf Kf.mark
  by_cases h : i = c
  · subst h; rw [Tab.get_put_same, bitAt_mark]; simp [Kf.fencedOf]
  · rw [Tab.get_put_other _ h]; simp [h]

theorem Kf.mark_healthy_other {i : Nat} (h : i ≠ c) : (k.mark c p).healthy i = k.healthy i := by
  unfold Kf.healthy; simp [Kf.mark_fencedBit, h]

/-- One healthy core less. -/
theorem Kf.mark_healthy (hp : p < 32) (h : bitAt (k.fencedOf c).toNat p = false) : (k.mark c p).healthy c + 1 = k.healthy c := by
  unfold Kf.healthy
  have mem : p ∈ (List.range 32).filter fun q => !bitAt (k.fencedOf c).toNat q := by simp [hp, h]
  have nodup : ((List.range 32).filter fun q => !bitAt (k.fencedOf c).toNat q).Nodup := List.nodup_range.filter _
  have less : ((List.range 32).filter fun q => !bitAt ((k.mark c p).fencedOf c).toNat q)
      = ((List.range 32).filter fun q => !bitAt (k.fencedOf c).toNat q).erase p := by
    rw [nodup.erase_eq_filter, List.filter_filter]
    refine List.filter_congr fun q hq => ?_
    have hq : q < 32 := List.mem_range.1 hq
    by_cases e : q = p <;> simp [Kf.mark_fencedBit, hq, e, hp]
  rw [List.countP_eq_length_filter, List.countP_eq_length_filter, less, List.length_erase_of_mem mem]
  have := List.length_pos_of_mem mem
  omega

/-! ### Positions -/

theorem Kf.vposOf_none : k.vposOf c p = none ↔ ∀ v, v < 30 → k.physOf c v ≠ some p := by
  simp [Kf.vposOf]

theorem Kf.vposOf_some {v : Nat} (h : k.vposOf c p = some v) : v < 30 ∧ k.physOf c v = some p :=
  ⟨List.mem_range.1 (List.mem_of_find?_eq_some h), by simpa using List.find?_some h⟩

theorem Kf.spare_some {q : Nat} (h : k.spare c = some q) :
    q < 32 ∧ bitAt (k.fencedOf c).toNat q = false ∧ ∀ v, v < 30 → k.physOf c v ≠ some q := by
  have healthy := List.find?_some h
  simp only [Bool.and_eq_true, Bool.not_eq_true', Option.isNone_iff_eq_none] at healthy
  exact ⟨List.mem_range.1 (List.mem_of_find?_eq_some h), healthy.1, (k.vposOf_none c q).1 healthy.2⟩

/-- The byte of an entry that names core `q`. -/
theorem entry_some {q : Nat} (hq : q < 32) :
    (if bitAt (BitVec.ofNat 8 (0x80 + q)).toNat 7 then some (bitsAt (BitVec.ofNat 8 (0x80 + q)).toNat 0 5) else none) = some q := by
  revert q; decide

theorem Kf.physOf_reseat_same {v : Nat} {q : Option Nat} (hq : ∀ x, q = some x → x < 32) : (k.reseat c v q).physOf c v = q := by
  cases q with
  | some x => simp only [Kf.physOf, Kf.vmapEntry, Kf.reseat, Tab.get_put_same]; exact entry_some (hq x rfl)
  | none => simp only [Kf.physOf, Kf.vmapEntry, Kf.reseat, Tab.get_erase_same]; rfl

/-- What a position reads as is what its entry says. -/
theorem Kf.physOf_congr {k k' : Kf} {c v : Nat} (h : k.vmapEntry c v = k'.vmapEntry c v) : k.physOf c v = k'.physOf c v := by
  unfold Kf.physOf; rw [h]

theorem Kf.physOf_unmapped {k : Kf} {c v : Nat} (h : k.vmapEntry c v = 0#8) : k.physOf c v = none := by
  unfold Kf.physOf; rw [h]; rfl

theorem Kf.physOf_reseat_other {v i w : Nat} (q : Option Nat) (h : 32 * i + w ≠ 32 * c + v) : (k.reseat c v q).physOf i w = k.physOf i w := by
  cases q with
  | some x => exact Kf.physOf_congr (Tab.get_put_other _ h _ _)
  | none => exact Kf.physOf_congr (Tab.get_erase_other _ h _)

@[simp] theorem Kf.reseat_fencedOf (v i : Nat) (q : Option Nat) : (k.reseat c v q).fencedOf i = k.fencedOf i := by cases q <;> rfl
@[simp] theorem Kf.reseat_usable (v i : Nat) (q : Option Nat) : (k.reseat c v q).usable i = k.usable i := by cases q <;> rfl
@[simp] theorem Kf.reseat_healthy (v i : Nat) (q : Option Nat) : (k.reseat c v q).healthy i = k.healthy i := by cases q <;> rfl

/-! ### Fences of a cluster and of a core -/

@[simp] theorem Kf.fenceCluster_fencedOf (i : Nat) : (k.fenceCluster c).fencedOf i = k.fencedOf i := rfl
@[simp] theorem Kf.fenceCluster_healthy (i : Nat) : (k.fenceCluster c).healthy i = k.healthy i := rfl

theorem Kf.fenceCluster_usable (i : Nat) : (k.fenceCluster c).usable i = (k.usable i && decide (i ≠ c)) := bitAt_clear ..

theorem Kf.fenceCluster_physOf (i : Nat) {v : Nat} (hv : v < 30) : (k.fenceCluster c).physOf i v = if i = c then none else k.physOf i v := by
  have hd : (32 * i + v) / 32 = i := by omega
  have entry : (k.fenceCluster c).vmapEntry i v = if i = c then 0#8 else k.vmapEntry i v := by
    have := Tab.get_filter 0#8 (32 * i + v) (fun j => decide (j / 32 ≠ c)) k.vmap
    rw [hd] at this
    refine this.trans ?_
    by_cases h : i = c <;> simp [h, Kf.vmapEntry]
  by_cases h : i = c
  · rw [if_pos h]; exact Kf.physOf_unmapped (by rw [entry, if_pos h])
  · rw [if_neg h]; exact Kf.physOf_congr (by rw [entry, if_neg h])

theorem Kf.fenceCore_few (h : (k.mark c p).healthy c < 30) : k.fenceCore c p = (k.mark c p).fenceCluster c := if_pos h

theorem Kf.fenceCore_spare (h : 30 ≤ (k.mark c p).healthy c) (hv : k.vposOf c p = none) : k.fenceCore c p = k.mark c p := by
  unfold Kf.fenceCore; simp only [hv]; exact if_neg (by exact Nat.not_lt.2 h)

theorem Kf.fenceCore_seated {v : Nat} (h : 30 ≤ (k.mark c p).healthy c) (hv : k.vposOf c p = some v) :
    k.fenceCore c p = (k.mark c p).reseat c v ((k.mark c p).spare c) := by
  unfold Kf.fenceCore; simp only [hv]
  refine (if_neg (by exact Nat.not_lt.2 h)).trans ?_
  change (match (k.mark c p).spare c with | some q => _ | none => _) = _
  cases (k.mark c p).spare c <;> rfl

/-- What a fence of a core can do. -/
theorem Kf.fenceCore_cases :
    ((k.mark c p).healthy c < 30 ∧ k.fenceCore c p = (k.mark c p).fenceCluster c) ∨
    (30 ≤ (k.mark c p).healthy c ∧ k.vposOf c p = none ∧ k.fenceCore c p = k.mark c p) ∨
    (∃ v, 30 ≤ (k.mark c p).healthy c ∧ k.vposOf c p = some v ∧ k.fenceCore c p = (k.mark c p).reseat c v ((k.mark c p).spare c)) := by
  by_cases h : (k.mark c p).healthy c < 30
  · exact .inl ⟨h, k.fenceCore_few c p h⟩
  · have h := Nat.le_of_not_lt h
    cases hv : k.vposOf c p with
    | none => exact .inr (.inl ⟨h, rfl, k.fenceCore_spare c p h hv⟩)
    | some v => exact .inr (.inr ⟨v, h, rfl, k.fenceCore_seated c p h hv⟩)

/-- FENCED after a fence of a core, whatever becomes of its cluster. -/
@[simp] theorem Kf.fenceCore_fencedOf (i : Nat) : (k.fenceCore c p).fencedOf i = (k.mark c p).fencedOf i := by
  obtain ⟨-, h⟩ | ⟨-, -, h⟩ | ⟨v, -, -, h⟩ := k.fenceCore_cases c p <;> rw [h] <;> simp

/-- The other clusters keep their maps. -/
theorem Kf.fenceCore_other {i : Nat} (hi : i ≠ c) :
    (k.fenceCore c p).usable i = k.usable i ∧ ∀ v, v < 30 → (k.fenceCore c p).physOf i v = k.physOf i v := by
  obtain ⟨-, h⟩ | ⟨-, -, h⟩ | ⟨v, -, hv, h⟩ := k.fenceCore_cases c p <;> rw [h]
  · exact ⟨by simp [Kf.fenceCluster_usable, hi], fun v hv => by simp [Kf.fenceCluster_physOf _ _ _ hv, hi]⟩
  · exact ⟨rfl, fun _ _ => rfl⟩
  · have := (k.vposOf_some c p hv).1
    exact ⟨by simp, fun w hw => by rw [Kf.physOf_reseat_other _ _ _ (by omega)]; rfl⟩

end

/-! ### Soundness -/

/-- A map without entries is sound where its clusters are staffed. -/
theorem Kf.sound_of_unmapped {k : Kf} (hs : k.Staffed) (hv : k.vmap = []) : k.Sound := by
  have none : ∀ c v, k.physOf c v = none := fun c v => by
    simp only [Kf.physOf, Kf.vmapEntry, hv, Tab.get_nil]; rfl
  exact ⟨hs, fun c v p _ _ h => by simp [none] at h, fun c v w p _ _ _ h => by simp [none] at h⟩

theorem Kf.Sound.unmapped {k : Kf} (h : k.Sound) : ({ k with vmap := [] } : Kf).Sound := Kf.sound_of_unmapped h.staffed rfl

/-- A cluster fenced as a whole leaves nothing of it to keep: the maps are sound where the others were, whatever its own FENCED bits have become. -/
theorem Kf.Sound.fenceCluster_of {k m : Kf} (h : k.Sound) {c : Nat} (hu : m.clusterMap = k.clusterMap) (hv : m.vmap = k.vmap)
    (hf : ∀ i, i ≠ c → m.fencedOf i = k.fencedOf i) : (m.fenceCluster c).Sound := by
  have usable {i : Nat} : (m.fenceCluster c).usable i = true ↔ k.usable i = true ∧ i ≠ c := by
    rw [Kf.fenceCluster_usable, Bool.and_eq_true, decide_eq_true_eq, Kf.usable, hu]; rfl
  have phys {i v q : Nat} (hv30 : v < 30) : (m.fenceCluster c).physOf i v = some q ↔ i ≠ c ∧ k.physOf i v = some q := by
    have : m.physOf i v = k.physOf i v := Kf.physOf_congr (congrArg (Tab.get 0#8 (32 * i + v)) hv)
    rw [Kf.fenceCluster_physOf _ _ _ hv30, Option.ite_none_left_eq_some, this]
  refine ⟨fun i hi hiu => ?_, fun i v q hi hv30 hq => ?_, fun i v w q hi hv30 hw30 hq hr => ?_⟩
  · obtain ⟨hk, hne⟩ := usable.1 hiu
    have : (m.fenceCluster c).healthy i = k.healthy i := by rw [Kf.fenceCluster_healthy, Kf.healthy, hf i hne]; rfl
    exact this ▸ h.staffed i hi hk
  · obtain ⟨hne, hq⟩ := (phys hv30).1 hq
    obtain ⟨hk, hh⟩ := h.healthy i v q hi hv30 hq
    exact ⟨usable.2 ⟨hk, hne⟩, by rw [Kf.fenceCluster_fencedOf, hf i hne]; exact hh⟩
  · exact h.distinct i v w q hi hv30 hw30 ((phys hv30).1 hq).2 ((phys hw30).1 hr).2

theorem Kf.Sound.fenceCluster {k : Kf} (h : k.Sound) (c : Nat) : (k.fenceCluster c).Sound := h.fenceCluster_of rfl rfl fun _ _ => rfl

/-- A cluster that keeps 30 healthy cores keeps the maps staffed when one of its cores is marked. -/
theorem Kf.Sound.mark_staffed {k : Kf} (h : k.Sound) {c p : Nat} (hk : 30 ≤ (k.mark c p).healthy c) : (k.mark c p).Staffed := by
  intro i hi hu
  by_cases e : i = c
  · exact e ▸ hk
  · rw [Kf.mark_healthy_other _ _ _ e]; exact h.staffed i hi hu

/-- A healthy core other than the marked one stays healthy. -/
theorem Kf.mark_keeps {k : Kf} {c p i q : Nat} (h : bitAt (k.fencedOf i).toNat q = false) (hne : ¬(i = c ∧ q = p)) :
    bitAt ((k.mark c p).fencedOf i).toNat q = false := by
  rw [Kf.mark_fencedBit, h]; simp [hne]

/-- A core without a position leaves the map as it is. -/
theorem Kf.Sound.fenceCore_spare {k : Kf} (h : k.Sound) {c p : Nat} (hk : 30 ≤ (k.mark c p).healthy c) (hv : k.vposOf c p = none) : (k.mark c p).Sound where
  staffed := h.mark_staffed hk
  healthy i w q hi hw hq := by
    obtain ⟨hu, hh⟩ := h.healthy i w q hi hw hq
    exact ⟨hu, Kf.mark_keeps hh fun ⟨ei, eq⟩ => (k.vposOf_none c p).1 hv w hw (ei ▸ eq ▸ hq)⟩
  distinct := h.distinct

/-- The position of the fenced core moves to a healthy core that holds none; no other position was on the fenced core. -/
theorem Kf.Sound.fenceCore_seated {k : Kf} (h : k.Sound) {c p v : Nat} (hc : c < 16) (hk : 30 ≤ (k.mark c p).healthy c) (hv : k.vposOf c p = some v) :
    ((k.mark c p).reseat c v ((k.mark c p).spare c)).Sound := by
  obtain ⟨hv30, hp⟩ := k.vposOf_some c p hv
  have spare {q : Nat} (hq : (k.mark c p).spare c = some q) := (k.mark c p).spare_some c hq
  have same : ((k.mark c p).reseat c v ((k.mark c p).spare c)).physOf c v = (k.mark c p).spare c :=
    Kf.physOf_reseat_same _ _ fun x hx => (spare hx).1
  have other {i w : Nat} (hw : w < 30) (hne : ¬(i = c ∧ w = v)) :
      ((k.mark c p).reseat c v ((k.mark c p).spare c)).physOf i w = k.physOf i w :=
    Kf.physOf_reseat_other _ _ _ (by omega)
  refine ⟨fun i hi hu => ?_, fun i w q hi hw hq => ?_, fun i w x q hi hw hx hq hr => ?_⟩
  · rw [Kf.reseat_healthy]; exact h.mark_staffed hk i hi (by simpa using hu)
  · rw [Kf.reseat_usable, Kf.reseat_fencedOf]
    by_cases ev : i = c ∧ w = v
    · obtain ⟨rfl, rfl⟩ := ev
      exact ⟨(h.healthy i w p hi hw hp).1, (spare (same ▸ hq)).2.1⟩
    · rw [other hw ev] at hq
      obtain ⟨hu, hh⟩ := h.healthy i w q hi hw hq
      exact ⟨hu, Kf.mark_keeps hh fun ⟨ei, eq⟩ => ev ⟨ei, h.distinct c w v p hc hw hv30 (ei ▸ eq ▸ hq) hp⟩⟩
  · by_cases ev : i = c ∧ w = v <;> by_cases ex : i = c ∧ x = v
    · omega
    · obtain ⟨rfl, rfl⟩ := ev
      rw [other hx ex] at hr
      exact absurd hr ((spare (same ▸ hq)).2.2 x hx)
    · obtain ⟨rfl, rfl⟩ := ex
      rw [other hw ev] at hq
      exact absurd hq ((spare (same ▸ hr)).2.2 w hw)
    · rw [other hw ev] at hq
      rw [other hx ex] at hr
      exact h.distinct i w x q hi hw hx hq hr

theorem Kf.Sound.fenceCore {k : Kf} (h : k.Sound) {c : Nat} (hc : c < 16) (p : Nat) : (k.fenceCore c p).Sound := by
  obtain ⟨-, e⟩ | ⟨hk, hv, e⟩ | ⟨v, hk, hv, e⟩ := k.fenceCore_cases c p <;> rw [e]
  · exact h.fenceCluster_of rfl rfl fun i hi => Tab.get_put_other _ hi _ _
  · exact h.fenceCore_spare hk hv
  · exact h.fenceCore_seated hc hk hv

/-! ### The boot assignment -/

/-- The healthy cores of a cluster in rising order. -/
def Kf.healthyCores (k : Kf) (c : Nat) : List Nat := (List.range 32).filter fun p => !bitAt (k.fencedOf c).toNat p

theorem Kf.mem_healthyCores {k : Kf} {c p : Nat} : p ∈ k.healthyCores c ↔ p < 32 ∧ bitAt (k.fencedOf c).toNat p = false := by
  simp [Kf.healthyCores]

theorem Kf.assign_get (k : Kf) (c : Nat) {v : Nat} (hv : v < 30) :
    Tab.get 0#8 (32 * c + v) (k.assign c) = (((k.healthyCores c)[v]?).map fun p => BitVec.ofNat 8 (0x80 + p)).getD 0#8 := by
  have := Tab.get_zipIdx 0#8 (fun p => BitVec.ofNat 8 (0x80 + p)) ((k.healthyCores c).take 30) (32 * c) 0 v
  rw [List.getElem?_take_of_lt hv] at this
  exact this

theorem Kf.assign_index {k : Kf} {c : Nat} {x : Nat × Byte} (h : x ∈ k.assign c) : x.1 / 32 = c := by
  obtain ⟨y, hy, rfl⟩ := List.mem_map.1 h
  have := (List.mem_zipIdx hy).2.1
  have : y.2 < 30 := by simp at this; omega
  simp only; omega

/-- The clusters' parts of the boot map do not meet. -/
theorem Kf.boot_entry (k : Kf) {c v : Nat} (hc : c < 16) (hv : v < 30) :
    k.boot.vmapEntry c v = if k.usable c then Tab.get 0#8 (32 * c + v) (k.assign c) else 0#8 := by
  let part (i : Nat) : Tab Byte := if k.usable i then k.assign i else []
  have apart {i : Nat} (e : i ≠ c) : ∀ x ∈ part i, x.1 ≠ 32 * c + v := fun x hx hk => by
    simp only [part] at hx
    split at hx
    · have := Kf.assign_index hx; omega
    · cases hx
  have read (l : List Nat) (hl : c ∈ l) (nodup : l.Nodup) : Tab.get 0#8 (32 * c + v) (l.flatMap part) = Tab.get 0#8 (32 * c + v) (part c) := by
    induction l with
    | nil => cases hl
    | cons i t ih =>
      obtain ⟨hi, ht⟩ := List.nodup_cons.1 nodup
      rw [List.flatMap_cons]
      by_cases e : i = c
      · subst e
        refine Tab.get_append_left _ _ _ _ fun x hx => ?_
        obtain ⟨j, hj, hx⟩ := List.mem_flatMap.1 hx
        exact apart (fun e => hi (e ▸ hj)) x hx
      · rw [Tab.get_append _ _ _ _ (apart e)]
        exact ih (List.mem_of_ne_of_mem (Ne.symm e) hl) ht
  refine (read (List.range 16) (List.mem_range.2 hc) List.nodup_range).trans ?_
  by_cases hu : k.usable c = true <;> simp [part, hu]

/-- The boot map: position v of a usable cluster is the healthy core of the (v + 1)-th lowest index (R19, R26). -/
theorem Kf.boot_physOf (k : Kf) {c v : Nat} (hc : c < 16) (hv : v < 30) :
    k.boot.physOf c v = if k.usable c then (k.healthyCores c)[v]? else none := by
  have entry := k.boot_entry hc hv
  by_cases hu : k.usable c = true
  · rw [if_pos hu, k.assign_get c hv] at entry
    rw [if_pos hu]
    cases hp : (k.healthyCores c)[v]? with
    | none => exact Kf.physOf_unmapped (by rw [entry, hp]; rfl)
    | some p =>
      have : p < 32 := (Kf.mem_healthyCores.1 (List.mem_of_getElem? hp)).1
      rw [hp] at entry
      exact (by rw [Kf.physOf, entry]; rfl : k.boot.physOf c v = _).trans (entry_some this)
  · rw [if_neg hu] at entry ⊢
    exact Kf.physOf_unmapped entry

theorem Kf.Sound.boot {k : Kf} (h : k.Staffed) : k.boot.Sound := by
  have core {c v p : Nat} (hc : c < 16) (hv : v < 30) (hp : k.boot.physOf c v = some p) : k.usable c = true ∧ (k.healthyCores c)[v]? = some p := by
    rw [k.boot_physOf hc hv, Option.ite_none_right_eq_some] at hp
    exact hp
  refine ⟨h, fun c v p hc hv hp => ?_, fun c v w p hc hv hw hp hq => ?_⟩
  · obtain ⟨hu, hm⟩ := core hc hv hp
    exact ⟨hu, (Kf.mem_healthyCores.1 (List.mem_of_getElem? hm)).2⟩
  · obtain ⟨-, hp⟩ := core hc hv hp
    obtain ⟨-, hq⟩ := core hc hw hq
    have nodup : (k.healthyCores c).Nodup := List.nodup_range.filter _
    exact (List.getElem?_inj (List.getElem?_eq_some_iff.1 hp).1 nodup).1 (hp.trans hq.symm)

/-! ### Power-on -/

/-- At power-on a usable cluster has 30 healthy cores by the fuses (R4, R18). -/
theorem Kf.atPower_sound (u : Fuses) : (Kf.atPower u).Sound := by
  refine Kf.sound_of_unmapped (fun c hc hu => ?_) rfl
  let p (c : Nat) : Bool := u.clusterFitted c && !bitAt u.fusedClusters.toNat c && decide (30 ≤ ({ fenced := u.fusedCores } : Kf).healthy c)
  obtain ⟨bits, below⟩ := bitAt_sum p 16 c
  have usable : (Kf.atPower u).usable c = (decide (c < 16) && p c) := by
    rw [← bits]
    unfold Kf.usable Kf.atPower
    rw [BitVec.toNat_ofNat, Nat.mod_eq_of_lt below]
  rw [usable] at hu
  simp only [p, Bool.and_eq_true, decide_eq_true_eq] at hu
  exact hu.2.2

end Sys2Proof.Machine
end

section
/-!
PROOFS. What every row does to the state outside the package: the queue and the fuses stay, the core maps move by fences, by the boot assignment and by clearing
KF_VMAP alone, but for the removal of power, and only the rows that `mayFence` and `mayMoveTime` name move the maps and LOCAL_TIME.
-/
namespace Sys2Proof.Machine

/-! ### How the core maps move -/

/-- Core maps that come from `k` by fences, by the boot assignment, and by KF_VMAP being cleared. -/
inductive Kf.Moved (k : Kf) : Kf → Prop
  | stay : Kf.Moved k k
  | fenceCore {m : Kf} (h : Kf.Moved k m) {c : Nat} (hc : c < 16) (p : Nat) : Kf.Moved k (m.fenceCore c p)
  | fenceCluster {m : Kf} (h : Kf.Moved k m) (c : Nat) : Kf.Moved k (m.fenceCluster c)
  | unmap {m : Kf} (h : Kf.Moved k m) : Kf.Moved k { m with vmap := [] }
  | boot {m : Kf} (h : Kf.Moved k m) : Kf.Moved k m.boot

theorem Kf.Moved.sound {k m : Kf} (h : Kf.Moved k m) (hk : k.Sound) : m.Sound := by
  induction h with
  | stay => exact hk
  | fenceCore _ hc p ih => exact ih.fenceCore hc p
  | fenceCluster _ c ih => exact ih.fenceCluster c
  | unmap _ ih => exact ih.unmapped
  | boot _ ih => exact Kf.Sound.boot ih.staffed

/-- A fenced core stays fenced (R25). -/
theorem Kf.Moved.fenced {k m : Kf} (h : Kf.Moved k m) {c p : Nat} (hk : bitAt (k.fencedOf c).toNat p = true) : bitAt (m.fencedOf c).toNat p = true := by
  induction h with
  | stay => exact hk
  | fenceCore _ _ _ ih => rw [Kf.fenceCore_fencedOf, Kf.mark_fencedBit, ih, Bool.true_or]
  | fenceCluster _ _ ih => exact ih
  | unmap _ ih => exact ih
  | boot _ ih => exact ih

theorem Kf.Moved.trans {k m n : Kf} (h : Kf.Moved k m) (h' : Kf.Moved m n) : Kf.Moved k n := by
  induction h' with
  | stay => exact h
  | fenceCore _ hc p ih => exact ih.fenceCore hc p
  | fenceCluster _ c ih => exact ih.fenceCluster c
  | unmap _ ih => exact ih.unmap
  | boot _ ih => exact ih.boot

/-! ### States that fences lead to -/

/-- `t` differs from `s` in the package and by moves of the core maps. -/
structure State.Fences (s t : State) : Prop where
  pending : t.pending = s.pending
  fuse : t.fuse = s.fuse
  time : t.time = s.time
  maps : Kf.Moved s.kf t.kf

theorem State.Fences.refl (s : State) : s.Fences s := ⟨rfl, rfl, rfl, .stay⟩

theorem State.Fences.trans {s t u : State} (h : s.Fences t) (h' : t.Fences u) : s.Fences u :=
  ⟨h'.pending.trans h.pending, h'.fuse.trans h.fuse, h'.time.trans h.time, h.maps.trans h'.maps⟩

theorem State.Fences.dev (s : State) (d : Dev) : s.Fences { s with dev := d } := ⟨rfl, rfl, rfl, .stay⟩

theorem State.Fences.onDev (s : State) (f : Env → Dev → Dev) : s.Fences (s.onDev f) := .dev s _

theorem State.Fences.unmap (s : State) : s.Fences { s with kf := { s.kf with vmap := [] } } := ⟨rfl, rfl, rfl, Kf.Moved.stay.unmap⟩

theorem State.Fences.boot (s : State) : s.Fences { s with kf := s.kf.boot } := ⟨rfl, rfl, rfl, Kf.Moved.stay.boot⟩

theorem State.Fences.foldl {α : Type} {f : State → α → State} (hf : ∀ (s : State) x, s.Fences (f s x)) (l : List α) (s : State) :
    s.Fences (l.foldl f s) := by
  induction l generalizing s with
  | nil => exact .refl _
  | cons x t ih => exact (hf s x).trans (ih (f s x))

theorem State.fenceCore_fences (s : State) (cl ph : Nat) (why : Option FaultInfo) : s.Fences (s.fenceCore cl ph why) := by
  unfold State.fenceCore
  split
  · exact .refl _
  · split
    · exact .dev s _
    · rename_i h _
      simp only [Bool.or_eq_true, Bool.not_eq_true', not_or, Bool.not_eq_false] at h
      exact ⟨rfl, rfl, rfl, Kf.Moved.stay.fenceCore (clusterFitted_lt h.1) ph⟩

theorem State.fenceCluster_fences (s : State) (cl : Nat) (why : Option FaultInfo) : s.Fences (s.fenceCluster cl why) := by
  unfold State.fenceCluster
  split
  · exact .refl _
  · exact ⟨rfl, rfl, rfl, Kf.Moved.stay.fenceCluster cl⟩

theorem State.rasFence_fences (s : State) (v : Nat) : s.Fences (s.rasFence v) := by
  unfold State.rasFence
  split
  · exact .refl _
  · split
    · exact s.fenceCluster_fences _ _
    · exact s.fenceCore_fences _ _ _

theorem State.fenceFailed_fences (s : State) (cl failed : Nat) (pier : Bool) : s.Fences (s.fenceFailed cl failed pier) := by
  have cores := State.Fences.foldl (fun s p => s.fenceCore_fences cl p none) (bitList 32 failed) s
  unfold State.fenceFailed
  dsimp only
  split
  · exact cores.trans (State.fenceCluster_fences _ _ _)
  · exact cores

theorem State.testDone_fences (s : State) (t : ResetTarget) (failed : Nat) (pier : Bool) : s.Fences (s.testDone t failed pier) := by
  unfold State.testDone
  dsimp only
  split
  · exact .refl _
  · cases t with
    | core cl ph =>
      dsimp only
      split
      · exact .refl _
      · split
        · exact (State.Fences.dev s _).trans (State.fenceCore_fences _ _ _ _)
        · exact .dev s _
    | cluster cl =>
      exact ((State.Fences.dev s _).trans (State.fenceFailed_fences _ _ _ _)).trans
        (State.Fences.foldl (fun s (x : Nat × Nat) => s.fenceCore_fences x.1 x.2 none) _ _)
    | die n => exact .refl _
    | package => exact .refl _

theorem State.fenceDue_fences (s : State) : s.Fences s.fenceDue :=
  (State.Fences.onDev s _).trans (State.Fences.foldl (fun s (x : Nat × Nat) => s.fenceCore_fences x.1 x.2 none) _ _)

theorem State.onReset_fences (s : State) (f : Env → Dev → Dev) : s.Fences (s.onReset f) := by
  refine ⟨onReset_pending s f, onReset_fuse s f, onReset_time s f, ?_⟩
  rw [onReset_kf]
  split
  · exact Kf.Moved.stay.unmap
  · exact .stay

theorem State.loaded_fences (s t : State) : t.Fences (s.loaded t) := by
  obtain ⟨h, -⟩ | ⟨h, -⟩ := loaded_cases s t <;> rw [h]
  · exact .refl _
  · exact .boot t

theorem State.bootFences_fences (s : State) (found : BootFound) : s.Fences (s.bootFences found) := by
  have cores := State.Fences.foldl (fun s (x : Nat × Word) => s.fenceFailed_fences x.1 x.2.toNat false) found.failedCores s
  have piers := State.Fences.foldl (fun s c => s.fenceCluster_fences c none) (bitList 16 found.failedPier.toNat)
    (found.failedCores.foldl (fun s x => s.fenceFailed x.1 x.2.toNat false) s)
  exact ((cores.trans piers).trans (.boot _)).trans (.onDev _ fun e d => (d.wakeFor e fun _ => true).watchPiers e fun _ => true)

theorem bootReady_fences (s : State) (found : BootFound) : s.Fences (bootReady s found) := by
  unfold bootReady
  dsimp only
  split
  · exact .refl _
  · refine State.Fences.trans ?_ (.onDev _ _)
    split
    · exact (State.Fences.onDev s _).trans (State.bootFences_fences _ _)
    · exact .refl _

/-! ### Writes of registers -/

theorem State.writeReg_fences (s : State) (f off v : Nat) (m a : Bool) : s.Fences (s.writeReg f off v m a) := by
  unfold State.writeReg
  split
  · exact s.rasFence_fences v
  · split
    · exact s.onReset_fences _
    · exact .onDev s _

theorem State.hostWrite_fences (s : State) (f off : Nat) (wide : Bool) (v : Nat) : s.Fences (s.hostWrite f off wide v) := by
  unfold State.hostWrite
  dsimp only
  split
  · exact s.writeReg_fences _ _ _ _ _
  · exact .refl _

/-- What a write over the management bus does before it is answered. -/
theorem mgmtWrite_cases (s : State) (w : Writer) (off v : Nat) : s.mgmtWrite w off v = s ∨
    ∃ t code, s.mgmtWrite w off v = t.onDev (fun _ d => d.emit (.response code [])) ∧
      (t = s ∨ t = s.writeReg 0 off v true true ∨ t = s.onDev fun e d => d.unretire e v false) := by
  unfold State.mgmtWrite
  split
  · exact .inl rfl
  · refine .inr ⟨_, s.dev.mgmtStatus w off, rfl, ?_⟩
    split
    · split
      · exact .inl rfl
      · exact .inr (.inl rfl)
    · split
      · exact .inr (.inr rfl)
      · exact .inl rfl

theorem State.mgmtWrite_fences (s : State) (w : Writer) (off v : Nat) : s.Fences (s.mgmtWrite w off v) := by
  obtain h | ⟨t, code, h, rfl | rfl | rfl⟩ := mgmtWrite_cases s w off v <;> rw [h]
  · exact .refl _
  · exact .onDev _ _
  · exact (s.writeReg_fences _ _ _ _ _).trans (.onDev _ _)
  · exact (State.Fences.onDev s _).trans (.onDev _ _)

/-- A register other than RAS_FENCE, RAS_RESET with DOMAIN 4 and RAS_UNRETIRE leaves the core maps. -/
theorem writeReg_kf {s : State} (f off v : Nat) (m a : Bool) (h : off ≠ 0x800048) (h1 : ¬startsReset off v) : (s.writeReg f off v m a).kf = s.kf := by
  rw [writeReg_dev f off v m a h h1]

theorem hostWrite_kf {s : State} (f off v : Nat) (h : off / 8 * 8 ≠ 0x800048) (h1 : ¬startsReset (off / 8 * 8) v) : (s.hostWrite f off true v).kf = s.kf := by
  unfold State.hostWrite
  dsimp only
  split
  · exact writeReg_kf f _ _ _ _ h h1
  · rfl

theorem mgmtWrite_kf {s : State} (w : Writer) (off v : Nat) (h : off ≠ 0x800048) (h1 : ¬startsReset off v) : (s.mgmtWrite w off v).kf = s.kf := by
  obtain e | ⟨t, code, e, rfl | rfl | rfl⟩ := mgmtWrite_cases s w off v <;> rw [e]
  · rfl
  · exact writeReg_kf _ _ _ _ _ h h1
  · rfl

/-! ### What a row does -/

/-- What the row of `i` may change from `s` to `t` outside the package. -/
structure RowFrame (i : Instr) (s t : State) : Prop where
  pending : t.pending = s.pending
  fuse : t.fuse = s.fuse
  maps : i ≠ .powerRemoval → Kf.Moved s.kf t.kf
  kf : mayFence i = false → t.kf = s.kf
  time : mayMoveTime i = false → t.time = s.time

section
variable {i : Instr} {s t : State}

/-- A row that changes the package alone. -/
theorem RowFrame.dev (d : Dev) : RowFrame i s { s with dev := d } := ⟨rfl, rfl, fun _ => .stay, fun _ => rfl, fun _ => rfl⟩

theorem RowFrame.same : RowFrame i s s := .dev s.dev

/-- A row that happens at a time of its own. -/
theorem RowFrame.timed (h : mayMoveTime i = true) (n : Nat) (f : Env → Dev → Dev) : RowFrame i s ((s.passTo n).onDev f) :=
  ⟨rfl, rfl, fun _ => .stay, fun _ => rfl, fun h' => by simp [h] at h'⟩

/-- A row that may fence. -/
theorem RowFrame.fences (h : mayFence i = true) (hf : s.Fences t) : RowFrame i s t :=
  ⟨hf.pending, hf.fuse, fun _ => hf.maps, fun h' => by simp [h] at h', fun _ => hf.time⟩

/-- A row of a register that no fence and no reset begins with. -/
theorem RowFrame.write (hf : s.Fences t) (hk : t.kf = s.kf) : RowFrame i s t :=
  ⟨hf.pending, hf.fuse, fun _ => hf.maps, fun _ => hk, fun _ => hf.time⟩

end

/-- The row of `i` leads from `s` to a next state with its frame. -/
def Framed (i : Instr) (s : State) (r : Res) : Prop := ∃ t, r = .next t ∧ RowFrame i s t

theorem Framed.next {i : Instr} {s t : State} (h : RowFrame i s t) : Framed i s (.next t) := ⟨t, rfl, h⟩

theorem Framed.same {i : Instr} {s : State} : Framed i s (.next s) := .next .same

theorem Framed.timed {i : Instr} {s : State} (h : mayMoveTime i = true) (n : Nat) (f : Env → Dev → Dev) : Framed i s (onDevAt s n f) := .next (.timed h n f)

/-- A row that happens at a time of its own, where its condition holds. -/
theorem Framed.timedIf {i : Instr} {s : State} (h : mayMoveTime i = true) (n : Nat) (f : Env → Dev → Dev) {c : Prop} [Decidable c] :
    Framed i s (if c then onDevAt s n f else .next s) := by
  split
  · exact .timed h n f
  · exact .same

/-- A row of a register by the host or in a session. -/
theorem Framed.writer {i : Instr} {s : State} (w : Writer) (off v : Nat) (h8 : off % 8 = 0) (h : off ≠ 0x800048) (h1 : ¬startsReset off v) :
    Framed i s (writerRow w off v s) := by
  have ho : off / 8 * 8 = off := by omega
  cases w with
  | host => exact .next (.write (s.hostWrite_fences _ _ _ _) (hostWrite_kf _ _ _ (by rwa [ho]) (by rwa [ho])))
  | session id => exact .next (.write (s.mgmtWrite_fences _ _ _) (mgmtWrite_kf _ _ _ h h1))

/-- A row of a register by which the maps may move. -/
theorem Framed.writerFences {i : Instr} {s : State} (hi : mayFence i = true) (w : Writer) (off v : Nat) : Framed i s (writerRow w off v s) := by
  cases w with
  | host => exact .next (.fences hi (s.hostWrite_fences _ _ _ _))
  | session id => exact .next (.fences hi (s.mgmtWrite_fences _ _ _))

/-- RAS_RESET with a DOMAIN other than 4 begins no package reset. -/
theorem notReset {v : Quad} {n : Nat} (h : resetIs n v = true) (hn : n ≠ 4) : ¬startsReset 0x800020 v.toNat := by
  have : v.toNat % 8 = n := of_decide_eq_true h
  simp only [startsReset]; omega

theorem framed_coreControlEcc (cl : ClusterId) (p : CoreId) (part : Fin 5) (s : State) :
    Framed (.coreControlEcc cl p part) s (execCoreControlEcc cl p part s) := by
  unfold execCoreControlEcc
  split
  · exact .next (.fences rfl (s.fenceCore_fences _ _ _))
  · exact .same

theorem framed_cePolicyFence (cl : ClusterId) (p : CoreId) (s : State) : Framed (.cePolicyFence cl p) s (execCePolicyFence cl p s) := by
  unfold execCePolicyFence
  split
  · refine .next (.fences rfl (State.Fences.trans ?_ (State.fenceDue_fences _)))
    split
    · exact .refl s
    · exact .onDev s _
  · exact .same

theorem framed_autoReset (s : State) : Framed .autoReset s (execAutoReset s) := by
  unfold execAutoReset
  dsimp only
  split
  · have h := State.onReset_fences (s.passTo (s.dev.ras.lastTime.toNat + bitsAt s.dev.ras.ctrl.toNat 8 16 * 100000)) fun e d => Dev.warmReset e d
    exact .next ⟨h.pending, h.fuse, fun _ => h.maps, fun hk => absurd hk (by decide), fun ht => absurd ht (by decide)⟩
  · exact .same

theorem framed_perstAssert (s : State) : Framed .perstAssert s (execPerstAssert s) := by
  refine .next (.fences rfl ?_)
  split
  · exact (State.Fences.onDev s _).trans (.unmap _)
  · exact .onDev s _

theorem framed_registerWriteMessage (w : Writer) (m : RegMessage) (s : State) :
    Framed (.registerWriteMessage w m) s (execRegisterWriteMessage w m s) := by
  unfold execRegisterWriteMessage
  split
  · exact .next (.fences rfl (s.mgmtWrite_fences _ _ _))
  · exact .next (.dev _)

theorem framed_powerRemoval (s : State) : Framed .powerRemoval s (execPowerRemoval s) := by
  refine .next ⟨?_, ?_, fun h => absurd rfl h, fun h => absurd h (by decide), fun h => absurd h (by decide)⟩ <;> split <;> rfl

theorem framed_eventWrite (f : FuncId) (n : Fin 1024) (v : Quad) (s : State) : Framed (.eventWrite f n v) s (execEventWrite f n v s) :=
  .next (.write (s.hostWrite_fences _ _ _ _) (hostWrite_kf _ _ _ (by omega) (by simp only [startsReset]; omega)))

theorem framed_inputWithinOperatingRange (s : State) : Framed .inputWithinOperatingRange s (execInputWithinOperatingRange s) := by
  unfold execInputWithinOperatingRange
  dsimp only
  split
  · exact .timed rfl _ _
  · exact .next (.dev _)

theorem framed_commandDeadlineExpiry (uid : Nat) (s : State) : Framed (.commandDeadlineExpiry uid) s (execCommandDeadlineExpiry uid s) := by
  unfold execCommandDeadlineExpiry
  split
  · exact .timedIf rfl _ _
  · exact .same

theorem framed_dieResetWatchdogExpiry (n : DieId) (s : State) : Framed (.dieResetWatchdogExpiry n) s (execDieResetWatchdogExpiry n s) := by
  unfold execDieResetWatchdogExpiry
  split
  · exact .timedIf rfl _ _
  · exact .same

theorem framed_rtsResend (uid : Nat) (s : State) : Framed (.rtsResend uid) s (execRtsResend uid s) := by
  unfold execRtsResend
  split
  · exact .timedIf rfl _ _
  · exact .same

theorem framed_voteResend (f : FuncId) (group : Word) (s : State) : Framed (.voteResend f group) s (execVoteResend f group s) := by
  unfold execVoteResend
  split
  · exact .timedIf rfl _ _
  · exact .timedIf rfl _ _
  · exact .same

theorem framed_querySend (f : FuncId) (group : Word) (s : State) : Framed (.querySend f group) s (execQuerySend f group s) := by
  unfold execQuerySend
  split
  · exact .timedIf rfl _ _
  · exact .same

/-- Every row refuses the terms that are no command of the hardware, and leads from any state to a next one, within its frame. -/
theorem exec_framed (i : Instr) (s : State) : ∃ r, exec i s = guarded i.wf r ∧ (i.wf = true → Framed i s r) := by
  cases i with
  | powerRemoval => exact ⟨_, rfl, fun _ => framed_powerRemoval s⟩
  -- rows that move the core maps
  | fenceCore w v => exact ⟨_, rfl, fun _ => .writerFences rfl w _ _⟩
  | fenceCluster w v => exact ⟨_, rfl, fun _ => .writerFences rfl w _ _⟩
  | resetPackageWarm w v => exact ⟨_, rfl, fun _ => .writerFences rfl w _ _⟩
  | rasUnretire w v => exact ⟨writerRow w 0x800050 v.toNat s, rfl, fun _ => .writerFences rfl w _ _⟩
  | registerWrite f off wide v => exact ⟨_, rfl, fun _ => .next (.fences rfl (s.hostWrite_fences _ _ _ _))⟩
  | selfTestDone t failed pier => exact ⟨_, rfl, fun _ => .next (.fences rfl (s.testDone_fences _ _ _))⟩
  | launchEnd d slot cycles => exact ⟨_, rfl, fun _ => .next (.fences rfl ((State.Fences.onDev s _).trans (State.fenceDue_fences _)))⟩
  | resetComplete t => exact ⟨_, rfl, fun _ => .next (.fences rfl ((State.Fences.onDev s _).trans (s.loaded_fences _)))⟩
  | bootReady found => exact ⟨_, rfl, fun _ => .next (.fences rfl (bootReady_fences s found))⟩
  | coreControlEcc cl p part => exact ⟨_, rfl, fun _ => framed_coreControlEcc cl p part s⟩
  | cePolicyFence cl p => exact ⟨_, rfl, fun _ => framed_cePolicyFence cl p s⟩
  | autoReset => exact ⟨_, rfl, fun _ => framed_autoReset s⟩
  | perstAssert => exact ⟨_, rfl, fun _ => framed_perstAssert s⟩
  | registerWriteMessage w m => exact ⟨_, rfl, fun _ => framed_registerWriteMessage w m s⟩
  -- rows of a register
  | resetCore w v => exact ⟨_, rfl, fun h => .writer w _ _ rfl (by decide) (notReset h (by decide))⟩
  | resetCluster w v => exact ⟨_, rfl, fun h => .writer w _ _ rfl (by decide) (notReset h (by decide))⟩
  | resetDie w v => exact ⟨_, rfl, fun h => .writer w _ _ rfl (by decide) (notReset h (by decide))⟩
  | tlbInv v => exact ⟨_, rfl, fun _ => .writer .host 0x300020 v.toNat rfl (by decide) (by simp [startsReset])⟩
  | poolLock v => exact ⟨_, rfl, fun _ => .writer .host 0x300030 v.toNat rfl (by decide) (by simp [startsReset])⟩
  | arbClear v => exact ⟨_, rfl, fun _ => .writer .host 0x500018 v.toNat rfl (by decide) (by simp [startsReset])⟩
  | clkWake v => exact ⟨_, rfl, fun _ => .writer .host 0x901010 v.toNat rfl (by decide) (by simp [startsReset])⟩
  | pwrHeartbeat w v => exact ⟨writerRow w 0x900020 v.toNat s, rfl, fun _ => .writer w _ _ rfl (by decide) (by simp [startsReset])⟩
  | mapout w v => exact ⟨writerRow w 0x700028 v.toNat s, rfl, fun _ => .writer w _ _ rfl (by decide) (by simp [startsReset])⟩
  | mapoutClr w v => exact ⟨writerRow w 0x700030 v.toNat s, rfl, fun _ => .writer w _ _ rfl (by decide) (by simp [startsReset])⟩
  | eventWrite f n v => exact ⟨_, rfl, fun _ => framed_eventWrite f n v s⟩
  | peerStateWrite w n v => exact ⟨_, rfl, fun _ => .writer w (0x711800 + 8 * n) v.toNat (by omega) (by omega) (by simp only [startsReset]; omega)⟩
  | portTrain p w =>
    exact ⟨_, rfl, fun _ => .writer w (0x700100 + 8 * p) (2 + bit (s.dev.port p).traffic) (by omega) (by omega) (by simp only [startsReset]; omega)⟩
  -- rows at a time of their own
  | coreWatchdogExpiry cl p => exact ⟨execCoreWatchdogExpiry cl p s, rfl, fun _ => .timedIf rfl _ _⟩
  | pierWatchdogExpiry n pier => exact ⟨execPierWatchdogExpiry n pier s, rfl, fun _ => .timedIf rfl _ _⟩
  | hubWatchdogExpiry => exact ⟨execHubWatchdogExpiry s, rfl, fun _ => .timedIf rfl _ _⟩
  | cycleStart => exact ⟨execCycleStart s, rfl, fun _ => .timedIf rfl _ _⟩
  | slotStart => exact ⟨execSlotStart s, rfl, fun _ => .timedIf rfl _ _⟩
  | portTrainingAttempt p => exact ⟨execPortTrainingAttempt p s, rfl, fun _ => .timedIf rfl _ _⟩
  | trainingTimeout p => exact ⟨execTrainingTimeout p s, rfl, fun _ => .timedIf rfl _ _⟩
  | linkSilenceExpiry p => exact ⟨execLinkSilenceExpiry p s, rfl, fun _ => .timedIf rfl _ _⟩
  | viaHeartbeatSend => exact ⟨execViaHeartbeatSend s, rfl, fun _ => .timedIf rfl _ _⟩
  | perstRelease straps prog => exact ⟨execPerstRelease straps prog s, rfl, fun _ => .timedIf rfl _ _⟩
  | governorPeriod m => exact ⟨_, rfl, fun _ => .timedIf rfl _ _⟩
  | heartbeatTimeout => exact ⟨execHeartbeatTimeout s, rfl, fun _ => .timedIf rfl _ _⟩
  | clusterNap cl => exact ⟨execClusterNap cl s, rfl, fun _ => .timedIf rfl _ _⟩
  | clusterDeep cl => exact ⟨execClusterDeep cl s, rfl, fun _ => .timedIf rfl _ _⟩
  | inputWithinOperatingRange => exact ⟨execInputWithinOperatingRange s, rfl, fun _ => framed_inputWithinOperatingRange s⟩
  | commandDeadlineExpiry uid => exact ⟨execCommandDeadlineExpiry uid s, rfl, fun _ => framed_commandDeadlineExpiry uid s⟩
  | dieResetWatchdogExpiry n => exact ⟨execDieResetWatchdogExpiry n s, rfl, fun _ => framed_dieResetWatchdogExpiry n s⟩
  | faultDeadlineExpiry who =>
    refine ⟨_, rfl, fun _ => ?_⟩
    split
    · exact .same
    · exact .timedIf rfl _ _
  | tierDeadlineExpiry who =>
    refine ⟨_, rfl, fun _ => ?_⟩
    split
    · exact .same
    · exact .timedIf rfl _ _
  | rtsResend uid => exact ⟨execRtsResend uid s, rfl, fun _ => framed_rtsResend uid s⟩
  | voteResend f group => exact ⟨execVoteResend f group s, rfl, fun _ => framed_voteResend f group s⟩
  | querySend f group => exact ⟨execQuerySend f group s, rfl, fun _ => framed_querySend f group s⟩
  -- every other row acts on the package alone
  | _ => exact ⟨.next (State.onDev s _), rfl, fun _ => .next (.dev _)⟩


/-- A row that leads to a next state is that of a command, and keeps its frame. -/
theorem exec_frame {i : Instr} {s t : State} (h : exec i s = .next t) : RowFrame i s t := by
  obtain ⟨r, hr, framed⟩ := exec_framed i s
  rw [hr] at h
  obtain ⟨hwf, hr⟩ := guarded_next.1 h
  obtain ⟨u, hu, frame⟩ := framed hwf
  cases hr.symm.trans hu
  exact frame

/-- What a step does outside the package: LOCAL_TIME counts, or a row runs on the rest of the queue. -/
theorem step_cases {s t : State} (h : step s = .next t) :
    (s.pending = [] ∧ t = s.tick) ∨ ∃ c rest, s.pending = c :: rest ∧ exec c { s with pending := rest } = .next t := by
  unfold step at h
  split at h
  · rename_i hp
    cases h
    exact .inl ⟨hp, rfl⟩
  · rename_i c rest hp
    exact .inr ⟨c, rest, hp, h⟩

/-- The removal of power leaves the core maps as the fuses give them (R4, R25). -/
theorem powerRemoval_maps {s t : State} (h : exec .powerRemoval s = .next t) :
    t.fuse = s.fuse ∧ ((s.dev.pins.powered = true ∧ t.kf = Kf.atPower s.fuse) ∨ (s.dev.pins.powered = false ∧ t.kf = s.kf)) := by
  have h : (if s.dev.pins.powered then _ else s) = t := Host.Outcome.next.inj h
  subst h
  cases hp : s.dev.pins.powered
  · exact ⟨rfl, .inr ⟨rfl, rfl⟩⟩
  · exact ⟨rfl, .inl ⟨rfl, rfl⟩⟩

/-- A step other than the removal of power moves the core maps by fences, the boot assignment and clearing KF_VMAP. -/
theorem step_moved {s t : State} (h : step s = .next t) (hp : ∀ rest, s.pending ≠ .powerRemoval :: rest) : Kf.Moved s.kf t.kf := by
  obtain ⟨-, rfl⟩ | ⟨c, rest, hc, he⟩ := step_cases h
  · rw [State.tick_kf]; exact .stay
  · exact (exec_frame he).maps fun e => hp rest (e ▸ hc)

theorem step_powerRemoval {s t : State} {rest : List Instr} (h : step s = .next t) (hp : s.pending = .powerRemoval :: rest) :
    t.fuse = s.fuse ∧ ((s.dev.pins.powered = true ∧ t.kf = Kf.atPower s.fuse) ∨ (s.dev.pins.powered = false ∧ t.kf = s.kf)) := by
  unfold step at h
  rw [hp] at h
  exact powerRemoval_maps (s := { s with pending := rest }) h

/-- The two ways in which a step can go on with the core maps. -/
theorem step_maps {s t : State} (h : step s = .next t) : Kf.Moved s.kf t.kf ∨ t.kf = Kf.atPower s.fuse := by
  by_cases hp : ∃ rest, s.pending = .powerRemoval :: rest
  · obtain ⟨rest, hp⟩ := hp
    obtain ⟨-, ⟨-, e⟩ | ⟨-, e⟩⟩ := step_powerRemoval h hp
    · exact .inr e
    · exact .inl (e ▸ .stay)
  · exact .inl (step_moved h fun rest e => hp ⟨rest, e⟩)

theorem step_fuse {s t : State} (h : step s = .next t) : t.fuse = s.fuse := by
  obtain ⟨-, rfl⟩ | ⟨c, rest, -, he⟩ := step_cases h
  · exact s.tick_fuse
  · exact (exec_frame he).fuse

/-- Settles O5: each way in which a step moves the maps keeps them sound. -/
theorem soundMapsKept : Obligations.SoundMapsKept := by
  intro s t hs h
  obtain hm | hp := step_maps h
  · exact hm.sound hs
  · exact hp ▸ Kf.atPower_sound s.fuse

/-- Settles O6: no entry is valid, and every cluster has its 32 cores. -/
theorem soundMapsAtReset : Obligations.SoundMapsAtReset :=
  Kf.sound_of_unmapped (fun _ _ _ => (by decide : 30 ≤ (List.range 32).countP fun p => !bitAt (0#32).toNat p)) rfl

/-- Settles O7: FENCED only grows while the maps move, and the fuses are what the removal of power leaves. -/
theorem fencedCoresStay : Obligations.FencedCoresStay := by
  refine ⟨fun s t c p h => ⟨fun hp hb => (step_moved h hp).fenced hb, fun rest hp hpow => ?_⟩, fun s t hs h c p hb => ?_⟩
  · obtain ⟨-, ⟨-, e⟩ | ⟨hoff, -⟩⟩ := step_powerRemoval h hp
    · rw [e]; rfl
    · simp [hpow] at hoff
  · rw [step_fuse h] at hb
    obtain hm | hp := step_maps h
    · exact hm.fenced (hs c p hb)
    · rw [hp]; exact hb

/-- Settles O3: every row is guarded by its term's well-formedness, and keeps the queue and the fuses. -/
theorem rowsComplete : Obligations.RowsComplete := by
  intro i s
  obtain ⟨r, hr, framed⟩ := exec_framed i s
  refine ⟨fun h => ?_, fun h => ?_⟩
  · obtain ⟨t, rfl, frame⟩ := framed h
    exact ⟨t, by rw [hr, h, guarded_true], frame.pending, frame.fuse⟩
  · rw [hr, h, guarded_false]

/-- Settles O4: the frame of every row. -/
theorem mapsAndTimeFrame : Obligations.MapsAndTimeFrame :=
  ⟨fun _ _ _ h => (exec_frame h).kf, fun _ _ _ h => (exec_frame h).time⟩

end Sys2Proof.Machine
end

section
/-!
PROOFS. How a Control ISA row starts its command (R28, R120, R121, R137): its checks first, then the group of a part, then what the row does.
-/
namespace Sys2Proof.Machine

/-! ### The row of a Control ISA command -/

/-- What the row does to the package: the head that may start starts, one that finds its executor full is held, and the row's last work follows. -/
def CtlRow.act (r : CtlRow) (e : Env) (d : Dev) : Dev :=
  r.last e (if r.held then startHeld e d r.func r.queue r.cmd r.check r.run else startRow e d r.func r.queue r.cmd r.check r.run)

/-- A Control ISA row acts on the package alone: each constructor has no such row, or its meaning is the start of its command. -/
theorem exec_ctlRow {i : Instr} {r : CtlRow} (h : ctlRow i = some r) (s : State) : exec i s = guarded i.wf (onDev s fun e d => r.act e d) := by
  cases i <;> cases h <;> (dsimp only [CtlRow.act]; rfl)

/-- The row's last work is that of SEQ_STEP alone. -/
theorem ctlRow_last {i : Instr} {r : CtlRow} (h : ctlRow i = some r) (hi : ∀ f q c, i ≠ .seqStep f q c) : r.last = fun _ d => d := by
  cases i with
  | seqStep f q c => exact absurd rfl (hi f q c)
  | _ => cases h <;> rfl

/-- Where a head may start, the row starts it. -/
theorem CtlRow.act_start {r : CtlRow} {s : State} {x : Fetched} {owner : Bool} (h : r.start s = some (x, owner)) :
    r.act s.env s.dev = r.last s.env (startCmd s.env s.dev r.func r.queue x owner r.check r.run) := by
  unfold CtlRow.start at h
  unfold CtlRow.act
  by_cases hh : r.held = true
  · rw [if_pos hh] at h ⊢
    rw [startHeld, h]
  · rw [if_neg hh] at h ⊢
    obtain ⟨y, hy, e⟩ := Option.map_eq_some_iff.1 h
    cases e
    rw [startRow, hy]

/-- The head that may start stands at the head of its queue. -/
theorem CtlRow.start_head {r : CtlRow} {s : State} {x : Fetched} {owner : Bool} (h : r.start s = some (x, owner)) :
    s.dev.headOf r.func r.queue r.cmd = some x := by
  unfold CtlRow.start at h
  split at h
  · exact Dev.mayStart_head h
  · obtain ⟨y, hy, e⟩ := Option.map_eq_some_iff.1 h
    cases e
    exact hy

/-! ### The start of a command -/

section
variable {e : Env} {d : Dev} {f q : Nat} {x : Fetched} {owner : Bool} {check : Env → Dev → OpenCmd → Option Reject} {run : Env → Dev → OpenCmd → Dev}

/-- A check that fails completes the command with its code and the offset. -/
theorem startCmd_refused {code off : Nat} (h : check e (d.openHead e f q x owner).2 (d.openHead e f q x owner).1 = some (code, off)) :
    startCmd e d f q x owner check run = (d.openHead e f q x owner).2.complete (d.openHead e f q x owner).1.uid code off := by
  simp only [startCmd, h]

variable (h : check e (d.openHead e f q x owner).2 (d.openHead e f q x owner).1 = none)
include h

/-- A command of no group runs. -/
theorem startCmd_alone (hg : (d.openHead e f q x owner).1.group = 0) :
    startCmd e d f q x owner check run = run e (d.openHead e f q x owner).2 (d.openHead e f q x owner).1 := by
  simp only [startCmd, h, hg, if_true]

/-- The first part of a group opens it. -/
theorem startCmd_firstPart (hg : (d.openHead e f q x owner).1.group ≠ 0)
    (hn : (d.openHead e f q x owner).2.groupOf (d.openHead e f q x owner).1.func (d.openHead e f q x owner).1.group = none) :
    startCmd e d f q x owner check run = run e ((d.openHead e f q x owner).2.setGroup
      { func := (d.openHead e f q x owner).1.func, num := (d.openHead e f q x owner).1.group }) (d.openHead e f q x owner).1 := by
  simp only [startCmd, h, if_neg hg, hn]

/-- A further part runs, and one of a group that has failed ends with ERR_PEER_ABORT. -/
theorem startCmd_part {g : Group} (hg : (d.openHead e f q x owner).1.group ≠ 0)
    (hn : (d.openHead e f q x owner).2.groupOf (d.openHead e f q x owner).1.func (d.openHead e f q x owner).1.group = some g) :
    startCmd e d f q x owner check run =
      if g.aborted then (d.openHead e f q x owner).2.complete (d.openHead e f q x owner).1.uid Config.peerAbort 0
      else run e (d.openHead e f q x owner).2 (d.openHead e f q x owner).1 := by
  simp only [startCmd, h, if_neg hg, hn]

end

/-- The row of a command that may start. -/
theorem exec_start {i : Instr} {r : CtlRow} {s : State} {x : Fetched} {owner : Bool} (hr : ctlRow i = some r) (hwf : i.wf = true)
    (hs : r.start s = some (x, owner)) :
    exec i s = .next (s.onDev fun e _ => r.last e (startCmd s.env s.dev r.func r.queue x owner r.check r.run)) := by
  rw [exec_ctlRow hr, hwf, guarded_true]
  exact congrArg (fun d => Host.Outcome.next { s with dev := d }) (CtlRow.act_start hs)

/-- Settles O8: the row is the start of its command, whose branches the lemmas above name. -/
theorem controlCommandStarts : Obligations.ControlCommandStarts := by
  intro i r s x owner hr hwf hs
  dsimp only
  rw [exec_start hr hwf hs]
  refine ⟨fun code off h => ?_, fun h hg => ?_, fun h hg hn => ?_, fun g h hg hn ha => ?_, fun g h hg hn ha => ?_⟩
  · rw [startCmd_refused h]
  · rw [startCmd_alone h hg]
  · rw [startCmd_firstPart h hg hn]
  · rw [startCmd_part h hg hn, ha, if_neg Bool.false_ne_true]
  · rw [startCmd_part h hg hn, ha, if_pos rfl]

/-- Settles O9: the refused command is opened and completed, and no row but SEQ_STEP has work after that. -/
theorem failedCheckChangesNothing : Obligations.FailedCheckChangesNothing := by
  intro i r s x owner code off hr hwf hi hs hc
  refine ⟨_, ?_, s.dev.completed_of_open s.env r.func r.queue x owner code off (Dev.headOf_live (CtlRow.start_head hs))⟩
  rw [exec_start hr hwf hs, startCmd_refused hc, ctlRow_last hr hi]
  rfl

end Sys2Proof.Machine
end

section
/-!
PROOFS. RAS_RESET and RAS_FENCE (R26, R344, R346, R354), and the errors of control state and of die bridges (R17, R337, R338, R352).
-/
namespace Sys2Proof.Machine

/-! ### A row of a register by the host -/

/-- A write of a register of the physical function by the host, where the package serves it. -/
theorem writerRow_host {s : State} (h : s.dev.hostOpen = true) {off : Nat} (ho : off % 8 = 0) (v : Nat) :
    writerRow .host off v s = .next (s.writeReg 0 off v false false) :=
  congrArg Host.Outcome.next (hostWrite_open h 0 off v ho (.inl rfl))

/-- A function that leaves the package leaves the state. -/
theorem onDev_same {s : State} {f : Env → Dev → Dev} (h : f s.env s.dev = s.dev) : s.onDev f = s := by
  unfold State.onDev; rw [h]

theorem onReset_same {s : State} {f : Env → Dev → Dev} (h : f s.env s.dev = s.dev) : s.onReset f = s := by
  unfold State.onReset; dsimp only; rw [onDev_same h, Bool.and_not_self]; rfl

/-! ### RAS_RESET -/

/-- RAS_RESET without GO does nothing. -/
theorem rasReset_idle (e : Env) (d : Dev) {v : Nat} (h : bitAt v 63 = false) : Dev.rasReset e d v = d := by simp [Dev.rasReset, h]

section
variable {s : State} {value : Quad} {d : Nat}

theorem exec_reset_host (ho : s.dev.hostOpen = true) (hd : resetIs d value = true) :
    guarded (resetIs d value) (writerRow .host 0x800020 value.toNat s) = .next (s.writeReg 0 0x800020 value.toNat false false) := by
  rw [hd, guarded_true, writerRow_host ho rfl]

/-- A reset of DOMAIN 1 to 3. -/
theorem exec_unitReset (ho : s.dev.hostOpen = true) (hd : resetIs d value = true) (hn : d ≠ 4) :
    guarded (resetIs d value) (writerRow .host 0x800020 value.toNat s) = .next (s.onDev fun e d => Dev.rasReset e d value.toNat) := by
  rw [exec_reset_host ho hd, writeReg_dev _ _ _ _ _ (by decide) (notReset hd hn)]
  rfl

theorem exec_packageReset (ho : s.dev.hostOpen = true) (hd : resetIs 4 value = true) :
    exec (.resetPackageWarm .host value) s = .next (s.onReset fun e d => Dev.rasReset e d value.toNat) := by
  have h4 : value.toNat % 8 = 4 := of_decide_eq_true hd
  refine (exec_reset_host ho hd).trans ?_
  rw [writeReg_reset _ _ _ _ _ (.inl ⟨rfl, h4⟩)]
  rfl

end

section
variable {e : Env} {d : Dev} {v : Nat}

theorem rasReset_core (hgo : bitAt v 63 = true) (hv : bitsAt v 0 3 = 1) :
    Dev.rasReset e d v = Dev.askReset e d (.core (bitsAt v 8 4) (bitsAt v 12 5)) := by simp [Dev.rasReset, hgo, hv]
theorem rasReset_cluster (hgo : bitAt v 63 = true) (hv : bitsAt v 0 3 = 2) :
    Dev.rasReset e d v = Dev.askReset e d (.cluster (bitsAt v 8 4)) := by simp [Dev.rasReset, hgo, hv]
theorem rasReset_die (hgo : bitAt v 63 = true) (hv : bitsAt v 0 3 = 3) :
    Dev.rasReset e d v = Dev.askReset e d (.die (bitsAt v 17 2)) := by simp [Dev.rasReset, hgo, hv]
theorem rasReset_package (hgo : bitAt v 63 = true) (hv : bitsAt v 0 3 = 4) : Dev.rasReset e d v = Dev.askWarm e d := by simp [Dev.rasReset, hgo, hv]

/-- A reset that covers the unit is under way. -/
theorem askReset_covered {t : ResetTarget} (h : d.coveredBy t = true) : Dev.askReset e d t = d := by simp [Dev.askReset, h]

variable (hr : d.running = true)
include hr

theorem askReset_core {cl ph : Nat} (hc : d.coveredBy (.core cl ph) = false) :
    Dev.askReset e d (.core cl ph) = if e.fuse.clusterFitted cl && !e.kf.coreFenced cl ph then Dev.coreReset e d cl ph none else d := by
  simp [Dev.askReset, hr, hc]
theorem askReset_cluster {cl : Nat} (hc : d.coveredBy (.cluster cl) = false) :
    Dev.askReset e d (.cluster cl) = if e.fuse.clusterFitted cl && e.kf.usable cl then Dev.clusterReset e d cl none else d := by
  simp [Dev.askReset, hr, hc]
theorem askReset_die {n : Nat} (hc : d.coveredBy (.die n) = false) :
    Dev.askReset e d (.die n) = if e.fuse.dieFitted n && !e.kf.dieDead n then Dev.dieReset e d n none else d := by
  simp [Dev.askReset, hr, hc]

/-- A running package takes a package-warm reset. -/
theorem askWarm_running : Dev.askWarm e d = Dev.warmReset e d := by
  simp only [Dev.running, Bool.and_eq_true, decide_eq_true_eq] at hr
  obtain ⟨⟨hp, hq⟩, hst⟩ := hr
  simp only [Bool.not_eq_true'] at hq
  simp [Dev.askWarm, Dev.busUp, hp, hq, hst]

end

/-- A row that asks for a reset resets the unit where it is there, and does nothing else. -/
theorem unitReset_cases {i : Instr} {s : State} {g f : Env → Dev → Dev} {a b : Bool} (row : exec i s = .next (s.onDev g))
    (ask : g s.env s.dev = if a && b then f s.env s.dev else s.dev) :
    (a = true → b = true → exec i s = .next (s.onDev f)) ∧ (a = false ∨ b = false → exec i s = .next s) := by
  refine ⟨fun ha hb => row.trans ?_, fun h => row.trans (congrArg _ (onDev_same (ask.trans ?_)))⟩
  · unfold State.onDev; rw [ask, ha, hb]; rfl
  · rcases h with h | h <;> simp [h]

/-- Settles O42: the row writes RAS_RESET, whose DOMAIN asks for the reset of the unit that it names. -/
theorem resetsAsked : Obligations.ResetsAsked := by
  intro value s ho hr hgo
  dsimp only
  refine ⟨fun hd hc => ?_, fun hd hc => ?_, fun hd hc => ?_, fun hd hc => ?_, fun hd => ?_, fun lower hl => ⟨fun hd => ?_, fun hd => ?_⟩⟩
  · have row : exec (.resetCore .host value) s = _ := exec_unitReset ho hd (by decide)
    obtain ⟨go, idle⟩ := unitReset_cases (f := fun e d => Dev.coreReset e d (bitsAt value.toNat 8 4) (bitsAt value.toNat 12 5) none) row
      ((rasReset_core hgo (of_decide_eq_true hd)).trans (askReset_core hr hc))
    exact ⟨fun hf hk => go hf (by simp [hk]), fun h => idle (by simpa using h)⟩
  · have row : exec (.resetCluster .host value) s = _ := exec_unitReset ho hd (by decide)
    obtain ⟨go, idle⟩ := unitReset_cases (f := fun e d => Dev.clusterReset e d (bitsAt value.toNat 8 4) none) row
      ((rasReset_cluster hgo (of_decide_eq_true hd)).trans (askReset_cluster hr hc))
    exact ⟨go, idle⟩
  · have row : exec (.resetDie .host value) s = _ := exec_unitReset ho hd (by decide)
    obtain ⟨go, idle⟩ := unitReset_cases (f := fun e d => Dev.dieReset e d (bitsAt value.toNat 17 2) none) row
      ((rasReset_die hgo (of_decide_eq_true hd)).trans (askReset_die hr hc))
    exact ⟨fun hf hk => go hf (by simp [hk]), fun h => idle (by simpa using h)⟩
  · have ask : Dev.rasReset s.env s.dev value.toNat = s.dev := (rasReset_die hgo (of_decide_eq_true hd)).trans (askReset_covered hc)
    exact (exec_unitReset ho hd (by decide)).trans (congrArg _ (onDev_same ask))
  · have ask : Dev.rasReset s.env s.dev value.toNat = _ := (rasReset_package hgo (of_decide_eq_true hd)).trans (askWarm_running hr)
    refine ⟨_, exec_packageReset ho hd, (onReset_dev _ _).trans ask, ?_⟩
    rw [onReset_kf, onReset_dev]
  · exact (exec_unitReset ho hd (by decide)).trans (congrArg _ (onDev_same (rasReset_idle _ _ hl)))
  · exact (exec_packageReset ho hd).trans (congrArg _ (onReset_same (rasReset_idle _ _ hl)))

/-! ### RAS_FENCE -/

/-- RAS_FENCE with GO set. -/
theorem exec_fence {s : State} {value : Quad} {whole : Bool} (ho : s.dev.hostOpen = true) (hgo : bitAt value.toNat 63 = true) (hw : fenceIs whole value = true) :
    guarded (fenceIs whole value) (writerRow .host 0x800048 value.toNat s) =
      .next (if whole then s.fenceCluster (bitsAt value.toNat 0 4) none else s.fenceCore (bitsAt value.toNat 0 4) (bitsAt value.toNat 4 5) none) := by
  have hw' : bitAt value.toNat 9 = whole := of_decide_eq_true hw
  rw [hw, guarded_true, writerRow_host ho rfl, State.writeReg, if_pos rfl, State.rasFence, hgo, hw']
  rfl

/-- What a fence does to the maps: a healthy core of a fitted cluster that no reset tests is fenced at once. -/
theorem fenceCore_kf {s : State} {cl ph : Nat} (hf : s.fuse.clusterFitted cl = true) (hk : s.kf.coreFenced cl ph = false)
    (ht : s.dev.ras.testing.contains (.cluster cl) = false) (why : Option FaultInfo) : (s.fenceCore cl ph why).kf = s.kf.fenceCore cl ph := by
  simp only [State.fenceCore, hf, hk, ht]; rfl

/-- A core that is fenced, or whose cluster is not usable, is not fenced again. -/
theorem fenceCore_fenced {s : State} {cl ph : Nat} (hk : s.kf.coreFenced cl ph = true) (why : Option FaultInfo) : s.fenceCore cl ph why = s := by
  simp [State.fenceCore, hk]

theorem fenceCluster_kf {s : State} {cl : Nat} (hf : s.fuse.clusterFitted cl = true) (hu : s.kf.usable cl = true) (why : Option FaultInfo) :
    (s.fenceCluster cl why).kf = s.kf.fenceCluster cl := by
  simp only [State.fenceCluster, hf, hu]; rfl

theorem fenceCluster_unusable {s : State} {cl : Nat} (hu : s.kf.usable cl = false) (why : Option FaultInfo) : s.fenceCluster cl why = s := by
  simp [State.fenceCluster, hu]

theorem coreFenced_false {k : Kf} {c p : Nat} : k.coreFenced c p = false ↔ k.usable c = true ∧ bitAt (k.fencedOf c).toNat p = false := by
  simp [Kf.coreFenced]

/-- The cluster of a fenced core that had at most 30 healthy cores is gone. -/
theorem Kf.fenceCore_short {k : Kf} {c p : Nat} (hp : p < 32) (h : bitAt (k.fencedOf c).toNat p = false) (hk : k.healthy c ≤ 30) :
    (k.fenceCore c p).usable c = false ∧ ∀ v, v < 30 → (k.fenceCore c p).physOf c v = none := by
  have := k.mark_healthy c p hp h
  rw [k.fenceCore_few c p (by omega)]
  exact ⟨by simp [Kf.fenceCluster_usable], fun v hv => by rw [Kf.fenceCluster_physOf _ _ _ hv, if_pos rfl]⟩

/-- A core is no spare while a position is on it. -/
theorem Kf.vposOf_isNone (k : Kf) (c p : Nat) : (k.vposOf c p).isNone = (List.range 30).all fun w => decide (k.physOf c w ≠ some p) := by
  rw [Bool.eq_iff_iff, Option.isNone_iff_eq_none, Kf.vposOf_none]
  simp

/-- The other clusters' bits, and the positions, of a cluster that keeps 30 healthy cores. -/
theorem Kf.fenceCore_staffed {k : Kf} {c p : Nat} (hp : p < 32) (hf : k.coreFenced c p = false) (hk : 30 < k.healthy c) :
    (k.fenceCore c p).usable c = true ∧ (k.vposOf c p = none → (k.fenceCore c p).vmap = k.vmap) ∧
      ∀ v, k.vposOf c p = some v → (k.fenceCore c p).physOf c v = (k.mark c p).spare c ∧
        ∀ w, w < 30 → w ≠ v → (k.fenceCore c p).physOf c w = k.physOf c w := by
  obtain ⟨hu, hb⟩ := coreFenced_false.1 hf
  have enough : 30 ≤ (k.mark c p).healthy c := by have := k.mark_healthy c p hp hb; omega
  refine ⟨?_, fun hv => by rw [k.fenceCore_spare c p enough hv, Kf.mark_vmap], fun v hv => ?_⟩
  · cases hv : k.vposOf c p with
    | none => rw [k.fenceCore_spare c p enough hv]; exact hu
    | some v => rw [k.fenceCore_seated c p enough hv, Kf.reseat_usable]; exact hu
  · rw [k.fenceCore_seated c p enough hv]
    exact ⟨Kf.physOf_reseat_same _ _ fun x hx => ((k.mark c p).spare_some c hx).1,
      fun w _ hne => Kf.physOf_reseat_other _ _ _ (by omega)⟩

/-- Settles O43: the row fences through the core maps, whose lemmas say what becomes of each position. -/
theorem fencesMoveTheMap : Obligations.FencesMoveTheMap := by
  intro value s ho hgo
  dsimp only
  have hph : bitsAt value.toNat 4 5 < 32 := Nat.mod_lt _ (by decide)
  generalize hcl : bitsAt value.toNat 0 4 = cl
  generalize hp : bitsAt value.toNat 4 5 = ph at hph
  have core (hw : fenceIs false value = true) : exec (.fenceCore .host value) s = .next (s.fenceCore cl ph none) :=
    (exec_fence ho hgo hw).trans (by rw [hcl, hp]; rfl)
  have cluster (hw : fenceIs true value = true) : exec (.fenceCluster .host value) s = .next (s.fenceCluster cl none) :=
    (exec_fence ho hgo hw).trans (by rw [hcl]; rfl)
  refine ⟨fun hw hf hk ht => ⟨_, core hw, ?_⟩, fun hw hf hu => ⟨_, cluster hw, ?_⟩, fun hw hk => ?_, fun hw hu => ?_⟩
  · have hb := (coreFenced_false.1 hk).2
    rw [fenceCore_kf hf hk ht]
    refine ⟨?_, fun c p hne => ?_, fun c hc => s.kf.fenceCore_other cl ph hc, Kf.fenceCore_short hph hb, fun h30 => ?_⟩
    · rw [Kf.fenceCore_fencedOf, Kf.mark_fencedBit]; simp [hph]
    · rw [Kf.fenceCore_fencedOf, Kf.mark_fencedBit]; simp [show ¬(c = cl ∧ p = ph) by omega]
    · obtain ⟨usable, free, seated⟩ := Kf.fenceCore_staffed hph hk h30
      refine ⟨usable, free, fun v hv => ⟨?_, (seated v hv).2⟩⟩
      rw [(seated v hv).1, Kf.fenceCore_fencedOf]
      exact congrArg (fun f => (List.range 32).find? f) (funext fun p => congrArg (_ && ·) ((s.kf.mark cl ph).vposOf_isNone cl p))
  · rw [fenceCluster_kf hf hu]
    refine ⟨rfl, by simp [Kf.fenceCluster_usable], fun v hv => by rw [Kf.fenceCluster_physOf _ _ _ hv, if_pos rfl], fun c hc => ?_⟩
    exact ⟨by simp [Kf.fenceCluster_usable, hc], fun v hv => by rw [Kf.fenceCluster_physOf _ _ _ hv, if_neg hc]⟩
  · exact (core hw).trans (congrArg _ (fenceCore_fenced hk _))
  · exact (cluster hw).trans (congrArg _ (fenceCluster_unusable hu _))

end Sys2Proof.Machine
end

section
/-!
PROOFS. Uncorrected errors of control state and of die bridges, and the corrected-error policy (R17, R337, R338, R352).
-/
namespace Sys2Proof.Machine

/-! ### Control state -/

theorem exec_coreControlEcc {s : State} (h : s.dev.running = true) (cl : ClusterId) (p : CoreId) (part : Fin 5) :
    exec (.coreControlEcc cl p part) s = .next (s.fenceCore cl p
      (some { error := Config.eccUncorrected, resource := 0x42, core := some (cl.val, p.val), value := part })) := if_pos h

/-- The reset of a cluster for its control state (R337; log entry 71). -/
theorem exec_clusterControlEcc {s : State} (h : s.dev.running = true) (cl : ClusterId) (part : Fin 3) :
    exec (.clusterControlEcc cl part) s = .next (s.onDev fun e d =>
      if e.fuse.clusterFitted cl && e.kf.usable cl && !d.coveredBy (.cluster cl) then
        Dev.clusterReset e d cl (some { error := Config.eccUncorrected, resource := 0x43, engine := 0xF1, value := part })
      else d) := by
  refine congrArg (fun d => Host.Outcome.next { s with dev := d }) ?_
  dsimp only
  rw [h, Bool.true_and]

/-! ### The corrected-error policy (R352) -/

/-- A core that reports the policy stands past its limit (log entry 69). -/
theorem Ras.ceLimit_lt_ceCount (r : Ras) (cl ph now : Nat) : r.ceLimit < (r.ceCount cl ph now).length := by
  simp only [Ras.ceCount, List.length_append, List.length_replicate]; omega

/-- The state in which a core that has come to the policy waits for its fence. -/
def State.reported (s : State) (cl ph : Nat) : State := s.onDev fun e d =>
  ({ d with ras := { d.ras with
      ceErrors := Tab.put (32 * cl + ph) (d.ras.ceCount cl ph e.now) d.ras.ceErrors
      ceDue := d.ras.ceDue ++ [(cl, ph)] } } : Dev).rasEvent e 9 0 cl ph

theorem exec_cePolicyFence {s : State} {cl : ClusterId} {p : CoreId} (h : s.dev.running = true) (hf : s.fuse.clusterFitted cl = true)
    (hk : s.kf.coreFenced cl p = false) (hn : s.dev.ras.ceDue = []) : exec (.cePolicyFence cl p) s = .next (s.reported cl p).fenceDue := by
  have due : s.dev.ras.ceDue.contains (cl.val, p.val) = false := by rw [hn]; rfl
  refine (if_pos (by simp [h, hf, hk])).trans ?_
  rw [due, if_neg Bool.false_ne_true]
  refine congrArg (fun d => Host.Outcome.next (State.fenceDue { s with dev := d })) ?_
  exact if_pos (Ras.ceLimit_lt_ceCount s.dev.ras cl p s.env.now)

/-- No launch occupies a core or waits on its span. -/
theorem coreBusy_false {d : Dev} {cl ph : Nat} : d.coreBusy cl ph = false ↔
    ∀ k ∈ d.spansOn (fun c q => decide (c = cl) && decide (q = ph)), (d.span k).running = none ∧ (d.span k).waits = 0 := by
  simp [Dev.coreBusy]

/-- The cores that wait for their fence, as given. -/
def State.setDue (s : State) (l : List (Nat × Nat)) : State := { s with dev := { s.dev with ras := { s.dev.ras with ceDue := l } } }

theorem State.setDue_same {s : State} {l : List (Nat × Nat)} (h : s.dev.ras.ceDue = l) : s.setDue l = s := by subst h; rfl

/-- Those of them that no launch occupies. -/
def State.dueFree (s : State) : List (Nat × Nat) := s.dev.ras.ceDue.filter fun x => !s.dev.coreBusy x.1 x.2

theorem State.fenceDue_eq (s : State) : s.fenceDue =
    s.dueFree.foldl (fun s x => s.fenceCore x.1 x.2 none) (s.setDue (s.dev.ras.ceDue.filter fun x => !(s.dueFree.contains x))) := rfl

/-- A core that alone waits for its fence gets it where no launch occupies it. -/
theorem fenceDue_of_one {s : State} {cl ph : Nat} (h : s.dev.ras.ceDue = [(cl, ph)]) :
    s.fenceDue = if s.dev.coreBusy cl ph then s else (s.setDue []).fenceCore cl ph none := by
  rw [State.fenceDue_eq]
  by_cases hb : s.dev.coreBusy cl ph = true
  · have free : s.dueFree = [] := by simp [State.dueFree, h, hb]
    rw [if_pos hb, free]
    exact State.setDue_same (by simp)
  · have free : s.dueFree = [(cl, ph)] := by simp [State.dueFree, h, hb]
    rw [if_neg hb, free, h]
    simp

section
variable (s : State) (cl ph : Nat)

@[simp] theorem State.reported_coreBusy (c p : Nat) : (s.reported cl ph).dev.coreBusy c p = s.dev.coreBusy c p := rfl
theorem State.reported_ceDue (h : s.dev.ras.ceDue = []) : (s.reported cl ph).dev.ras.ceDue = [(cl, ph)] := congrArg (· ++ [(cl, ph)]) h

/-- The event of the policy raises its alert. -/
theorem State.reported_alert : bitAt (s.reported cl ph).dev.ras.alert.toNat 8 = true := by
  have h : (s.dev.ras.alert ||| (1#9 <<< 8)).getLsbD 8 = true := by rw [BitVec.getLsbD_or]; simp
  exact h

end

/-! ### Die bridges -/

theorem exec_bridgeEcc {l : List Requester} (hl : l.all Requester.wf = true) (bridge : Fin 8) (s : State) :
    exec (.bridgeEcc bridge l) s = .next (s.onDev fun e d =>
      if d.running && e.fuse.bridgeFitted bridge then l.foldl (fun d w => bridgeVictim e d bridge w) d else d) :=
  congrArg (fun b => guarded b (onDev s _)) hl

/-- A bridge that the part has ends the requests whose transfers met the error, one after another. -/
theorem exec_bridgeEcc_fitted {s : State} (h : s.dev.running = true) {bridge : Fin 8} (hf : s.fuse.bridgeFitted bridge = true) {l : List Requester}
    (hl : l.all Requester.wf = true) : exec (.bridgeEcc bridge l) s = .next (s.onDev fun e d => l.foldl (fun d w => bridgeVictim e d bridge w) d) := by
  rw [exec_bridgeEcc hl]
  refine congrArg (fun d => Host.Outcome.next { s with dev := d }) (if_pos ?_)
  rw [h, Bool.true_and]
  exact hf

/-- A bridge that the part does not have. -/
theorem exec_bridgeEcc_absent {s : State} {bridge : Fin 8} (hf : s.fuse.bridgeFitted bridge = false) {l : List Requester} (hl : l.all Requester.wf = true) :
    exec (.bridgeEcc bridge l) s = .next s := by
  rw [exec_bridgeEcc hl]
  exact congrArg Host.Outcome.next (onDev_same (if_neg (by simp [hf])))

theorem bridgeFitted_iff {u : Fuses} {bridge : Fin 8} : u.bridgeFitted bridge = true ↔ u.part ≠ .kpv2L ∨ bridge.val ∈ [0, 1, 4] := by
  unfold Fuses.bridgeFitted
  split
  · rename_i h; simp [h]
  · rename_i h; simp [h, bridge.isLt]

section
variable {e : Env} {d : Dev} {bridge : Nat}

/-- The record of an uncorrected transfer over a bridge. -/
def bridgeFault (bridge : Nat) : FaultInfo := { error := Config.eccUncorrected, resource := 0x45, engine := 0xF2, value := bridge }

theorem bridgeVictim_stream {cl ph me ctx : Nat} {x : Xfer} (h : (d.streamCtx cl ph me ctx).outst.head? = some x) :
    bridgeVictim e d bridge (.stream cl ph me ctx) =
      d.engFault e cl ph (4 + me) (d.ctxInfo cl ph me ctx x.lin { bridgeFault bridge with addr := some x.va }) := by
  simp only [bridgeVictim, h]; rfl

theorem bridgeVictim_command {uid : Nat} {o : OpenCmd} (h : d.openOf uid = some o) :
    bridgeVictim e d bridge (.command uid) = d.failFault e o (bridgeFault bridge) := by
  simp only [bridgeVictim, h]; rfl

theorem bridgeVictim_long {k : Nat} (hu : (d.long k).used = true) (ht : (d.long k).st.terminal = false) :
    bridgeVictim e d bridge (.long k) = d.failLong e.fuse e k (bridgeFault bridge) := by
  simp only [bridgeVictim, hu, ht]; rfl

theorem bridgeVictim_resolution {uid : Nat} {m : Move} {r : Resolution} (ho : d.openOf uid = none) (hm : d.moveOf uid = some m) (hr : d.resOf uid = some r) :
    bridgeVictim e d bridge (.command uid) =
      (d.abortMove e.fuse m).setRes { r with failed := some (BitVec.ofNat 8 Config.eccUncorrected, 0x45, bridge) } := by
  simp only [bridgeVictim, ho, hm, hr]

end

/-- Settles O49: each row's branch is the fence, the reset or the end of the request that met the error. -/
theorem controlErrors : Obligations.ControlErrors := by
  intro cl p part cpart bridge me ctx uid k o x s hr
  dsimp only
  refine ⟨fun hf hk ht => ⟨⟨_, exec_coreControlEcc hr cl p part, fenceCore_kf hf hk ht _, rfl⟩, fun hn idle => ?_, fun hn busy => ?_⟩,
    fun hf hu hc => ?_, fun hu => ⟨?_, ?_, ?_⟩, fun hp hb => ?_, fun hb => ?_⟩
  · have free := (State.reported_coreBusy s cl p cl p).trans (coreBusy_false.2 idle)
    refine ⟨_, exec_cePolicyFence hr hf hk hn, ?_⟩
    rw [fenceDue_of_one (s.reported_ceDue cl p hn), free, if_neg Bool.false_ne_true]
    exact fenceCore_kf (s := (s.reported cl p).setDue []) hf hk ht none
  · have occupied : (s.reported cl p).dev.coreBusy cl p = true := by
      rw [State.reported_coreBusy]
      exact Bool.not_eq_false _ ▸ fun h => busy (coreBusy_false.1 h)
    refine ⟨_, exec_cePolicyFence hr hf hk hn, ?_⟩
    rw [fenceDue_of_one (s.reported_ceDue cl p hn), if_pos occupied]
    exact ⟨rfl, s.reported_ceDue cl p hn, s.reported_alert cl p, rfl, rfl⟩
  · rw [exec_clusterControlEcc hr]
    refine congrArg (fun d => Host.Outcome.next { s with dev := d }) (if_pos ?_)
    simp [hf, hu, hc]
  · rw [exec_clusterControlEcc hr]
    refine congrArg Host.Outcome.next (onDev_same (if_neg ?_))
    simp [hu]
  · exact (exec_coreControlEcc hr cl p part).trans (congrArg _ (fenceCore_fenced (by simp [Kf.coreFenced, hu]) _))
  · refine if_neg ?_
    simp [Kf.coreFenced, hu]
  · refine exec_bridgeEcc_absent (Bool.eq_false_iff.2 fun h => ?_) rfl
    exact (bridgeFitted_iff.1 h).elim (· hp) hb
  · have row {l : List Requester} (hl : l.all Requester.wf = true) := exec_bridgeEcc_fitted hr (bridgeFitted_iff.2 hb) hl
    have one {w : Requester} (hw : w.wf = true) {g : Env → Dev → Dev} (hg : bridgeVictim s.env s.dev bridge w = g s.env s.dev) :
        exec (.bridgeEcc bridge [w]) s = .next (s.onDev g) :=
      (row (by simp [hw])).trans (congrArg (fun d => Host.Outcome.next { s with dev := d }) hg)
    refine ⟨fun hm hc hx => one ?_ (bridgeVictim_stream hx), fun ho => one rfl (bridgeVictim_command ho),
      fun hk hu ht => one (w := .long k) (decide_eq_true hk) (bridgeVictim_long hu ht),
      fun m r ho hm hr => one rfl (bridgeVictim_resolution ho hm hr), fun l hl => row hl⟩
    simp [Requester.wf, hm, hc]

end Sys2Proof.Machine
end

section
/-!
PROOFS. PERST_N released and the end of boot (R19, R26, R388, R389, R402).
-/
namespace Sys2Proof.Machine

/-! ### PERST_N released -/

theorem exec_perstRelease {s : State} (hp : s.dev.pins.powered = true) (hq : s.dev.pins.perst = true) (straps : Straps) (prog : Option (List Byte)) :
    exec (.perstRelease straps prog) s = .next ((s.passTo (s.dev.pins.perstAt + 1000 * Config.usTicks)).onDev fun e d => perstRelease e d straps prog) :=
  if_pos (by rw [hp, hq]; rfl)

/-- A row at a time of its own acts on the package as it is once LOCAL_TIME has passed there (log entry 2). -/
theorem passTo_onDev_dev (s : State) (n : Nat) (f : Env → Dev → Dev) :
    ((s.passTo n).onDev f).dev = f { s.env with now := ((s.passTo n).onDev f).time.toNat } (s.upTo ((s.passTo n).onDev f)) := rfl

theorem exec_perstRelease_idle {s : State} (h : s.dev.pins.powered = false ∨ s.dev.pins.perst = false) (straps : Straps) (prog : Option (List Byte)) :
    exec (.perstRelease straps prog) s = .next s := if_neg (by rcases h with h | h <;> simp [h])

/-! ### The end of boot -/

/-- The link has trained, and a cold reset that boot ends is over. -/
def Dev.bootLinked (found : BootFound) (e : Env) (d : Dev) : Dev :=
  let u : Dev := { d with
    hif := { d.hif with gen := found.gen, width := found.width, flit := 6 ≤ found.gen.toNat }
    sec := { d.sec with booting := false }
    blk := { d.blk with selfRef := [] }
    ras := { d.ras with coldReset := false, st := if d.ras.coldReset && d.ras.st = .resetting then .running else d.ras.st } }
  if d.ras.coldReset then u.rasEvent e 3 0 0xFF 0xFF 5 else u

/-- What the end of boot does to the package once the cores and the channels are settled; `image`: a firmware image runs. -/
def Dev.bootEnd (found : BootFound) (image : Bool) (e : Env) (d : Dev) : Dev :=
  let d := d.bootLinked found e
  let d := if image then d.imageRuns else d
  if d.ras.st = .running then (Dev.persisting e d).applyDeferredIfRunning e.fuse e.now else d

theorem bootReady_idle {s : State} (h : s.dev.busUp = false ∨ s.dev.sec.booting = false) (found : BootFound) : bootReady s found = s :=
  if_pos (by rcases h with h | h <;> simp [h])

section
variable {s : State} (hb : s.dev.busUp = true) (hg : s.dev.sec.booting = true)
include hb hg

/-- Without an image that runs, no core is tested and no map is written. -/
theorem bootReady_bare (found : BootFound) (h : s.dev.sec.recovery = true ∨ s.dev.ras.st = .retired) :
    bootReady s found = s.onDev (Dev.bootEnd found false) := by
  have image : (!s.dev.sec.recovery && decide (s.dev.ras.st ≠ .retired)) = false := by rcases h with h | h <;> simp [h]
  unfold bootReady
  simp only [hb, hg, image]
  rfl

theorem bootReady_image (found : BootFound) (hr : s.dev.sec.recovery = false) (hst : s.dev.ras.st ≠ .retired) :
    bootReady s found = (((s.onDev fun e d => d.trainBulk e.fuse found).bootFences found).onDev (Dev.bootEnd found true)) := by
  have image : (!s.dev.sec.recovery && decide (s.dev.ras.st ≠ .retired)) = true := by simp [hr, hst]
  unfold bootReady
  simp only [hb, hg, image]
  rfl

end

/-- A RETIRED package stays RETIRED, and its runtime as it was (R402). -/
theorem Dev.bootEnd_retired {e : Env} {d : Dev} (found : BootFound) (h : d.ras.st = .retired) :
    (Dev.bootEnd found false e d).ras.st = .retired ∧ (Dev.bootEnd found false e d).sec.booting = false ∧
      (Dev.bootEnd found false e d).hif.ready = d.hif.ready := by
  cases hc : d.ras.coldReset <;> simp [Dev.bootEnd, Dev.bootLinked, Dev.rasEvent, h, hc]

/-! ### The parts of a boot whose image runs -/

/-- Clusters that are clocked change their sleep state alone. -/
theorem Dev.wakeFor_cases (d : Dev) (e : Env) (p : Nat → Bool) : ∃ l, d.wakeFor e p = { d with pwr := { d.pwr with sleep := l } } := by
  unfold Dev.wakeFor
  generalize (List.range 16).filter (fun c => p c && e.kf.usable c) = l
  induction l generalizing d with
  | nil => exact ⟨d.pwr.sleep, rfl⟩
  | cons c t ih =>
    obtain ⟨l, h⟩ := ih (d.setSleep c { d.sleep c with st := .active, waking := false, idleSince := e.now })
    exact ⟨l, h⟩

/-- What the waking of the clusters leaves alone while the pier cores are watched. -/
theorem Dev.woken_rest (d : Dev) (e : Env) (p q : Nat → Bool) :
    let w := (d.wakeFor e p).watchPiers e q
    (w.ras.st = d.ras.st ∧ w.ras.coldReset = d.ras.coldReset) ∧ w.sec = d.sec ∧ w.pins = d.pins ∧ w.blk = d.blk ∧ w.pwr.deferred = d.pwr.deferred := by
  obtain ⟨l, h⟩ := d.wakeFor_cases e p
  dsimp only [Dev.watchPiers]
  rw [h]
  exact ⟨⟨rfl, rfl⟩, rfl, rfl, rfl, rfl⟩

/-- Without failed units every usable cluster gets its boot map and is clocked. -/
theorem State.bootFences_clean (s : State) {found : BootFound} (hc : found.failedCores = []) (hp : found.failedPier = 0#16) :
    s.bootFences found = ({ s with kf := s.kf.boot } : State).onDev fun e d => (d.wakeFor e fun _ => true).watchPiers e fun _ => true := by
  have : bitList 16 (0#16).toNat = [] := by decide
  unfold State.bootFences
  rw [hc, hp, this]
  rfl

/-- Nothing of a package without a cause that persists goes back into the parapet state (R343). -/
theorem Dev.persisting_none {e : Env} {d : Dev} (h0 : d.pins.epo = false) (h1 : d.pins.thermtrip = false) (h2 : d.pins.inputGood = true)
    (h3 : d.pins.refclk = true) (h6 : (d.blk.channels.any fun x => x.2.st = 3#2) = false) : Dev.persisting e d = d := by
  simp [Dev.persisting, h0, h1, h2, h3, h6]

theorem Dev.applyDeferred_none {d : Dev} (u : Fuses) (now : Nat) (h : d.pwr.deferred = []) : d.applyDeferred u now = d := by
  have same : ({ d with pwr := { d.pwr with deferred := [] } } : Dev) = d := by rw [← h]
  unfold Dev.applyDeferred
  rw [h]
  exact same

/-- A package in a cold reset, with an image that runs, and with nothing that holds it in the parapet state (R343, R402). -/
structure Dev.Boots (d : Dev) (i : FwInfo) : Prop where
  st : d.ras.st = .resetting
  cold : d.ras.coldReset = true
  image : d.sec.running = some i
  epo : d.pins.epo = false
  trip : d.pins.thermtrip = false
  input : d.pins.inputGood = true
  clock : d.pins.refclk = true
  channels : (d.blk.channels.any fun x => x.2.st = 3#2) = false
  deferred : d.pwr.deferred = []

theorem Dev.Boots.woken {d : Dev} {i : FwInfo} (h : d.Boots i) (e : Env) (p q : Nat → Bool) : ((d.wakeFor e p).watchPiers e q).Boots i := by
  obtain ⟨⟨st, cold⟩, sec, pins, blk, deferred⟩ := d.woken_rest e p q
  exact ⟨st.trans h.st, cold.trans h.cold, sec ▸ h.image, pins ▸ h.epo, pins ▸ h.trip, pins ▸ h.input, pins ▸ h.clock, blk ▸ h.channels,
    deferred.trans h.deferred⟩

section
variable {e : Env} {d : Dev} {i : FwInfo} (found : BootFound)

/-- What the training of the link leaves alone. -/
theorem Dev.bootLinked_rest (e : Env) (d : Dev) : (d.bootLinked found e).pins = d.pins ∧ (d.bootLinked found e).pwr = d.pwr ∧
    (d.bootLinked found e).blk.channels = d.blk.channels ∧ (d.bootLinked found e).sec = { d.sec with booting := false } ∧
    (d.bootLinked found e).hif = { d.hif with gen := found.gen, width := found.width, flit := 6 ≤ found.gen.toNat } := by
  cases h : d.ras.coldReset <;> simp [Dev.bootLinked, Dev.rasEvent, h]

/-- The cold reset ends in RUNNING. -/
theorem Dev.Boots.linked_running (h : d.Boots i) : (d.bootLinked found e).ras.st = .running := by
  simp [Dev.bootLinked, Dev.rasEvent, h.st, h.cold]

/-- The floor rises and the runtime is READY once the image runs in a RUNNING package. -/
theorem Dev.Boots.imageRuns (h : d.Boots i) : (d.bootLinked found e).imageRuns = { d.bootLinked found e with
    sec := { d.sec with booting := false, floor := max d.sec.floor i.floor }
    hif := { d.hif with gen := found.gen, width := found.width, flit := 6 ≤ found.gen.toNat, ready := true } } := by
  obtain ⟨-, -, -, sec, hif⟩ := Dev.bootLinked_rest found e d
  unfold Dev.imageRuns
  simp only [h.linked_running, sec, hif, h.image, decide_true]

/-- A cold boot that no cause holds ends with its image running. -/
theorem Dev.Boots.ends (h : d.Boots i) : Dev.bootEnd found true e d = { d.bootLinked found e with
    sec := { d.sec with booting := false, floor := max d.sec.floor i.floor }
    hif := { d.hif with gen := found.gen, width := found.width, flit := 6 ≤ found.gen.toNat, ready := true } } := by
  obtain ⟨pins, pwr, channels, -, -⟩ := Dev.bootLinked_rest found e d
  have st := h.linked_running (e := e) found
  unfold Dev.bootEnd
  simp only [if_true, h.imageRuns]
  refine (if_pos st).trans ?_
  rw [Dev.persisting_none (pins ▸ h.epo) (pins ▸ h.trip) (pins ▸ h.input) (pins ▸ h.clock) (by rw [channels]; exact h.channels)]
  exact (if_pos st).trans (Dev.applyDeferred_none _ _ (by rw [pwr]; exact h.deferred))

end

/-! ### The bulk channels -/

/-- Bulk channels none of which failed at both rates. -/
theorem Dev.trainBulk_channels (u : Fuses) (d : Dev) {found : BootFound} (h : found.failedCh = 0#32) :
    (d.trainBulk u found).blk.channels = (List.range u.channels).map fun c => (c, { st := if bitAt found.slowCh.toNat c then 2#2 else 1#2 }) := by
  unfold Dev.trainBulk
  simp [h, bitAt]

theorem Dev.trainBulk_alive (u : Fuses) (d : Dev) {found : BootFound} (h : found.failedCh = 0#32) :
    ((d.trainBulk u found).blk.channels.any fun x => x.2.st = 3#2) = false := by
  rw [Dev.trainBulk_channels u d h, List.any_eq_false]
  intro x hx
  obtain ⟨c, -, rfl⟩ := List.mem_map.1 hx
  dsimp only
  split <;> decide

/-- Settles O51: the release of PERST_N, and the end of a boot by what the package is and whether an image runs. -/
theorem bootRuns : Obligations.BootRuns := by
  intro straps prog found s
  refine ⟨fun hp hq => ⟨_, exec_perstRelease hp hq straps prog, State.passTo_time .., passTo_onDev_dev ..⟩, fun h => exec_perstRelease_idle h straps prog,
    fun h => congrArg Host.Outcome.next (bootReady_idle h found), fun hb hg hst => ?_, fun i hb hg hrec hst hcold hi hc hp hch h0 h1 h2 h3 hdef => ?_⟩
  · obtain ⟨st, booting, ready⟩ := Dev.bootEnd_retired (e := s.env) found hst
    exact ⟨_, congrArg Host.Outcome.next (bootReady_bare hb hg found (.inr hst)), rfl, st, booting, ready⟩
  · let e : Env := { s.env with kf := s.kf.boot }
    let w := ((s.dev.trainBulk s.fuse found).wakeFor e fun _ => true).watchPiers e fun _ => true
    have trained : (s.dev.trainBulk s.fuse found).Boots i := ⟨hst, hcold, hi, h0, h1, h2, h3, s.dev.trainBulk_alive s.fuse hch, hdef⟩
    have boots : w.Boots i := trained.woken e _ _
    obtain ⟨-, sec, -, blk, -⟩ := (s.dev.trainBulk s.fuse found).woken_rest e (fun _ => true) fun _ => true
    obtain ⟨-, -, linked, -, -⟩ := Dev.bootLinked_rest found e w
    have channels : (w.bootLinked found e).blk.channels = _ :=
      (linked.trans (congrArg Blk.channels blk)).trans (s.dev.trainBulk_channels s.fuse hch)
    have ends := bootReady_image hb hg found hrec (by rw [hst]; decide)
    rw [State.bootFences_clean _ hc hp] at ends
    refine ⟨_, congrArg Host.Outcome.next (ends.trans (congrArg (fun d => ({ s with kf := s.kf.boot, dev := d } : State)) (boots.ends found))),
      boots.linked_running found, rfl, rfl, congrArg (fun x : Sec => max x.floor i.floor) sec, rfl, rfl, rfl, fun c hc => ?_,
      fun c v hc hv => s.kf.boot_physOf hc hv⟩
    exact (congrArg (fun t => (Tab.get ({} : Channel) c t).st) channels).trans (by rw [Tab.get_rangeMap _ _ hc])

end Sys2Proof.Machine
end

section
/-!
PROOFS. The engine fabric: tokens and credits on the trusses and over the bridges (R43 to R48, R54, R62), and keystones (R60, R63).
-/
namespace Sys2Proof.Machine

/-! ### The rows -/

theorem guarded_wf {b : Bool} (h : b = true) (r : Res) : guarded b r = r := by rw [h]; rfl

section
variable (s : State)

theorem exec_tokenArrival {dst : RouteDst} (h : dst.wf = true) (ecc : Ecc) :
    exec (.tokenArrival dst ecc) s = .next { s with dev := tokenArrives s.env s.dev dst ecc } := guarded_wf h _

theorem exec_creditReturn {src : RouteSrc} (h : src.wf = true) :
    exec (.creditReturn src) s = .next (s.onDev fun _ d => if d.running then d.learnCredit src else d) := guarded_wf h _

theorem exec_handoffReceive (die : DieId) (ep : Fin 32) :
    exec (.handoffReceive die ep) s = .next (s.onDev fun _ d => if d.running then d.bridgeItem die ep else d) := rfl

theorem exec_tokenSend_unrouted {src : RouteSrc} (h : src.wf = true) (hr : s.dev.routeFrom src = none) : exec (.tokenSend src) s = .next s :=
  (guarded_wf h _).trans (congrArg Host.Outcome.next (onDev_same (by simp only [hr])))

theorem exec_tokenSend_port {p : EngPort} {r : Route} (h : (RouteSrc.port p).wf = true) (hr : s.dev.routeFrom (.port p) = some r) :
    exec (.tokenSend (.port p)) s = .next { s with dev := s.dev.portSends s.env p r } := by
  refine (guarded_wf h _).trans ?_
  simp only [onDev, State.onDev, hr]

theorem exec_tokenSend_recvEp {die ep : Nat} {r : Route} (hd : die < 4) (he : ep < 32) (hr : s.dev.routeFrom (.recvEp die ep) = some r) :
    exec (.tokenSend (.recvEp die ep)) s = .next { s with dev := s.dev.endpointSends die ep r } := by
  refine (guarded_wf (by simp [RouteSrc.wf, hd, he]) _).trans ?_
  simp only [onDev, State.onDev, hr]

theorem exec_keystoneForward_engine {cl ph n : Nat} (hc : cl < 16) (hp : ph < 32) (hn : n < 8) :
    exec (.keystoneForward (.engine cl ph n)) s = .next (s.onDev fun e d =>
      if d.coreLive e cl ph && d.keystoneReady cl ph n (d.eng cl ph n) then d.engKeystone cl ph n else d) :=
  guarded_wf (by simp [KeySite.wf, hc, hp, hn]) _

theorem exec_keystoneForward_sendEp {die ep : Nat} (hd : die < 4) (he : ep < 32) :
    exec (.keystoneForward (.sendEp die ep)) s = .next (s.onDev fun _ d => if d.running then d.sendKeystone die ep else d) :=
  guarded_wf (by simp [KeySite.wf, hd, he]) _

theorem exec_keystoneForward_recvEp {die ep : Nat} (hd : die < 4) (he : ep < 32) :
    exec (.keystoneForward (.recvEp die ep)) s = .next (s.onDev fun _ d => if d.running then d.recvKeystone die ep else d) :=
  guarded_wf (by simp [KeySite.wf, hd, he]) _

end

/-! ### Storing an engine, and putting a token on a route -/

/-- A stored engine changes its core, and sends credit returns. -/
theorem Dev.putEng_rest (d : Dev) (cl ph n : Nat) (old x : Eng) (freed : Tab Nat) :
    d.putEng cl ph n old x freed =
      { d with cores := (d.putEng cl ph n old x freed).cores, creditMsgs := (d.putEng cl ph n old x freed).creditMsgs } := rfl

/-- A KEYSTONE takes no slot of a destination (R48). -/
theorem Dev.sendToken_keystone (d : Dev) (r : Route) {t : Token} (h : t.kind = .keystone) :
    d.sendToken r t = { d with flights := d.flights ++ r.dsts.map fun x => { src := r.src, dst := x, tok := t } } := by
  simp [Dev.sendToken, h]

/-- A DATA or VOID token takes a slot in the sender's view of each destination of its route, and a credit of each send endpoint there (R48, R62). -/
theorem Dev.sendToken_taking (d : Dev) (r : Route) {t : Token} (h : t.kind ≠ .keystone) :
    d.sendToken r t = { d with
      flights := d.flights ++ r.dsts.map fun x => { src := r.src, dst := x, tok := t }
      routes := d.routes.map fun y => if y.src = r.src then { y with free := y.free.map (· - 1) } else y
      pairs := d.pairs.map fun p => if r.dsts.contains (.sendEp p.sDie p.sEp) && p.sSpan.isSome then { p with credit := p.credit - 1 } else p } := by
  simp [Dev.sendToken, h]

/-- A token that is sent is on its way to every destination of the route, and touches the views and the credits of senders beside. -/
theorem Dev.sendToken_rest (d : Dev) (r : Route) (t : Token) :
    d.sendToken r t = { d with
      flights := d.flights ++ r.dsts.map fun x => { src := r.src, dst := x, tok := t }
      routes := (d.sendToken r t).routes, pairs := (d.sendToken r t).pairs } := by
  by_cases h : t.kind = .keystone
  · rw [Dev.sendToken_keystone d r h]
  · rw [Dev.sendToken_taking d r h]

/-! ### A token arrives (R46, R54, R62, R66) -/

section
variable {e : Env} {d : Dev} {f : Flight} {ecc : Ecc}

/-- The device without the oldest token on its way to a destination. -/
def Dev.landed (d : Dev) (dst : RouteDst) : Dev := { d with flights := d.flights.eraseP fun f => f.dst = dst }

section
variable {p : EngPort} (hf : d.flights.find? (fun f => f.dst = .port p) = some f) (hl : d.coreLive e p.cl p.phys = true)
include hf hl

theorem tokenArrives_passes (ha : arrivalFault (d.landed (.port p)) p (queueKey p.net p.port) f.tok ecc = none) :
    tokenArrives e d (.port p) ecc =
      ((d.landed (.port p)).countArrival p (ecc = .corrected) fun c => { c with eccCorr := min (2 ^ 32 - 1) (c.eccCorr + 1) }).writeToken
        p (queueKey p.net p.port) f.tok := by
  rw [Dev.landed] at ha
  simp only [tokenArrives, hf, hl, ha, Bool.not_true, Bool.false_eq_true, if_false, Dev.landed]

theorem tokenArrives_fails {i : FaultInfo} (ha : arrivalFault (d.landed (.port p)) p (queueKey p.net p.port) f.tok ecc = some i) :
    tokenArrives e d (.port p) ecc =
      ((d.landed (.port p)).countArrival p (ecc = .uncorrected) fun c => { c with eccUncorr := min (2 ^ 32 - 1) (c.eccUncorr + 1) }).engFault
        e p.cl p.phys p.eng i := by
  rw [Dev.landed] at ha
  simp only [tokenArrives, hf, hl, ha, Bool.not_true, Bool.false_eq_true, if_false, Dev.landed]

end

theorem tokenArrives_sendEp {die ep : Nat} (hf : d.flights.find? (fun f => f.dst = .sendEp die ep) = some f) (hr : d.running = true) :
    tokenArrives e d (.sendEp die ep) ecc = (d.landed (.sendEp die ep)).reachEndpoint die ep f := by
  simp only [tokenArrives, hf, hr, if_true, Dev.landed]

end

end Sys2Proof.Machine

namespace Sys2Proof
open Machine

/-- Settles O18: a token to an engine is written or faults as the arrival checks say, and one to a send endpoint goes onto its bridge unjudged. -/
theorem tokenArrives : Obligations.TokenArrives := by
  intro p die ep f s ecc hp hd he
  have hs : (RouteDst.sendEp die ep).wf = true := by simp [RouteDst.wf, hd, he]
  rw [exec_tokenArrival s hp, exec_tokenArrival s hs]
  refine ⟨fun hf hl => ⟨fun ha => ?_, fun i ha => ?_⟩, fun hf hr => ?_⟩
  · rw [tokenArrives_passes hf hl ha]
    simp only [Dev.countArrival, decide_eq_true_eq, Dev.landed]
  · rw [tokenArrives_fails hf hl ha]
    simp only [Dev.countArrival, decide_eq_true_eq, Dev.landed]
  · rw [tokenArrives_sendEp hf hr]; rfl

end Sys2Proof

namespace Sys2Proof.Machine

/-! ### Tokens leave (R43, R44, R47, R48, R62) -/

section
variable {e : Env} {d : Dev} {r : Route}

section
variable {p : EngPort} {t : Token} {rest : List Token} (hl : d.coreLive e p.cl p.phys = true)
  (ho : Tab.get [] (queueKey p.net p.port) (d.eng p.cl p.phys p.eng).outs = t :: rest)
include hl ho

/-- A KEYSTONE goes at once, and any other token where the sender's view of every destination allows it. -/
theorem Dev.portSends_goes (h : t.kind = .keystone ∨ r.views.all (fun v => d.mayGo v.1 v.2.1 v.2.2 t.tag.toNat) = true) :
    d.portSends e p r = (d.putEng p.cl p.phys p.eng (d.eng p.cl p.phys p.eng)
      { d.eng p.cl p.phys p.eng with outs := Tab.put (queueKey p.net p.port) rest (d.eng p.cl p.phys p.eng).outs } []).sendToken r t := by
  simp only [Dev.portSends, hl, ho, Bool.not_true, Bool.false_eq_true, if_false, Bool.or_eq_true, decide_eq_true_eq, if_pos h]

theorem Dev.portSends_waits (hk : t.kind ≠ .keystone) (h : r.views.all (fun v => d.mayGo v.1 v.2.1 v.2.2 t.tag.toNat) = false) :
    d.portSends e p r = d := by
  simp [Dev.portSends, hl, ho, hk, h]

end

/-- A pair after its receive endpoint, endpoint `ep` of die `die`, has delivered an item: the item's place is free again (R62). -/
def Pair.deliver (die ep : Nat) (i : HandItem) (y : Pair) : Pair :=
  if y.rDie = die && y.rEp = ep && y.rSpan.isSome then { y with buf := y.buf.erase i, credit := min 64 (y.credit + 1) } else y

theorem Pair.getElem?_deliver {die ep k : Nat} {l : List Pair} {y : Pair} (i : HandItem) (h : l[k]? = some y) (hd : y.rDie = die) (he : y.rEp = ep)
    (hs : y.rSpan.isSome = true) :
    (l.map (Pair.deliver die ep i))[k]? = some { y with buf := y.buf.erase i, credit := min 64 (y.credit + 1) } := by
  simp [h, Pair.deliver, hd, he, hs]

section
variable {die ep rd rs : Nat} {p : Pair} (hr : d.running = true) (hp : d.pairInto die ep = some p) (hs : p.rSpan = some (rd, rs))
  (hw : ((d.span (64 * rd + rs)).running.isSome || (d.span (64 * rd + rs)).keyed) = true)
include hr hp hs hw

theorem Dev.endpointSends_empty (h : p.next r = none) : d.endpointSends die ep r = d := by
  simp only [Dev.endpointSends, hp, hs, hr, hw, h, Bool.and_self, Bool.not_true, Bool.false_eq_true, if_false]

section
variable {ext : Nat} {kind : TokKind} {pay : BitVec 512} (hn : p.next r = some (ext, kind, pay))
include hn

theorem Dev.endpointSends_waits (h : r.views.all (fun v => d.mayGo v.1 v.2.1 v.2.2 (ext % 16)) = false) : d.endpointSends die ep r = d := by
  simp only [Dev.endpointSends, hp, hs, hr, hw, hn, h, Bool.and_self, Bool.not_true, Bool.not_false, Bool.false_eq_true, if_false, if_true]

theorem Dev.endpointSends_goes (h : r.views.all (fun v => d.mayGo v.1 v.2.1 v.2.2 (ext % 16)) = true) :
    d.endpointSends die ep r = ({ d with pairs := d.pairs.map (Pair.deliver die ep (.tok ext kind pay)) } : Dev).sendToken r
      (token kind ext (d.span (64 * rd + rs)).epoch pay) := by
  simp only [Dev.endpointSends, hp, hs, hr, hw, hn, h, Bool.and_self, Bool.not_true, Bool.false_eq_true, if_false]
  rfl

end
end

/-- A token that is sent changes no pair's buffer, and the credit only of a pair whose send endpoint its route reaches. -/
theorem Dev.sendToken_pair (t : Token) {k : Nat} {y : Pair} (h : d.pairs[k]? = some y) : ∃ z, (d.sendToken r t).pairs[k]? = some z ∧
    z.buf = y.buf ∧ (r.dsts.contains (.sendEp y.sDie y.sEp) = false → z.credit = y.credit) := by
  by_cases hk : t.kind = .keystone
  · exact ⟨y, by rw [Dev.sendToken_keystone d r hk]; exact h, rfl, fun _ => rfl⟩
  · rw [Dev.sendToken_taking d r hk]
    refine ⟨_, List.getElem?_map.trans (congrArg _ h), ?_, fun hc => ?_⟩
    · dsimp only; split <;> rfl
    · simp only [hc, Bool.false_and, Bool.false_eq_true, if_false]

end

/-! ### Credits and bridge items arrive (R48, R62, R63) -/

theorem Dev.learnCredit_none {d : Dev} {src : RouteSrc} (h : d.creditMsgs.find? (fun m => m.src = src) = none) : d.learnCredit src = d := by
  simp only [Dev.learnCredit, h]

theorem Dev.learnCredit_some {d : Dev} {src : RouteSrc} {m : CreditMsg} (h : d.creditMsgs.find? (fun m => m.src = src) = some m) :
    d.learnCredit src = { d with
      creditMsgs := d.creditMsgs.eraseP fun m => m.src = src
      routes := d.routes.map fun r =>
        if r.src = src then
          { r with
            free := (r.dsts.zip r.free).map fun y => if y.1 = m.dst then min 8 (y.2 + m.slots) else y.2
            bases := (r.dsts.zip r.bases).map fun y => if y.1 = m.dst then m.base else y.2 }
        else r } := by
  simp only [Dev.learnCredit, h]

/-- Settles O19: a source sends what its destinations have room for, and a credit return or a bridge item arrives whole. -/
theorem tokensAndCredits : Obligations.TokensAndCredits := by
  refine ⟨fun p r t rest s hwf hr hl ho => ⟨fun hgo => ?_, fun ⟨hk, hno⟩ => ?_⟩,
    fun die ep rd rs r p s hd he hrun hr hp hs hw => ⟨fun ext kind pay hn hgo => ?_, fun hn => ?_, fun ext kind pay hn hno => ?_⟩,
    fun src m die ep s hrun => ⟨exec_tokenSend_unrouted s, fun hwf hc => ?_, fun hwf hc => ?_, ?_⟩⟩
  · rw [exec_tokenSend_port s hwf hr, Dev.portSends_goes hl ho hgo, Dev.putEng_rest, Dev.sendToken_rest]
    refine ⟨_, rfl, rfl, rfl, rfl, rfl, rfl, rfl, fun hk => ?_, fun hk => ?_⟩
    · simp only [Dev.sendToken_taking _ r hk]
    · simp only [Dev.sendToken_keystone _ r hk, and_self]
  · rw [exec_tokenSend_port s hwf hr, Dev.portSends_waits hl ho hk hno]
  · rw [exec_tokenSend_recvEp s hd he hr, Dev.endpointSends_goes hrun hp hs hw hn hgo]
    refine ⟨_, rfl, by rw [Dev.sendToken_rest], fun k y hy hyd hye hys => ?_, ?_⟩
    · exact Dev.sendToken_pair (d := { s.dev with pairs := s.dev.pairs.map (Pair.deliver die ep (.tok ext kind pay)) }) _
        (Pair.getElem?_deliver _ hy hyd hye hys)
    · rw [Dev.sendToken_rest]; exact ⟨rfl, rfl, rfl, rfl, rfl⟩
  · rw [exec_tokenSend_recvEp s hd he hr, Dev.endpointSends_empty hrun hp hs hw hn]
  · rw [exec_tokenSend_recvEp s hd he hr, Dev.endpointSends_waits hrun hp hs hw hn hno]
  · rw [exec_creditReturn s hwf, onDev_same (by rw [if_pos hrun, Dev.learnCredit_none hc])]
  · rw [exec_creditReturn s hwf, State.onDev, if_pos hrun, Dev.learnCredit_some hc]
  · rw [exec_handoffReceive, State.onDev, if_pos hrun]; rfl

/-! ### Keystones (R60, R63) -/

section
variable {d : Dev} {die ep rd rs : Nat} {p : Pair} {r : Route} (hp : d.pairInto die ep = some p) (hs : p.rSpan = some (rd, rs))
include hp hs

theorem Dev.recvKeystone_waits (h : p.mayForward = false) : d.recvKeystone die ep = d := by
  simp only [Dev.recvKeystone, hp, hs, h, Bool.not_false, if_true]

theorem Dev.recvKeystone_goes (h : p.mayForward = true) (hr : d.routeFrom (.recvEp die ep) = some r) :
    d.recvKeystone die ep = { d with
      flights := d.flights ++ r.dsts.map fun x => { src := r.src, dst := x, tok := token .keystone 0 (d.span (64 * rd + rs)).epoch 0#512 }
      pairs := d.pairs.map fun y =>
        if y.rDie = die && y.rEp = ep && y.rSpan.isSome then { y with rKey := false, rDone := true, buf := y.buf.drop 1 } else y } := by
  have route (l : List Pair) : ({ d with pairs := l } : Dev).routeFrom (.recvEp die ep) = some r := hr
  simp only [Dev.recvKeystone, hp, hs, h, Bool.not_true, Bool.false_eq_true, if_false, route]
  rfl

end

/-- Settles O20: an engine, a send endpoint and a receive endpoint each pass their keystone on. -/
theorem keystonesForward : Obligations.KeystonesForward := by
  intro cl ph n die ep s hc hp hn hd he
  rw [exec_keystoneForward_engine s hc hp hn, exec_keystoneForward_sendEp s hd he, exec_keystoneForward_recvEp s hd he]
  refine ⟨fun hl hk => ?_, fun hr => ?_, fun p rd rs r hr hp hs hroute => ⟨fun hm => ?_, fun hm => ?_⟩⟩
  · rw [State.onDev, if_pos (by rw [hl, hk]; rfl)]
    refine ⟨_, rfl, ?_, ?_, ?_, ?_, rfl⟩ <;> simp only [Dev.engKeystone, Dev.eng_setEng]
  · rw [State.onDev, if_pos hr]; rfl
  · rw [onDev_same (by rw [if_pos hr, Dev.recvKeystone_waits hp hs hm])]
  · rw [State.onDev, if_pos hr, Dev.recvKeystone_goes hp hs hm hroute]

end Sys2Proof.Machine
end

section
/-!
PROOFS. Firings of compute engines and of stream contexts (R37, R51 to R53, R64, R90), and the completion of tier transfers (R188, R226).
-/
namespace Sys2Proof.Machine

/-! ### A compute engine fires (R51, R53, R58, R59, R64, R76) -/

theorem exec_ceFiring_live {cl : ClusterId} {ph : CoreId} {ce : Fin 4} {p : CeProg} {s : State} (hx : (s.dev.eng cl ph ce).prog = .ce p)
    (hl : s.dev.coreLive s.env cl ph = true) (hf : (s.dev.eng cl ph ce).fires = true) :
    exec (.ceFiring cl ph ce) s = .next { s with dev := ceFire s.env s.dev cl ph ce p } := by
  change onDev s _ = _
  simp only [onDev, State.onDev, hx, hl, hf, Bool.and_self, if_true]

/-- The outputs that firing `j` of an iteration writes, by its phase. -/
def CeProg.outsAt (p : CeProg) (j : Nat) : List Nat := match p.phaseAt j with
  | some h => h.outputs
  | none => []

/-- The load tokens that the iteration has had when a firing of phase `h` starts (R77). -/
def Iter.loadsIn (it : Iter) (h : Phase) : Nat := if it.fired = h.first then 0 else it.loads

/-- What the stages of a firing of iteration `n` give takes effect: a firing leaves its unit as `t`, and pushes the tokens that `toks` makes of its results
where a route leaves (R64); a stationary load beyond the registers ends the command (R76). -/
def Dev.ceOutcome (e : Env) (d : Dev) (cl ph ce n : Nat) (x : Eng) (t : Settling) (toks : List (Nat × BitVec 512) → List (Nat × Token)) :
    CeOut → Dev
  | .overflow q limit => d.engFault e cl ph ce
      { error := Config.overflow, resource := 0x05, iter := some n, value := q, limit := limit, firing := some (x.settling.iter n).fired }
  | .done r regs q =>
    let t := t.setLoads n q
    let outs := (toks r).foldl (fun o y => if (d.routedOuts cl ph ce).contains y.1 then pushTok o y.1 y.2 else o) t.outs
    let y : Eng := { x with iters := t.iters, queues := t.queues, outs := outs, regs := regs, firings := x.firings + 1 }
    (d.putEng cl ph ce x y t.freed).fired cl ph

section
variable {e : Env} {d : Dev} {cl ph ce n : Nat} {p : CeProg} {x : Eng} {u : EngUnit} {h : Phase}
  (hx : d.eng cl ph ce = x) (hu : p.unit x.limit = u)
  (hn : u.pick x.settling (u.nextOuts x.settling p.outsAt (d.routedOuts cl ph ce)) = some n)
  (hh : p.phaseAt (x.settling.iter n).fired = some h)
include hx hu hn hh

/-- The firing of the iteration that is picked. A CE that does not steer consumes the inputs of the phase, and sends its results as DATA of the iteration;
a steering one consumes its control and the data token that this names, and sends its result where the control says. -/
theorem ceFire_picked :
    (∀ o, p.steer = 0 →
      ceCompute x p h (x.settling.consume n ((u.nextIns x.settling n).getD [])).1 ((x.settling.iter n).loadsIn h) none = o →
      ceFire e d cl ph ce p = d.ceOutcome e cl ph ce n x ((x.settling.consume n ((u.nextIns x.settling n).getD [])).2.fire n)
        (fun l => l.map fun y => (y.1, token .data n (d.core cl ph).epoch y.2)) o) ∧
    (∀ first b taken t o, p.steer ≠ 0 → takeSteered u x.settling n = some (first, b, taken, t) →
      ceCompute x p h (stageToks u b taken (d.free 512).1) ((x.settling.iter n).loadsIn h) (some (inTok taken (u.named b))) = o →
      ceFire e d cl ph ce p = (d.free 512).2.ceOutcome e cl ph ce n x t
        (fun l => steerToks p.steer first b (Tab.get 0#512 4 l) n (d.core cl ph).epoch) o) := by
  subst hx hu
  unfold ceFire
  dsimp only
  split
  · next hno => exact absurd (hn.symm.trans hno) (by simp)
  · next m hm =>
    obtain rfl : m = n := Option.some.inj (hm.symm.trans hn)
    unfold Iter.loadsIn
    refine ⟨fun o hs ho => ?_, fun first b taken t o hs ht ho => ?_⟩
    · simp only [hh, hs, ne_eq, not_true_eq_false, if_false, ho]
      cases o <;> rfl
    · simp only [hh, hs, ne_eq, not_false_eq_true, if_true, ht, ho]
      cases o <;> rfl

end

/-- Settles O21: the outcome of the stages takes effect, be the CE a steering one or not. -/
theorem ceFires : Obligations.CeFires := by
  intro cl ph ce p n h s x u j ins routed outs loads epoch hx hl hf hn hh
  obtain ⟨plain, steered⟩ := ceFire_picked (e := s.env) rfl rfl hn hh
  rw [exec_ceFiring_live hx hl hf]
  refine ⟨fun toks regs q hs hc => ?_, fun q limit hs hc => ?_, fun first b taken t toks regs q hs ht hc => ?_,
    fun first b taken t q limit hs ht hc => ?_⟩
  · rw [plain _ hs hc, Dev.ceOutcome, List.foldl_map]; rfl
  · rw [plain _ hs hc]; rfl
  · rw [steered _ _ _ _ _ hs ht hc]; rfl
  · rw [steered _ _ _ _ _ hs ht hc]; rfl

/-! ### A stream context fires (R37, R90, R226) -/

section
variable {cl : ClusterId} {ph : CoreId} {me : Fin 4} {q : MeProg} {s : State} (recent : Nat) (ecc : Ecc)
  (hx : (s.dev.eng cl ph (4 + me)).prog = .me q) (hl : s.dev.coreLive s.env cl ph = true) (hf : (s.dev.eng cl ph (4 + me)).fires = true)
include hx hl hf

theorem exec_meFiring_ctx {ctx : Fin 8} {c : CtxProg} (hq : q.steer = 0) (hc : q.ctx? ctx = some c)
    (hg : genFree q (s.dev.eng cl ph (4 + me)) (ctx, c) = true) :
    exec (.meFiring cl ph me ctx recent ecc) s = .next { s with dev := ctxFire s.env s.dev cl ph me q (ctx, c) recent ecc } := by
  change onDev s _ = _
  simp only [onDev, State.onDev, hx, hl, hf, hq, hc, hg, Bool.and_self, Bool.not_true, Bool.false_eq_true, ne_eq, not_true_eq_false, if_false, if_true]

theorem exec_meFiring_steer (hq : q.steer ≠ 0) :
    exec (.meFiring cl ph me 0 recent ecc) s = .next { s with dev := meSteer s.dev cl ph (4 + me) q } := by
  change onDev s _ = _
  simp only [onDev, State.onDev, hx, hl, hf, hq, Bool.and_self, Bool.not_true, Bool.false_eq_true, ne_eq, not_false_eq_true, if_false, if_true,
    Fin.val_zero]

end

/-! ### A tier transfer completes (R188, R226) -/

section
variable {cl : ClusterId} {ph : CoreId} {me : Fin 4} {ctx : Fin 8} {lin : Nat} {t : Xfer} {s : State} (ecc : Ecc)
  (ht : (s.dev.streamCtx cl ph me ctx).outst.find? (fun t => t.lin = lin && t.granted) = some t)
include ht

theorem exec_tierTransferDone_dead (hd : s.dev.unitDead s.fuse t.pa = true) : exec (.tierTransferDone cl ph me ctx lin ecc) s = .next s := by
  change Host.Outcome.next (s.onDev _) = _
  rw [onDev_same]
  simp [ht, hd]

theorem exec_tierTransferDone_alive (hr : s.dev.running = true) (ha : (s.dev.sleep cl).st = .active) (hd : s.dev.unitDead s.fuse t.pa = false) :
    exec (.tierTransferDone cl ph me ctx lin ecc) s = .next { s with dev := xferDone s.env s.dev cl ph me ctx t ecc } := by
  change Host.Outcome.next (s.onDev _) = _
  rw [State.onDev]
  simp [ht, hr, ha, hd]

end

/-- Pages that change state change no memory. -/
theorem Dev.setPages_rest (l : List Nat) (st : PageSt) (d : Dev) : ∃ g, d.setPages l st = { d with blk := { d.blk with pages := g } } := by
  induction l generalizing d with
  | nil => exact ⟨d.blk.pages, rfl⟩
  | cons p t ih =>
    obtain ⟨g, h⟩ := ih (d.setPage p st)
    exact ⟨g, h⟩

/-- Homes that become FREE change no memory. -/
theorem Dev.freeHomes_memory (d : Dev) : d.freeHomes.blk.dram = d.blk.dram ∧ d.freeHomes.blk.near = d.blk.near := by
  unfold Dev.freeHomes
  dsimp only
  obtain ⟨g, h⟩ := Dev.setPages_rest (d.blk.oldHomes.filter fun h => !d.pageInUse h) .free
    { d with blk := { d.blk with oldHomes := d.blk.oldHomes.filter d.pageInUse } }
  rw [h]
  exact ⟨rfl, rfl⟩

/-- A context that lets go of its slot touches no memory. -/
theorem Dev.leavePort_blk (d : Dev) (p cl ph me ctx : Nat) : (d.leavePort p cl ph me ctx).blk = d.blk := by
  unfold Dev.leavePort
  split
  · rfl
  · split <;> rfl

/-- What follows on the data of a transfer, its engine stored, its slot let go of and old homes made FREE, changes no memory. -/
theorem Dev.xferEnds_memory (d : Dev) (cl ph n p me ctx : Nat) (old x : Eng) (freed : Tab Nat) :
    (((d.putEng cl ph n old x freed).leavePort p cl ph me ctx).freeHomes).blk.dram = d.blk.dram ∧
    (((d.putEng cl ph n old x freed).leavePort p cl ph me ctx).freeHomes).blk.near = d.blk.near := by
  have h := Dev.freeHomes_memory ((d.putEng cl ph n old x freed).leavePort p cl ph me ctx)
  rwa [Dev.leavePort_blk] at h

@[simp] theorem Dev.nearWrite_dram (d : Dev) (a : Nat) (l : List Byte) : (d.nearWrite a l).blk.dram = d.blk.dram := rfl
@[simp] theorem Dev.nearWrite_near (d : Dev) (a : Nat) (l : List Byte) : (d.nearWrite a l).blk.near = Memory.write d.blk.near a l := rfl

section
variable {e : Env} {d : Dev} {cl ph me ctx : Nat} {t : Xfer}

/-- A spill's data are written at its tier address. -/
theorem xferDone_spill (ecc : Ecc) (h : t.write = true) :
    (xferDone e d cl ph me ctx t ecc).blk.dram = (d.writePa t.pa t.data).blk.dram ∧ (xferDone e d cl ph me ctx t ecc).blk.near = d.blk.near := by
  unfold xferDone
  simp only [h, if_true, Dev.xferEnds_memory]
  exact ⟨rfl, rfl⟩

/-- A fill's data, good as they are read, are written in the SRAM. -/
theorem xferDone_fill (h : t.write = false) (hb : d.badIn t.pa 64 = none) :
    (xferDone e d cl ph me ctx t .good).blk.dram = d.blk.dram ∧
    (xferDone e d cl ph me ctx t .good).blk.near = Memory.write d.blk.near (nearAt cl ph me t.sram) (Memory.read d.blk.dram t.pa 64) := by
  unfold xferDone
  simp only [h, hb, Option.isSome_none, reduceCtorEq, decide_false, Bool.or_self, Bool.false_eq_true, if_false, Dev.xferEnds_memory,
    Dev.nearWrite_dram, Dev.nearWrite_near, and_self]

end

/-- Settles O22: the row is the firing of the context, the steering firing, or the completion of the transfer, whose memories the lemmas above say. -/
theorem streamsFire : Obligations.StreamsFire := by
  intro cl ph me ctx recent lin ecc q c t s x
  refine ⟨fun hx hl hf hq hc hg => exec_meFiring_ctx recent ecc hx hl hf hq hc hg,
    fun hx hl hf hq hctx => hctx ▸ exec_meFiring_steer recent ecc hx hl hf hq,
    fun ht _ _ hd => exec_tierTransferDone_dead ecc ht hd, fun ht hr ha hd => ?_⟩
  rw [exec_tierTransferDone_alive ecc ht hr ha hd]
  refine ⟨fun hw => ⟨_, rfl, xferDone_spill ecc hw⟩, fun hw hg hb => ⟨_, rfl, ?_⟩⟩
  subst hg
  exact xferDone_fill hw hb

end Sys2Proof.Machine
end

section
/-!
PROOFS. A step and the row at the front (R121), and a Control ISA row whose command may not start (R121, R297, R300).
-/
namespace Sys2Proof.Machine

/-- Settles O1: a step takes the front of the queue and runs its row. -/
theorem stepRunsFront : Obligations.StepRunsFront := by
  intro s c rest
  rfl

/-! ### A head that may not start -/

/-- No command starts from a queue that R121 holds, nor one that is not at its head. -/
theorem Dev.headOf_none {d : Dev} {f q : Nat} {c : Command} (h : d.inService = false ∨ d.funcLive f = false ∨ (d.queue f q).st = .unbound ∨
    d.queueBlocked f q = true ∨ (d.queue f q).fetched.head?.map (·.cmd) ≠ some c) : d.headOf f q c = none := by
  refine Option.eq_none_iff_forall_ne_some.2 fun x hx => ?_
  obtain ⟨⟨serves, live, bound, free⟩, head, cmd⟩ := Dev.headOf_spec hx
  rcases h with h | h | h | h | h
  · simp [h] at serves
  · simp [h] at live
  · exact bound h
  · simp [h] at free
  · exact h (by rw [head, Option.map_some, cmd])

/-- Where no head may start, none is held either, and the row does its last work alone. -/
theorem CtlRow.act_waits {r : CtlRow} {e : Env} {d : Dev} (h : d.headOf r.func r.queue r.cmd = none) : r.act e d = r.last e d := by
  have stays : d.mayStart e r.func r.queue r.cmd = none := by simp only [Dev.mayStart, h]
  have unheld : d.mayHold e r.func r.queue r.cmd = none := by simp [Dev.mayHold, h]
  unfold CtlRow.act
  split
  · rw [startHeld, stays]
    simp only [unheld]
  · rw [startRow, h]

/-- Settles O10: a row without a head that may start, but for SEQ_STEP, has nothing to do. -/
theorem commandWaitsItsTurn : Obligations.CommandWaitsItsTurn := by
  intro i r s hr hwf hi h
  rw [exec_ctlRow hr, hwf, guarded_true]
  refine congrArg Host.Outcome.next (onDev_same ?_)
  rw [CtlRow.act_waits (Dev.headOf_none h), ctlRow_last hr hi]

/-! ### A NOP that was held (R303) -/

/-- The NOP of CMD_ID 7, of CLASS 0. -/
def plainNop : Command := BitVec.ofNat 512 (0x01 + 7 * 2 ^ 16)

/-- A queue whose head, that NOP, is held for an executor: nothing in the state itself excludes it. -/
def heldNopQueue : Queue :=
  { cfg := 0x10404#64, st := .bound, enable := true, phase := true, sqTail := 5, fetched := [{ cmd := plainNop, sqHead := 1 }], exec := some .steps }

/-- A package that serves, with that queue; function 0 may submit no class. -/
def heldNop : State :=
  { State.reset with dev := { pins := { perst := false }, hif := { ready := true, queues := [(3, heldNopQueue)] }, sch := { funcs := [(0, 0xC00000#64)] } } }

/-- What a row has written to the host. -/
def outputOf : Res → List Output
  | .next t => t.dev.out
  | _ => []

/-- The held NOP keeps the class it was held with, and completes with OK. -/
theorem heldNop_completes_ok : outputOf (exec (.nop 0 3 plainNop) heldNop) = [.completion 0 3 0 (completionEntry 7 3 1 Config.ok 128 0)] := by
  decide +kernel

/-- Refutes O11: a NOP whose head was held keeps its class (R303), so that it completes with OK where its function has lost CLASS 0, not with
ERR_NO_PERMISSION; the statement asks for no head that was never held. -/
theorem not_nopAndTimestamp : ¬ Obligations.NopAndTimestamp := by
  intro h
  obtain ⟨-, -, refused, -⟩ := h 0 3 plainNop heldNop { cmd := plainNop, sqHead := 1 }
  obtain ⟨d, run, done⟩ := (refused (by decide +kernel) (by decide +kernel)).2 (by decide +kernel) (by decide +kernel)
  obtain ⟨l, entry, -⟩ := done.entry
  have ok := heldNop_completes_ok
  rw [run] at ok
  have first := (List.cons.inj (ok.symm.trans entry)).1
  exact absurd first (by decide +kernel)

end Sys2Proof.Machine
end

section
/-!
PROOFS. Control ISA commands that complete or wait at their start: SIGNAL, WAIT and BARRIER (R121, R135, R136).
-/
namespace Sys2Proof.Machine

/-! ### Commands of no group -/

/-- A command that passes its checks has no reserved byte set (R120). -/
theorem Dev.checks_reserved {d : Dev} {e : Env} {o : OpenCmd} {fields handles perms absent : List Bad} {rest : List (Option Reject)}
    (h : d.checks e o fields handles perms absent rest = none) : reservedBytes o.cmd = [] := by
  by_contra hr
  have filled : (reservedBytes o.cmd).isEmpty = false := by simpa using hr
  unfold Dev.checks at h
  dsimp only at h
  rw [filled, if_neg Bool.false_ne_true, filled, if_neg Bool.false_ne_true] at h
  split at h <;> cases h

/-- GROUP is reserved but in the opcodes that take one (R118). -/
theorem cmdGroup_of_reserved {c : Command} (h : reservedBytes c = []) (ht : opTakesGroup (cmdOpcode c) = false) : cmdGroup c = 0 := by
  by_contra hg
  have byte : (12 : Nat) ∈ reservedBytes c := by
    refine List.mem_map.2 ⟨12, List.mem_filter.2 ⟨List.mem_range.2 (by decide), ?_⟩, rfl⟩
    rw [ht, decide_eq_true hg]
    exact Bool.or_true _
  rw [h] at byte
  cases byte

/-- The row of a command outside every group that may start, its checks passed. -/
theorem exec_alone {i : Instr} {r : CtlRow} {s : State} {x : Fetched} {owner : Bool} (hr : ctlRow i = some r) (hwf : i.wf = true)
    (hl : r.last = fun _ d => d) (hs : r.start s = some (x, owner))
    (hc : r.check s.env (s.dev.openHead s.env r.func r.queue x owner).2 (s.dev.openHead s.env r.func r.queue x owner).1 = none)
    (hg : cmdGroup x.cmd = 0) {d : Dev}
    (hd : r.run s.env (s.dev.openHead s.env r.func r.queue x owner).2 (s.dev.openHead s.env r.func r.queue x owner).1 = d) :
    exec i s = .next { s with dev := d } := by
  rw [exec_start hr hwf hs, startCmd_alone hc hg, hl, hd]
  rfl

/-- The row of a command that takes no group and waits for no executor. -/
theorem exec_run {i : Instr} {r : CtlRow} {s : State} {x : Fetched} (hr : ctlRow i = some r) (hwf : i.wf = true) (hh : r.held = false)
    (hl : r.last = fun _ d => d) (hx : s.dev.headOf r.func r.queue r.cmd = some x)
    (hc : r.check s.env (s.dev.openHead s.env r.func r.queue x false).2 (s.dev.openHead s.env r.func r.queue x false).1 = none)
    (hb : ∀ {e d o}, r.check e d o = none → reservedBytes o.cmd = []) (ht : opTakesGroup (cmdOpcode r.cmd) = false)
    {d : Dev} (hd : r.run s.env (s.dev.openHead s.env r.func r.queue x false).2 (s.dev.openHead s.env r.func r.queue x false).1 = d) :
    exec i s = .next { s with dev := d } := by
  have start : r.start s = some (x, false) := by rw [CtlRow.start, hh, hx]; rfl
  obtain ⟨-, -, cmd⟩ := Dev.headOf_spec hx
  exact exec_alone hr hwf hl start hc (cmdGroup_of_reserved (hb hc) (cmd ▸ ht)) hd

/-! ### Completions of a list of commands (R119, R135, R136) -/

/-- A completion leaves the resets of functions. -/
@[simp] theorem Dev.complete_fresets (d : Dev) (uid st r fl : Nat) : (d.complete uid st r fl).hif.fresets = d.hif.fresets := by
  unfold Dev.complete
  split
  · rfl
  · split
    · rfl
    · dsimp only
      split <;> rw [Dev.post_rest]

theorem Dev.finishAll_fresets (l : List OpenCmd) (v : Nat) (d : Dev) : (l.foldl (fun d o => d.finish o v) d).hif.fresets = d.hif.fresets := by
  induction l generalizing d with
  | nil => rfl
  | cons x t ih => rw [List.foldl_cons, ih, Dev.finish, Dev.complete_fresets]

/-- The open command of a number that no other has. -/
theorem Dev.openOf_of_mem {d : Dev} {o : OpenCmd} (h : o ∈ d.opens) (one : ∀ y ∈ d.opens, y.uid = o.uid → y = o) : d.openOf o.uid = some o := by
  cases e : d.openOf o.uid with
  | none => exact absurd (List.find?_eq_none.1 e o h) (by simp)
  | some y => rw [one y (List.mem_of_find?_eq_some e) (by simpa using List.find?_some e)]

/-- The entry of a command that completes with OK. -/
theorem Dev.finish_out {d : Dev} {o : OpenCmd} (h : d.openOf o.uid = some o) (hq : o.quiet = false) (hf : d.funcResetting o.func = false) (v : Nat) :
    ∃ pre idx ph l, (d.finish o v).out = pre ++ .completion o.func o.queue idx
      (completionEntry (cmdId o.cmd) o.queue o.sqHead Config.ok (128 * bit ph) v) :: l ∧ (cmdNotify o.cmd = false → l = []) := by
  rw [Dev.finish, Dev.complete_open d _ _ _ h hq hf]
  obtain ⟨l, entry, quiet⟩ := Dev.post_out { d with opens := d.opens.filter fun y => y.uid ≠ o.uid } o.func o.queue o.cmd o.sqHead Config.ok 0 v
  rw [Nat.zero_add] at entry
  exact ⟨_, _, _, l, entry, quiet⟩

section
variable {s : State} {f : FuncId} {q : QueueId} {x : Fetched} {d : Dev} {l : List OpenCmd} (hd : d.opens = (s.dev.openHead s.env f q x false).2.opens)
include hd

/-- A command that has opened, and completes others and last itself, leaves the open commands that it does not complete. -/
theorem Dev.mem_opens_finishLast (v : Nat) (o : OpenCmd) : o ∈ ((l ++ [(s.dev.openHead s.env f q x false).1]).foldl (fun d o => d.finish o v) d).opens ↔
    o ∈ s.dev.opens ∧ ∀ w ∈ l, w.uid ≠ o.uid := by
  have own : o ∈ s.dev.opens → s.dev.freshUid ≠ o.uid := fun h => (s.dev.freshUid_new o h).symm
  simp only [Dev.mem_finishAll_opens, hd, Dev.openHead_opens, List.mem_append, List.mem_singleton, or_imp, forall_and, forall_eq, Dev.openHead_uid]
  constructor
  · rintro ⟨h | rfl, others, last⟩
    · exact ⟨h, others⟩
    · exact absurd rfl last
  · exact fun ⟨h, others⟩ => ⟨.inl h, others, own h⟩

/-- Its own entry comes last. -/
theorem Dev.out_finishLast (hl : ∀ w ∈ l, w ∈ s.dev.opens) (hf : d.hif.fresets = s.dev.hif.fresets) (hr : s.dev.funcResetting f = false) (v : Nat) : ∃ pre idx ph m,
    ((l ++ [(s.dev.openHead s.env f q x false).1]).foldl (fun d o => d.finish o v) d).out = pre ++ .completion f q idx
      (completionEntry (cmdId x.cmd) q x.sqHead Config.ok (128 * bit ph) v) :: m ∧ (cmdNotify x.cmd = false → m = []) := by
  rw [List.foldl_append]
  refine Dev.finish_out (o := (s.dev.openHead s.env f q x false).1) (Dev.openOf_of_mem ?_ fun y hy hu => ?_) rfl ?_ v
  · rw [Dev.mem_finishAll_opens, hd, Dev.openHead_opens]
    exact ⟨by simp, fun w hw => s.dev.freshUid_new w (hl w hw)⟩
  · rw [Dev.mem_finishAll_opens, hd, Dev.openHead_opens, List.mem_append] at hy
    exact hy.1.elim (fun h => absurd hu (s.dev.freshUid_new y h)) (by simp)
  · rw [Dev.funcResetting, Dev.finishAll_fresets, hf]
    exact hr

end

/-! ### What SIGNAL, WAIT and BARRIER do -/

section
variable {s : State} {f : FuncId} {q : QueueId} {x : Fetched}

/-- An open WAIT or BARRIER holds its queue. -/
theorem Dev.openHead_holds (h : cmdOpcode x.cmd = opWait ∨ cmdOpcode x.cmd = opBarrier) : (s.dev.openHead s.env f q x false).2.queueHeld f q = true := by
  refine List.any_eq_true.2 ⟨(s.dev.openHead s.env f q x false).1, by simp, ?_⟩
  have op : (s.dev.openHead s.env f q x false).1.opcode = cmdOpcode x.cmd := rfl
  simp [op, h]

/-- A WAIT that is met completes with the counter's value, and any other stays open. -/
theorem runWait_met (h : waitMet x.cmd (s.dev.event f (cmdEvent x.cmd)).toNat = true) :
    runWait s.env (s.dev.openHead s.env f q x false).2 (s.dev.openHead s.env f q x false).1 =
      (s.dev.openHead s.env f q x false).2.complete s.dev.freshUid Config.ok (s.dev.event f (cmdEvent x.cmd)).toNat := if_pos h
theorem runWait_unmet (h : waitMet x.cmd (s.dev.event f (cmdEvent x.cmd)).toNat = false) :
    runWait s.env (s.dev.openHead s.env f q x false).2 (s.dev.openHead s.env f q x false).1 = (s.dev.openHead s.env f q x false).2 :=
  if_neg (ne_true_of_eq_false h)

/-- Opening a command that is no WAIT changes no counter's WAITs. -/
theorem Dev.openHead_metWaits (h : cmdOpcode x.cmd ≠ opWait) (i v : Nat) :
    (s.dev.openHead s.env f q x false).2.metWaits f i v = s.dev.metWaits f i v := by
  have op : (s.dev.openHead s.env f q x false).1.opcode = cmdOpcode x.cmd := rfl
  simp [Dev.metWaits, List.filter_append, op, h]

/-- SIGNAL completes the WAITs that its value meets, and then itself, with that value. -/
theorem runSignal_opened (h : cmdOpcode x.cmd = opSignal) :
    runSignal s.env (s.dev.openHead s.env f q x false).2 (s.dev.openHead s.env f q x false).1 =
      let v := signalled x.cmd (s.dev.event f (cmdEvent x.cmd))
      (s.dev.metWaits f (cmdEvent x.cmd) v.toNat ++ [(s.dev.openHead s.env f q x false).1]).foldl (fun d o => d.finish o v.toNat)
        ((s.dev.openHead s.env f q x false).2.setEvent f (cmdEvent x.cmd) v) := by
  dsimp only
  rw [List.foldl_append, ← Dev.openHead_metWaits (s := s) (q := q) (by rw [h]; decide), ← Dev.setCounter_eq]
  rfl

/-- The participants of a barrier with the one that has opened. -/
theorem Dev.openHead_atBarrier (h : cmdOpcode x.cmd = opBarrier) : (s.dev.openHead s.env f q x false).2.atBarrier f (barNumber x.cmd) =
    s.dev.atBarrier f (barNumber x.cmd) ++ [(s.dev.openHead s.env f q x false).1] := by
  have op : (s.dev.openHead s.env f q x false).1.opcode = cmdOpcode x.cmd := rfl
  simp [Dev.atBarrier, List.filter_append, op, h]

/-- BARRIER waits for the last participant, which completes them all. -/
theorem runBarrier_opened (h : cmdOpcode x.cmd = opBarrier) :
    runBarrier s.env (s.dev.openHead s.env f q x false).2 (s.dev.openHead s.env f q x false).1 =
      if barCount x.cmd ≤ (s.dev.atBarrier f (barNumber x.cmd)).length + 1 then
        (s.dev.atBarrier f (barNumber x.cmd) ++ [(s.dev.openHead s.env f q x false).1]).foldl (fun d o => d.finish o 0) (s.dev.openHead s.env f q x false).2
      else (s.dev.openHead s.env f q x false).2 := by
  have here := Dev.openHead_atBarrier (s := s) (f := f) (q := q) h
  unfold runBarrier
  dsimp only [Dev.openHead_func, Dev.openHead_cmd]
  rw [here, List.length_append, List.length_singleton]
  rfl

end

/-- Settles O13: WAIT completes or stays open, SIGNAL completes the WAITs that it meets and itself, and the last BARRIER every participant. -/
theorem eventsAndBarriers : Obligations.EventsAndBarriers := by
  refine ⟨fun f q c s x hx hc => ⟨fun ho hm => ?_, fun ho hm => ?_, fun ho => ?_⟩, fun f q c s x hx ho hc => ⟨fun hn => ?_, fun hn => ?_⟩⟩ <;>
    obtain ⟨-, -, rfl⟩ := Dev.headOf_spec hx <;> have op := of_decide_eq_true ho
  · refine ⟨_, exec_run (i := .wait f q x.cmd) rfl ho rfl rfl hx hc Dev.checks_reserved (by rw [op]; rfl) (runWait_met hm), ?_⟩
    exact s.dev.completed_of_open s.env f q x false Config.ok _ (Dev.headOf_live hx)
  · refine ⟨_, exec_run (i := .wait f q x.cmd) rfl ho rfl rfl hx hc Dev.checks_reserved (by rw [op]; rfl) (runWait_unmet hm), rfl, ?_⟩
    exact Dev.openHead_holds (.inl op)
  · refine ⟨_, exec_run (i := .signal f q x.cmd) rfl ho rfl rfl hx hc Dev.checks_reserved (by rw [op]; rfl) (runSignal_opened op), ?_⟩
    dsimp only
    generalize signalled x.cmd (s.dev.event f (cmdEvent x.cmd)) = v
    have met : ∀ w ∈ s.dev.metWaits f (cmdEvent x.cmd) v.toNat, w ∈ s.dev.opens := fun w hw => (Dev.mem_metWaits.1 hw).1
    obtain ⟨o, h, u, e⟩ := Dev.finishAll_cases (s.dev.metWaits f (cmdEvent x.cmd) v.toNat ++ [(s.dev.openHead s.env f q x false).1]) v.toNat
      ((s.dev.openHead s.env f q x false).2.setEvent f (cmdEvent x.cmd) v)
    refine ⟨?_, ?_, fun g i hi => ?_, fun o => ?_, ?_⟩
    · rw [e]; rfl
    · rw [e]; exact Dev.event_setEvent ..
    · rw [e]; exact Dev.event_setEvent_other (s.dev.openHead s.env f q x false).2 hi v
    · rw [Dev.mem_opens_finishLast (Dev.setEvent_opens ..)]
      simp only [Dev.mem_metWaits, and_imp]
    · exact Dev.out_finishLast (Dev.setEvent_opens ..) met rfl (Dev.headOf_live hx) v.toNat
  · refine ⟨_, exec_run (i := .barrier f q x.cmd) rfl ho rfl rfl hx hc Dev.checks_reserved (by rw [op]; rfl)
      ((runBarrier_opened op).trans (if_neg (Nat.not_le.2 hn))), rfl, ?_⟩
    exact Dev.openHead_holds (.inr op)
  · obtain ⟨o, h, u, e⟩ := Dev.finishAll_cases (s.dev.atBarrier f (barNumber x.cmd) ++ [(s.dev.openHead s.env f q x false).1]) 0
      (s.dev.openHead s.env f q x false).2
    refine ⟨_, exec_run (i := .barrier f q x.cmd) rfl ho rfl rfl hx hc Dev.checks_reserved (by rw [op]; rfl)
      ((runBarrier_opened op).trans (if_pos hn)), ?_, fun o => Dev.mem_opens_finishLast rfl 0 o, ?_⟩
    · rw [e]; rfl
    · exact Dev.out_finishLast rfl (fun w hw => List.mem_of_mem_filter hw) rfl (Dev.headOf_live hx) 0

end Sys2Proof.Machine
end

section
/-!
PROOFS. The four LONG_ commands (R139 to R141): what a long operation does while others' commands open, and when each command completes.
-/
namespace Sys2Proof.Machine

/-! ### Work that does not see the command queues -/

/-- The package with other queues, open commands and next number. -/
def Dev.requeue (d : Dev) (h : Hif) (n : Nat) (l : List OpenCmd) : Dev := { d with hif := h, nextUid := n, opens := l }

section
variable (e : Env) (d : Dev) (h : Hif) (n : Nat) (l : List OpenCmd)

theorem foldl_requeue {α : Type} {f : Dev → α → Dev} (hf : ∀ d x, f (d.requeue h n l) x = (f d x).requeue h n l) (xs : List α) :
    xs.foldl f (d.requeue h n l) = (xs.foldl f d).requeue h n l := by
  induction xs generalizing d with
  | nil => rfl
  | cons x t ih => rw [List.foldl_cons, hf, ih, List.foldl_cons]

theorem Dev.present_requeue (now p k : Nat) : (d.requeue h n l).present now p k = (d.present now p k).requeue h n l := by
  unfold Dev.present
  rw [show ((d.requeue h n l).arbSlot p k) = d.arbSlot p k from rfl, show (d.requeue h n l).fixedOf p k = d.fixedOf p k from rfl]
  split
  · rfl
  · split <;> rfl

theorem Dev.ask_requeue (k : Nat) (r : FixReq) : (d.requeue h n l).ask e k r = (d.ask e k r).requeue h n l :=
  Dev.present_requeue (d.setFixed (e.fuse.arbiterOf r.pa) k (d.fixedOf (e.fuse.arbiterOf r.pa) k ++ [r])) h n l e.now _ k

theorem Dev.askRange_requeue (r : FixReq) (m : Nat) (slot : Nat → Nat → Option Nat) :
    (d.requeue h n l).askRange e r m slot = (d.askRange e r m slot).requeue h n l := by
  refine foldl_requeue d h n l (fun d i => ?_) _
  dsimp only
  split
  · exact Dev.ask_requeue ..
  · rfl

theorem Dev.moved_requeue (die pa m : Nat) (r : FixReq) : (d.requeue h n l).moved e die pa m r = (d.moved e die pa m r).requeue h n l := by
  unfold Dev.moved
  exact Dev.askRange_requeue e (d.free (2 * blocksOf pa m)).2 h n l _ _ _

theorem Dev.takePage_requeue (p : Quad) (st : PageSt) :
    (d.requeue h n l).takePage p st = ((d.takePage p st).1, (d.takePage p st).2.requeue h n l) := by
  unfold Dev.takePage
  dsimp only
  have same : ∀ g, ((d.requeue h n l).free 64).2.pageState g = (d.free 64).2.pageState g := fun _ => rfl
  simp only [same, show ((d.requeue h n l).free 64).1 = (d.free 64).1 from rfl]
  split <;> rfl

theorem askPage_requeue (m : Move) (ps : List MovePage) (p : MovePage) :
    askPage e m (ps, d.requeue h n l) p = ((askPage e m (ps, d) p).1, (askPage e m (ps, d) p).2.requeue h n l) := by
  unfold askPage
  dsimp only
  split
  · rfl
  · rw [show (d.requeue h n l).movePool m = d.movePool m from by unfold Dev.movePool; split <;> rfl, Dev.takePage_requeue]
    cases ht : d.takePage (d.movePool m) .moving with
    | mk g d1 =>
      cases g with
      | none => rfl
      | some g => dsimp only; rw [Dev.moved_requeue, Dev.moved_requeue]

theorem Dev.askChunk_requeue (m : Move) : (d.requeue h n l).askChunk e m = (d.askChunk e m).requeue h n l := by
  have pages (qs : List MovePage) : ∀ (ps : List MovePage) (d : Dev), qs.foldl (askPage e m) (ps, d.requeue h n l) =
      ((qs.foldl (askPage e m) (ps, d)).1, (qs.foldl (askPage e m) (ps, d)).2.requeue h n l) := by
    induction qs with
    | nil => exact fun _ _ => rfl
    | cons p t ih => intro ps d; rw [List.foldl_cons, askPage_requeue, ih, List.foldl_cons]
  unfold Dev.askChunk
  rw [pages]
  rfl

theorem Dev.askImage_requeue (k : Nat) : (d.requeue h n l).askImage e k = (d.askImage e k).requeue h n l := by
  unfold Dev.askImage
  rw [show (d.requeue h n l).long k = d.long k from rfl]
  split
  · split
    · rfl
    · exact foldl_requeue d h n l (fun d pa => Dev.moved_requeue e d h n l _ pa blockBytes _) _
  · rfl

/-- A long operation that goes on does not see the queues. -/
theorem Dev.resumeLong_requeue (k : Nat) : (d.requeue h n l).resumeLong e k = (d.resumeLong e k).requeue h n l := by
  unfold Dev.resumeLong
  dsimp only
  rw [show (d.requeue h n l).modLong k (fun l => { l with st := .running }) = (d.modLong k fun l => { l with st := .running }).requeue h n l from rfl,
    show ((d.modLong k fun l => { l with st := .running }).requeue h n l).longMove k = (d.modLong k fun l => { l with st := .running }).longMove k from rfl]
  split
  · split
    · rfl
    · exact Dev.askChunk_requeue ..
  · exact Dev.askImage_requeue ..

end

/-! ### What an operation's own work leaves -/

section
variable (e : Env) (d : Dev)

theorem Dev.takePage_cases (p : Quad) (st : PageSt) : ∃ b c, (d.takePage p st).2 = { d with blk := b, freeCount := c } := by
  unfold Dev.takePage
  dsimp only
  split <;> exact ⟨_, _, rfl⟩

theorem askPage_cases (m : Move) (ps : List MovePage) (p : MovePage) :
    ∃ a b c, (askPage e m (ps, d) p).2 = { d with arb := a, blk := b, freeCount := c } := by
  unfold askPage
  dsimp only
  split
  · exact ⟨d.arb, d.blk, d.freeCount, rfl⟩
  · obtain ⟨b, c, h⟩ := d.takePage_cases (d.movePool m) .moving
    cases ht : d.takePage (d.movePool m) .moving with
    | mk g d1 =>
      rw [ht] at h
      obtain rfl : d1 = _ := h
      cases g with
      | none => exact ⟨_, b, c, rfl⟩
      | some g =>
        obtain ⟨a1, c1, h1⟩ := Dev.moved_cases { d with blk := b, freeCount := c } e (m.mover p) (p.src * pageBytes) pageBytes (m.req p.va)
        obtain ⟨a2, c2, h2⟩ := Dev.moved_cases { d with arb := a1, blk := b, freeCount := c1 } e (m.mover p) (g * pageBytes) pageBytes (m.req p.va)
        exact ⟨a2, b, c2, by dsimp only; rw [h1, h2]⟩

/-- Asking for a chunk takes pages, and makes requests, alone. -/
theorem Dev.askChunk_cases (m : Move) : ∃ a b c, d.askChunk e m = { d with arb := a, blk := b, freeCount := c } := by
  have pages (qs : List MovePage) : ∀ (ps : List MovePage) (d : Dev), ∃ a b c,
      (qs.foldl (askPage e m) (ps, d)).2 = { d with arb := a, blk := b, freeCount := c } := by
    induction qs with
    | nil => exact fun _ d => ⟨d.arb, d.blk, d.freeCount, rfl⟩
    | cons p t ih =>
      intro ps d
      obtain ⟨a, b, c, h⟩ := askPage_cases e d m ps p
      obtain ⟨a', b', c', h'⟩ := ih (askPage e m (ps, d) p).1 (askPage e m (ps, d) p).2
      exact ⟨a', b', c', by rw [List.foldl_cons, h', h]⟩
  obtain ⟨a, b, c, h⟩ := pages m.chunk [] d
  exact ⟨a, _, c, by unfold Dev.askChunk; dsimp only; rw [h]; rfl⟩

/-- Asking for a segment makes requests alone. -/
theorem Dev.askImage_cases (k : Nat) : ∃ a c, d.askImage e k = { d with arb := a, freeCount := c } := by
  have blocks (die : Nat) (r : FixReq) (l : List Nat) : ∀ d : Dev, ∃ a c,
      l.foldl (fun d pa => d.moved e die pa blockBytes r) d = { d with arb := a, freeCount := c } := by
    induction l with
    | nil => exact fun d => ⟨d.arb, d.freeCount, rfl⟩
    | cons pa t ih =>
      intro d
      obtain ⟨a, c, h⟩ := d.moved_cases e die pa blockBytes r
      obtain ⟨a', c', h'⟩ := ih { d with arb := a, freeCount := c }
      exact ⟨a', c', by rw [List.foldl_cons, h, h']⟩
  unfold Dev.askImage
  split
  · split
    · exact ⟨d.arb, d.freeCount, rfl⟩
    · exact blocks ..
  · exact ⟨d.arb, d.freeCount, rfl⟩

/-- A long operation that goes on is RUNNING; its work takes pages, and makes requests, alone. -/
theorem Dev.resumeLong_cases (k : Nat) : ∃ a b c, d.resumeLong e k = { d.setLong k { d.long k with st := .running } with arb := a, blk := b, freeCount := c } := by
  unfold Dev.resumeLong
  dsimp only
  split
  · split
    · exact ⟨d.arb, d.blk, d.freeCount, rfl⟩
    · exact Dev.askChunk_cases ..
  · obtain ⟨a, c, h⟩ := (d.modLong k fun l => { l with st := .running }).askImage_cases e k
    exact ⟨a, d.blk, c, h⟩

theorem Dev.resumeLong_long (k : Nat) : (d.resumeLong e k).long k = { d.long k with st := .running } := by
  obtain ⟨a, b, c, h⟩ := d.resumeLong_cases e k
  rw [h]; exact Dev.long_setLong ..

/-- A command may open before or after an operation goes on. -/
theorem Dev.openHead_resumeLong (f q : Nat) (x : Fetched) (owner : Bool) (k : Nat) :
    (d.openHead e f q x owner).2.resumeLong e k = ((d.resumeLong e k).openHead e f q x owner).2 ∧
      (d.openHead e f q x owner).1 = ((d.resumeLong e k).openHead e f q x owner).1 := by
  obtain ⟨a, b, c, h⟩ := d.resumeLong_cases e k
  have later := d.resumeLong_requeue e (d.openHead e f q x owner).2.hif (d.openHead e f q x owner).2.nextUid (d.openHead e f q x owner).2.opens k
  rw [h] at later ⊢
  exact ⟨later, rfl⟩

end

/-! ### What the commands do -/

/-- What a completion leaves, and an operation's slot beside it. -/
theorem Completed.setLong {d d' : Dev} {f q : Nat} {x : Fetched} {status result : Nat} (h : Completed d d' f q x status result) (k : Nat) (l : LongOp) :
    Completed (d.setLong k l) (d'.setLong k l) f q x status result where
  rest := by
    have rest := h.rest
    generalize d' = d2 at rest ⊢
    rw [rest]; rfl
  queue := h.queue
  others := h.others
  entry := h.entry

/-- An operation's slot, as the opening of a command left it. -/
theorem Completed.long {d d' : Dev} {f q : Nat} {x : Fetched} {status result : Nat} (h : Completed d d' f q x status result) (k : Nat) :
    d'.long k = d.long k := by rw [h.rest]; rfl

section
variable {s : State} {f : FuncId} {q : QueueId} {x : Fetched}

@[simp] theorem Dev.openHead_long (k : Nat) : (s.dev.openHead s.env f q x false).2.long k = s.dev.long k := rfl
@[simp] theorem Dev.openHead_longFixed (l : LongOp) : (s.dev.openHead s.env f q x false).2.longFixed l = s.dev.longFixed l := rfl

/-- LONG_SUSPEND of an operation that does not run, or can no longer be held, changes nothing (R141). -/
theorem runLongSuspend_settled (h : (s.dev.long (longSlot x.cmd)).st ≠ .running ∨ s.dev.longFixed (s.dev.long (longSlot x.cmd)) = true) :
    runLongSuspend s.env (s.dev.openHead s.env f q x false).2 (s.dev.openHead s.env f q x false).1 =
      (s.dev.openHead s.env f q x false).2.longStatus (s.dev.openHead s.env f q x false).1 := 
  if_pos (show (decide ((s.dev.long (longSlot x.cmd)).st ≠ .running) || s.dev.longFixed (s.dev.long (longSlot x.cmd))) = true by simpa using h)

/-- LONG_RESUME of an operation that is not suspended changes nothing. -/
theorem runLongResume_settled (h : (s.dev.long (longSlot x.cmd)).st ≠ .suspended) :
    runLongResume s.env (s.dev.openHead s.env f q x false).2 (s.dev.openHead s.env f q x false).1 =
      (s.dev.openHead s.env f q x false).2.longStatus (s.dev.openHead s.env f q x false).1 :=
  congrArg (Dev.longStatus · (s.dev.openHead s.env f q x false).1) (if_neg h)

/-- LONG_CANCEL of an operation that has ended or is being cancelled, or can no longer be undone, changes nothing (R141). -/
theorem runLongCancel_settled (h : ((s.dev.long (longSlot x.cmd)).st ≠ .running ∧ (s.dev.long (longSlot x.cmd)).st ≠ .suspended) ∨
    s.dev.longFixed (s.dev.long (longSlot x.cmd)) = true) :
    runLongCancel s.env (s.dev.openHead s.env f q x false).2 (s.dev.openHead s.env f q x false).1 =
      (s.dev.openHead s.env f q x false).2.longStatus (s.dev.openHead s.env f q x false).1 := 
  if_pos (show (decide ((s.dev.long (longSlot x.cmd)).st ≠ .running) && decide ((s.dev.long (longSlot x.cmd)).st ≠ .suspended) ||
    s.dev.longFixed (s.dev.long (longSlot x.cmd))) = true by simpa using h)

section
variable (h1 : (s.dev.long (longSlot x.cmd)).st = .running) (h2 : s.dev.longFixed (s.dev.long (longSlot x.cmd)) = false)
include h1 h2

/-- A running operation with chunks is suspended, or cancelled, at its next boundary, for which the command waits; one without is suspended at once. -/
theorem runLongSuspend_chunked (h3 : (s.dev.long (longSlot x.cmd)).chunked = true) :
    runLongSuspend s.env (s.dev.openHead s.env f q x false).2 (s.dev.openHead s.env f q x false).1 =
      ((s.dev.openHead s.env f q x false).2.modLong (longSlot x.cmd) fun l => { l with suspendPending := true }).longWait
        (s.dev.openHead s.env f q x false).1 := by
  simp [runLongSuspend, h1, h2, h3]
theorem runLongCancel_chunked (h3 : (s.dev.long (longSlot x.cmd)).chunked = true) :
    runLongCancel s.env (s.dev.openHead s.env f q x false).2 (s.dev.openHead s.env f q x false).1 =
      ((s.dev.openHead s.env f q x false).2.modLong (longSlot x.cmd) fun l => { l with st := .cancelling }).longWait
        (s.dev.openHead s.env f q x false).1 := by
  simp [runLongCancel, h1, h2, h3]
theorem runLongSuspend_whole (h3 : (s.dev.long (longSlot x.cmd)).chunked = false) :
    runLongSuspend s.env (s.dev.openHead s.env f q x false).2 (s.dev.openHead s.env f q x false).1 =
      ((s.dev.setLong (longSlot x.cmd) { s.dev.long (longSlot x.cmd) with st := .suspended }).openHead s.env f q x false).2.longStatus
        (s.dev.openHead s.env f q x false).1 := by
  simp [runLongSuspend, h1, h2, h3]
  rfl

end

/-- A LONG_ command that waits stands last among those of the slot. -/
theorem Dev.long_longWait (d : Dev) (o : OpenCmd) (g : LongOp → LongOp) : ((d.modLong (longSlot o.cmd) g).longWait o).long (longSlot o.cmd) =
    { g (d.long (longSlot o.cmd)) with waiters := (g (d.long (longSlot o.cmd))).waiters ++ [o.uid] } := by
  simp [Dev.longWait, Dev.modLong]

/-- A LONG_ command that reports the status word at once, over a package with the queues and functions of the present one. -/
theorem longStatus_completed (hx : s.dev.headOf f q x.cmd = some x) {d : Dev} (hd : d.hif = s.dev.hif) :
    Completed d ((d.openHead s.env f q x false).2.longStatus (d.openHead s.env f q x false).1) f q x Config.ok (d.long (longSlot x.cmd)).status := by
  have live : d.funcResetting f = false := by rw [Dev.funcResetting, hd]; exact Dev.headOf_live hx
  exact d.completed_of_open s.env f q x false Config.ok _ live

theorem runLongQuery_completed (hx : s.dev.headOf f q x.cmd = some x) :
    Completed (if (s.dev.long (longSlot x.cmd)).st.terminal then s.dev.setLong (longSlot x.cmd) { s.dev.long (longSlot x.cmd) with used := false } else s.dev)
      (runLongQuery s.env (s.dev.openHead s.env f q x false).2 (s.dev.openHead s.env f q x false).1) f q x Config.ok (s.dev.long (longSlot x.cmd)).status := by
  have done := longStatus_completed hx (d := s.dev) rfl
  unfold runLongQuery
  dsimp only [Dev.openHead_cmd]
  rw [show (s.dev.openHead s.env f q x false).2.long (longSlot x.cmd) = s.dev.long (longSlot x.cmd) from rfl]
  split
  · rw [Dev.modLong, done.long]
    exact done.setLong ..
  · exact done

theorem runLongResume_suspended (hx : s.dev.headOf f q x.cmd = some x) (hs : (s.dev.long (longSlot x.cmd)).st = .suspended) :
    Completed (s.dev.resumeLong s.env (longSlot x.cmd)) (runLongResume s.env (s.dev.openHead s.env f q x false).2 (s.dev.openHead s.env f q x false).1)
      f q x Config.ok { s.dev.long (longSlot x.cmd) with st := .running }.status := by
  obtain ⟨later, same⟩ := s.dev.openHead_resumeLong s.env f q x false (longSlot x.cmd)
  have hif : (s.dev.resumeLong s.env (longSlot x.cmd)).hif = s.dev.hif := by
    obtain ⟨a, b, c, h⟩ := s.dev.resumeLong_cases s.env (longSlot x.cmd)
    rw [h]; rfl
  have done := longStatus_completed hx hif
  rw [Dev.resumeLong_long, ← same, ← later] at done
  rw [runLongResume, if_pos (show ((s.dev.openHead s.env f q x false).2.long (longSlot (s.dev.openHead s.env f q x false).1.cmd)).st = .suspended from hs)]
  exact done

end

/-- Settles O15: each command reports the status word at once, but one that must wait for a chunk boundary. -/
theorem longOperationCommands : Obligations.LongOperationCommands := by
  intro f q c s x hx hc
  obtain ⟨-, -, rfl⟩ := Dev.headOf_spec hx
  have now := longStatus_completed hx (d := s.dev) rfl
  dsimp only
  refine ⟨fun ho => ?_, fun ho => ?_, fun ho => ?_, fun ho => ?_⟩ <;> have op := of_decide_eq_true ho
  · exact ⟨_, exec_run (i := .longQuery f q x.cmd) rfl ho rfl rfl hx hc Dev.checks_reserved (by rw [op]; rfl) rfl, runLongQuery_completed hx⟩
  · refine ⟨runLongResume s.env (s.dev.openHead s.env f q x false).2 (s.dev.openHead s.env f q x false).1,
      exec_run (i := .longResume f q x.cmd) rfl ho rfl rfl hx hc Dev.checks_reserved (by rw [op]; rfl) rfl, runLongResume_suspended hx, fun hs => ?_⟩
    rw [runLongResume_settled hs]
    exact now
  · refine ⟨runLongSuspend s.env (s.dev.openHead s.env f q x false).2 (s.dev.openHead s.env f q x false).1,
      exec_run (i := .longSuspend f q x.cmd) rfl ho rfl rfl hx hc Dev.checks_reserved (by rw [op]; rfl) rfl, fun h => ?_, fun h1 h2 h3 => ?_,
      fun h1 h2 h3 => ?_⟩
    · rw [runLongSuspend_settled h]
      exact now
    · rw [runLongSuspend_chunked h1 h2 h3]
      exact ⟨Dev.long_longWait _ (s.dev.openHead s.env f q x false).1 _, rfl⟩
    · rw [runLongSuspend_whole h1 h2 h3]
      have held := longStatus_completed hx (d := s.dev.setLong (longSlot x.cmd) { s.dev.long (longSlot x.cmd) with st := .suspended }) rfl
      rw [Dev.long_setLong] at held
      exact held
  · refine ⟨runLongCancel s.env (s.dev.openHead s.env f q x false).2 (s.dev.openHead s.env f q x false).1,
      exec_run (i := .longCancel f q x.cmd) rfl ho rfl rfl hx hc Dev.checks_reserved (by rw [op]; rfl) rfl, fun h => ?_, fun h1 h2 h3 => ?_⟩
    · rw [runLongCancel_settled h]
      exact now
    · rw [runLongCancel_chunked h1 h2 h3]
      exact ⟨Dev.long_longWait _ (s.dev.openHead s.env f q x false).1 _, rfl⟩

end Sys2Proof.Machine
end

section
/-!
PROOFS. The start of a launch (R129, R150): a loaded span with nothing waiting takes the command's arguments and runs, its dispensers at their programmed values.
-/
namespace Sys2Proof.Machine

/-! ### The work list -/

/-- A single item that adds none is all the work. -/
theorem Dev.settle_one {d d' : Dev} {e : Env} {t : Todo} {seen : List Nat} (h : todoStep e d [] t = (d', seen, [])) : d.settle e [t] = d' := by
  unfold Dev.settle
  obtain ⟨n, hn⟩ : ∃ n, 64 * (d.opens.length + d.groups.length + d.spans.length + [t].length + 256) = n + 1 + 1 := ⟨_, rfl⟩
  rw [hn, settleFuel, h]
  rfl

/-! ### Dispensers (R150) -/

/-- A dispenser at the start of a launch. -/
def Disp.restart (v : Disp) : Disp := { v with next := v.pStart, limit := v.pLimit, exhausted := false }

/-- The dispensers of a list start; a place that is named twice starts once. -/
theorem Dev.disps_restart (l : List (Nat × Nat × Nat)) (d : Dev) (z : Nat) :
    Tab.get {} z (l.foldl (fun d x => d.setDisp x.1 x.2.1 (d.disp x.1 x.2.1).restart) d).disps =
      if ∃ y ∈ l, 16 * y.1 + y.2.1 = z then (Tab.get {} z d.disps : Disp).restart else Tab.get {} z d.disps := by
  induction l generalizing d with
  | nil => simp
  | cons x t ih =>
    rw [List.foldl_cons, ih]
    by_cases hx : 16 * x.1 + x.2.1 = z
    · subst hx
      have here : Tab.get {} (16 * x.1 + x.2.1) (d.setDisp x.1 x.2.1 (d.disp x.1 x.2.1).restart).disps = (d.disp x.1 x.2.1).restart := Tab.get_put_same ..
      rw [here, if_pos (show ∃ y ∈ x :: t, 16 * y.1 + y.2.1 = 16 * x.1 + x.2.1 from ⟨x, List.mem_cons_self, rfl⟩)]
      split <;> rfl
    · have other : Tab.get {} z (d.setDisp x.1 x.2.1 (d.disp x.1 x.2.1).restart).disps = Tab.get {} z d.disps := Tab.get_put_other _ (Ne.symm hx) _ _
      simp only [other, List.exists_mem_cons_iff, hx, false_or]

theorem foldl_setDisp_cases (l : List (Nat × Nat × Nat)) (d : Dev) :
    ∃ t, l.foldl (fun d x => d.setDisp x.1 x.2.1 (d.disp x.1 x.2.1).restart) d = { d with disps := t } := by
  induction l generalizing d with
  | nil => exact ⟨d.disps, rfl⟩
  | cons x t ih =>
    obtain ⟨u, h⟩ := ih (d.setDisp x.1 x.2.1 (d.disp x.1 x.2.1).restart)
    exact ⟨u, by rw [List.foldl_cons, h]; rfl⟩

/-! ### Engines -/

theorem Dev.onCores_cases (l : List CoreRef) (f : Core → Core) (d : Dev) : ∃ c, d.onCores l f = { d with cores := c } := by
  induction l generalizing d with
  | nil => exact ⟨d.cores, rfl⟩
  | cons r t ih =>
    obtain ⟨c, h⟩ := ih (d.modCore r.cl r.phys f)
    exact ⟨c, h.trans rfl⟩

/-- The engines of a launch start in their cores and routes; the dispensers of the span restart, and nothing else changes. -/
theorem Dev.startEngines_cases (d : Dev) (k : Nat) (args : List Word) : ∃ c r m, d.startEngines k args =
    { d with cores := c, routes := r, creditMsgs := m, disps := (d.resetDisps k).disps } := by
  obtain ⟨t, ht⟩ := foldl_setDisp_cases (d.span k).disps d
  have hr : d.resetDisps k = { d with disps := t } := ht
  obtain ⟨c, hc⟩ := (d.resetDisps k).onCores_cases (d.span k).cores
    (fun c => c.mapEngs fun x => ({ x with st := stRunning, base := 0, iters := [], ctxs := [], fillBytes := 0 } : Eng).counted args)
  unfold Dev.startEngines
  dsimp only
  rw [hc, hr]
  exact ⟨c, _, _, rfl⟩

/-! ### The launch that waits alone -/

section
variable {e : Env} {d : Dev} {k : Nat} {o : OpenCmd}

/-- The launch of a span that has waited for it alone. -/
def Dev.launched (d : Dev) (k : Nat) (o : OpenCmd) : Dev :=
  ((d.modSpan k fun s => { s with waiting := [] }).modSpan k fun s =>
    { s with running := some o.uid, st := .running, args := launchArgs o.cmd, asid := o.asid }).startEngines k (launchArgs o.cmd)

theorem Dev.epochAstray_waiting (l : List Nat) : (d.modSpan k fun s => { s with waiting := l }).epochAstray k = d.epochAstray k := by
  simp only [Dev.epochAstray, Dev.modSpan, Dev.span_setSpan]
  rfl
theorem Dev.unpaired_waiting (l : List Nat) : (d.modSpan k fun s => { s with waiting := l }).unpaired k = d.unpaired k := by
  simp [Dev.unpaired, Dev.modSpan]

/-- The next launch of a loaded span that may start starts. -/
theorem nextOnSpan_launch (hst : (d.span k).st = .loaded) (hr : (d.span k).running = none) (hl : (d.span k).reload = false) (hk : (d.span k).keyed = false)
    (hd : (d.span k).drain = none) (hw : (d.span k).waiting = [o.uid]) (ho : d.openOf o.uid = some o) (hf : d.funcResetting o.func = false)
    (he : d.epochAstray k = false) (hu : d.unpaired k = false) (hop : o.opcode = opSpanLaunch) : nextOnSpan e d k = (d.launched k o, []) := by
  have live : (d.modSpan k fun s => { s with waiting := [] }).funcResetting o.func = false := hf
  have plain : (o.opcode = opSeqStep) = False := by rw [hop]; decide
  simp only [nextOnSpan, hst, hr, hl, hk, hw, ho, live, Dev.epochAstray_waiting, Dev.unpaired_waiting, he, hu, plain]
  simp [Dev.launched, Dev.modSpan, hd]

/-- A SPAN_LAUNCH of a loaded span with nothing waiting is launched at once. -/
theorem runSpanLaunch_launched (hst : (d.span (cmdSlot o.cmd)).st = .loaded) (hr : (d.span (cmdSlot o.cmd)).running = none)
    (hl : (d.span (cmdSlot o.cmd)).reload = false) (hk : (d.span (cmdSlot o.cmd)).keyed = false) (hd : (d.span (cmdSlot o.cmd)).drain = none)
    (hw : (d.span (cmdSlot o.cmd)).waiting = []) (ho : d.openOf o.uid = some o) (hf : d.funcResetting o.func = false)
    (he : d.epochAstray (cmdSlot o.cmd) = false) (hu : d.unpaired (cmdSlot o.cmd) = false) (hop : o.opcode = opSpanLaunch) :
    runSpanLaunch e d o = (d.modSpan (cmdSlot o.cmd) fun s => { s with waiting := [o.uid] }).launched (cmdSlot o.cmd) o := by
  have queued : (d.modSpan (cmdSlot o.cmd) fun s => if s.drain.isSome then { s with late := s.late ++ [(o.uid, false)] } else
      { s with waiting := s.waiting ++ [o.uid] }) = d.modSpan (cmdSlot o.cmd) fun s => { s with waiting := [o.uid] } := by
    simp [Dev.modSpan, hd, hw]
  have next : nextOnSpan e (d.modSpan (cmdSlot o.cmd) fun s => { s with waiting := [o.uid] }) (cmdSlot o.cmd) =
      ((d.modSpan (cmdSlot o.cmd) fun s => { s with waiting := [o.uid] }).launched (cmdSlot o.cmd) o, []) := by
    refine nextOnSpan_launch ?_ ?_ ?_ ?_ ?_ ?_ ho hf ((Dev.epochAstray_waiting _).trans he) ((Dev.unpaired_waiting _).trans hu) hop <;>
      simp only [Dev.modSpan, Dev.span_setSpan] <;> assumption
  unfold runSpanLaunch
  dsimp only
  rw [queued]
  exact Dev.settle_one (by simp only [todoStep, next]; rfl)

variable (d k o)

/-- What a launch leaves of the slot, of the dispensers and of the rest of the package, whatever had waited. -/
theorem Dev.launched_span : (d.launched k o).span k =
    { d.span k with waiting := [], running := some o.uid, st := .running, args := launchArgs o.cmd, asid := o.asid } := by
  unfold Dev.launched
  obtain ⟨c, r, m, h⟩ := Dev.startEngines_cases ((d.modSpan k fun s => { s with waiting := [] }).modSpan k fun s =>
    { s with running := some o.uid, st := .running, args := launchArgs o.cmd, asid := o.asid }) k (launchArgs o.cmd)
  rw [h]
  refine (Dev.span_setSpan ..).trans ?_
  rw [Dev.modSpan, Dev.span_setSpan]

theorem Dev.launched_disps (z : Nat) : Tab.get {} z (d.launched k o).disps =
    if ∃ y ∈ (d.span k).disps, 16 * y.1 + y.2.1 = z then (Tab.get {} z d.disps : Disp).restart else Tab.get {} z d.disps := by
  unfold Dev.launched
  generalize hv : (d.modSpan k fun s => { s with waiting := [] }).modSpan k (fun s =>
    { s with running := some o.uid, st := .running, args := launchArgs o.cmd, asid := o.asid }) = v
  have disps : v.disps = d.disps := by rw [← hv]; rfl
  have own : (v.span k).disps = (d.span k).disps := by rw [← hv, Dev.modSpan, Dev.span_setSpan, Dev.modSpan, Dev.span_setSpan]
  obtain ⟨c, r, m, h⟩ := v.startEngines_cases k (launchArgs o.cmd)
  rw [h, ← disps, ← own]
  exact Dev.disps_restart (v.span k).disps v z

theorem Dev.launched_rest : ∃ c r m p t, d.launched k o = { d with cores := c, routes := r, creditMsgs := m, spans := p, disps := t } := by
  obtain ⟨c, r, m, h⟩ := Dev.startEngines_cases ((d.modSpan k fun s => { s with waiting := [] }).modSpan k fun s =>
    { s with running := some o.uid, st := .running, args := launchArgs o.cmd, asid := o.asid }) k (launchArgs o.cmd)
  exact ⟨c, r, m, _, _, h⟩

end

section
variable {s : State} {f : FuncId} {q : QueueId} {x : Fetched} {owner : Bool}

/-- The package in which the opened launch waits alone on its span. -/
def Dev.launchWaits (d : Dev) (e : Env) (f q : Nat) (x : Fetched) (owner : Bool) : Dev :=
  (d.openHead e f q x owner).2.modSpan (cmdSlot x.cmd) fun s => { s with waiting := [d.freshUid] }

theorem Dev.launchWaits_span (d : Dev) (e : Env) : (d.launchWaits e f q x owner).span (cmdSlot x.cmd) =
    { d.span (cmdSlot x.cmd) with waiting := [d.freshUid] } := Dev.span_setSpan ..
theorem Dev.launchWaits_disps (d : Dev) (e : Env) : (d.launchWaits e f q x owner).disps = d.disps := rfl

end

/-- Settles O16: the launch alone waits on its span, and the sequencer starts it at once. -/
theorem launchStarts : Obligations.LaunchStarts := by
  intro f q c s x owner
  dsimp only
  intro ho hm hc hg hst hw hr hd hl hk he hu
  have head := Dev.mayStart_head hm
  obtain ⟨-, -, rfl⟩ := Dev.headOf_spec head
  have run : runSpanLaunch s.env (s.dev.openHead s.env f q x owner).2 (s.dev.openHead s.env f q x owner).1 =
      (s.dev.launchWaits s.env f q x owner).launched (cmdSlot x.cmd) (s.dev.openHead s.env f q x owner).1 :=
    runSpanLaunch_launched hst hr hl hk hd hw (Dev.openHead_openOf ..) (show s.dev.funcResetting f = false from Dev.headOf_live head) he hu
      (of_decide_eq_true ho)
  have start : CtlRow.start { func := f, queue := q, cmd := x.cmd, check := spanLaunchCheck, run := runSpanLaunch, held := true } s = some (x, owner) :=
    (if_pos rfl).trans hm
  have row := exec_alone (i := .spanLaunch f q x.cmd) rfl ho rfl start hc hg rfl
  dsimp only at row
  rw [run] at row
  refine ⟨_, row, ?_⟩
  have slot := Dev.launched_span (s.dev.launchWaits s.env f q x owner) (cmdSlot x.cmd) (s.dev.openHead s.env f q x owner).1
  have disps := Dev.launched_disps (s.dev.launchWaits s.env f q x owner) (cmdSlot x.cmd) (s.dev.openHead s.env f q x owner).1
  obtain ⟨_, _, _, _, _, rest⟩ := Dev.launched_rest (s.dev.launchWaits s.env f q x owner) (cmdSlot x.cmd) (s.dev.openHead s.env f q x owner).1
  simp only [Dev.launchWaits_span, Dev.launchWaits_disps] at disps
  refine ⟨congrArg Span.running slot, congrArg Span.st slot, congrArg Span.args slot, congrArg Span.waiting slot, fun y hy => ?_, fun z hz => ?_, ?_, ?_, ?_⟩
  · exact (disps _).trans (if_pos ⟨y, hy, rfl⟩)
  · exact (disps z).trans (if_neg fun ⟨y, hy, h⟩ => hz y hy h)
  · rw [rest]; rfl
  · rw [rest]; rfl
  · rw [rest]; rfl

end Sys2Proof.Machine
end

section
/-!
PROOFS. Watchdogs and command deadlines that expire at a time of their own (R122, R337, R339, R350; log entries 2 and 49).
-/
namespace Sys2Proof.Machine

/-- The package and the surroundings in which a row at a time of its own acts. -/
theorem State.passTo_upTo (s : State) (n : Nat) (f : Env → Dev → Dev) :
    ((s.passTo n).onDev f).dev = f { s.env with now := ((s.passTo n).onDev f).time.toNat } (s.upTo ((s.passTo n).onDev f)) := rfl

/-- A core whose watchdog expires is logged, and reset with ERR_HANG. -/
def coreHung (e : Env) (d : Dev) (cl ph : Nat) : Dev :=
  Dev.coreReset e (d.expired e cl ph 0x40) cl ph (some
    { error := Config.hang, resource := 0x40, core := some (cl, ph), value := (d.core cl ph).still / Config.usTicks, limit := d.ras.coreUs })

theorem coreHung_eq (e : Env) (d : Dev) (cl ph : Nat) : coreHung e d cl ph =
    Dev.coreReset e (d.rasEvent e 6 Config.hang cl ph 0 0x40) cl ph (some
      { error := Config.hang, resource := 0x40, core := some (cl, ph), value := (d.core cl ph).still / Config.usTicks
        limit := bitsAt d.ras.wdt.toNat 0 16 }) := by
  rw [coreHung, Dev.expired, Ras.coreUs]

/-- What a deadline that passes does: it is logged, and the command ends with its record. -/
theorem deadlinePassed_eq (e : Env) (d : Dev) (o : OpenCmd) : deadlinePassed e d o =
    (d.rasEvent e 6 Config.hang 0xFF 0xFF 0 0x41).failFault e o
      { error := Config.hang, resource := 0x41, engine := 0xF2, value := (e.now - o.start) / Config.usTicks, limit := d.deadlineUs o.cmd
        span := if o.opcode = opSpanLaunch || o.opcode = opSpanDrain then cmdField o.cmd 16 4 else 0 } := by
  rw [deadlinePassed, Dev.expired]

section
variable {s : State} (hr : s.dev.running = true)
include hr

/-- The watchdog of a core that counts expires once its count has come to CORE_US. -/
theorem exec_coreWatchdog {cl : ClusterId} {p : CoreId} (hf : s.fuse.clusterFitted cl = true) (hk : s.kf.coreFenced cl p = false)
    (hn : s.dev.coreCounts cl p = true) (hc : s.dev.coveredBy (.core cl p) = false) :
    exec (.coreWatchdogExpiry cl p) s =
      onDevAt s (s.time.toNat + (s.dev.ras.coreUs * Config.usTicks - (s.dev.core cl p).still)) fun e d => coreHung e d cl p :=
  if_pos (by simp [hr, hf, hk, hn, hc])

/-- The deadline of an open command outside a group in doubt passes no earlier than it stands. -/
theorem exec_commandDeadline {uid : Nat} {o : OpenCmd} (ho : s.dev.openOf uid = some o) (hd : s.dev.inDoubt o = false) :
    exec (.commandDeadlineExpiry uid) s = onDevAt s (o.start + s.dev.deadlineUs o.cmd * Config.usTicks) fun e d => deadlinePassed e d o := by
  change execCommandDeadlineExpiry uid s = _
  simp only [execCommandDeadlineExpiry, ho]
  exact if_pos (by simp [hr, hd])

end

/-- The watchdog of a core that does not count does not expire. -/
theorem exec_coreWatchdog_still {s : State} {cl : ClusterId} {p : CoreId} (hn : s.dev.coreCounts cl p = false) :
    exec (.coreWatchdogExpiry cl p) s = .next s := if_neg (by simp [hn])

theorem exec_commandDeadline_ended {s : State} {uid : Nat} (ho : s.dev.openOf uid = none) : exec (.commandDeadlineExpiry uid) s = .next s := by
  change execCommandDeadlineExpiry uid s = _
  simp only [execCommandDeadlineExpiry, ho]

/-! ### Pier cores (R337, R339, R340) -/

/-- The pier cores of a die expired at most 60 s before `now`. -/
def Dev.pierRecent (d : Dev) (n now : Nat) : Bool := match d.ras.pierAt.find? fun x : Nat × Nat => x.1 = n with
  | some x => Decidable.decide (now ≤ x.2 + 60 * 100000000)
  | none => false

theorem Dev.pierRecent_iff {d : Dev} {n now : Nat} : d.pierRecent n now = true ↔
    ∃ k at_, d.ras.pierAt.find? (fun x : Nat × Nat => x.1 = n) = some (k, at_) ∧ now ≤ at_ + 60 * 100000000 := by
  unfold Dev.pierRecent
  cases d.ras.pierAt.find? fun x : Nat × Nat => x.1 = n with
  | none => simp
  | some x => obtain ⟨k, at_⟩ := x; simp

/-- The expiry of a pier core is logged, with its time. -/
def Dev.pierExpired (e : Env) (d : Dev) (n cl : Nat) : Dev :=
  let d := d.expired e cl 0xFF 0x44
  { d with ras := { d.ras with pierAt := Tab.put n e.now d.ras.pierAt, pierFrom := Tab.put n e.now d.ras.pierFrom } }

/-- It resets its die, or enters the parapet state the second time within 60 s. -/
def pierExpiry (e : Env) (d : Dev) (n cl pier : Nat) : Dev :=
  if d.pierRecent n e.now then Dev.parapet e (d.pierExpired e n cl) 5 Config.hang
  else if d.coveredBy (.die n) then d.pierExpired e n cl
  else Dev.dieReset e (d.pierExpired e n cl) n (some { error := Config.hang, resource := 0x44, engine := 0xF2, value := pier, limit := d.ras.pierMs })

theorem exec_pierWatchdog {s : State} {n : DieId} {pier : Fin 8} (hr : s.dev.running = true) (hf : s.fuse.dieFitted n = true)
    (hk : s.kf.usable (4 * n.val + pier.val / 2) = true) :
    exec (.pierWatchdogExpiry n pier) s = onDevAt s (Tab.get 0 n.val s.dev.ras.pierFrom + s.dev.ras.pierMs * (1000 * Config.usTicks)) fun e d =>
      pierExpiry e d n (4 * n.val + pier.val / 2) pier :=
  if_pos (by simp [hr, hf, hk])

/-- Settles O48: each row passes to its time, and acts there as the lemmas above say. -/
theorem watchdogsExpire : Obligations.WatchdogsExpire := by
  intro cl p n pier uid o s hr
  refine ⟨fun hf hk hn hc => ⟨_, exec_coreWatchdog hr hf hk hn hc, rfl, ?_, ?_⟩, exec_coreWatchdog_still,
    fun ho hd => ⟨_, exec_commandDeadline hr ho hd, rfl, ?_⟩, exec_commandDeadline_ended, fun hf hk => ⟨_, exec_pierWatchdog hr hf hk, rfl, rfl, ?_, ?_, ?_⟩⟩
  · exact congrArg (BitVec.ofNat 64) (max_eq_right (Nat.le_add_right _ _))
  · rw [State.passTo_upTo]
    generalize (s.passTo _).onDev _ = t
    exact coreHung_eq _ (s.upTo t) cl p
  · rw [State.passTo_upTo]
    generalize (s.passTo _).onDev _ = t
    exact deadlinePassed_eq _ (s.upTo t) o
  · exact fun again => if_pos (Dev.pierRecent_iff.2 again)
  · exact fun first covered => (if_neg fun h => first (Dev.pierRecent_iff.1 h)).trans (if_pos covered)
  · exact fun first bare => (if_neg fun h => first (Dev.pierRecent_iff.1 h)).trans (if_neg (ne_true_of_eq_false bare))

end Sys2Proof.Machine
end

section
/-!
PROOFS. The chunks and the end of a MOVE (R141, R178, R179, R231; log entries 38, 73 and 78).
-/
namespace Sys2Proof.Machine

/-! ### The end of a long operation leaves the memory system -/

/-- Waking the LONG_ commands that wait for an operation completes and charges them, and no more. -/
theorem Dev.wakeLong_cases (d : Dev) (k : Nat) :
    ∃ o h u c, d.wakeLong k = { d.modLong k (fun l => { l with waiters := [] }) with opens := o, hif := h, out := u, sch := c } := by
  have each (l : List Nat) (v : Nat) : ∀ d : Dev, ∃ o h u c, l.foldl (fun d uid => match d.openOf uid with
      | some o => (d.charge o 0).complete uid Config.ok v
      | none => d) d = { d with opens := o, hif := h, out := u, sch := c } := by
    induction l with
    | nil => exact fun d => ⟨d.opens, d.hif, d.out, d.sch, rfl⟩
    | cons uid t ih =>
      intro d
      rw [List.foldl_cons]
      split
      · rename_i x _
        obtain ⟨o, h, u, e⟩ := (d.charge x 0).complete_cases uid Config.ok v 0
        obtain ⟨o', h', u', c, e'⟩ := ih ((d.charge x 0).complete uid Config.ok v)
        exact ⟨o', h', u', c, by rw [e', e]; rfl⟩
      · exact ih d
  exact each _ _ _

/-- An operation that ends leaves the memory system and the version table. -/
theorem Dev.endLong_keeps (d : Dev) (k error result : Nat) :
    (d.endLong k error result).blk = d.blk ∧ (d.endLong k error result).vers = d.vers := by
  unfold Dev.endLong
  dsimp only
  split
  · exact ⟨rfl, rfl⟩
  · split
    · obtain ⟨o, h, u, c, e⟩ := Dev.wakeLong_cases (d.modLong k _) k
      rw [e]; exact ⟨rfl, rfl⟩
    · obtain ⟨o, h, u, c, e⟩ := Dev.wakeLong_cases ((d.modLong k _).post _ _ _ _ _ _ _) k
      rw [e, Dev.post_rest]; exact ⟨rfl, rfl⟩
theorem Dev.endLong_blk (d : Dev) (k error result : Nat) : (d.endLong k error result).blk = d.blk := (d.endLong_keeps k error result).1

/-! ### The end of a move (R178, R179) -/

/-- Steps that mark pages in the pool mark pages in the pool. -/
theorem foldl_pages {α : Type} {f : Dev → α → Dev} (h : ∀ d x, ∃ p, f d x = { d with blk := { d.blk with pages := p } }) (l : List α) (d : Dev) :
    ∃ p, l.foldl f d = { d with blk := { d.blk with pages := p } } := by
  induction l generalizing d with
  | nil => exact ⟨d.blk.pages, rfl⟩
  | cons x t ih =>
    obtain ⟨p, g⟩ := h d x
    rw [List.foldl_cons, g]; exact ih { d with blk := { d.blk with pages := p } }

/-- The end of a move marks pages alone: those that it gives back, and the homes. -/
theorem Dev.finishMove_cases (d : Dev) (m : Move) : ∃ p, d.finishMove m = { d with blk := { d.blk with pages := p } } := by
  refine foldl_pages (fun d p => ?_) m.pages d
  split
  · exact ⟨_, rfl⟩
  · dsimp only
    split <;> exact ⟨_, rfl⟩

/-- What ends with a move: its long operation, its resolution, or its command. -/
def Dev.moveEnded (d : Dev) (uid : Nat) (m : Move) : Dev := match m.long with
  | some k => d.endLong k 0 m.bytes
  | none => if m.resolution then d else d.complete uid Config.ok m.bytes

theorem Dev.moveEnded_long {d : Dev} {m : Move} {k : Nat} (h : m.long = some k) (uid : Nat) : d.moveEnded uid m = d.endLong k 0 m.bytes := by
  simp only [Dev.moveEnded, h]
theorem Dev.moveEnded_command {d : Dev} {m : Move} (h : m.long = none) (hr : m.resolution = false) (uid : Nat) :
    d.moveEnded uid m = d.complete uid Config.ok m.bytes := by
  simp [Dev.moveEnded, h, hr]
theorem Dev.moveEnded_blk (d : Dev) (uid : Nat) (m : Move) : (d.moveEnded uid m).blk = d.blk := by
  unfold Dev.moveEnded
  split
  · exact Dev.endLong_blk ..
  · split
    · rfl
    · obtain ⟨o, h, u, c⟩ := d.complete_cases uid Config.ok m.bytes 0
      rw [c]

theorem Dev.moveOf_dropMove (d : Dev) (uid : Nat) : (d.dropMove uid).moveOf uid = none := by
  simp [Dev.moveOf, Dev.dropMove]

/-! ### The rows -/

section
variable {d : Dev} {e : Env} {uid : Nat} {m : Move} (hm : d.moveOf uid = some m)
include hm

/-- The end of a move whose source is still read is put off; else the move is dropped. -/
theorem moveComplete_reading (h : d.readsSource m = true) : moveComplete e d uid = d := by
  simp [moveComplete, hm, h]
theorem moveComplete_done (hr : d.running = true) (hs : m.switched = true) (h : d.readsSource m = false) :
    moveComplete e d uid = ((d.finishMove m).dropMove uid).moveEnded uid m := by
  simp [moveComplete, hm, hr, hs, h]
  rfl

theorem moveChunk_chunk (hr : d.running = true) (hs : m.switched = false) (hw : m.waiting = false)
    (hl : ∀ k, m.long = some k → (d.long k).st ≠ .suspended) : moveChunk e d uid = chunkMove e d m := by
  have going : (m.long.map fun k => (d.long k).st).getD .running ≠ .suspended := by
    cases h : m.long with
    | none => simp
    | some k => exact hl k h
  simp [moveChunk, hm, hr, hs, hw, going]

end

/-! ### A chunk -/

section
variable {u : Fuses} {d : Dev} {k : Nat}

/-- A boundary applies a cancellation, then a suspension, and else lets the operation go on (R141). -/
theorem boundary_cancelling (h : (d.long k).st = .cancelling) : d.boundary u k = (false, d.cancelLong u k Config.cancelled) := if_pos h
theorem boundary_suspending (h : (d.long k).st ≠ .cancelling) (hs : (d.long k).suspendPending = true) :
    d.boundary u k = (false, (d.modLong k fun l => { l with st := .suspended, suspendPending := false }).wakeLong k) :=
  (if_neg h).trans (if_pos hs)
theorem boundary_free (h : (d.long k).st ≠ .cancelling) (hs : (d.long k).suspendPending = false) : d.boundary u k = (true, d) :=
  (if_neg h).trans (if_neg (ne_true_of_eq_false hs))

end

section
variable {d : Dev} {e : Env} {m : Move}

/-- A chunk that is not served waits; one without pages asks again; one that has come is copied, and the boundary after it decides. -/
theorem chunkMove_unserved (h : d.asks m.who = true) : chunkMove e d m = d := if_pos h

variable (ha : d.asks m.who = false)
include ha

theorem chunkMove_unplaced (hp : ∃ p ∈ m.chunk, p.dst = none) (hl : ∀ k, m.long = some k → (d.long k).st ≠ .cancelling) :
    chunkMove e d m = d.askChunk e m := by
  obtain ⟨p, mem, dst⟩ := hp
  have lacks : (m.chunk.any fun p => p.dst.isNone) = true := List.any_eq_true.2 ⟨p, mem, by rw [dst]; rfl⟩
  unfold chunkMove
  rw [ha, if_neg Bool.false_ne_true, lacks, if_pos rfl]
  split
  · rename_i k hk
    exact if_neg (hl k hk)
  · rfl

variable (hp : ∀ p ∈ m.chunk, p.dst ≠ none)
include hp

theorem chunkMove_short (hl : m.long = none) : chunkMove e d m = afterChunk e ((d.copyChunk m).setMove m.nextChunk) m.nextChunk := by
  have placed : (m.chunk.any fun p => p.dst.isNone) = false := by simpa using hp
  simp [chunkMove, ha, placed, hl]

/-- The chunk of a long move counts before its boundary. -/
theorem chunkMove_stops {k : Nat} {v : Dev} (hl : m.long = some k)
    (hb : (((d.copyChunk m).setMove m.nextChunk).modLong k fun l => { l with chunks := l.chunks + 1 }).boundary e.fuse k = (false, v)) :
    chunkMove e d m = v := by
  have placed : (m.chunk.any fun p => p.dst.isNone) = false := by simpa using hp
  simp [chunkMove, ha, placed, hl, hb]
theorem chunkMove_goes {k : Nat} {v : Dev} (hl : m.long = some k)
    (hb : (((d.copyChunk m).setMove m.nextChunk).modLong k fun l => { l with chunks := l.chunks + 1 }).boundary e.fuse k = (true, v)) :
    chunkMove e d m = afterChunk e v m.nextChunk := by
  have placed : (m.chunk.any fun p => p.dst.isNone) = false := by simpa using hp
  simp [chunkMove, ha, placed, hl, hb]

end

/-- After the last page comes the switch, before it the next chunk. -/
theorem afterChunk_last {e : Env} {d : Dev} {m : Move} (h : m.pages.length ≤ m.copied) : afterChunk e d m = d.switchNow e.fuse m := if_pos h
theorem afterChunk_next {e : Env} {d : Dev} {m : Move} (h : m.copied < m.pages.length) : afterChunk e d m = d.askChunk e m := if_neg (Nat.not_le.2 h)

/-- A row of a move acts on the package alone. -/
theorem exec_moveChunk {uid : Nat} {s : State} {d : Dev} (h : moveChunk s.env s.dev uid = d) : exec (.moveChunk uid) s = .next { s with dev := d } := by
  rw [← h]; rfl
theorem exec_moveComplete {uid : Nat} {s : State} {d : Dev} (h : moveComplete s.env s.dev uid = d) :
    exec (.moveComplete uid) s = .next { s with dev := d } := by
  rw [← h]; rfl

/-- Settles O24: a chunk of a move and its boundary, and the end of a move, as the lemmas above say. -/
theorem moveAdvances : Obligations.MoveAdvances := by
  intro uid m s hr hm
  refine ⟨fun hs hw hl => ?_, fun _ h => exec_moveComplete (moveComplete_reading hm h), fun hs h => ?_⟩
  · have row {d : Dev} (h : chunkMove s.env s.dev m = d) : exec (.moveChunk uid) s = .next { s with dev := d } :=
      exec_moveChunk ((moveChunk_chunk hm hr hs hw hl).trans h)
    refine ⟨fun ha => row (chunkMove_unserved ha), fun ha hp hc => row (chunkMove_unplaced ha hp hc), fun ha hp => ⟨fun hk hn => ?_, fun hk hn => ?_, fun k hk => ?_⟩⟩
    · exact row ((chunkMove_short ha hp hk).trans (afterChunk_next hn))
    · exact row ((chunkMove_short ha hp hk).trans (afterChunk_last hn))
    · refine ⟨fun hc => ?_, fun hc hb => ?_, fun hc hb hn => ?_, fun hc hb hn => ?_⟩
      · exact row (chunkMove_stops ha hp hk (boundary_cancelling hc))
      · exact row (chunkMove_stops ha hp hk (boundary_suspending hc hb))
      · exact row ((chunkMove_goes ha hp hk (boundary_free hc hb)).trans (afterChunk_next hn))
      · exact row ((chunkMove_goes ha hp hk (boundary_free hc hb)).trans (afterChunk_last hn))
  · obtain ⟨p, hp⟩ := s.dev.finishMove_cases m
    have blk := ((s.dev.finishMove m).dropMove uid).moveEnded_blk uid m
    refine ⟨_, exec_moveComplete (moveComplete_done hm hr hs h), ?_, ?_, fun k hk => Dev.moveEnded_long hk uid, fun hk hq => Dev.moveEnded_command hk hq uid⟩
    · rw [Dev.moveOf, blk]
      exact Dev.moveOf_dropMove (s.dev.finishMove m) uid
    · rw [blk, Dev.dropMove, hp]

end Sys2Proof.Machine
end

section
/-!
PROOFS. The segments of an OBJ_LOAD (R141, R188, R249, R250), and the teardown and the end of a retirement (R254).
-/
namespace Sys2Proof.Machine

/-! ### Segments -/

/-- A write of a home touches the bulk tier and its poison alone. -/
theorem Dev.writeHome_cases (v : Version) (n at_ : Nat) (l : List Byte) (d : Dev) :
    ∃ m p, Dev.writeHome v n at_ l d = { d with blk := { d.blk with dram := m, poison := p } } := by
  induction n generalizing at_ l d with
  | zero => exact ⟨d.blk.dram, d.blk.poison, rfl⟩
  | succ n ih =>
    obtain ⟨m, p, h⟩ := ih (at_ + blockBytes) (l.drop blockBytes)
      ((d.writePa (v.objectByte at_) (l.take blockBytes)).unpoison (v.objectByte at_) (l.take blockBytes).length)
    exact ⟨m, p, h⟩

section
variable {e : Env} {d : Dev} {k n seg : Nat} {data : List Byte}

/-- The package with a segment written at its place of the home, and counted. -/
def Dev.ingested (d : Dev) (k n seg : Nat) (data : List Byte) : Dev :=
  (Dev.writeHome (d.ver n) ((d.ver n).segLen seg / blockBytes) ((d.ver n).headLen + unitBytes * seg) data d).modLong k fun l =>
    { l with kind := .objLoad n (seg + 1), chunks := l.chunks + 1, bytes := l.bytes + data.length }

theorem Dev.ingested_st : ((d.ingested k n seg data).long k).st = (d.long k).st := by
  obtain ⟨m, p, h⟩ := Dev.writeHome_cases (d.ver n) ((d.ver n).segLen seg / blockBytes) ((d.ver n).headLen + unitBytes * seg) data d
  unfold Dev.ingested
  rw [h, Dev.modLong, Dev.long_setLong]
  rfl

variable (hn : seg < (d.ver n).segs.length)
include hn

/-- A home on a failed channel keeps the load waiting, from the first time on (R188). -/
theorem ingest_stalled {pa : Nat} (hd : d.deadIn e.fuse ((d.ver n).segBlocks seg) = some pa) :
    ingest e d k n seg data = d.modLong k fun l => { l with stall := some (l.stall.getD (pa, e.now)) } := by
  have first : (fun l : LongOp => { l with stall := l.stall.orElse fun _ => some (pa, e.now) }) =
      fun l => { l with stall := some (l.stall.getD (pa, e.now)) } := by
    funext l
    cases l.stall <;> rfl
  unfold ingest
  dsimp only
  rw [if_neg (Nat.not_le.2 hn), hd]
  exact congrArg (d.modLong k) first

variable (hd : d.deadIn e.fuse ((d.ver n).segBlocks seg) = none)
include hd

/-- A segment of another hash ends the load (R249). -/
theorem ingest_refused (hh : ((d.ver n).segs[seg]?).map (·.hash) ≠ some (sha256 data)) :
    ingest e d k n seg data = d.cancelLong e.fuse k Config.signature 16 := by
  unfold ingest
  dsimp only
  rw [if_neg (Nat.not_le.2 hn), hd]
  exact if_pos hh

variable (hh : ((d.ver n).segs[seg]?).map (·.hash) = some (sha256 data))
include hh

/-- The last segment of a load that goes on makes the version ACTIVE; a boundary follows any other (R250). -/
theorem ingest_last (hl : seg + 1 = (d.ver n).segs.length) (hs : (d.long k).st = .running) :
    ingest e d k n seg data =
      ((d.ingested k n seg data).modVer n fun v => { v with st := .active }).endLong k 0 (verHandle n (d.ver n)) := by
  have last : (decide ((d.ver n).segs.length ≤ seg + 1) && decide (((d.ingested k n seg data).long k).st ≠ .cancelling)) = true := by
    simp [hl.ge, Dev.ingested_st, hs]
  unfold ingest
  dsimp only
  rw [if_neg (Nat.not_le.2 hn), hd]
  exact (if_neg (not_not.2 hh)).trans (if_pos last)

theorem ingest_boundary (h : seg + 1 < (d.ver n).segs.length ∨ (d.long k).st = .cancelling) :
    ingest e d k n seg data = ((d.ingested k n seg data).boundary e.fuse k).2 := by
  have goes : (decide ((d.ver n).segs.length ≤ seg + 1) && decide (((d.ingested k n seg data).long k).st ≠ .cancelling)) ≠ true := by
    rw [Dev.ingested_st]
    rcases h with h | h <;> simp [h]
  unfold ingest
  dsimp only
  rw [if_neg (Nat.not_le.2 hn), hd]
  exact (if_neg (not_not.2 hh)).trans (if_neg goes)

end

/-- The row of a segment, of a load that runs or is being cancelled, and of a slot that holds none. -/
theorem exec_objLoadSegment {s : State} {k n seg : Nat} {data : List Byte} {d : Dev} (hr : s.dev.running = true) (hu : (s.dev.long k).used = true)
    (hs : (s.dev.long k).st = .running ∨ (s.dev.long k).st = .cancelling) (hk : (s.dev.long k).kind = .objLoad n seg)
    (h : ingest s.env s.dev k n seg data = d) : exec (.objLoadSegment k data) s = .next { s with dev := d } := by
  change execObjLoadSegment k data s = _
  have loads : (s.dev.running && (s.dev.long k).used && (decide ((s.dev.long k).st = .running) || decide ((s.dev.long k).st = .cancelling))) = true := by
    simpa [hr, hu] using hs
  simp only [execObjLoadSegment, onDev, State.onDev, loads, hk, if_true, h]
theorem exec_objLoadSegment_none {s : State} {k : Nat} {data : List Byte} (h : (s.dev.long k).used = false ∨
    ((s.dev.long k).st ≠ .running ∧ (s.dev.long k).st ≠ .cancelling) ∨ ∀ n seg, (s.dev.long k).kind ≠ .objLoad n seg) :
    exec (.objLoadSegment k data) s = .next s := by
  refine congrArg Host.Outcome.next (onDev_same ?_)
  dsimp only
  split
  · rename_i loads
    simp only [Bool.and_eq_true, Bool.or_eq_true, decide_eq_true_eq] at loads
    obtain ⟨⟨-, used⟩, st⟩ := loads
    split
    · rename_i n seg kind
      rcases h with h | ⟨h, h'⟩ | h
      · simp [h] at used
      · exact absurd st (by simp [h, h'])
      · exact absurd kind (h n seg)
    · rfl
  · rfl

/-! ### The teardown of a retirement (R254) -/

/-- The sealed leaves of the units of a die change no more than the sealed leaves. -/
theorem foldl_setSealed (die a : Nat) (l : List Nat) (d : Dev) :
    ∃ t, l.foldl (fun d i => d.setSealed die (a + i) 0#64) d = { d with blk := { d.blk with sealedLeaf := t } } := by
  induction l generalizing d with
  | nil => exact ⟨d.blk.sealedLeaf, rfl⟩
  | cons i l ih =>
    obtain ⟨t, h⟩ := ih (d.setSealed die (a + i) 0#64)
    exact ⟨t, h⟩

theorem Tab.erase_absent {α : Type} {k : Nat} {t : Tab α} (h : t.find? (fun x => x.1 = k) = none) : Tab.erase k t = t := by
  refine List.filter_eq_self.2 fun x hx => ?_
  simpa using List.find?_eq_none.1 h x hx

/-- An image taken off a die leaves the table of the version's images, and goes to those that wait for commands. -/
theorem Dev.evict_cases (d : Dev) (n die : Nat) (uids : List Nat) :
    ∃ b l g, d.evict n die uids = { d with blk := b, vers := l } ∧
      (d.evict n die uids).ver n = { d.ver n with images := Tab.erase die (d.ver n).images, evicted := g } := by
  unfold Dev.evict
  dsimp only
  split
  · rename_i h
    rw [Version.imageOn, Option.map_eq_none_iff] at h
    exact ⟨d.blk, d.vers, (d.ver n).evicted, rfl, by rw [Tab.erase_absent h]⟩
  · obtain ⟨t, h⟩ := foldl_setSealed die (d.ver n).region (List.range (d.ver n).units) d
    rw [h]
    exact ⟨_, _, _, rfl, Dev.ver_setVer _ n _⟩

/-- The version with its images off each of a list of dies. -/
theorem foldl_evict (n : Nat) (uids l : List Nat) (d : Dev) :
    ∃ b x g, l.foldl (fun d die => d.evict n die uids) d = { d with blk := b, vers := x } ∧
      (l.foldl (fun d die => d.evict n die uids) d).ver n =
        { d.ver n with images := l.foldl (fun t die => Tab.erase die t) (d.ver n).images, evicted := g } := by
  induction l generalizing d with
  | nil => exact ⟨d.blk, d.vers, (d.ver n).evicted, rfl, rfl⟩
  | cons die l ih =>
    obtain ⟨b, x, g, rest, ver⟩ := d.evict_cases n die uids
    obtain ⟨b', x', g', rest', ver'⟩ := ih (d.evict n die uids)
    refine ⟨b', x', g', ?_, ?_⟩
    · rw [List.foldl_cons, rest', rest]
    · rw [List.foldl_cons, ver', ver]; rfl

theorem Tab.mem_foldl_erase {α : Type} {y : Nat × α} (l : List Nat) (t : Tab α) :
    y ∈ l.foldl (fun t k => Tab.erase k t) t ↔ y ∈ t ∧ y.1 ∉ l := by
  induction l generalizing t with
  | nil => simp
  | cons k l ih =>
    rw [List.foldl_cons, ih, Tab.erase, List.mem_filter]
    simp [and_assoc]

/-- What a teardown leaves: the version waits for the commands that then ran, with no image on any die. -/
theorem teardown_torn (d : Dev) (n : Nat) :
    ((teardown d n).ver n).torn = some (d.opens.map (·.uid)) ∧ ((teardown d n).ver n).st = (d.ver n).st ∧
    (∀ x, x < 4 → ((teardown d n).ver n).imageOn x = none) ∧
    (teardown d n).opens = d.opens ∧ (teardown d n).out = d.out ∧ (teardown d n).longs = d.longs := by
  obtain ⟨b, l, g, rest, ver⟩ := foldl_evict n (d.opens.map (·.uid)) (List.range 4) d
  have torn : (teardown d n).ver n = { d.ver n with
      images := (List.range 4).foldl (fun t die => Tab.erase die t) (d.ver n).images, evicted := g, torn := some (d.opens.map (·.uid)) } := by
    refine (Dev.ver_setVer _ n _).trans ?_
    rw [ver]
  rw [torn]
  refine ⟨rfl, rfl, fun x hx => ?_, ?_⟩
  · refine Option.map_eq_none_iff.2 (List.find?_eq_none.2 fun y hy => ?_)
    have gone := ((Tab.mem_foldl_erase _ _).1 hy).2
    simp only [List.mem_range] at gone
    simp only [decide_eq_true_eq]
    omega
  · unfold teardown
    dsimp only
    rw [rest]
    exact ⟨rfl, rfl, rfl⟩

section
variable {s : State} {n : Nat}

theorem exec_retireTeardown_referred (h : s.dev.refs n ≠ 0) : exec (.retireTeardown n) s = .next s := by
  refine congrArg Host.Outcome.next (onDev_same ?_)
  simp [h]
theorem exec_retireTeardown (hr : s.dev.running = true) (hs : (s.dev.ver n).st = .retiring)
    (hl : (s.dev.retirementOf n).all (fun x => x.2.st = .running) = true) (ht : (s.dev.ver n).torn = none) (h : s.dev.refs n = 0) :
    exec (.retireTeardown n) s = .next { s with dev := teardown s.dev n } := by
  change execRetireTeardown n s = _
  simp only [execRetireTeardown, onDev, State.onDev, hr, hs, hl, ht, h, decide_true, Option.isNone_none, Bool.and_self, if_true]

end

/-! ### The end of a retirement (R254) -/

/-- A package whose pages may have become FREE: no more than the pool, the sealed leaves and the translations differ, and what was FREE is. -/
def Dev.Frees (d d' : Dev) : Prop :=
  (∃ p t u, d' = { d with blk := { d.blk with pages := p, tlb := t, sealedLeaf := u } }) ∧ ∀ q, d.pageState q = .free → d'.pageState q = .free

theorem Dev.Frees.refl (d : Dev) : d.Frees d := ⟨⟨d.blk.pages, d.blk.tlb, d.blk.sealedLeaf, rfl⟩, fun _ h => h⟩
theorem Dev.Frees.trans {a b c : Dev} (h : a.Frees b) (g : b.Frees c) : a.Frees c := by
  obtain ⟨⟨p, t, u, rfl⟩, hf⟩ := h
  obtain ⟨⟨p', t', u', rfl⟩, gf⟩ := g
  exact ⟨⟨p', t', u', rfl⟩, fun q hq => gf q (hf q hq)⟩
theorem Dev.Frees.foldl {α : Type} {f : Dev → α → Dev} (h : ∀ (d : Dev) x, d.Frees (f d x)) (l : List α) (d : Dev) : d.Frees (l.foldl f d) := by
  induction l generalizing d with
  | nil => exact .refl d
  | cons x l ih => exact Dev.Frees.trans (h d x) (ih (f d x))

theorem Dev.pageState_congr {d d' : Dev} (h : d'.blk = d.blk) (q : Nat) : d'.pageState q = d.pageState q := by
  change ({ d with blk := d'.blk } : Dev).pageState q = _
  rw [h]
theorem Dev.pageState_setPage (d : Dev) (p q : Nat) (st : PageSt) : (d.setPage p st).pageState q = if q = p then st else d.pageState q := by
  change Tab.get (d.pageDefault q) q (if st = d.pageDefault p then Tab.erase p d.blk.pages else Tab.put p st d.blk.pages) = _
  by_cases hq : q = p
  · subst hq
    by_cases hs : st = d.pageDefault q
    · rw [if_pos hs, if_pos rfl, Tab.get_erase_same, hs]
    · rw [if_neg hs, if_pos rfl, Tab.get_put_same]
  · rw [if_neg hq]
    by_cases hs : st = d.pageDefault p
    · rw [if_pos hs]; exact Tab.get_erase_other _ hq _
    · rw [if_neg hs]; exact Tab.get_put_other _ hq _ _

theorem Dev.frees_setPage (d : Dev) (p : Nat) : d.Frees (d.setPage p .free) := by
  refine ⟨⟨_, d.blk.tlb, d.blk.sealedLeaf, rfl⟩, fun q hq => ?_⟩
  rw [Dev.pageState_setPage, hq, ite_self]
theorem Dev.frees_setPages (l : List Nat) (d : Dev) : d.Frees (d.setPages l .free) := Dev.Frees.foldl (fun d p => Dev.frees_setPage d p) l d
theorem Dev.frees_setSealed (d : Dev) (die unit : Nat) (v : Quad) : d.Frees (d.setSealed die unit v) :=
  ⟨⟨d.blk.pages, d.blk.tlb, _, rfl⟩, fun _ h => h⟩
theorem Dev.frees_dropSealed (d : Dev) (die first n : Nat) : d.Frees (d.dropSealed die first n) :=
  ⟨⟨d.blk.pages, _, d.blk.sealedLeaf, rfl⟩, fun _ h => h⟩

/-- The pages that become FREE are FREE after it. -/
theorem Dev.setPages_free {l : List Nat} {p : Nat} (h : p ∈ l) (d : Dev) : (d.setPages l .free).pageState p = .free := by
  induction l generalizing d with
  | nil => cases h
  | cons q l ih =>
    rcases List.mem_cons.1 h with rfl | h
    · exact (Dev.frees_setPages l (d.setPage p .free)).2 p (by rw [Dev.pageState_setPage, if_pos rfl])
    · exact ih h (d.setPage q .free)

/-- An entry that becomes FREE keeps its GEN + 1 alone, and gives back its home. -/
theorem Dev.freeVersion_cases (d : Dev) (n : Nat) :
    ∃ d', (d.setPages (d.ver n).pages .free).Frees d' ∧ d.freeVersion n = d'.setVer n { gen := (d.ver n).gen + 1 } := by
  refine ⟨_, ?_, rfl⟩
  refine .trans (.trans (.foldl (fun d x => ?_) _ _) (.foldl (fun d x => ?_) _ _)) (.foldl (fun d x => Dev.frees_dropSealed d ..) _ _)
  · exact .foldl (fun d p => .trans (Dev.frees_setSealed d ..) (Dev.frees_setPages ..)) _ d
  · exact .foldl (fun d g => Dev.frees_setPages ..) _ d

theorem Dev.freeVersion_ver (d : Dev) (n : Nat) : (d.freeVersion n).ver n = { gen := (d.ver n).gen + 1 } := by
  obtain ⟨d', -, h⟩ := d.freeVersion_cases n
  rw [h, Dev.ver_setVer]
theorem Dev.freeVersion_pages (d : Dev) (n : Nat) : ∀ p ∈ (d.ver n).pages, (d.freeVersion n).pageState p = .free := by
  obtain ⟨d', frees, h⟩ := d.freeVersion_cases n
  intro p hp
  rw [h]
  exact frees.2 p (Dev.setPages_free hp d)
theorem Dev.freeVersion_long (d : Dev) (n k : Nat) : (d.freeVersion n).long k = d.long k := by
  obtain ⟨d', ⟨⟨p, t, u, frees⟩, -⟩, h⟩ := d.freeVersion_cases n
  obtain ⟨g, pages⟩ := Dev.setPages_rest (d.ver n).pages .free d
  rw [h, frees, pages]
  rfl

/-- What is left of an operation that ends well. -/
theorem Dev.endLong_done {d : Dev} {k : Nat} (ht : (d.long k).st.terminal = false) (hc : (d.long k).st ≠ .cancelling) (result : Nat) :
    (d.endLong k 0 result).long k = { d.long k with st := .done, error := 0#8, suspendPending := false, waiters := [] } := by
  unfold Dev.endLong
  dsimp only
  rw [if_neg hc, if_neg hc, if_pos rfl, if_neg (ne_true_of_eq_false ht)]
  split
  · obtain ⟨o, h, u, c, e⟩ := Dev.wakeLong_cases (d.modLong k _) k
    rw [e]
    refine (Dev.long_setLong _ k _).trans ?_
    rw [Dev.modLong, Dev.long_setLong]
  · obtain ⟨o, h, u, c, e⟩ := Dev.wakeLong_cases ((d.modLong k _).post _ _ _ _ _ _ _) k
    rw [e]
    refine (Dev.long_setLong _ k _).trans ?_
    rw [Dev.post_rest]
    exact congrArg (fun l : LongOp => { l with waiters := [] }) (Dev.long_setLong d k _)

/-- The package after the end of a retirement. -/
def Dev.retired (d : Dev) (n : Nat) : Dev := match d.retirementOf n with
  | some (k, _) => (d.freeVersion n).endLong k 0 0
  | none => d.freeVersion n

theorem Dev.retired_keeps (d : Dev) (n : Nat) : (d.retired n).blk = (d.freeVersion n).blk ∧ (d.retired n).vers = (d.freeVersion n).vers := by
  unfold Dev.retired
  split
  · exact Dev.endLong_keeps ..
  · exact ⟨rfl, rfl⟩
theorem Dev.retired_ver (d : Dev) (n : Nat) : (d.retired n).ver n = { gen := (d.ver n).gen + 1 } := by
  rw [Dev.ver, (d.retired_keeps n).2]
  exact d.freeVersion_ver n
theorem Dev.retired_pages (d : Dev) (n : Nat) : ∀ p ∈ (d.ver n).pages, (d.retired n).pageState p = .free := by
  intro p hp
  rw [← d.freeVersion_pages n p hp]
  exact Dev.pageState_congr (d.retired_keeps n).1 p
theorem Dev.retired_long {d : Dev} {n k : Nat} {l : LongOp} (h : d.retirementOf n = some (k, l)) (hl : d.long k = l) (hc : l.st ≠ .cancelling) :
    (d.retired n).long k = { d.long k with st := .done, error := 0#8, suspendPending := false, waiters := [] } := by
  obtain ⟨-, open_, -⟩ : l.used = true ∧ l.st.terminal = false ∧ l.kind = .objRetire n := by
    simpa [and_assoc] using List.find?_some h
  have same := d.freeVersion_long n k
  simp only [Dev.retired, h]
  rw [Dev.endLong_done (by rw [same, hl]; exact open_) (by rwa [same, hl]), same]

section
variable {s : State} {n : Nat} {uids : List Nat} (ht : (s.dev.ver n).torn = some uids)
include ht

theorem exec_retirePagesFree_waits (h : ∃ u ∈ uids, (s.dev.openOf u).isSome = true) : exec (.retirePagesFree n) s = .next s := by
  refine congrArg Host.Outcome.next (onDev_same ?_)
  have live : (uids.any fun x => (s.dev.openOf x).isSome) = true := List.any_eq_true.2 h
  simp [ht, live]
theorem exec_retirePagesFree (hr : s.dev.running = true) (h : ∀ u ∈ uids, s.dev.openOf u = none) :
    exec (.retirePagesFree n) s = .next { s with dev := s.dev.retired n } := by
  change execRetirePagesFree n s = _
  have ended : (uids.any fun x => (s.dev.openOf x).isSome) = false := List.any_eq_false.2 fun u hu => by rw [h u hu]; exact Bool.false_ne_true
  simp only [execRetirePagesFree, onDev, State.onDev, ht, hr, ended, Bool.not_false, Bool.and_self, if_true]
  rfl

end

/-- Settles O26: the row of a segment, of a teardown and of the end of a retirement, as the lemmas above say. -/
theorem objectsMove : Obligations.ObjectsMove := by
  intro k n seg data s hr
  refine ⟨fun pa hu hs hk hn hd => exec_objLoadSegment hr hu hs hk (ingest_stalled hn hd), fun hu hs hk hn hd hh => ?_, exec_objLoadSegment_none,
    fun hu hs hk hn hd hh => exec_objLoadSegment hr hu hs hk (ingest_refused hn hd hh), fun hu hs hk hn hd hh => ⟨fun hl => ?_, fun hl => ?_⟩,
    fun hs hl ht => ⟨exec_retireTeardown_referred, fun h => ?_⟩, fun uids ht => ⟨exec_retirePagesFree_waits ht, fun h => ?_⟩⟩
  · refine exec_objLoadSegment hr hu (.inr hs) hk ((ingest_boundary hn hd hh (.inr hs)).trans ?_)
    exact congrArg Prod.snd (boundary_cancelling (Dev.ingested_st.trans hs))
  · exact exec_objLoadSegment hr hu (.inl hs) hk (ingest_last hn hd hh hl hs)
  · exact exec_objLoadSegment hr hu (.inl hs) hk (ingest_boundary hn hd hh (.inl hl))
  · obtain ⟨torn, st, images, rest⟩ := teardown_torn s.dev n
    exact ⟨_, exec_retireTeardown hr hs hl ht h, torn, st.trans hs, images, rest⟩
  · exact ⟨_, exec_retirePagesFree ht hr h, s.dev.retired_ver n, s.dev.retired_pages n, fun j l hj hl hc => Dev.retired_long hj hl hc⟩

end Sys2Proof.Machine
end

section
/-!
PROOFS. DISPENSE_SET (R145, R151): the programmed values of a dispenser are no part of the queues, so they are written before the command opens or after.
-/
namespace Sys2Proof.Machine

/-- A dispenser with the START and LIMIT of a DISPENSE_SET; NEXT and LIMIT in force, EXHAUSTED and the owner stay. -/
def Disp.programmed (v : Disp) (c : Command) : Disp :=
  { v with pStart := BitVec.ofNat 32 (dispStart c), pLimit := BitVec.ofNat 32 (dispLimit c), set := true }

/-- The package once a DISPENSE_SET has written its dispenser. -/
def Dev.programDisp (d : Dev) (c : Command) : Dev :=
  d.setDisp (dispCluster c) (dispNumber c) ((d.disp (dispCluster c) (dispNumber c)).programmed c)

/-- An opened DISPENSE_SET completes over the package in which its dispenser was programmed before the command was opened. -/
theorem runDispenseSet_openHead (d : Dev) (e : Env) (f q : Nat) (x : Fetched) (owner : Bool) :
    runDispenseSet e (d.openHead e f q x owner).2 (d.openHead e f q x owner).1 =
      ((d.programDisp x.cmd).openHead e f q x owner).2.complete (d.programDisp x.cmd).freshUid Config.ok 0 := rfl

/-- A DISPENSE_SET at the head of its queue changes its dispenser's programmed values and completes. -/
theorem runDispenseSet_completed {d : Dev} (e : Env) {f q : Nat} {x : Fetched} (owner : Bool) (hx : d.headOf f q x.cmd = some x) :
    Completed (d.programDisp x.cmd) (runDispenseSet e (d.openHead e f q x owner).2 (d.openHead e f q x owner).1) f q x Config.ok 0 := by
  have live : (d.programDisp x.cmd).funcResetting f = false := Dev.headOf_live hx
  rw [runDispenseSet_openHead]
  exact (d.programDisp x.cmd).completed_of_open e f q x owner Config.ok 0 live

/-- Settles O14: a DISPENSE_SET takes no group and waits for no executor, so its row is the opened command's own work. -/
theorem dispenserProgrammed : Obligations.DispenserProgrammed := by
  intro f q c s x hx ho hc
  obtain ⟨-, -, rfl⟩ := Dev.headOf_spec hx
  have op : cmdOpcode x.cmd = opDispenseSet := of_decide_eq_true ho
  have noGroup : opTakesGroup (cmdOpcode x.cmd) = false := by rw [op]; rfl
  exact ⟨_, exec_run (i := .dispenseSet f q x.cmd) rfl ho rfl rfl hx hc Dev.checks_reserved noGroup rfl,
    runDispenseSet_completed s.env false hx⟩

end Sys2Proof.Machine
end

section
/-!
PROOFS. The invalidation of translations (R176, R199; log entry 39) and the lock of the pools (R167, R197; log entry 11).
-/
namespace Sys2Proof.Machine

/-! ### Writes of the host -/

/-- BLK_TLB_INV written by the host. -/
theorem exec_tlbInv_open {s : State} (h : s.dev.hostOpen = true) (value : Quad) :
    exec (.tlbInv value) s = .next { s with dev := s.dev.tlbInvalidate value.toNat } := by
  change Host.Outcome.next (s.hostWrite 0 0x300020 true value.toNat) = _
  rw [hostWrite_open h 0 0x300020 _ (by decide) (.inl rfl), writeReg_dev _ _ _ _ _ (by decide) (by simp [startsReset])]
  rfl

/-- BLK_POOL_LOCK written by the host. -/
theorem exec_poolLock_open {s : State} (h : s.dev.hostOpen = true) (value : Quad) :
    exec (.poolLock value) s = .next { s with dev := s.dev.lockPools s.fuse value.toNat } := by
  change Host.Outcome.next (s.hostWrite 0 0x300030 true value.toNat) = _
  rw [hostWrite_open h 0 0x300030 _ (by decide) (.inl rfl), writeReg_dev _ _ _ _ _ (by decide) (by simp [startsReset])]
  rfl

section
variable {d : Dev} {v : Nat}

theorem Dev.tlbInvalidate_busy (h : d.blk.tlbBusy = true) : d.tlbInvalidate v = d := if_pos h
theorem Dev.tlbInvalidate_dead (h : d.blk.tlbBusy = false) (ha : (badAsid (bitsAt v 0 16) || d.deadAsid (bitsAt v 0 16)) = true) :
    d.tlbInvalidate v = { d with blk := { d.blk with tlbError := true } } :=
  (if_neg (ne_true_of_eq_false h)).trans (if_pos ha)
theorem Dev.tlbInvalidate_live (h : d.blk.tlbBusy = false) (ha : (badAsid (bitsAt v 0 16) || d.deadAsid (bitsAt v 0 16)) = false) :
    d.tlbInvalidate v = { d with blk := { d.blk with
      tlbBusy := true, tlbError := false, tlbJob := some (bitsAt v 0 16, bitsAt d.blk.tlbInvVa.toNat 16 36, bitsAt v 16 32) } } :=
  (if_neg (ne_true_of_eq_false h)).trans (if_neg (ne_true_of_eq_false ha))

variable {u : Fuses}

theorem Dev.lockPools_kept (h : d.blk.locked = true ∨ bitAt v 0 = false) : d.lockPools u v = d := if_pos (by rcases h with h | h <;> simp [h])
theorem Dev.lockPools_locks (h : d.blk.locked = false) (hv : bitAt v 0 = true) (ok : d.poolsOk u = true) :
    d.lockPools u v = { d with blk := { d.blk with
      locked := true, invalid := false, pages := [], reserve := (List.range u.dies).flatMap d.reserveOf } } :=
  (if_neg (by simp [h, hv])).trans (if_pos ok)
theorem Dev.lockPools_invalid (h : d.blk.locked = false) (hv : bitAt v 0 = true) (ok : d.poolsOk u = false) :
    d.lockPools u v = { d with blk := { d.blk with invalid := true } } :=
  (if_neg (by simp [h, hv])).trans (if_neg (ne_true_of_eq_false ok))

end

/-! ### The end of an invalidation -/

/-- The first page and the number of pages that an invalidation covers: with a count of 0, the whole address space (R199). -/
def invFirst (first n : Nat) : Nat := if n = 0 then 0 else first
def invCount (n : Nat) : Nat := if n = 0 then 2 ^ 36 else n

/-- The package once an invalidation has dropped its translations. -/
def Dev.invalidated (d : Dev) (asid first n : Nat) : Dev :=
  { d.dropTlb asid first n with blk := { (d.dropTlb asid first n).blk with tlbBusy := false, tlbJob := none } }

section
variable {s : State}

theorem exec_tlbInvDone_idle (h : s.dev.blk.tlbJob = none) : exec .tlbInvDone s = .next s :=
  congrArg Host.Outcome.next (onDev_same (by simp only [h]))

variable {asid first n : Nat} (hj : s.dev.blk.tlbJob = some (asid, first, n))
include hj

theorem exec_tlbInvDone : exec .tlbInvDone s = .next (s.onDev fun _ d =>
    if !d.running || d.usesPages asid (invFirst first n) (invCount n) then d else d.invalidated asid (invFirst first n) (invCount n)) := by
  change execTlbInvDone s = _
  simp only [execTlbInvDone, onDev, State.onDev, hj]
  rfl

/-- An invalidation waits for the transfers that use a page of it. -/
theorem exec_tlbInvDone_used (h : s.dev.usesPages asid (invFirst first n) (invCount n) = true) : exec .tlbInvDone s = .next s :=
  (exec_tlbInvDone hj).trans (congrArg Host.Outcome.next (onDev_same (if_pos (by rw [h, Bool.or_true]))))
theorem exec_tlbInvDone_unused (hr : s.dev.running = true) (h : s.dev.usesPages asid (invFirst first n) (invCount n) = false) :
    exec .tlbInvDone s = .next { s with dev := s.dev.invalidated asid (invFirst first n) (invCount n) } := by
  rw [exec_tlbInvDone hj, State.onDev, if_neg (by simp [hr, h])]

end

/-- No translation of an address space is left below the end of the pages that an invalidation of all of it covers. -/
theorem Dev.invalidated_all {d : Dev} {asid n : Nat} {x : TlbEntry} (hx : x ∈ (d.invalidated asid 0 n).blk.tlb) (ha : x.asid = asid) : n ≤ x.vpage := by
  have kept : (x.asid ≠ asid ∨ x.vpage < 0) ∨ 0 + n ≤ x.vpage := by simpa using (List.mem_filter.1 hx).2
  rcases kept with (other | below) | past
  · exact absurd ha other
  · exact absurd below (Nat.not_lt_zero _)
  · simpa using past

/-- Settles O31: the two writes act as their registers do, and the invalidation ends with the transfers that use its pages. -/
theorem invalidateAndLock : Obligations.InvalidateAndLock := by
  intro v s ho
  refine ⟨fun h => ?_, fun h ha => ?_, fun h ha => ?_, exec_tlbInvDone_idle, fun as first n hj hr hn => ?_, fun as first hj hr hu => ?_,
    fun h => ?_, fun h hv => ⟨fun ok => ?_, fun ok => ?_⟩⟩
  · rw [exec_tlbInv_open ho, Dev.tlbInvalidate_busy h]
  · rw [exec_tlbInv_open ho, Dev.tlbInvalidate_dead h ha]
  · rw [exec_tlbInv_open ho, Dev.tlbInvalidate_live h ha]
  · have pages : invFirst first n = first ∧ invCount n = n := ⟨if_neg hn, if_neg hn⟩
    refine ⟨fun hu => exec_tlbInvDone_used hj (by rwa [pages.1, pages.2]), fun hu => ?_⟩
    rw [exec_tlbInvDone_unused hj hr (by rwa [pages.1, pages.2]), pages.1, pages.2]
    rfl
  · exact ⟨_, exec_tlbInvDone_unused hj hr hu, rfl, fun x hx ha => Dev.invalidated_all hx ha⟩
  · rw [exec_poolLock_open ho, Dev.lockPools_kept h]
  · rw [exec_poolLock_open ho, Dev.lockPools_locks h hv ok]
  · rw [exec_poolLock_open ho, Dev.lockPools_invalid h hv ok]

end Sys2Proof.Machine
end

section
/-!
PROOFS. The patrol scrub and a stack that fails (R189, R195, R200, R224; log entries 75 and 78).
-/
namespace Sys2Proof.Machine

/-! ### Check-bit errors -/

theorem minList_mem (w : Nat) (t : List Nat) : minList w t ∈ w :: t := by
  cases t with
  | nil => exact List.mem_singleton.2 rfl
  | cons v t => exact List.mem_cons_of_mem _ (List.min?_mem (List.min?_cons' ..))

/-- What is found bad is a poisoned word, named by its address. -/
theorem Dev.badIn_some {d : Dev} {pa n w : Nat} (h : d.badIn pa n = some w) : d.blk.poison.contains (w / 8) = true ∧ 8 * (w / 8) = w := by
  unfold Dev.badIn at h
  split at h
  · cases h
  · rename_i v t met
    obtain rfl := Option.some.inj h
    have word : 8 * minList v t / 8 = minList v t := Nat.mul_div_cancel_left _ (by decide)
    have mem := minList_mem v t
    rw [← met] at mem
    rw [word]
    exact ⟨List.contains_iff_mem.2 (List.mem_filter.1 mem).1, rfl⟩

/-- A segment that is gone from a die gives back its pages, its leaf and its translations, and leaves the version's images. -/
theorem Dev.dropImagePage_cases (d : Dev) (n die seg : Nat) :
    ∃ p t l v, d.dropImagePage n die seg = { d with vers := v, blk := { d.blk with pages := p, tlb := t, sealedLeaf := l } } := by
  unfold Dev.dropImagePage
  dsimp only
  split
  · exact ⟨d.blk.pages, d.blk.tlb, d.blk.sealedLeaf, d.vers, rfl⟩
  · rename_i g _
    have frees : d.Frees ((g.pages.filter fun x : Nat × Nat => x.1 = seg).foldl (fun d x => d.setPages (unitPages x.2) .free)
        ((d.setSealed die ((d.ver n).region + seg) 0#64).dropSealed die ((d.ver n).region + seg) 1)) := by
      refine .trans (.trans (Dev.frees_setSealed ..) (Dev.frees_dropSealed ..)) (.foldl (fun d x => ?_) _ _)
      exact Dev.frees_setPages ..
    obtain ⟨⟨p, t, l, h⟩, -⟩ := frees
    rw [h]
    exact ⟨p, t, l, _, rfl⟩

/-- Counted check-bit results touch the counters of the bonded and of the bulk tier alone. -/
theorem Dev.countEcc_cases (u : Fuses) (d : Dev) (pa corr uncorr fix : Nat) :
    ∃ b k, d.countEcc u pa corr uncorr fix = { d with blk := { d.blk with eccBonded := b, eccBulk := k } } := by
  unfold Dev.countEcc
  split <;> exact ⟨_, _, rfl⟩

/-- A word that reads as uncorrected from now on, where it does not yet. -/
def Dev.poisonWord (d : Dev) (w : Nat) : Dev :=
  { d with blk := { d.blk with poison := if d.blk.poison.contains w then d.blk.poison else d.blk.poison ++ [w] } }

theorem Dev.poisonWord_eq (d : Dev) (w : Nat) :
    (if d.blk.poison.contains w then d else { d with blk := { d.blk with poison := d.blk.poison ++ [w] } }) = d.poisonWord w := by
  unfold Dev.poisonWord
  split <;> rfl

/-- An uncorrected word is counted, logged and poisoned; the image page that holds it is dropped (R189, R200). -/
theorem Dev.uncorrected_cases (u : Fuses) (d : Dev) (pa : Nat) (entry : Bool) :
    ∃ b k tier p t l v, d.uncorrected u pa entry = { d with vers := v, blk := { d.blk with
      eccBonded := b, eccBulk := k, eccLogAddr := BitVec.ofNat 48 (8 * (pa / 8)), eccLogTier := tier, eccLogCount := min (d.blk.eccLogCount + 1) 4095
      poison := if d.blk.poison.contains (pa / 8) then d.blk.poison else d.blk.poison ++ [pa / 8], pages := p, tlb := t, sealedLeaf := l } } := by
  obtain ⟨b, k, counted⟩ := Dev.countEcc_cases u d pa 0 1 0
  unfold Dev.uncorrected
  rw [counted]
  dsimp only
  rw [Dev.poisonWord_eq]
  split
  · rename_i n die seg _
    obtain ⟨p, t, l, v, h⟩ := Dev.dropImagePage_cases _ n die seg
    rw [h]
    dsimp only [Dev.poisonWord, Dev.logEcc]
    exact ⟨b, k, _, p, t, l, v, rfl⟩
  · exact ⟨b, k, _, d.blk.pages, d.blk.tlb, d.blk.sealedLeaf, d.vers, rfl⟩

/-! ### The scrub of a DRAM word (R195) -/

section
variable {e : Env} {d : Dev} {pa : Nat}

/-- A scrub that is off, or finds no word, does nothing. -/
theorem scrub_dram_none (ecc : Ecc) (h : bitsAt d.blk.scrubPeriod.toNat 0 8 ≠ 0 → e.fuse.isDram pa = false ∨ d.unitDead e.fuse pa = true) :
    scrub e d (.dram pa) ecc = d := by
  refine if_pos ?_
  by_cases off : bitsAt d.blk.scrubPeriod.toNat 0 8 = 0
  · simp [off]
  · rcases h off with h | h <;> simp [h]

/-- What a scrub makes of a word: one that reads as uncorrected already is found so, whatever its check bits (R189). -/
def scrubFound (u : Fuses) (d : Dev) (pa : Nat) (ecc : Ecc) : Option Nat → Dev
  | some w => d.uncorrected u w
  | none => match ecc with
    | .good => d
    | .corrected => d.countEcc u pa 1 0 1
    | .uncorrected => d.uncorrected u pa

/-- A scrub asks for its word, and makes of it what it finds. -/
theorem scrub_dram (hd : e.fuse.isDram pa = true) (hp : bitsAt d.blk.scrubPeriod.toNat 0 8 ≠ 0) (hu : d.unitDead e.fuse pa = false) (ecc : Ecc) :
    ∃ a, scrub e d (.dram pa) ecc = scrubFound e.fuse { d with arb := a } pa ecc (d.badIn (pa / 64 * 64) 64) := by
  obtain ⟨a, ask⟩ := Dev.askRange_cases d e { pa := pa / 64 * 64, n := 0 } 64 scrubSlot
  have same : ({ d with arb := a } : Dev).badIn (pa / 64 * 64) 64 = d.badIn (pa / 64 * 64) 64 := rfl
  refine ⟨a, (if_neg (by simp [hd, hp, hu])).trans ?_⟩
  rw [ask, same]
  cases d.badIn (pa / 64 * 64) 64 <;> cases ecc <;> rfl

end

theorem Dev.countEcc_bonded {u : Fuses} {pa : Nat} (h : u.isBonded pa = true) (d : Dev) (corr uncorr fix : Nat) :
    Tab.get ({} : EccCount) (bondedDie pa) (d.countEcc u pa corr uncorr fix).blk.eccBonded =
      (Tab.get {} (bondedDie pa) d.blk.eccBonded).add corr uncorr fix := by
  rw [Dev.countEcc, if_pos h]; exact Tab.get_put_same ..
theorem Dev.countEcc_bulk {u : Fuses} {pa : Nat} (h : u.isBonded pa = false) (d : Dev) (corr uncorr fix : Nat) :
    Tab.get ({} : EccCount) (u.channelOf pa) (d.countEcc u pa corr uncorr fix).blk.eccBulk =
      (Tab.get {} (u.channelOf pa) d.blk.eccBulk).add corr uncorr fix := by
  rw [Dev.countEcc, if_neg (ne_true_of_eq_false h)]; exact Tab.get_put_same ..

/-! ### The scrub of the near tier (R195) -/

section
variable {e : Env} {d : Dev} {a : Nat}

theorem scrub_near_absent (ecc : Ecc) (h : e.fuse.clusterFitted (a / 0x4000000) = false ∨ 16 ≤ a / 0x4000000) : scrub e d (.near a) ecc = d := by
  refine if_pos ?_
  rcases h with h | h
  · simp [h]
  · simp [Nat.not_lt.2 h]

variable (hf : e.fuse.clusterFitted (a / 0x4000000) = true) (hc : a / 0x4000000 < 16)
include hf hc

/-- A word known to be bad is found so again; an uncorrected word is bad from now on. -/
theorem scrub_near_bad (ecc : Ecc) (h : d.blk.nearBad.contains (a / 8) = true) : scrub e d (.near a) ecc = d.nearUncorrected a := by
  have again : (d.nearUncorrected a).blk.nearBad.contains (a / 8) = true := h
  simp only [scrub, hf, hc, h, again, decide_true, Bool.and_self, Bool.not_true, Bool.false_eq_true, if_false, if_true]
theorem scrub_near_uncorrected : scrub e d (.near a) .uncorrected = { d.nearUncorrected a with blk := { (d.nearUncorrected a).blk with
    nearBad := if d.blk.nearBad.contains (a / 8) then d.blk.nearBad else d.blk.nearBad ++ [a / 8] } } := by
  by_cases h : d.blk.nearBad.contains (a / 8) = true
  · rw [scrub_near_bad hf hc .uncorrected h, if_pos h]; rfl
  · have fresh : ¬(d.nearUncorrected a).blk.nearBad.contains (a / 8) = true := h
    simp only [scrub, hf, hc, h, fresh, decide_true, Bool.and_self, Bool.not_true, Bool.false_eq_true, if_false]
    rfl

end

/-! ### The rows -/

theorem exec_scrubRead {s : State} (h : s.dev.running = true) (loc : ScrubAt) (ecc : Ecc) :
    exec (.scrubRead loc ecc) s = .next { s with dev := scrub s.env s.dev loc ecc } := by
  change execScrubRead loc ecc s = _
  rw [execScrubRead, onDev, State.onDev, if_pos h]
theorem exec_stackFailure {s : State} (h : s.dev.running = true) {k : Fin 20} (hk : k.val < s.fuse.stackCount) :
    exec (.stackFailure k) s = .next { s with dev := { s.dev with btr := { s.dev.btr with stackSet := Tab.put k.val 3#2 s.dev.btr.stackSet } } } := by
  change execStackFailure k s = _
  rw [execStackFailure, onDev, State.onDev, if_pos (by simp [h, hk])]

theorem contains_appendNew (l : List Nat) (w : Nat) : (if l.contains w then l else l ++ [w]).contains w = true := by
  split
  · assumption
  · simp

/-- Settles O30: a scrub counts what it corrects, and marks and logs what it does not; a failed stack changes its state alone. -/
theorem scrubAndStacks : Obligations.ScrubAndStacks := by
  intro loc pa a k s hr
  refine ⟨fun w ecc hd hp hu hb => ?_, fun ecc hf hc hn => ?_, fun hd hp hu hb => ⟨?_, ?_⟩, fun hf hc => ?_, fun hd hn => ?_, fun hk => ?_⟩
  · obtain ⟨arb, h⟩ := scrub_dram (e := s.env) hd hp hu ecc
    obtain ⟨b, c, tier, p, t, l, v, found⟩ := Dev.uncorrected_cases s.fuse { s.dev with arb := arb } w false
    obtain ⟨known, word⟩ := Dev.badIn_some hb
    refine ⟨_, exec_scrubRead hr _ ecc, ?_⟩
    rw [h, hb, scrubFound, State.env_fuse, found]
    exact ⟨if_pos known, rfl, by rw [word], rfl⟩
  · rw [exec_scrubRead hr, scrub_near_bad (e := s.env) hf hc ecc hn]
    exact ⟨_, rfl, rfl, rfl, rfl⟩
  · obtain ⟨arb, h⟩ := scrub_dram (e := s.env) hd hp hu .corrected
    obtain ⟨b, c, counted⟩ := Dev.countEcc_cases s.fuse { s.dev with arb := arb } pa 1 0 1
    refine ⟨_, exec_scrubRead hr _ _, ?_⟩
    rw [h, hb, scrubFound, State.env_fuse]
    refine ⟨by rw [counted], by rw [counted], fun hb => Dev.countEcc_bonded hb _ 1 0 1, fun hb => Dev.countEcc_bulk hb _ 1 0 1⟩
  · obtain ⟨arb, h⟩ := scrub_dram (e := s.env) hd hp hu .uncorrected
    obtain ⟨b, c, tier, p, t, l, v, found⟩ := Dev.uncorrected_cases s.fuse { s.dev with arb := arb } pa false
    refine ⟨_, exec_scrubRead hr _ _, ?_⟩
    rw [h, hb, scrubFound, State.env_fuse, found]
    exact ⟨contains_appendNew .., rfl, rfl, rfl⟩
  · rw [exec_scrubRead hr, scrub_near_uncorrected (e := s.env) hf hc]
    exact ⟨_, rfl, contains_appendNew .., rfl, rfl, rfl⟩
  · rw [exec_scrubRead hr]
    cases loc with
    | dram pa => rw [scrub_dram_none .uncorrected (hd pa rfl)]
    | near a => rw [scrub_near_absent .uncorrected (hn a rfl)]
  · exact ⟨_, exec_stackFailure hr hk, Tab.get_put_same .., fun j hj => Tab.get_put_other _ hj _ _, rfl⟩

end Sys2Proof.Machine
end

section
/-!
PROOFS. The page walks of stream contexts (R175, R190, R191, R218; log entries 35, 74 and 76).
-/
namespace Sys2Proof.Machine

/-! ### What a walk leaves -/

section
variable (u : Fuses) (d : Dev)

/-- A walk that completes draws which of its reads was in error, and counts a corrected one. -/
theorem Dev.finishWalk_cases (a : Access) (va : Nat) (ecc : Ecc) :
    ∃ c b k, (d.finishWalk u a va ecc).2 = { d with freeCount := c, blk := { d.blk with eccBonded := b, eccBulk := k } } := by
  obtain ⟨c, path⟩ := d.walkPath_cases u a va
  unfold Dev.finishWalk
  dsimp only
  split
  · exact ⟨_, d.blk.eccBonded, d.blk.eccBulk, by rw [path]; rfl⟩
  · rename_i pa _
    obtain ⟨b, k, counted⟩ := Dev.countEcc_cases u ((d.walkPath u a va).2.free 8).2 pa 1 0 0
    exact ⟨_, b, k, by rw [counted, path]; rfl⟩
  · exact ⟨_, d.blk.eccBonded, d.blk.eccBulk, by rw [path]; rfl⟩

/-- Keeping the translation of a walk changes the translation caches alone. -/
theorem Dev.cacheWalk_cases (who : Requester) (uid : Nat) (a : Access) (va : Nat) :
    ∃ t, d.cacheWalk u who uid a va = { d with blk := { d.blk with tlb := t } } := by
  have kept (v : Dev) : ∃ t, v.keepLast who uid a.die a.asid va = { v with blk := { v.blk with tlb := t } } := by
    unfold Dev.keepLast
    split <;> exact ⟨_, rfl⟩
  unfold Dev.cacheWalk
  split
  · rename_i leaf _
    obtain ⟨t, h⟩ := kept (d.addTlb a.die (tlbSpace a.asid va) va leaf)
    exact ⟨t, h⟩
  · exact ⟨d.blk.tlb, rfl⟩

/-- The resolution of a fault is one of its kind, and of the die of the fault where it serves a die alone (R192). -/
theorem Dev.resolution_cases (die : Nat) (k : ResKind) :
    ∃ n l, (d.resolution die k).2 = { d with nextUid := n, blk := { d.blk with resolutions := l } } ∧
      ∃ r ∈ l, r.id = (d.resolution die k).1 ∧ r.kind = k ∧ (k.ofDie = true → r.die = die) := by
  unfold Dev.resolution
  dsimp only
  split
  · rename_i r h
    have found := List.find?_some h
    simp only [Bool.and_eq_true, Bool.or_eq_true, Bool.not_eq_true', decide_eq_true_eq] at found
    obtain ⟨⟨ofDie, kind⟩, -⟩ := found
    exact ⟨d.nextUid, d.blk.resolutions, rfl, r, List.mem_of_find?_eq_some h, rfl, kind, fun hk => ofDie.resolve_left (ne_false_of_eq_true hk)⟩
  · exact ⟨_, _, rfl, _, List.mem_append_right _ (List.mem_singleton.2 rfl), rfl, rfl, fun _ => rfl⟩

end

/-- A stream context reads as it was written. -/
@[simp] theorem Dev.streamCtx_modCtx (d : Dev) (cl ph me ctx : Nat) (f : Ctx → Ctx) :
    (d.modCtx cl ph me ctx f).streamCtx cl ph me ctx = f (d.streamCtx cl ph me ctx) := by
  unfold Dev.streamCtx Dev.modCtx Dev.modEng
  rw [Dev.eng_setEng]
  exact Tab.get_put_same ..
@[simp] theorem Dev.modCtx_blk (d : Dev) (cl ph me ctx : Nat) (f : Ctx → Ctx) : (d.modCtx cl ph me ctx f).blk = d.blk := rfl

/-! ### The row -/

section
variable {s : State} {cl ph me ctx : Nat} {ecc : Ecc} (hwf : (Requester.stream cl ph me ctx).wf = true)
include hwf

/-- Without a walk, or with reads of it to be served, nothing happens. -/
theorem exec_pageWalkDone_none (h : (s.dev.streamCtx cl ph me ctx).walk = none ∨ s.dev.walks (.stream cl ph me ctx) = true) :
    exec (.pageWalkDone (.stream cl ph me ctx) ecc) s = .next s := by
  refine (guarded_wf hwf _).trans (congrArg Host.Outcome.next (onDev_same ?_))
  dsimp only
  split
  · rfl
  · rename_i served
    rcases h with h | h
    · simp only [walkStream, h]
    · exact absurd (by rw [h, Bool.or_true]) served

/-- A walk whose reads are all served completes. -/
theorem exec_pageWalkDone_stream (hr : s.dev.running = true) (hw : s.dev.walks (.stream cl ph me ctx) = false) :
    exec (.pageWalkDone (.stream cl ph me ctx) ecc) s = .next { s with dev := walkStream s.env s.dev cl ph me ctx ecc } := by
  refine (guarded_wf hwf _).trans ?_
  rw [onDev, State.onDev, if_neg (by simp [hr, hw])]

end

section
variable {e : Env} {d v : Dev} {cl ph me ctx va : Nat} {w : Bool} {ecc : Ecc} (hw : (d.streamCtx cl ph me ctx).walk = some (va, w))
include hw

/-- What the walk answers, with the package after it: the context translates again, its command ends, or it freezes. -/
theorem walkStream_pa {pa : Nat} (h : d.finishWalk e.fuse (d.streamAccess cl ph w) va ecc = (.pa pa, v)) :
    walkStream e d cl ph me ctx ecc = (v.cacheWalk e.fuse (.stream cl ph me ctx) (v.coreUid cl ph) (d.streamAccess cl ph w) va).modCtx cl ph me ctx
      fun y => { y with walk := none } := by
  simp only [walkStream, hw, h]
theorem walkStream_fault {x r n l : Nat} (h : d.finishWalk e.fuse (d.streamAccess cl ph w) va ecc = (.fault x r n l, v)) :
    walkStream e d cl ph me ctx ecc = v.engFault e cl ph (4 + me) (v.ctxInfo cl ph me ctx (d.streamCtx cl ph me ctx).lin
      { error := x, resource := r, value := n, limit := l, addr := some va }) := by
  simp only [walkStream, hw, h]
theorem walkStream_resolve {k : ResKind} (h : d.finishWalk e.fuse (d.streamAccess cl ph w) va ecc = (.resolve k, v)) :
    walkStream e d cl ph me ctx ecc = v.freezeCtx e.now cl ph me ctx (d.streamCtx cl ph me ctx).lin va w k := by
  simp only [walkStream, hw, h]

end

/-- A context that freezes has no walk, and waits on a resolution of its fault. -/
theorem Dev.freezeCtx_frozen (d : Dev) (now cl ph me ctx lin va : Nat) (w : Bool) (k : ResKind) :
    ∃ z, ((d.freezeCtx now cl ph me ctx lin va w k).streamCtx cl ph me ctx).frozen = some { va := va, write := w, since := now, resolution := z } ∧
      ((d.freezeCtx now cl ph me ctx lin va w k).streamCtx cl ph me ctx).walk = none ∧
      ∃ r ∈ (d.freezeCtx now cl ph me ctx lin va w k).blk.resolutions, r.id = z ∧ r.kind = k ∧ (k.ofDie = true → r.die = cl / 4) := by
  obtain ⟨n, l, rest, found⟩ := d.resolution_cases (cl / 4) k
  refine ⟨(d.resolution (cl / 4) k).1, ?_⟩
  unfold Dev.freezeCtx
  dsimp only
  rw [Dev.streamCtx_modCtx, Dev.modCtx_blk, rest]
  exact ⟨rfl, rfl, found⟩

/-- Settles O28: with no read left to serve, the walk's own answer says whether the context goes on, faults or freezes. -/
theorem walksEnd : Obligations.WalksEnd := by
  intro cl ph me ctx va w ecc s hc hp hm hx hr y a t d
  have wf : (Requester.stream cl ph me ctx).wf = true := by simp [Requester.wf, hc, hp, hm, hx]
  have answers {x : Trans} (h : t = x) : s.dev.finishWalk s.env.fuse a va ecc = (x, d) := Prod.ext h rfl
  refine ⟨exec_pageWalkDone_none wf, fun hw hs => ⟨fun pa h => ?_, fun code res v l h => ?_, fun k h => ?_⟩⟩
  · obtain ⟨c, b, n, walked⟩ : ∃ c b n, d = _ := s.dev.finishWalk_cases s.fuse a va ecc
    obtain ⟨l, cached⟩ := d.cacheWalk_cases s.fuse (.stream cl ph me ctx) (d.coreUid cl ph) a va
    refine ⟨_, exec_pageWalkDone_stream wf hr hs, ?_⟩
    rw [walkStream_pa hw (answers h), Dev.streamCtx_modCtx, Dev.modCtx_blk]
    refine ⟨?_, rfl, ?_⟩
    · rw [State.env_fuse, cached, walked]; rfl
    · rw [State.env_fuse, cached, walked]; exact ⟨rfl, rfl, rfl⟩
  · rw [exec_pageWalkDone_stream wf hr hs, walkStream_fault hw (answers h)]
    rfl
  · obtain ⟨z, frozen⟩ := d.freezeCtx_frozen s.time.toNat cl ph me ctx y.lin va w k
    rw [exec_pageWalkDone_stream wf hr hs, walkStream_resolve hw (answers h)]
    exact ⟨_, z, rfl, frozen⟩

end Sys2Proof.Machine
end

section
/-!
PROOFS. The segments of an IMAGE (R141, R180, R189), and the pages of an evicted image (R182; log entries 38 and 78).
-/
namespace Sys2Proof.Machine

/-! ### A segment is written on the dies that lack it -/

theorem Dev.takeUnit_cases (d : Dev) (die k : Nat) : ∃ c p, (d.takeUnit die k).2 = { d with freeCount := c, blk := { d.blk with pages := p } } := by
  unfold Dev.takeUnit
  dsimp only
  split
  · exact ⟨_, d.blk.pages, rfl⟩
  · rename_i u _
    obtain ⟨p, h⟩ := Dev.setPages_rest ((List.range 32).map fun i => 32 * u + i) .sealed (d.free 64).2
    exact ⟨_, p, h⟩

@[simp] theorem Dev.writePa_longs (d : Dev) (pa : Nat) (l : List Byte) : (d.writePa pa l).longs = d.longs := rfl
@[simp] theorem Dev.unpoison_longs (d : Dev) (pa n : Nat) : (d.unpoison pa n).longs = d.longs := rfl
@[simp] theorem Dev.setSealed_longs (d : Dev) (die unit : Nat) (v : Quad) : (d.setSealed die unit v).longs = d.longs := rfl
@[simp] theorem Dev.setSealed_ver (d : Dev) (die unit : Nat) (v : Quad) (n : Nat) : (d.setSealed die unit v).ver n = d.ver n := rfl

/-- A segment written on a die changes neither the segments of its version nor the long operations. -/
theorem Dev.writeSegment_keeps {e : Env} {d v : Dev} {n die i : Nat} {plain : List Byte} {pinned : Bool} {r : FixReq}
    (h : d.writeSegment e n die i plain pinned r = some v) : v.longs = d.longs ∧ (v.ver n).segs = (d.ver n).segs := by
  obtain ⟨c, p, rest⟩ := d.takeUnit_cases die i
  unfold Dev.writeSegment at h
  cases taken : d.takeUnit die i with
  | mk g d1 =>
    rw [taken] at h rest
    change d1 = _ at rest
    cases g with
    | none => cases h
    | some g =>
      obtain ⟨a, c', moved⟩ := Dev.moved_cases d1 e die (g * unitBytes) plain.length r
      obtain rfl := Option.some.inj h
      refine ⟨?_, ?_⟩
      · rw [Dev.setSealed_longs, Dev.setVer_longs, Dev.unpoison_longs, Dev.writePa_longs, moved, rest]
      · rw [Dev.setSealed_ver, Dev.ver_setVer, rest]; rfl

theorem writeOn_keeps {e : Env} {n seg : Nat} {plain : List Byte} {r : FixReq} (dies : List Nat) :
    ∀ {d v : Dev} {on : List Nat}, writeOn e n seg plain r dies d = some (on, v) → v.longs = d.longs ∧ (v.ver n).segs = (d.ver n).segs := by
  induction dies with
  | nil => rintro d v on ⟨⟩; exact ⟨rfl, rfl⟩
  | cons x t ih =>
    intro d v on h
    unfold writeOn at h
    split at h
    · exact ih h
    · split at h
      · cases h
      · rename_i d1 written
        obtain ⟨y, later, hy⟩ := Option.map_eq_some_iff.1 h
        obtain ⟨-, rfl⟩ := Prod.mk.inj hy
        obtain ⟨longs, segs⟩ := Dev.writeSegment_keeps written
        obtain ⟨longs', segs'⟩ := ih later
        exact ⟨longs'.trans longs, segs'.trans segs⟩

/-! ### The boundary after a segment (R141) -/

/-- The package with a segment of `bytes` bytes written on the dies `on`, and counted. -/
def Dev.imaged (d : Dev) (k n seg bytes : Nat) (dies on : List Nat) : Dev :=
  d.modLong k fun l => { l with
    kind := .image n dies (seg + 1), chunks := l.chunks + 1, bytes := l.bytes + on.length * bytes, written := l.written ++ on.map fun x => (x, seg) }

section
variable {e : Env} {d : Dev} {k n seg bytes : Nat} {dies on : List Nat}

theorem Dev.imaged_st : ((d.imaged k n seg bytes dies on).long k).st = (d.long k).st := by
  rw [Dev.imaged, Dev.modLong, Dev.long_setLong]

/-- The last segment ends an IMAGE that is not cancelled; a boundary follows any other. -/
theorem segmentWritten_last (hs : (d.long k).st ≠ .cancelling) (hl : (d.ver n).segs.length ≤ seg + 1) :
    segmentWritten e d k n seg bytes dies on =
      (d.imaged k n seg bytes dies on).endLong k 0 ((d.imaged k n seg bytes dies on).long k).bytes := by
  refine if_pos ?_
  change (decide ((d.ver n).segs.length ≤ seg + 1) && decide (((d.imaged k n seg bytes dies on).long k).st ≠ .cancelling)) = true
  simp [Dev.imaged_st, hs, hl]

section
variable (h : (d.long k).st = .cancelling ∨ seg + 1 < (d.ver n).segs.length) {v : Dev}
include h

theorem segmentWritten_boundary : segmentWritten e d k n seg bytes dies on = match (d.imaged k n seg bytes dies on).boundary e.fuse k with
    | (true, d) => d.askImage e k
    | (false, d) => d := by
  refine if_neg ?_
  change ¬(decide ((d.ver n).segs.length ≤ seg + 1) && decide (((d.imaged k n seg bytes dies on).long k).st ≠ .cancelling)) = true
  rw [Dev.imaged_st]
  rcases h with h | h <;> simp [h]
theorem segmentWritten_goes (hb : (d.imaged k n seg bytes dies on).boundary e.fuse k = (true, v)) :
    segmentWritten e d k n seg bytes dies on = v.askImage e k := by rw [segmentWritten_boundary h, hb]
theorem segmentWritten_stops (hb : (d.imaged k n seg bytes dies on).boundary e.fuse k = (false, v)) :
    segmentWritten e d k n seg bytes dies on = v := by rw [segmentWritten_boundary h, hb]

end

end

/-! ### The next segment of an IMAGE -/

section
variable {e : Env} {d : Dev} {k n seg : Nat} {dies : List Nat} (hk : (d.long k).kind = .image n dies seg)
include hk

/-- An IMAGE without segments left ends with its bytes, one without dies with none. -/
theorem imageStep_done (h : (d.ver n).segs.length ≤ seg) : imageStep e d k = d.endLong k 0 (d.long k).bytes := by
  simp only [imageStep, hk]
  exact if_pos h
theorem imageStep_idle (hs : seg < (d.ver n).segs.length) (h : dies = []) : imageStep e d k = d.endLong k 0 0 := by
  simp only [imageStep, hk, if_neg (Nat.not_le.2 hs), h]
  rfl

variable (hd : dies ≠ []) (hs : seg < (d.ver n).segs.length)
include hd hs

theorem imageStep_unread (h : d.asks (.long k) = true) : imageStep e d k = d := by
  simp only [imageStep, hk, if_neg (Nat.not_le.2 hs), List.isEmpty_eq_false_iff.2 hd, Bool.false_eq_true, if_false]
  exact if_pos h

variable (ha : d.asks (.long k) = false)
include ha

/-- A segment that has been read is opened. -/
theorem imageStep_poisoned {code pa : Nat} (ho : d.openSegment (d.ver n) seg = .error code) (hp : d.poisonedSegment (d.ver n) seg = some pa) :
    imageStep e d k = d.failLong e.fuse e k { error := Config.eccUncorrected, resource := 0x2A, engine := 0xF2, value := pa } := by
  simp only [imageStep, hk, if_neg (Nat.not_le.2 hs), List.isEmpty_eq_false_iff.2 hd, ha, ho, hp, Bool.false_eq_true, if_false]
theorem imageStep_refused {code : Nat} (ho : d.openSegment (d.ver n) seg = .error code) (hp : d.poisonedSegment (d.ver n) seg = none) :
    imageStep e d k = d.cancelLong e.fuse k code 16 := by
  simp only [imageStep, hk, if_neg (Nat.not_le.2 hs), List.isEmpty_eq_false_iff.2 hd, ha, ho, hp, Bool.false_eq_true, if_false]

variable {plain : List Byte} (ho : d.openSegment (d.ver n) seg = .ok plain)
include ho

/-- It is written, as far as the dies have pages. -/
theorem imageStep_full (hw : writeOn e n seg plain { who := some (.long k), pa := 0, n := 0 } dies d = none) :
    imageStep e d k = if (d.long k).st = .cancelling then d.cancelLong e.fuse k Config.cancelled else d := by
  simp only [imageStep, hk, if_neg (Nat.not_le.2 hs), List.isEmpty_eq_false_iff.2 hd, ha, ho, hw, Bool.false_eq_true, if_false]
theorem imageStep_written {on : List Nat} {v : Dev} (hw : writeOn e n seg plain { who := some (.long k), pa := 0, n := 0 } dies d = some (on, v)) :
    imageStep e d k = segmentWritten e v k n seg plain.length dies on := by
  simp only [imageStep, hk, if_neg (Nat.not_le.2 hs), List.isEmpty_eq_false_iff.2 hd, ha, ho, hw, Bool.false_eq_true, if_false]

end

/-- The row of an IMAGE that runs or is being cancelled, and of a slot that holds none. -/
theorem exec_imageSegment {s : State} {k : Nat} {d : Dev} (hr : s.dev.running = true) (hu : (s.dev.long k).used = true)
    (hs : (s.dev.long k).st = .running ∨ (s.dev.long k).st = .cancelling) (h : imageStep s.env s.dev k = d) :
    exec (.imageSegment k) s = .next { s with dev := d } := by
  change execImageSegment k s = _
  have images : (s.dev.running && (s.dev.long k).used && (decide ((s.dev.long k).st = .running) || decide ((s.dev.long k).st = .cancelling))) = true := by
    simpa [hr, hu] using hs
  simp only [execImageSegment, onDev, State.onDev, images, if_true, h]
theorem exec_imageSegment_none {s : State} {k : Nat} (h : (s.dev.long k).used = false ∨
    ((s.dev.long k).st ≠ .running ∧ (s.dev.long k).st ≠ .cancelling) ∨ ∀ n dies seg, (s.dev.long k).kind ≠ .image n dies seg) :
    exec (.imageSegment k) s = .next s := by
  refine congrArg Host.Outcome.next (onDev_same ?_)
  dsimp only
  split
  · rename_i images
    simp only [Bool.and_eq_true, Bool.or_eq_true, decide_eq_true_eq] at images
    obtain ⟨⟨-, used⟩, st⟩ := images
    unfold imageStep
    dsimp only
    split
    · rename_i n dies seg kind
      rcases h with h | ⟨h, h'⟩ | h
      · simp [h] at used
      · exact absurd st (by simp [h, h'])
      · exact absurd kind (h n dies seg)
    · rfl
  · rfl

/-! ### Evicted pages (R182) -/

/-- What becomes FREE in one step of a list is FREE after the list. -/
theorem Dev.Frees.foldl_mem {α : Type} {f : Dev → α → Dev} (h : ∀ (d : Dev) x, d.Frees (f d x)) {x : α} {p : Nat}
    (hp : ∀ d, (f d x).pageState p = .free) : ∀ {l : List α}, x ∈ l → ∀ d, (l.foldl f d).pageState p = .free
  | y :: l, hx, d => by
    rcases List.mem_cons.1 hx with rfl | hx
    · exact (Dev.Frees.foldl h l (f d x)).2 p (hp d)
    · exact Dev.Frees.foldl_mem h hp hx (f d y)

/-- An evicted image on a die whose commands have all ended. -/
def Dev.evictEnded (d : Dev) (die : Nat) (y : Nat × List Nat × List Nat) : Bool := y.1 = die && !y.2.2.any fun uid => (d.openOf uid).isSome

theorem Dev.evictEnded_iff {d : Dev} {die : Nat} {y : Nat × List Nat × List Nat} :
    d.evictEnded die y = true ↔ y.1 = die ∧ (y.2.2.any fun uid => (d.openOf uid).isSome) = false := by
  simp only [Dev.evictEnded, Bool.and_eq_true, decide_eq_true_eq, Bool.not_eq_true']

/-- The units of evicted images become FREE. -/
def Dev.freeUnitsOf (d : Dev) (l : List (Nat × List Nat × List Nat)) : Dev :=
  l.foldl (fun d y => y.2.1.foldl (fun d g => d.setPages (unitPages g) .free) d) d

theorem Dev.frees_units (l : List Nat) (d : Dev) : d.Frees (l.foldl (fun d g => d.setPages (unitPages g) .free) d) :=
  .foldl (fun d g => Dev.frees_setPages (unitPages g) d) l d
theorem Dev.frees_freeUnitsOf (d : Dev) (l : List (Nat × List Nat × List Nat)) : d.Frees (d.freeUnitsOf l) := by
  refine .foldl (fun d y => ?_) l d
  exact Dev.frees_units y.2.1 d
theorem Dev.freeUnitsOf_free (d : Dev) {l : List (Nat × List Nat × List Nat)} {y : Nat × List Nat × List Nat} (hy : y ∈ l) {b : Nat} (hb : b ∈ y.2.1)
    {p : Nat} (hp : p ∈ unitPages b) : (d.freeUnitsOf l).pageState p = .free := by
  refine Dev.Frees.foldl_mem (fun d y => ?_) (fun d => ?_) hy d
  · exact Dev.frees_units y.2.1 d
  · exact Dev.Frees.foldl_mem (fun d g => Dev.frees_setPages (unitPages g) d) (Dev.setPages_free hp) hb d

section
variable {d : Dev} {n die : Nat}

theorem Dev.freeEvicted_none (h : ∀ y ∈ (d.ver n).evicted, d.evictEnded die y = false) : d.freeEvicted n die = d := by
  have none : (d.ver n).evicted.filter (d.evictEnded die) = [] := List.filter_eq_nil_iff.2 fun y hy => ne_true_of_eq_false (h y hy)
  exact if_pos (List.isEmpty_iff.2 none)

/-- The units of the images that are ended become FREE, their translations are gone, and the version lists the others. -/
theorem Dev.freeEvicted_some (h : ∃ y ∈ (d.ver n).evicted, d.evictEnded die y = true) :
    ∃ t, d.freeEvicted n die = ({ d.freeUnitsOf ((d.ver n).evicted.filter (d.evictEnded die)) with
      blk := { (d.freeUnitsOf ((d.ver n).evicted.filter (d.evictEnded die))).blk with tlb := t } } : Dev).setVer n
        { d.ver n with evicted := (d.ver n).evicted.filter fun y => !d.evictEnded die y } := by
  obtain ⟨y, hy, ended⟩ := h
  have some : ¬((d.ver n).evicted.filter (d.evictEnded die)).isEmpty = true := fun none =>
    List.filter_eq_nil_iff.1 (List.isEmpty_iff.1 none) y hy ended
  exact ⟨_, if_neg some⟩

end

theorem exec_evictPagesFree {s : State} (hr : s.dev.running = true) (entry : Nat) (x : DieId) :
    exec (.evictPagesFree entry x) s = .next { s with dev := s.dev.freeEvicted entry x } := by
  change execEvictPagesFree entry x s = _
  rw [execEvictPagesFree, onDev, State.onDev, if_pos hr]

/-- Settles O25: a segment is opened, written and counted, and the boundary after it decides; evicted pages wait for their commands. -/
theorem imageAdvances : Obligations.ImageAdvances := by
  intro k n seg entry dies x s hr
  refine ⟨fun hu hs hk hd hn => ⟨fun ha => ?_, fun ha => ⟨fun plain ho => ⟨fun hw hc => ?_, fun hw hc => ?_, fun on d hw => ?_⟩,
    fun code ho hp => ?_, fun code pa ho hp => ?_⟩⟩,
    fun hu hs hk => ⟨fun hn => ?_, fun hn hd => ?_⟩, exec_imageSegment_none, fun h => ?_, fun h => ?_⟩
  · exact exec_imageSegment hr hu hs (imageStep_unread hk hd hn ha)
  · exact exec_imageSegment hr hu hs ((imageStep_full hk hd hn ha ho hw).trans (if_neg (by rw [hc]; decide)))
  · exact exec_imageSegment hr hu hs ((imageStep_full hk hd hn ha ho hw).trans (if_pos hc))
  · obtain ⟨longs, segs⟩ := writeOn_keeps dies hw
    have st : (d.long k).st = (s.dev.long k).st := by rw [Dev.long, longs]; rfl
    have row {v : Dev} (h : segmentWritten s.env d k n seg plain.length dies on = v) : exec (.imageSegment k) s = .next { s with dev := v } :=
      exec_imageSegment hr hu hs ((imageStep_written hk hd hn ha ho hw).trans h)
    refine ⟨fun hc hl => ?_, fun hc hl hb => ?_, fun hc hl hb => ?_, fun hc => ?_⟩
    · exact row (segmentWritten_last (by rw [st, hc]; decide) (by rw [segs, hl]))
    · exact row (segmentWritten_goes (.inr (by rwa [segs])) (boundary_free (by rw [Dev.imaged_st, st, hc]; decide) hb))
    · exact row (segmentWritten_stops (.inr (by rwa [segs])) (boundary_suspending (by rw [Dev.imaged_st, st, hc]; decide) hb))
    · exact row (segmentWritten_stops (.inl (by rw [st, hc])) (boundary_cancelling (by rw [Dev.imaged_st, st, hc])))
  · exact exec_imageSegment hr hu hs (imageStep_refused hk hd hn ha ho hp)
  · exact exec_imageSegment hr hu hs (imageStep_poisoned hk hd hn ha ho hp)
  · exact exec_imageSegment hr hu hs (imageStep_done hk hn)
  · exact exec_imageSegment hr hu hs (imageStep_idle hk hn hd)
  · rw [exec_evictPagesFree hr, Dev.freeEvicted_none fun y hy => ?_]
    refine eq_false_of_ne_true fun ended => ?_
    obtain ⟨at_, done⟩ := Dev.evictEnded_iff.1 ended
    exact absurd (h y hy at_) (ne_true_of_eq_false done)
  · obtain ⟨y, hy, ended⟩ := h
    obtain ⟨t, freed⟩ := Dev.freeEvicted_some ⟨y, hy, Dev.evictEnded_iff.2 ended⟩
    obtain ⟨⟨p, u, l, rest⟩, -⟩ := s.dev.frees_freeUnitsOf ((s.dev.ver entry).evicted.filter (s.dev.evictEnded x))
    refine ⟨_, exec_evictPagesFree hr entry x, ?_⟩
    rw [freed]
    refine ⟨congrArg Version.evicted (Dev.ver_setVer ..), fun y hy at_ done b hb q hq => ?_, ?_⟩
    · exact s.dev.freeUnitsOf_free (List.mem_filter.2 ⟨hy, Dev.evictEnded_iff.2 ⟨at_, done⟩⟩) hb hq
    · rw [rest]; exact ⟨rfl, rfl, rfl⟩

end Sys2Proof.Machine
end

section
/-!
PROOFS. Fault resolutions (R191 to R193), and the deadlines of faults and of tiles (R188, R191; log entries 2 and 39).
-/
namespace Sys2Proof.Machine

/-! ### The start of a resolution (R192) -/

/-- A resolution, once it is started. -/
def Resolution.begun (r : Resolution) : Resolution := { r with started := true }

/-- The move of a resolution: of one page, to the die of its fault. -/
def Resolution.move (u : Fuses) (r : Resolution) (asid vpage leaf : Nat) : Move :=
  { uid := r.id, long := none, asid := asid, die := some r.die, resolution := true
    pages := [{ va := vpage * pageBytes, src := leafPa leaf / pageBytes
                dst := if u.atHome (some r.die) (leafPa leaf / pageBytes) then some (leafPa leaf / pageBytes) else none }] }

section
variable {e : Env} {d : Dev} {r : Resolution}

/-- A resolution that waits for a move does no more. -/
theorem startResolution_moving {asid vpage : Nat} (hk : r.kind = .movingPage asid vpage) : startResolution e d r = d.setRes r.begun := by
  cases r; cases hk; rfl

section
variable {asid vpage : Nat} (hk : r.kind = .mgPage asid vpage)
include hk

/-- A page that moves already is waited for. -/
theorem startResolution_page_moving (hm : (d.setRes r.begun).pageMoving asid vpage = true) : startResolution e d r = d.setRes r.begun := by
  cases r; cases hk
  exact if_pos hm

variable (hm : (d.setRes r.begun).pageMoving asid vpage = false) {leaf l : Nat}
  (hw : walkLower e.fuse (d.setRes r.begun) asid (vpage * pageBytes) = .leaf leaf l)
include hm hw

theorem startResolution_page : startResolution e d r = if (d.setRes r.begun).freeBonded r.die = 0
    then (d.setRes r.begun).clearMg e.fuse asid (vpage * pageBytes) else (d.setRes r.begun).startMove e (r.move e.fuse asid vpage leaf) := by
  cases r; cases hk
  refine (if_neg (ne_true_of_eq_false hm)).trans ?_
  dsimp only [Resolution.begun] at hw ⊢
  rw [hw]
  rfl

end

section
variable {n seg : Nat} (hk : r.kind = .segment n seg)
include hk

/-- A segment that an IMAGE brings, or that the die's image has, is waited for. -/
theorem startResolution_segment_there (h : (d.setRes r.begun).imaging n r.die = true ∨
    (((d.setRes r.begun).ver n).imageOn r.die).any (fun g => (g.unit seg).isSome) = true) :
    startResolution e d r = d.setRes r.begun := by
  cases r; cases hk
  exact if_pos (by rw [Bool.or_eq_true]; exact h)

theorem startResolution_segment (hi : (d.setRes r.begun).imaging n r.die = false)
    (ht : (((d.setRes r.begun).ver n).imageOn r.die).any (fun g => (g.unit seg).isSome) = false) :
    startResolution e d r = if ((d.setRes r.begun).findUnit r.die seg 0).isSome then (d.setRes r.begun).askSegment e n r.die seg r.req
      else (d.setRes r.begun).setRes
        { r with started := true, failed := some (BitVec.ofNat 8 Config.pageFault, 0x26, (d.setRes r.begun).freeBonded r.die) } := by
  cases r; cases hk
  refine if_neg ?_
  rw [Bool.or_eq_true]
  exact fun h => h.elim (ne_true_of_eq_false hi) (ne_true_of_eq_false ht)

end

end

/-! ### The end of a resolution (R191, R193) -/

section
variable {e : Env} {d : Dev} {r : Resolution}

theorem finishResolution_failed {x : Byte × Nat × Nat} (hf : r.failed = some x) (hx : x.1.toNat = Config.pageFault) :
    finishResolution e d r = d.failWaiters e r.id fun va =>
      { error := Config.pageFault, resource := x.2.1, value := va, limit := x.2.2, addr := some va } := by
  have record (limit : Nat) : failedInfo x limit = fun va =>
      { error := Config.pageFault, resource := x.2.1, value := va, limit := x.2.2, addr := some va } :=
    funext fun va => (if_pos hx).trans (by rw [hx])
  simp only [finishResolution, hf, record]

variable (hf : r.failed = none)
include hf

/-- The resolution of a page waits for the move that switches it, and thaws once that has ended. -/
theorem finishResolution_page_moving {asid vpage : Nat} (hk : r.kind = .mgPage asid vpage ∨ r.kind = .movingPage asid vpage)
    (hm : d.pageMoving asid vpage = true) : finishResolution e d r = d := by
  rcases hk with hk | hk
  · simp only [finishResolution, hf, hk]
    exact if_pos (by rw [hm, Bool.or_true])
  · simp only [finishResolution, hf, hk]
    exact if_pos hm
theorem finishResolution_page {asid vpage : Nat} (hk : r.kind = .mgPage asid vpage ∨ r.kind = .movingPage asid vpage)
    (hm : d.pageMoving asid vpage = false) (ho : d.moveOf r.id = none) : finishResolution e d r = d.thaw e r.id := by
  rcases hk with hk | hk
  · simp only [finishResolution, hf, hk]
    exact if_neg (by simp [hm, ho])
  · simp only [finishResolution, hf, hk]
    exact if_neg (ne_true_of_eq_false hm)

/-- The resolution of a segment that has been read writes it on the die of the fault. -/
theorem finishResolution_segment {n seg : Nat} {plain : List Byte} {v : Dev} (hk : r.kind = .segment n seg)
    (ht : ((d.ver n).imageOn r.die).any (fun g => (g.unit seg).isSome) = false) (hi : d.imaging n r.die = false)
    (ha : d.asks (.command r.id) = false) (ho : d.openSegment (d.ver n) seg = .ok plain)
    (hw : d.writeSegment e n r.die seg plain true r.req = some v) : finishResolution e d r = v.thaw e r.id := by
  simp only [finishResolution, hf, hk, resolveSegment, ht, hi, ha, ho, hw, Bool.or_self, Bool.false_eq_true, if_false]

end

section
variable {s : State} {id : Nat} {r : Resolution} {d : Dev} (ho : s.dev.resOf id = some r)
include ho

theorem exec_faultResolutionStart (hr : s.dev.running = true) (hs : r.started = false) (h : startResolution s.env s.dev r = d) :
    exec (.faultResolutionStart id) s = .next { s with dev := d } := by
  change execFaultResolutionStart id s = _
  simp only [execFaultResolutionStart, onDev, State.onDev, ho, hr, hs, Bool.not_false, Bool.and_self, if_true, h]
theorem exec_faultResolutionDone (hr : s.dev.running = true) (hs : r.started = true) (h : finishResolution s.env s.dev r = d) :
    exec (.faultResolutionDone id) s = .next { s with dev := d } := by
  change execFaultResolutionDone id s = _
  simp only [execFaultResolutionDone, onDev, State.onDev, ho, hr, hs, Bool.and_self, if_true, h]
theorem exec_faultResolutionDone_unstarted (hs : r.started = false) : exec (.faultResolutionDone id) s = .next s :=
  congrArg Host.Outcome.next (onDev_same (by simp [ho, hs]))

end

/-! ### Deadlines (R188, R191) -/

section
variable {s : State} {who : Requester} (hwf : who.wf = true)
include hwf

theorem exec_faultDeadline_none (h : s.dev.freezeOf who = none) : exec (.faultDeadlineExpiry who) s = .next s := by
  refine (guarded_wf hwf _).trans ?_
  simp only [h]
theorem exec_tierDeadline_none (h : s.dev.lateTile s.env who = none) : exec (.tierDeadlineExpiry who) s = .next s := by
  refine (guarded_wf hwf _).trans ?_
  simp only [h]

variable (hr : s.dev.running = true)
include hr

/-- The deadline of a freeze and of a late tile passes no earlier than it stands. -/
theorem exec_faultDeadline {z : Freeze} (h : s.dev.freezeOf who = some z) : exec (.faultDeadlineExpiry who) s =
    onDevAt s (z.since + bitsAt s.dev.blk.faultDeadline.toNat 0 32 * Config.usTicks) fun e d => faultExpiry e d who z := by
  refine (guarded_wf hwf _).trans ?_
  simp only [h, hr, if_true]
theorem exec_tierDeadline {pa since lin : Nat} {va : Option Nat} (h : s.dev.lateTile s.env who = some (pa, since, lin, va)) :
    exec (.tierDeadlineExpiry who) s =
      onDevAt s (since + bitsAt s.dev.blk.tierDeadline.toNat 0 32 * Config.usTicks) fun e d => tierExpiry e d who pa lin va := by
  refine (guarded_wf hwf _).trans ?_
  simp only [h, hr, if_true]

end

/-- A stream context does not change while LOCAL_TIME passes. -/
theorem State.streamCtx_upTo (s t : State) (cl me ctx : Nat) {ph : Nat} (hp : ph < 32) : (s.upTo t).streamCtx cl ph me ctx = s.dev.streamCtx cl ph me ctx := by
  unfold Dev.streamCtx State.upTo
  rw [Dev.eng_countCores _ _ _ _ hp]

/-- Settles O29: a resolution starts and ends by its kind, and a deadline passes to its time and ends there the request that is late. -/
theorem resolutionsAndDeadlines : Obligations.ResolutionsAndDeadlines := by
  refine ⟨fun id asid vpage leaf l r s hr ho => ?_, fun cl ph me ctx s hc hp hm hx hr => ?_, fun who s wf hr => ?_⟩
  · have start {d : Dev} (hs : r.started = false) (h : startResolution s.env s.dev r = d) :
        exec (.faultResolutionStart id) s = .next { s with dev := d } := exec_faultResolutionStart ho hr hs h
    have done {d : Dev} (hs : r.started = true) (h : finishResolution s.env s.dev r = d) :
        exec (.faultResolutionDone id) s = .next { s with dev := d } := exec_faultResolutionDone ho hr hs h
    refine ⟨fun hs hk => start hs (startResolution_moving hk), fun hs hk hm => start hs (startResolution_page_moving hk hm),
      fun hs hk hm hw => ⟨fun hp => ?_, fun hp => ?_⟩, fun n seg hs hk => ⟨fun h => ?_, fun hi ht hu => ?_, fun hi ht hu => ?_⟩,
      fun n seg plain u hs hf hk ht hi ha hp hw => done hs (finishResolution_segment hf hk ht hi ha hp hw), exec_faultResolutionDone_unstarted ho,
      fun x hs hf hx => done hs (finishResolution_failed hf hx), fun hs hf hk hm hq => done hs (finishResolution_page hf hk hm hq),
      fun hs hf hk hm => done hs (finishResolution_page_moving hf hk hm)⟩
    · exact start hs ((startResolution_page (e := s.env) hk hm hw).trans (if_pos hp))
    · exact start hs ((startResolution_page (e := s.env) hk hm hw).trans (if_neg hp))
    · exact start hs (startResolution_segment_there hk h)
    · exact start hs ((startResolution_segment hk hi ht).trans (if_pos hu))
    · exact start hs ((startResolution_segment hk hi ht).trans (if_neg (Option.not_isSome_iff_eq_none.2 hu)))
  · have wf : (Requester.stream cl ph me ctx).wf = true := by simp [Requester.wf, hc, hp, hm, hx]
    refine ⟨exec_faultDeadline_none wf, fun z hz => ⟨_, exec_faultDeadline wf hr hz, rfl, ?_⟩,
      fun pa since lin va hl => ⟨_, exec_tierDeadline wf hr hl, rfl, ?_⟩⟩
    · rw [State.passTo_upTo]
      generalize (s.passTo _).onDev _ = t
      rw [← s.streamCtx_upTo t cl me ctx hp]
      rfl
    · rw [State.passTo_upTo]
      rfl
  · exact ⟨exec_tierDeadline_none wf, fun z hz => ⟨_, exec_faultDeadline wf hr hz, rfl, State.passTo_upTo ..⟩,
      fun pa since lin va hl => ⟨_, exec_tierDeadline wf hr hl, rfl, State.passTo_upTo ..⟩⟩

end Sys2Proof.Machine
end

section
/-!
PROOFS. Rounds of a port, and grants of dynamic slots (R231 to R235; log entries 39, 41 and 78).
-/
namespace Sys2Proof.Machine

/-! ### A fold that acts once at each index -/

section
variable {β γ : Type} {read : β → Nat → γ} {f : β → Nat → β} {g : γ → γ} (other : ∀ b i j, j ≠ i → read (f b i) j = read b j)
include other

theorem foldl_read_other {l : List Nat} {j : Nat} (hj : j ∉ l) (b : β) : read (l.foldl f b) j = read b j := by
  induction l generalizing b with
  | nil => rfl
  | cons i t ih =>
    rw [List.mem_cons, not_or] at hj
    obtain ⟨hi, ht⟩ := hj
    rw [List.foldl_cons, ih ht, other b i j hi]

theorem foldl_read_once (same : ∀ b i, read (f b i) i = g (read b i)) {l : List Nat} (hl : l.Nodup) {j : Nat} (hj : j ∈ l) (b : β) :
    read (l.foldl f b) j = g (read b j) := by
  induction l generalizing b with
  | nil => cases hj
  | cons i t ih =>
    obtain ⟨hi, ht⟩ := List.nodup_cons.1 hl
    rw [List.foldl_cons]
    rcases List.mem_cons.1 hj with rfl | hjt
    · rw [foldl_read_other other hi, same]
    · rw [ih ht hjt, other b i j fun h => hi (h ▸ hjt)]

end

/-! ### What presenting and serving requests leave alone -/

/-- Package `v` differs from `d` at most in the slots and requests of the arbiters, the counters of the trestle units, and the contexts of the cores. -/
def Dev.Serves (d v : Dev) : Prop :=
  ∃ c t f x, v = { d with cores := c, btr := t, arb := { d.arb with fixed := f, slots := x } }

theorem Dev.Serves.refl (d : Dev) : d.Serves d := ⟨d.cores, d.btr, d.arb.fixed, d.arb.slots, rfl⟩
theorem Dev.Serves.trans {a b c : Dev} (h : a.Serves b) (g : b.Serves c) : a.Serves c := by
  obtain ⟨c, t, f, x, rfl⟩ := h
  obtain ⟨c', t', f', x', rfl⟩ := g
  exact ⟨c', t', f', x', rfl⟩
theorem Dev.Serves.foldl {α : Type} {f : Dev → α → Dev} (h : ∀ (d : Dev) x, d.Serves (f d x)) (l : List α) (d : Dev) : d.Serves (l.foldl f d) := by
  induction l generalizing d with
  | nil => exact .refl d
  | cons x t ih => exact (h d x).trans (ih _)

section
variable (e : Env) (d : Dev) (now p k : Nat)

theorem Dev.serves_setArbSlot (x : ArbSlot) : d.Serves (d.setArbSlot p k x) := ⟨d.cores, d.btr, d.arb.fixed, _, rfl⟩
theorem Dev.serves_setFixed (l : List FixReq) : d.Serves (d.setFixed p k l) := ⟨d.cores, d.btr, _, d.arb.slots, rfl⟩
theorem Dev.serves_modCtx (cl ph me ctx : Nat) (f : Ctx → Ctx) : d.Serves (d.modCtx cl ph me ctx f) := ⟨_, d.btr, d.arb.fixed, d.arb.slots, rfl⟩
theorem Dev.serves_present : d.Serves (d.present now p k) := by
  unfold Dev.present; split
  · exact .refl d
  · split
    · exact .refl d
    · exact (d.serves_setFixed p k _).trans (Dev.serves_setArbSlot ..)
theorem Dev.serves_ask (r : FixReq) : d.Serves (d.ask e k r) := (d.serves_setFixed _ k _).trans (Dev.serves_present ..)
theorem Dev.serves_presentAll : d.Serves (d.presentAll e p) := .foldl (fun d k => d.serves_present e.now p k) _ d

/-- A fixed slot's request that was served, the slot of which is free for the next one. -/
def Dev.popped (d : Dev) (p k : Nat) (b : Btr) (l : List FixReq) : Dev := (({ d with btr := b } : Dev).setFixed p k l).setArbSlot p k {}

/-- A fixed slot that was served is free, and presents its next request; the next read of a page walk joins the walker's requests before. -/
theorem Dev.servedFixed_shape : d.servedFixed e p k = d.setArbSlot p k {} ∨
    ∃ b l, d.servedFixed e p k = (d.popped p k b l).present e.now p k ∨
      ∃ r, d.servedFixed e p k = ((d.popped p k b l).ask e 15 r).present e.now p k := by
  unfold Dev.servedFixed; split
  · exact .inl rfl
  · rename_i r t _
    have counted (c : Bool) (b : Btr) : (if c = true then { d with btr := b } else d) = { d with btr := if c = true then b else d.btr } := by
      cases c <;> rfl
    refine .inr ?_
    dsimp only
    rw [counted]
    by_cases last : r.n ≤ 1
    · simp only [if_pos last]
      cases r.path with
      | nil => exact ⟨_, _, .inl rfl⟩
      | cons x l => exact ⟨_, _, .inr ⟨_, rfl⟩⟩
    · simp only [if_neg last]
      exact ⟨_, _, .inl rfl⟩

theorem Dev.serves_popped (b : Btr) (l : List FixReq) : d.Serves (d.popped p k b l) := ⟨d.cores, b, _, _, rfl⟩
theorem Dev.serves_servedFixed : d.Serves (d.servedFixed e p k) := by
  rcases d.servedFixed_shape e p k with h | ⟨b, l, h | ⟨r, h⟩⟩ <;> rw [h]
  · exact d.serves_setArbSlot ..
  · exact (d.serves_popped ..).trans (Dev.serves_present ..)
  · exact ((d.serves_popped ..).trans (Dev.serves_ask ..)).trans (Dev.serves_present ..)

/-! ### A slot that presents a request keeps it -/

variable {d} {q j : Nat} (hr : (d.arbSlot q j).ready = true)
include hr

theorem Dev.arbSlot_present_ready : (d.present now p k).arbSlot q j = d.arbSlot q j := by
  by_cases same : 64 * q + j = 64 * p + k
  · rw [Dev.present_busy d now p k (by unfold Dev.arbSlot at hr ⊢; rwa [← same])]
  · unfold Dev.present; split
    · rfl
    · split
      · rfl
      · rw [Dev.arbSlot_setArbSlot_other _ _ _ _ same, Dev.arbSlot_setFixed]
theorem Dev.arbSlot_ask_ready (r : FixReq) : (d.ask e k r).arbSlot q j = d.arbSlot q j :=
  Dev.arbSlot_present_ready (d := d.setFixed _ k _) e.now _ k hr

variable (hne : 64 * q + j ≠ 64 * p + k)
include hne

theorem Dev.arbSlot_servedFixed_ready : (d.servedFixed e p k).arbSlot q j = d.arbSlot q j := by
  have popped (b : Btr) (l : List FixReq) : (d.popped p k b l).arbSlot q j = d.arbSlot q j := Dev.arbSlot_setArbSlot_other _ _ _ _ hne
  have ready (b : Btr) (l : List FixReq) : ((d.popped p k b l).arbSlot q j).ready = true := by rw [popped, hr]
  rcases d.servedFixed_shape e p k with h | ⟨b, l, h | ⟨r, h⟩⟩ <;> rw [h]
  · exact Dev.arbSlot_setArbSlot_other _ _ _ _ hne
  · rw [Dev.arbSlot_present_ready _ _ _ (ready b l), popped]
  · have asked := Dev.arbSlot_ask_ready e 15 (ready b l) r
    rw [Dev.arbSlot_present_ready _ _ _ (by rw [asked, ready b l]), asked, popped]

end

/-! ### A grant (R234): the winner and the others are counted, the others lose a round, and the winner's requester goes on -/

/-- The slots of a port that present a request, without slot `k`. -/
def Dev.others (d : Dev) (p k : Nat) : List Nat := (List.range 64).filter fun j => j ≠ k && (d.arbSlot p j).ready

/-- GRANTS and MAX_WAIT of the winner, and WAITS of the slots `l`, count a grant to slot `k`. -/
def Dev.countGrant (d : Dev) (p k : Nat) (l : List Nat) : Dev :=
  { d with arb := { d.arb with
    grants := satPut 64 (64 * p + k) (Tab.get 0 (64 * p + k) d.arb.grants + 1) d.arb.grants
    maxWait := Tab.put (64 * p + k) (max (Tab.get 0 (64 * p + k) d.arb.maxWait) (d.arbNow p - (d.arbSlot p k).arrived).toNat) d.arb.maxWait
    waits := l.foldl (fun t j => satPut 64 (64 * p + j) (Tab.get 0 (64 * p + j) t + 1) t) d.arb.waits } }

/-- A slot after a round that another one won. -/
def ArbSlot.outbid (x : ArbSlot) : ArbSlot := { x with lost := min 65535 (x.lost + 1) }
/-- The slots `l` of a port lose a round. -/
def Dev.loseRound (d : Dev) (p : Nat) (l : List Nat) : Dev := l.foldl (fun d j => d.setArbSlot p j (d.arbSlot p j).outbid) d

/-- The oldest transfer of a context that waits for its grant is granted, and its slot presents the next. -/
def Dev.grantXfer (d : Dev) (p k : Nat) (s : ArbSlot) (cl ph me ctx : Nat) : Dev :=
  match (d.streamCtx cl ph me ctx).nextXfer p with
  | none => d.setArbSlot p k { s with ready := false, lost := 0 }
  | some t =>
    let d := d.modCtx cl ph me ctx fun c => { c with outst := c.outst.map fun y => if y.lin = t.lin then { y with granted := true } else y }
    match (d.streamCtx cl ph me ctx).nextXfer p with
    | some y => d.setArbSlot p k { s with ready := true, d := y.deadline, lost := 0, arrived := y.arrived }
    | none => d.setArbSlot p k { s with ready := false, lost := 0 }

/-- The next request of the requester that holds slot `k`, which stood as `s`. -/
def Dev.nextRequest (e : Env) (d : Dev) (p k : Nat) (s : ArbSlot) : Dev :=
  match s.owner with
  | .stream cl ph me ctx => d.grantXfer p k s cl ph me ctx
  | _ => d.servedFixed e p k

theorem Dev.grant_eq (e : Env) (d : Dev) (p k : Nat) :
    d.grant e p k = ((d.countGrant p k (d.others p k)).loseRound p (d.others p k)).nextRequest e p k (d.arbSlot p k) := rfl

section
variable (e : Env) (d : Dev) (p k : Nat)

theorem Dev.mem_others {j : Nat} : j ∈ d.others p k ↔ j < 64 ∧ j ≠ k ∧ (d.arbSlot p j).ready = true := by simp [Dev.others]
theorem Dev.others_nodup : (d.others p k).Nodup := List.nodup_range.filter _

theorem Dev.serves_loseRound (l : List Nat) : d.Serves (d.loseRound p l) := .foldl (fun d j => d.serves_setArbSlot p j _) l d

/-- A context's grant writes its transfers and its slot. -/
theorem Dev.grantXfer_shape (s : ArbSlot) (cl ph me ctx : Nat) : ∃ f x, d.grantXfer p k s cl ph me ctx = (d.modCtx cl ph me ctx f).setArbSlot p k x ∨
    d.grantXfer p k s cl ph me ctx = d.setArbSlot p k x := by
  unfold Dev.grantXfer; split
  · exact ⟨id, _, .inr rfl⟩
  · dsimp only; split
    · exact ⟨_, _, .inl rfl⟩
    · exact ⟨_, _, .inl rfl⟩

theorem Dev.serves_nextRequest (s : ArbSlot) : d.Serves (d.nextRequest e p k s) := by
  unfold Dev.nextRequest; split
  · rename_i cl ph me ctx _
    obtain ⟨f, x, h | h⟩ := d.grantXfer_shape p k s cl ph me ctx <;> rw [h]
    · exact (d.serves_modCtx cl ph me ctx f).trans (Dev.serves_setArbSlot ..)
    · exact d.serves_setArbSlot ..
  · exact d.serves_servedFixed ..

/-- The winner's next request leaves another slot that presents one. -/
theorem Dev.arbSlot_nextRequest_ready {j : Nat} (hr : (d.arbSlot p j).ready = true) (hne : j ≠ k) (s : ArbSlot) :
    (d.nextRequest e p k s).arbSlot p j = d.arbSlot p j := by
  have key : 64 * p + j ≠ 64 * p + k := fun h => hne (Nat.add_left_cancel h)
  unfold Dev.nextRequest; split
  · rename_i cl ph me ctx _
    obtain ⟨f, x, h | h⟩ := d.grantXfer_shape p k s cl ph me ctx <;> rw [h]
    · exact Dev.arbSlot_setArbSlot_other _ _ _ _ key
    · exact Dev.arbSlot_setArbSlot_other _ _ _ _ key
  · exact Dev.arbSlot_servedFixed_ready e p k hr key

/-- A grant writes the counters of the port, and what serving its winner writes. -/
theorem Dev.serves_grant : (d.countGrant p k (d.others p k)).Serves (d.grant e p k) := by
  rw [Dev.grant_eq]
  exact (Dev.serves_loseRound ..).trans (Dev.serves_nextRequest ..)

variable {d p k} {j : Nat} (hj : j ∈ d.others p k)
include hj

/-- A slot that a round passes over waits one round more, and has lost one more. -/
theorem Dev.waits_countGrant : Tab.get 0 (64 * p + j) (d.countGrant p k (d.others p k)).arb.waits
    = min (2 ^ 64 - 1) (Tab.get 0 (64 * p + j) d.arb.waits + 1) :=
  foldl_read_once (read := fun t j => Tab.get 0 (64 * p + j) t) (g := fun n => min (2 ^ 64 - 1) (n + 1))
    (fun _ _ _ h => Tab.get_put_other _ (by omega) _ _) (fun _ _ => Tab.get_put_same _ _ _ _) (d.others_nodup p k) hj d.arb.waits
theorem Dev.arbSlot_loseRound (v : Dev) : (v.loseRound p (d.others p k)).arbSlot p j = (v.arbSlot p j).outbid :=
  foldl_read_once (read := fun d j => d.arbSlot p j) (fun _ _ _ h => Dev.arbSlot_setArbSlot_other _ _ _ _ (by omega))
    (fun _ _ => Dev.arbSlot_setArbSlot ..) (d.others_nodup p k) hj v
theorem Dev.arbSlot_grant : (d.grant e p k).arbSlot p j = (d.arbSlot p j).outbid := by
  obtain ⟨-, hne, hr⟩ := (d.mem_others p k).1 hj
  have lost := Dev.arbSlot_loseRound hj (d.countGrant p k (d.others p k))
  rw [Dev.grant_eq, Dev.arbSlot_nextRequest_ready _ _ _ _ _ hne, lost]
  · rfl
  · rw [lost]; exact hr

end

/-! ### A round (R234) -/

section
variable {e : Env} {d : Dev} {p : Nat}

/-- NOW of a port counts one cycle on. -/
def Dev.tickPort (d : Dev) (p : Nat) : Dev := { d with arb := { d.arb with now := Tab.put p (d.arbNow p + 1#32) d.arb.now } }

theorem Dev.arbNow_tickPort : (d.tickPort p).arbNow p = d.arbNow p + 1#32 := Tab.get_put_same ..
theorem Dev.Serves.arbNow {v : Dev} (h : d.Serves v) (q : Nat) : v.arbNow q = d.arbNow q := by obtain ⟨c, t, f, x, rfl⟩ := h; rfl
theorem Dev.Serves.counters {v : Dev} (h : d.Serves v) :
    v.arb.grants = d.arb.grants ∧ v.arb.maxWait = d.arb.maxWait ∧ v.arb.waits = d.arb.waits := by
  obtain ⟨c, t, f, x, rfl⟩ := h; exact ⟨rfl, rfl, rfl⟩
theorem Dev.Serves.outside {v : Dev} (h : d.Serves v) : v.blk = d.blk ∧ v.out = d.out ∧ v.opens = d.opens := by
  obtain ⟨c, t, f, x, rfl⟩ := h; exact ⟨rfl, rfl, rfl⟩

theorem Dev.arbRound_eq : d.arbRound e p = ((d.presentAll e p).roundGrant e p).tickPort p := rfl
theorem Dev.roundGrant_none (h : d.winner p = none) : d.roundGrant e p = d := by simp only [Dev.roundGrant, h]
theorem Dev.roundGrant_some {k : Nat} (h : d.winner p = some k) : d.roundGrant e p = d.grant e p k := by simp only [Dev.roundGrant, h]

/-- A round leaves all but the arbiters, the units' counters and the contexts, and NOW counts one on. -/
theorem Dev.roundGrant_keeps : (d.roundGrant e p).arbNow p = d.arbNow p ∧ (d.roundGrant e p).blk = d.blk ∧ (d.roundGrant e p).out = d.out ∧
    (d.roundGrant e p).opens = d.opens := by
  cases h : d.winner p with
  | none => rw [Dev.roundGrant_none h]; exact ⟨rfl, rfl, rfl, rfl⟩
  | some k => rw [Dev.roundGrant_some h]; exact ⟨(d.serves_grant e p k).arbNow p, (d.serves_grant e p k).outside⟩
theorem Dev.arbRound_keeps : (d.arbRound e p).arbNow p = d.arbNow p + 1#32 ∧ (d.arbRound e p).blk = d.blk ∧ (d.arbRound e p).out = d.out ∧
    (d.arbRound e p).opens = d.opens := by
  obtain ⟨now, blk, out, opens⟩ := Dev.roundGrant_keeps (e := e) (d := d.presentAll e p) (p := p)
  obtain ⟨blk', out', opens'⟩ := (d.serves_presentAll e p).outside
  rw [Dev.arbRound_eq]
  exact ⟨by rw [Dev.arbNow_tickPort, now, (d.serves_presentAll e p).arbNow], blk.trans blk', out.trans out', opens.trans opens'⟩

theorem Dev.arbRound_none (h : (d.presentAll e p).winner p = none) : d.arbRound e p =
    { d.presentAll e p with arb := { (d.presentAll e p).arb with now := Tab.put p (d.arbNow p + 1#32) (d.presentAll e p).arb.now } } := by
  rw [Dev.arbRound_eq, Dev.roundGrant_none h, Dev.tickPort, (d.serves_presentAll e p).arbNow]
theorem Dev.arbRound_some {k : Nat} (h : (d.presentAll e p).winner p = some k) :
    d.arbRound e p = ((d.presentAll e p).grant e p k).tickPort p := by
  rw [Dev.arbRound_eq, Dev.roundGrant_some h]

/-- The counts of a round that slot `k` wins. -/
theorem Dev.arbRound_winner {k : Nat} (h : (d.presentAll e p).winner p = some k) :
    Tab.get 0 (64 * p + k) (d.arbRound e p).arb.grants = min (2 ^ 64 - 1) (Tab.get 0 (64 * p + k) d.arb.grants + 1) ∧
      Tab.get 0 (64 * p + k) (d.arbRound e p).arb.maxWait
        = max (Tab.get 0 (64 * p + k) d.arb.maxWait) (d.arbNow p - ((d.presentAll e p).arbSlot p k).arrived).toNat := by
  obtain ⟨grants, maxWait, -⟩ := ((d.presentAll e p).serves_grant e p k).counters
  obtain ⟨grants', maxWait', -⟩ := (d.serves_presentAll e p).counters
  rw [Dev.arbRound_some h]
  constructor
  · calc Tab.get 0 (64 * p + k) ((d.presentAll e p).grant e p k).arb.grants
      _ = min (2 ^ 64 - 1) (Tab.get 0 (64 * p + k) (d.presentAll e p).arb.grants + 1) := by rw [grants]; exact Tab.get_put_same ..
      _ = _ := by rw [grants']
  · calc Tab.get 0 (64 * p + k) ((d.presentAll e p).grant e p k).arb.maxWait
      _ = max (Tab.get 0 (64 * p + k) (d.presentAll e p).arb.maxWait)
          ((d.presentAll e p).arbNow p - ((d.presentAll e p).arbSlot p k).arrived).toNat := by rw [maxWait]; exact Tab.get_put_same ..
      _ = _ := by rw [maxWait', (d.serves_presentAll e p).arbNow]
theorem Dev.arbRound_loser {k j : Nat} (h : (d.presentAll e p).winner p = some k) (hj : j ∈ (d.presentAll e p).others p k) :
    Tab.get 0 (64 * p + j) (d.arbRound e p).arb.waits = min (2 ^ 64 - 1) (Tab.get 0 (64 * p + j) d.arb.waits + 1) ∧
      (d.arbRound e p).arbSlot p j = ((d.presentAll e p).arbSlot p j).outbid := by
  obtain ⟨-, -, waits⟩ := ((d.presentAll e p).serves_grant e p k).counters
  obtain ⟨-, -, waits'⟩ := (d.serves_presentAll e p).counters
  rw [Dev.arbRound_some h]
  constructor
  · calc Tab.get 0 (64 * p + j) ((d.presentAll e p).grant e p k).arb.waits
      _ = min (2 ^ 64 - 1) (Tab.get 0 (64 * p + j) (d.presentAll e p).arb.waits + 1) := by rw [waits, Dev.waits_countGrant hj]
      _ = _ := by rw [waits']
  · exact Dev.arbSlot_grant e hj

end

section
variable {s : State} {port : Fin 672}

theorem exec_arbRound_dead (h : s.dev.portDead port = true) : exec (.arbRound port) s = .next s :=
  congrArg Host.Outcome.next (onDev_same (if_neg (by simp [h])))
theorem exec_arbRound_live (hr : s.dev.running = true) (hf : s.fuse.arbFitted port = true) (h : s.dev.portDead port = false) :
    exec (.arbRound port) s = .next { s with dev := s.dev.arbRound s.env port } := by
  have served : (s.dev.running && s.fuse.arbFitted port && !s.dev.portDead port) = true := by simp [hr, hf, h]
  exact congrArg (fun d => Host.Outcome.next { s with dev := d }) (if_pos served)

end

/-! ### A free dynamic slot is granted (R232, R233) -/

/-- Transfer `v` waits at a port for the context of `w`. -/
def SlotWait.alike (w : SlotWait) (p : Nat) (v : SlotWait) : Bool := v.port = p && v.cl = w.cl && v.phys = w.phys && v.me = w.me && v.ctx = w.ctx

/-- A transfer that waits at a port enters its arbiter, and the transfers of a context that wait there. -/
def Xfer.enter (y : Xfer) (now p : Nat) (dl arrived : Word) : Xfer :=
  if y.port = p && y.since.isNone then { y with since := some now, deadline := dl, arrived := arrived } else y
def Ctx.enter (c : Ctx) (now p : Nat) (dl arrived : Word) : Ctx := { c with outst := c.outst.map fun y => y.enter now p dl arrived }

/-- Slot `k` of a port is taken for the oldest transfer of a context that has entered the arbiter. -/
def Dev.takeSlot (d : Dev) (p k : Nat) (w : SlotWait) : Dev :=
  match (d.streamCtx w.cl w.phys w.me w.ctx).nextXfer p with
  | some y => d.setArbSlot p k { owner := .stream w.cl w.phys w.me w.ctx, ready := true, d := y.deadline, lost := 0, arrived := y.arrived }
  | none => d

section
variable {now p : Nat} {dl arrived : Word}

theorem Xfer.enter_keeps (y : Xfer) : (y.enter now p dl arrived).port = y.port ∧ (y.enter now p dl arrived).granted = y.granted := by
  unfold Xfer.enter; split <;> exact ⟨rfl, rfl⟩
theorem Xfer.enter_since {y : Xfer} (h : y.port = p) : (y.enter now p dl arrived).since.isSome = true := by
  unfold Xfer.enter; split
  · rfl
  · rename_i stays
    exact Option.isSome_iff_ne_none.2 (by simpa [h] using stays)

theorem Ctx.enter_since {c : Ctx} {x : Xfer} (hx : x ∈ (c.enter now p dl arrived).outst) (hp : x.port = p) : x.since.isSome = true := by
  obtain ⟨y, -, rfl⟩ := List.mem_map.1 hx
  exact Xfer.enter_since (y.enter_keeps.1.symm.trans hp)

/-- A transfer of a context that is not granted is one that its slot can present, once it has entered. -/
theorem Ctx.enter_nextXfer {c : Ctx} (h : ∃ x ∈ c.outst, x.port = p ∧ x.granted = false) :
    ((c.enter now p dl arrived).nextXfer p).isSome = true := by
  obtain ⟨x, hx, hp, hg⟩ := h
  obtain ⟨port, granted⟩ := x.enter_keeps (now := now) (p := p) (dl := dl) (arrived := arrived)
  refine List.find?_isSome.2 ⟨_, List.mem_map_of_mem hx, ?_⟩
  simp [port, granted, hp, hg, Xfer.enter_since hp]

end

section
variable {d : Dev} {now p k : Nat} {w : SlotWait}

theorem Dev.slotGrant_none (h : d.freeSlot p = none ∨ d.nextWait p = none) : d.slotGrant now p = d := by
  unfold Dev.slotGrant; split
  · rename_i free wait
    rw [free, wait] at h
    rcases h with h | h <;> cases h
  · rfl

/-- The deadline takes one value that the spec leaves open. -/
theorem Dev.deadlineNow_cases (d : Dev) (p cl ph me ctx : Nat) : ∃ dl n, d.deadlineNow p cl ph me ctx = (dl, { d with freeCount := n }) := by
  unfold Dev.deadlineNow
  dsimp only
  split
  · exact ⟨_, _, rfl⟩
  · exact ⟨_, _, rfl⟩

/-- The package in which the transfers of a context that waited at a port have entered its arbiter, with deadline `dl`. -/
def Dev.waitsNoMore (d : Dev) (now p n : Nat) (dl : Word) (w : SlotWait) : Dev :=
  ({ d with freeCount := n, arb := { d.arb with waiting := d.arb.waiting.filter fun v => !w.alike p v } } : Dev).modCtx
    w.cl w.phys w.me w.ctx fun c => c.enter now p dl (d.arbNow p)

theorem Dev.slotGrant_some (hk : d.freeSlot p = some k) (hw : d.nextWait p = some w) :
    ∃ dl n, d.slotGrant now p = (d.waitsNoMore now p n dl w).takeSlot p k w := by
  obtain ⟨dl, n, h⟩ := d.deadlineNow_cases p w.cl w.phys w.me w.ctx
  refine ⟨dl, n, ?_⟩
  simp only [Dev.slotGrant, hk, hw, h]
  rfl

theorem Dev.serves_takeSlot : d.Serves (d.takeSlot p k w) := by
  unfold Dev.takeSlot; split
  · exact d.serves_setArbSlot ..
  · exact .refl d
theorem Dev.takeSlot_rest : (d.takeSlot p k w).cores = d.cores ∧ (d.takeSlot p k w).arb.waiting = d.arb.waiting := by
  unfold Dev.takeSlot; split <;> exact ⟨rfl, rfl⟩
theorem Dev.takeSlot_taken (h : ((d.streamCtx w.cl w.phys w.me w.ctx).nextXfer p).isSome = true) :
    ((d.takeSlot p k w).arbSlot p k).owner = .stream w.cl w.phys w.me w.ctx ∧ ((d.takeSlot p k w).arbSlot p k).ready = true := by
  obtain ⟨y, hy⟩ := Option.isSome_iff_exists.1 h
  simp only [Dev.takeSlot, hy, Dev.arbSlot_setArbSlot, and_self]

theorem Dev.streamCtx_cores {u v : Dev} (h : v.cores = u.cores) (cl ph me ctx : Nat) : v.streamCtx cl ph me ctx = u.streamCtx cl ph me ctx := by
  unfold Dev.streamCtx Dev.eng Dev.core; rw [h]

section
variable (hk : d.freeSlot p = some k) (hw : d.nextWait p = some w)
include hk hw

/-- A grant takes the context's transfers at the port out of those that wait, and counts nothing. -/
theorem Dev.slotGrant_keeps : (d.slotGrant now p).arb.grants = d.arb.grants ∧ (d.slotGrant now p).blk = d.blk ∧ (d.slotGrant now p).out = d.out ∧
    (d.slotGrant now p).arb.waiting = d.arb.waiting.filter fun v => !w.alike p v := by
  obtain ⟨dl, n, h⟩ := Dev.slotGrant_some (now := now) hk hw
  have serves : (d.waitsNoMore now p n dl w).Serves (d.slotGrant now p) := h ▸ Dev.serves_takeSlot
  exact ⟨serves.counters.1, serves.outside.1, serves.outside.2.1, h ▸ Dev.takeSlot_rest.2⟩
/-- The transfers of the context at the port enter the arbiter with one deadline. -/
theorem Dev.streamCtx_slotGrant : ∃ dl, (d.slotGrant now p).streamCtx w.cl w.phys w.me w.ctx =
    (d.streamCtx w.cl w.phys w.me w.ctx).enter now p dl (d.arbNow p) := by
  obtain ⟨dl, n, h⟩ := Dev.slotGrant_some (now := now) hk hw
  exact ⟨dl, by rw [h, Dev.streamCtx_cores Dev.takeSlot_rest.1, Dev.waitsNoMore, Dev.streamCtx_modCtx]; rfl⟩
theorem Dev.slotGrant_taken (hx : ∃ x ∈ (d.streamCtx w.cl w.phys w.me w.ctx).outst, x.port = p ∧ x.granted = false) :
    ((d.slotGrant now p).arbSlot p k).owner = .stream w.cl w.phys w.me w.ctx ∧ ((d.slotGrant now p).arbSlot p k).ready = true := by
  obtain ⟨dl, n, h⟩ := Dev.slotGrant_some (now := now) hk hw
  rw [h]
  refine Dev.takeSlot_taken ?_
  rw [Dev.waitsNoMore, Dev.streamCtx_modCtx]
  exact Ctx.enter_nextXfer hx

end

end

theorem exec_dynamicSlotGrant {s : State} {port : Fin 672} (hr : s.dev.running = true) (hf : s.fuse.arbFitted port = true) :
    exec (.dynamicSlotGrant port) s = .next { s with dev := s.dev.slotGrant s.env.now port } := by
  have served : (s.dev.running && s.fuse.arbFitted port) = true := by simp [hr, hf]
  exact congrArg (fun d => Host.Outcome.next { s with dev := d }) (if_pos served)

/-- Settles O23: a round counts its winner and those that it passes over, and a free dynamic slot goes to the context that waits. -/
theorem portRounds : Obligations.PortRounds := by
  intro port s hr hf
  refine ⟨exec_arbRound_dead, fun hd => ?_, fun h => ?_, fun k w hk hw => ?_⟩
  · obtain ⟨now, blk, out, opens⟩ := Dev.arbRound_keeps (e := s.env) (d := s.dev) (p := port)
    refine ⟨_, exec_arbRound_live hr hf hd, now, blk, out, opens, Dev.arbRound_none, fun k hk => ?_⟩
    obtain ⟨grants, maxWait⟩ := Dev.arbRound_winner hk
    refine ⟨?_, ?_, grants, maxWait, fun j lt ne ready => Dev.arbRound_loser hk ((Dev.mem_others ..).2 ⟨lt, ne, ready⟩)⟩
    · rw [Dev.arbRound_some hk]; rfl
    · rw [Dev.arbRound_some hk]; rfl
  · rw [exec_dynamicSlotGrant hr hf, Dev.slotGrant_none h]
  · obtain ⟨grants, blk, out, waiting⟩ := Dev.slotGrant_keeps (now := s.env.now) hk hw
    obtain ⟨dl, entered⟩ := Dev.streamCtx_slotGrant (now := s.env.now) hk hw
    exact ⟨_, exec_dynamicSlotGrant hr hf, grants, blk, out, waiting, fun x hx => Ctx.enter_since (entered ▸ hx), Dev.slotGrant_taken hk hw⟩

end Sys2Proof.Machine
end

section
/-!
PROOFS. The commit of a serving step, and the end of a TRESTLE (R207, R220, R221, R271, R277, R280 to R285; log entries 18 and 83).
-/
namespace Sys2Proof.Machine

/-! ### The commit of a step (R271, R277) -/

section
variable {d : Dev} {e : Env} {r : StepRun} {o : OpenCmd}

theorem stepDone_commits (h : d.badRecord e.fuse r o.func = none) :
    stepDone e d r o = (d.charge o r.charge).settle e [.done o.uid r.result, .stepBegin r.die] := by
  simp only [stepDone, h]
theorem stepDone_badRecord {t : Trans} {va : Nat} (h : d.badRecord e.fuse r o.func = some (t, va)) :
    stepDone e d r o = d.failFault e o (rtFault t va) := by
  simp only [stepDone, h]

end

section
variable {s : State} {die : DieId}

theorem exec_stepCommit_none (h : s.dev.stepToCommit die = none) : exec (.stepCommit die) s = .next s :=
  congrArg Host.Outcome.next (onDev_same (by simp only [h]))
theorem exec_stepCommit {r : StepRun} {o : OpenCmd} {d : Dev} (hr : s.dev.running = true) (hc : s.dev.stepToCommit die = some (r, o))
    (h : stepDone s.env s.dev r o = d) : exec (.stepCommit die) s = .next { s with dev := d } := by
  change execStepCommit die s = _
  simp only [execStepCommit, onDev, State.onDev, hc, hr, if_true, h]

end

/-! ### The end of a TRESTLE (R207, R220, R221) -/

theorem Dev.runOf_uid {d : Dev} {uid : Nat} {r : TrestleRun} (h : d.runOf uid = some r) : r.uid = uid := by
  simpa using List.find?_some h

section
variable {d : Dev} {e : Env} {r : TrestleRun}

theorem trestleDone_waits (h : r.done = false ∨ d.asks (.command r.uid) = true) : trestleDone e d r = d := by
  obtain h | h := h
  · simp [trestleDone, h]
  · simp [trestleDone, h]
theorem trestleDone_served (hd : r.done = true) (ha : d.asks (.command r.uid) = false) :
    trestleDone e d r = (d.dropRun r.uid).settle e [.done r.uid r.result] := by
  simp [trestleDone, hd, ha]

/-- An uncorrected error of a unit ends the command that holds context `c` there; one free value gives the element and the address that its record
names (log entry 83). -/
theorem trestleEcc_held {o : OpenCmd} {unit y c : Nat} (h : r.ctxs.find? (fun x => x.1 = unit) = some (y, c)) (resource : Nat) (value : Nat → Nat) :
    ∃ k x, trestleEcc e d o r unit resource value = (d.free 84).2.failFault e o
      { error := Config.eccUncorrected, resource := resource, engine := 0xF0, ctx := some c, value := value c, addr := some x, firing := some k } :=
  ⟨(d.free 84).1.toNat / 2 ^ 52 % max r.k 1, (d.free 84).1.toNat % 2 ^ 52, by simp only [trestleEcc, h]⟩

end

/-- What the row does to a run of an open command, by how the work ended. -/
def trestleEnds (e : Env) (d : Dev) (r : TrestleRun) (o : OpenCmd) : TrestleEcc → Dev
  | .good => trestleDone e d r
  | .staging unit off => trestleEcc e d o r unit 0x33 fun c => 4096 * c + off / 8 * 8
  | .crossbar unit => trestleEcc e d o r unit 0x34 fun _ => unit

theorem exec_trestleDone {s : State} {uid : Nat} {r : TrestleRun} {o : OpenCmd} {ecc : TrestleEcc} {d : Dev} (hr : s.dev.running = true)
    (hf : s.dev.runOf uid = some r) (ho : s.dev.openOf uid = some o) (h : trestleEnds s.env s.dev r o ecc = d) :
    exec (.trestleDone { uid := uid, ecc := ecc }) s = .next { s with dev := d } := by
  subst h
  change execTrestleDone { uid := uid, ecc := ecc } s = _
  simp only [execTrestleDone, onDev, State.onDev, hf, ho, hr, Bool.not_true, Bool.false_eq_true, if_false]
  cases ecc with
  | good | staging | crossbar => rfl

/-- Settles O27: a step commits or fails at its first bad record, and a TRESTLE waits, completes, or ends with the error of a unit that it holds. -/
theorem stepAndTrestleEnd : Obligations.StepAndTrestleEnd := by
  intro die uid s hr
  refine ⟨exec_stepCommit_none, fun r o hc => ⟨fun hb => exec_stepCommit hr hc (stepDone_commits (e := s.env) hb),
    fun t va hb => exec_stepCommit hr hc (stepDone_badRecord (e := s.env) hb)⟩, fun r o hf ho => ?_⟩
  obtain rfl := Dev.runOf_uid hf
  refine ⟨fun h => exec_trestleDone hr hf ho (trestleDone_waits h),
    fun hd ha => exec_trestleDone hr hf ho (trestleDone_served hd ha), fun unit off y c hc => ⟨?_, ?_⟩⟩
  · obtain ⟨k, x, ended⟩ := trestleEcc_held (d := s.dev) (e := s.env) (o := o) hc 0x33 fun c => 4096 * c + off / 8 * 8
    exact ⟨k, x, exec_trestleDone hr hf ho ended⟩
  · obtain ⟨k, x, ended⟩ := trestleEcc_held (d := s.dev) (e := s.env) (o := o) hc 0x34 fun _ => unit
    exact ⟨k, x, exec_trestleDone hr hf ho ended⟩

end Sys2Proof.Machine
end

section
/-!
PROOFS. The dispatcher (R291), and the cycles and slots of the cyclic table (R294).
-/
namespace Sys2Proof.Machine

/-- A row does to the package what any function does that agrees with it there. -/
theorem onDev_acts {s : State} {f g : Env → Dev → Dev} (h : f s.env s.dev = g s.env s.dev) : onDev s f = .next (s.onDev g) := by
  unfold onDev State.onDev; rw [h]

theorem onDev_stays {s : State} {f : Env → Dev → Dev} (h : f s.env s.dev = s.dev) : onDev s f = .next s := by
  unfold onDev; rw [onDev_same h]

/-! ### The dispatcher (R291) -/

section
variable {e : Env} {d : Dev} {n : Nat} {owner : Bool} {h : Fetched}

/-- A chosen head starts by its opcode: an executor runs launches, steps or TRESTLEs. -/
theorem startChosen_spanLaunch (hh : (d.queue (n / 64) (n % 64)).fetched.head? = some h) (hc : cmdIs opSpanLaunch h.cmd = true) :
    startChosen e d n owner = startCmd e d (n / 64) (n % 64) h owner spanLaunchCheck runSpanLaunch := by
  simp only [startChosen, hh]
  exact if_pos (of_decide_eq_true hc)

theorem startChosen_seqStep (hh : (d.queue (n / 64) (n % 64)).fetched.head? = some h) (hc : cmdIs opSeqStep h.cmd = true) :
    startChosen e d n owner = startCmd e d (n / 64) (n % 64) h owner seqStepCheck runSeqStep := by
  have op : cmdOpcode h.cmd = opSeqStep := of_decide_eq_true hc
  simp only [startChosen, hh, op]
  rfl

theorem startChosen_trestle (hh : (d.queue (n / 64) (n % 64)).fetched.head? = some h) (hc : cmdIs opTrestle h.cmd = true) :
    startChosen e d n owner = startCmd e d (n / 64) (n % 64) h owner trestleCheck runTrestleCmd := by
  have op : cmdOpcode h.cmd = opTrestle := of_decide_eq_true hc
  simp only [startChosen, hh, op]
  rfl

end

section
variable {die : DieId} {x : Executor} {s : State} (hx : x.wf = true)
include hx

theorem exec_dispatch_none (hc : s.dev.choice s.env die x = none) : exec (.dispatch die x) s = .next s := by
  refine (guarded_wf hx _).trans (onDev_stays ?_)
  simp only [hc, ite_self]

theorem exec_dispatch_some {n : Nat} {owner : Bool} {start : Env → Dev → Dev} (hs : s.dev.inService = true)
    (hc : s.dev.choice s.env die x = some (n, owner)) (h : startChosen s.env s.dev n owner = start s.env s.dev) :
    exec (.dispatch die x) s = .next (s.onDev fun e d => (start e d).sweepLeavers e) := by
  refine (guarded_wf hx _).trans (onDev_acts ?_)
  simp only [hs, hc, if_true, h]

end

/-! ### Cycles and slots (R294) -/

section
variable {s : State}

theorem exec_cycleStart_disabled (he : s.dev.sch.enabled = false) : exec .cycleStart s = .next s := if_neg (by simp [he])

theorem exec_slotStart_disabled (he : s.dev.sch.enabled = false) : exec .slotStart s = .next s := if_neg (by simp [he])

theorem exec_cycleStart_enabled (hr : s.dev.running = true) (he : s.dev.sch.enabled = true) :
    exec .cycleStart s = onDevAt s s.dev.sch.nextCycle fun _ d => cycleStart d := if_pos (by simp [hr, he])

theorem exec_slotStart_next (hr : s.dev.running = true) (he : s.dev.sch.enabled = true) (hi : s.dev.sch.inCycle = true)
    (hl : s.dev.sch.slot + 1 < s.dev.sch.cycle.length) :
    exec .slotStart s = onDevAt s s.dev.sch.nextSlot fun _ d =>
      { d with sch := { s.dev.sch with slot := s.dev.sch.slot + 1, slotBegin := s.dev.sch.nextSlot } } := if_pos (by simp [hr, he, hi, hl])

end

/-- Settles O37: the dispatcher starts the head it chooses by its opcode, and a cycle or slot begins at its time. -/
theorem dispatchAndSlots : Obligations.DispatchAndSlots := by
  intro die x s hr
  refine ⟨fun hx hs => ⟨exec_dispatch_none hx, fun n owner h hc hh => ⟨fun op => ?_, fun op => ?_, fun op => ?_⟩⟩,
    fun he => ⟨exec_cycleStart_disabled he, exec_slotStart_disabled he⟩, fun he => ⟨_, exec_cycleStart_enabled hr he, rfl, rfl⟩,
    fun he hi hl => ⟨_, exec_slotStart_next hr he hi hl, rfl, rfl⟩⟩
  · exact exec_dispatch_some hx hs hc (startChosen_spanLaunch hh op)
  · exact exec_dispatch_some hx hs hc (startChosen_seqStep hh op)
  · exact exec_dispatch_some hx hs hc (startChosen_trestle hh op)

end Sys2Proof.Machine
end

section
/-!
PROOFS. The triggers of a function reset (R299), its end (R300, R302), and the loss of the link (R391).
-/
namespace Sys2Proof

/-! A table that keeps `w` entries for each function reads as its default at those of a function whose entries are dropped, and as before at others. -/

theorem Tab.get_dropBlock_same {α : Type} (d : α) {w f i : Nat} (hi : i < w) (t : Tab α) :
    Tab.get d (w * f + i) (t.filter fun x => x.1 / w ≠ f) = d := by
  refine (Tab.get_filter d _ (fun k => k / w ≠ f) t).trans (if_neg ?_)
  simp [Nat.mul_add_div (Nat.zero_lt_of_lt hi), Nat.div_eq_of_lt hi]

theorem Tab.get_dropBlock_other {α : Type} (d : α) {w f g i : Nat} (hg : g ≠ f) (hi : i < w) (t : Tab α) :
    Tab.get d (w * g + i) (t.filter fun x => x.1 / w ≠ f) = Tab.get d (w * g + i) t := by
  refine (Tab.get_filter d _ (fun k => k / w ≠ f) t).trans (if_pos ?_)
  simp [Nat.mul_add_div (Nat.zero_lt_of_lt hi), Nat.div_eq_of_lt hi, hg]

end Sys2Proof

namespace Sys2Proof.Machine

/-! ### The triggers (R299) -/

theorem bitAt_putBit_false (v i : Nat) : bitAt (putBit v i false) i = false := by
  have cleared : putBit v i false = v - 2 ^ i * (v / 2 ^ i % 2) := by
    simp [putBit, putBits, bitsAt, bit, Nat.shiftRight_eq_div_pow, Nat.mul_comm]
  rw [bitAt, cleared, Nat.testBit_eq_decide_div_mod_eq, Nat.sub_mul_div]
  exact decide_eq_false (by omega)

theorem Dev.resetAllFuncs_eq (e : Env) (d : Dev) : Dev.resetAllFuncs e d =
    let v := (List.range' 1 31 ++ [0]).foldl (fun d f => Dev.resetFunc e d f false) d
    { v with hif := { v.hif with numVfs := 0 } } := by
  rw [Dev.resetAllFuncs, show (List.range 32).drop 1 = List.range' 1 31 from rfl]

section
variable {s : State}

theorem exec_funcDisable (ho : s.dev.hostOpen = true) (f : FuncId) :
    exec (.funcDisable f) s = onDev s fun e d => Dev.disableFunc e d f := onDev_acts (if_pos ho)

theorem exec_vfFlr (hb : s.dev.busUp = true) {f : FuncId} (hf : f ≠ 0) :
    exec (.vfFlr f) s = onDev s fun e d => Dev.resetFunc e d f false :=
  (guarded_wf (decide_eq_true hf) _).trans (onDev_acts (if_pos hb))

theorem exec_vfDisable (hb : s.dev.busUp = true) (n : Fin 32) :
    exec (.vfDisable n) s = onDev s fun e d => Dev.removeVfs e d n := onDev_acts (if_pos hb)

theorem exec_pfFlr (hb : s.dev.busUp = true) : exec .pfFlr s = onDev s Dev.resetAllFuncs := onDev_acts (if_pos hb)

theorem Dev.busUp_perst {d : Dev} (hp : d.pins.perst = true) : d.busUp = false := by simp [Dev.busUp, hp]

theorem onDev_busDown (hb : s.dev.busUp = false) (f : Env → Dev → Dev) : onDev s (fun e d => if d.busUp then f e d else d) = .next s :=
  onDev_stays (if_neg (by simp [hb]))

end

/-- Settles O38: each trigger resets the functions that it names, and none over PCIe acts under PERST_N. -/
theorem functionResetsStart : Obligations.FunctionResetsStart := by
  intro f n s
  refine ⟨fun ho => ⟨bitAt_putBit_false _ _, (exec_funcDisable ho f).trans (onDev_acts rfl)⟩, fun hb => ⟨exec_vfFlr hb, ?_, ?_⟩, fun hp => ?_⟩
  · exact (exec_vfDisable hb n).trans (onDev_acts rfl)
  · exact (exec_pfFlr hb).trans (onDev_acts (Dev.resetAllFuncs_eq ..))
  · have down := Dev.busUp_perst hp
    exact ⟨onDev_busDown down _, onDev_busDown down _, onDev_busDown down _,
      fun hf => (guarded_wf (decide_eq_true hf) _).trans (onDev_busDown down _)⟩

/-! ### The end of a function reset (R300, R302) -/

theorem Dev.settle_nil (d : Dev) (e : Env) : d.settle e [] = d := by
  unfold Dev.settle
  cases 64 * (d.opens.length + d.groups.length + d.spans.length + ([] : List Todo).length + 256) with
  | zero | succ n => rfl

/-- The spans of a function that its reset releases are lost (R302). -/
def Dev.losesSpans (d : Dev) (e : Env) (f : Nat) : Dev :=
  d.settle e ((d.spans.filter fun x => x.2.st ≠ .free && x.2.func = f).map fun x => Todo.lose x.1 Config.functionReset 0 false)

theorem Dev.losesSpans_none {d : Dev} {f : Nat} (h : ∀ x ∈ d.spans, x.2.st = .free ∨ x.2.func ≠ f) (e : Env) : d.losesSpans e f = d := by
  have noSpans : (d.spans.filter fun x => x.2.st ≠ .free && x.2.func = f) = [] := List.filter_eq_nil_iff.2 fun x hx => by
    rcases h x hx with h | h <;> simp [h]
  rw [Dev.losesSpans, noSpans, List.map_nil, Dev.settle_nil]

section
variable {e : Env} {d : Dev} {f : Nat} {pcie keepLog : Bool}

theorem Dev.clearFunc_queue {q : Nat} (hq : q < 64) : (d.clearFunc e f pcie keepLog).queue f q = {} := Tab.get_dropBlock_same _ hq _

theorem Dev.clearFunc_event {i : Nat} (hi : i < 1024) : (d.clearFunc e f pcie keepLog).event f i = 0#64 := Tab.get_dropBlock_same _ hi _

theorem Dev.clearFunc_groups {g : Group} (hg : g ∈ (d.clearFunc e f pcie keepLog).groups) : g.func ≠ f :=
  of_decide_eq_true (List.mem_filter.1 hg).2

theorem Dev.clearFunc_longs {x : Nat × LongOp} (hx : x ∈ (d.clearFunc e f pcie keepLog).longs) (hu : x.2.used = true) : x.2.func ≠ f := by
  obtain ⟨y, -, rfl⟩ := List.mem_map.1 hx
  by_cases hf : y.2.func = f
  · simp [hf] at hu
  · simp [hf]

theorem Dev.clearFunc_acct : Tab.get 0 f (d.clearFunc e f pcie keepLog).sch.acctFunc = 0 := Tab.get_erase_same ..

theorem Dev.clearFunc_funcResetting : (d.clearFunc e f pcie keepLog).funcResetting f = false := by
  refine List.any_eq_false.2 fun x hx => ?_
  simpa using (List.mem_filter.1 hx).2

theorem Dev.clearFunc_faultSeq : (d.clearFunc e f pcie false).faultSeqOf f = 0 := Tab.get_erase_same ..

theorem Dev.clearFunc_faultLog {i : Nat} (hi : i < 256) : Tab.get 0#512 (256 * f + i) (d.clearFunc e f pcie false).ras.faultLog = 0#512 :=
  Tab.get_dropBlock_same _ hi _

/-! What it leaves, of the package after its spans are lost: SCH_FUNC but for an ENABLE written meanwhile, and the state of the other functions. -/

variable {v : Dev} (hv : d.losesSpans e f = v)
include hv

theorem Dev.clearFunc_schFunc (hr : v.hif.reenable.contains f = false) : (d.clearFunc e f pcie keepLog).schFunc f = v.schFunc f := by
  subst hv
  exact congrArg (Tab.get _ f) (if_neg (ne_true_of_eq_false hr))

theorem Dev.clearFunc_schFunc_enabled (hr : v.hif.reenable.contains f = true) :
    (d.clearFunc e f pcie keepLog).schFunc f = BitVec.ofNat 64 (putBit (v.schFunc f).toNat 23 true) := by
  subst hv
  exact (congrArg (Tab.get _ f) (if_pos hr)).trans (Tab.get_put_same ..)

theorem Dev.clearFunc_rest : (d.clearFunc e f pcie keepLog).blk = v.blk ∧ (d.clearFunc e f pcie keepLog).vers = v.vers ∧
    (d.clearFunc e f pcie keepLog).seqs = v.seqs ∧ (d.clearFunc e f pcie keepLog).out = v.out := by
  subst hv
  exact ⟨rfl, rfl, rfl, rfl⟩

variable {g : Nat} (hg : g ≠ f)
include hg

theorem Dev.clearFunc_queue_other {q : Nat} (hq : q < 64) : (d.clearFunc e f pcie keepLog).queue g q = v.queue g q := by
  subst hv
  exact Tab.get_dropBlock_other _ hg hq _

theorem Dev.clearFunc_event_other {i : Nat} (hi : i < 1024) : (d.clearFunc e f pcie keepLog).event g i = v.event g i := by
  subst hv
  exact Tab.get_dropBlock_other _ hg hi _

theorem Dev.clearFunc_funcResetting_other : (d.clearFunc e f pcie keepLog).funcResetting g = v.funcResetting g := by
  subst hv
  refine List.any_filter.trans (List.any_congr rfl fun x => ?_)
  by_cases hx : x.1 = g
  · simp [hx, hg]
  · simp [hx]

theorem Dev.clearFunc_schFunc_other : (d.clearFunc e f pcie keepLog).schFunc g = v.schFunc g := by
  subst hv
  cases hr : (d.losesSpans e f).hif.reenable.contains f with
  | false => exact congrArg (Tab.get _ g) (if_neg (ne_true_of_eq_false hr))
  | true => exact (congrArg (Tab.get _ g) (if_pos hr)).trans (Tab.get_put_other _ hg _ _)

end

section
variable {f : FuncId} {s : State}

theorem exec_funcResetComplete (hp : s.dev.pins.powered = true) (hr : s.dev.funcResetting f = true) (hq : s.dev.funcQuiet f = true) :
    exec (.funcResetComplete f) s = .next (s.onDev fun e d => d.clearFunc e f (d.hif.fresets.any fun x => x.1 = f.val && !x.2) false) :=
  onDev_acts (if_pos (by simp [hp, hr, hq]))

theorem exec_funcResetComplete_busy (hq : s.dev.funcQuiet f = false) : exec (.funcResetComplete f) s = .next s :=
  onDev_stays (if_neg (by simp [hq]))

end

/-! ### Link loss (R391) -/

/-- What the loss of the link leaves of the HIF_ registers, before the link trains again. -/
def Dev.linkDown (d : Dev) : Dev :=
  { d with hif := { d.hif with
    downCount := min (d.hif.downCount + 1) 65535
    bar2Base := 0#64, bar2Map := [], bar2Log2 := 30, dbErr := [], dbErrQueue := [], unmasked := [], pba := [] } }

theorem exec_linkLoss {s : State} (hb : s.dev.busUp = true) :
    exec .linkLoss s = .next { s with dev := ((Dev.resetAllFuncs s.env s.dev).endLoads s.fuse).linkDown.retrain } :=
  onDev_acts (g := fun e d => ((Dev.resetAllFuncs e d).endLoads e.fuse).linkDown.retrain) (if_pos hb)

theorem Dev.linkDown_retrain (d : Dev) : let v := d.linkDown.retrain
    v.hif.bar2Base = 0#64 ∧ v.hif.bar2Map = [] ∧ v.hif.dbErr = [] ∧ v.hif.unmasked = [] ∧ v.hif.pba = [] ∧
      v.hif.downCount = min (d.hif.downCount + 1) 65535 ∧ v.opens = d.opens ∧ v.out = d.out ∧ v.hif.queues = d.hif.queues ∧
      v.hif.fresets = d.hif.fresets ∧ v.ras = d.ras := ⟨rfl, rfl, rfl, rfl, rfl, rfl, rfl, rfl, rfl, rfl, rfl⟩

/-- Settles O39: the end of a reset clears what the function owns and nothing else, and a link loss resets all of them. -/
theorem functionResetsEnd : Obligations.FunctionResetsEnd := by
  intro f s
  refine ⟨fun hp hr hq spanless => ?_, exec_funcResetComplete_busy, fun hb => ?_⟩
  · have kept : s.dev.losesSpans s.env f = s.dev := Dev.losesSpans_none spanless s.env
    exact ⟨_, exec_funcResetComplete hp hr hq, Dev.clearFunc_funcResetting, fun q => Dev.clearFunc_queue, fun i => Dev.clearFunc_event,
      fun g => Dev.clearFunc_groups, fun x => Dev.clearFunc_longs, Dev.clearFunc_acct, Dev.clearFunc_faultSeq, fun i => Dev.clearFunc_faultLog,
      Dev.clearFunc_schFunc kept, Dev.clearFunc_schFunc_enabled kept,
      fun g q i hg hq hi => ⟨Dev.clearFunc_queue_other kept hg hq, Dev.clearFunc_event_other kept hg hi,
        Dev.clearFunc_funcResetting_other kept hg, Dev.clearFunc_schFunc_other kept hg⟩, Dev.clearFunc_rest kept⟩
  · exact ⟨_, exec_linkLoss hb, Dev.linkDown_retrain _⟩

end Sys2Proof.Machine
end

section
/-!
PROOFS. The flits that arrive (R310, R311, R312, R315, R319, R326; log entry 46).
-/
namespace Sys2Proof.Machine

/-! ### A flit that the tables deliver here or send on -/

section
variable {e : Env} {d : Dev} {p : Nat} {f : Flit}

theorem Dev.takeFlit_astray (h : f.lseq ≠ (d.port p).rxSeq) : Dev.takeFlit e d p f = none := if_pos h

section
variable {act : Dev → Nat → Dev}

theorem meshFlit_unheard (h : d.hears p = false ∨ f.lseq ≠ (d.port p).rxSeq) : meshFlit e d p f act = d := by
  rcases h with h | h
  · exact if_neg (ne_true_of_eq_false h)
  · simp only [meshFlit, Dev.takeFlit_astray h, ite_self]

variable {t : Dev} (hh : d.hears p = true) (ht : Dev.takeFlit e d p f = some t)
include hh ht

theorem meshFlit_neighbourChannel (hv : f.vc = 2) : meshFlit e d p f act = (t.oweCredit p (flitChannel f)).returnAll := by
  simp only [meshFlit, hh, ht, hv, if_true]

theorem meshFlit_outOfService (hv : f.vc ≠ 2) (hs : (t.port p).inService = false) :
    meshFlit e d p f act = (t.countDrop.oweCredit p (flitChannel f)).returnAll := by
  simp only [meshFlit, hh, ht, hv, hs, if_true, if_false, Bool.not_false]

variable (hv : f.vc ≠ 2) (hs : (t.port p).inService = true)
include hv hs

/-- A flit delivered here acts where its source is UP and its payload is assigned, and is dropped and counted elsewhere. -/
theorem meshFlit_delivered (hp : t.hop e.fuse f = .here) : meshFlit e d p f act =
    (if t.via.peer (coordIdx f.srcX f.srcY) ≠ 2 || !flitAssigned f then (t.oweCredit p (flitChannel f)).countDrop
      else act (t.oweCredit p (flitChannel f)) (coordIdx f.srcX f.srcY)).returnAll := by
  simp only [meshFlit, hh, ht, hv, hs, hp, if_true, if_false, Bool.not_true, Bool.false_eq_true]
  rfl

theorem meshFlit_passedOn {q : Nat} {det : Bool} (hp : t.hop e.fuse f = .out q det) :
    meshFlit e d p f act = (t.enqueue q (some (p, flitChannel f)) { f with detour := det }).returnAll := by
  simp only [meshFlit, hh, ht, hv, hs, hp, if_true, if_false, Bool.not_true, Bool.false_eq_true]

end

/-! ### A flit of the neighbour alone -/

section
variable {act : Dev → Dev}

theorem neighbourFlit_unheard (h : d.hears p = false ∨ f.lseq ≠ (d.port p).rxSeq) : neighbourFlit e d p f act = d := by
  rcases h with h | h
  · exact if_neg (ne_true_of_eq_false h)
  · simp only [neighbourFlit, Dev.takeFlit_astray h, ite_self]

variable {t : Dev} (hh : d.hears p = true) (ht : Dev.takeFlit e d p f = some t)
include hh ht

/-- An IDLE takes no buffer, and every payload of it is assigned. -/
theorem neighbourFlit_idle (hk : f.kind = .idle) : neighbourFlit e d p f act = (act t).returnAll := by
  have assigned : flitAssigned f = true := by simp only [flitAssigned, hk]
  simp only [neighbourFlit, hh, ht, hk, assigned, if_true]

theorem neighbourFlit_other (hk : f.kind ≠ .idle) : neighbourFlit e d p f act =
    (if flitAssigned f then act (t.oweCredit p 2) else (t.oweCredit p 2).countDrop).returnAll := by
  simp only [neighbourFlit, hh, ht, hk, if_true, if_false]

end

end

/-! ### The rows -/

/-- A row leads to the package that its function answers. -/
theorem State.onDev_eq {s : State} {f : Env → Dev → Dev} {d : Dev} (h : f s.env s.dev = d) : s.onDev f = { s with dev := d } := by
  subst h; rfl

theorem onDev_leads {s : State} {f : Env → Dev → Dev} {d : Dev} (h : f s.env s.dev = d) : onDev s f = .next { s with dev := d } :=
  congrArg Host.Outcome.next (State.onDev_eq h)

/-- The row of a flit that crosses the mesh is that flit with what the row does here. -/
theorem exec_flitRow {i : Instr} {r : FlitRow} (h : flitRow i = some r) (s : State) :
    exec i s = guarded i.wf (onDev s fun e d => meshFlit e d r.port r.flit fun d src => r.act e d src) := by
  cases i <;> cases h <;> rfl

/-- The row of a flit of the neighbour alone is that flit with what the row does. -/
theorem exec_linkRow {i : Instr} {p : PortId} {f : Flit} {act : Env → Dev → Dev} (h : linkRow i = some (p, f, act)) (s : State) :
    exec i s = guarded i.wf (onDev s fun e d => neighbourFlit e d p f fun d => act e d) := by
  cases i <;> cases h <;> rfl

theorem Flit.wf_kind {k : FlitKind} {f : Flit} (h : f.wf k = true) : f.kind = k := by
  simp only [Flit.wf, Bool.and_eq_true, decide_eq_true_eq, and_assoc] at h
  exact h.1

/-- An IDLE is of the row that does nothing. -/
theorem linkRow_idle {i : Instr} {p : PortId} {f : Flit} {act : Env → Dev → Dev} (h : linkRow i = some (p, f, act)) (hw : i.wf = true)
    (hk : f.kind = .idle) : act = fun _ d => d := by
  cases i with
  | idle p f => cases h; rfl
  | heartbeat p f => cases h; rfl
  | ident p f => cases h; exact absurd (hk.symm.trans (Flit.wf_kind (k := .ident) hw)) (by decide)
  | lretry p f => cases h; exact absurd (hk.symm.trans (Flit.wf_kind (k := .lretry) hw)) (by decide)
  | _ => cases h

/-- Settles O55: each row is the flit at its port, whose ways through it the lemmas above name. -/
theorem flitsTaken : Obligations.FlitsTaken := by
  intro i s hw
  refine ⟨fun r hr => ?_, fun p f act hr => ?_⟩
  · have row : exec i s = _ := (exec_flitRow hr s).trans (guarded_wf hw _)
    refine ⟨fun h => row.trans (onDev_stays (meshFlit_unheard h)), fun t hh ht => ⟨fun hv => ?_, fun hv hs => ?_, fun hv hs hp => ⟨fun hu ha => ?_, fun h => ?_⟩,
      fun q det hv hs hp => ?_⟩⟩
    · rw [row, onDev_leads (meshFlit_neighbourChannel hh ht hv)]
    · rw [row, onDev_leads (meshFlit_outOfService hh ht hv hs)]
    · rw [row, onDev_leads (meshFlit_delivered hh ht hv hs hp), if_neg (by simp [hu, ha])]
    · rw [row, onDev_leads (meshFlit_delivered hh ht hv hs hp), if_pos (by simpa using h)]
    · rw [row, onDev_leads (meshFlit_passedOn hh ht hv hs hp)]
  · have row : exec i s = _ := (exec_linkRow hr s).trans (guarded_wf hw _)
    refine ⟨fun h => row.trans (onDev_stays (neighbourFlit_unheard h)), fun t hh ht => ⟨fun hk => ?_, fun hk ha => ?_, fun hk ha => ?_⟩⟩
    · rw [row, onDev_leads (neighbourFlit_idle hh ht hk), linkRow_idle hr hw hk]
    · rw [row, onDev_leads (neighbourFlit_other hh ht hk), if_pos ha]
    · rw [row, onDev_leads (neighbourFlit_other hh ht hk), if_neg (ne_true_of_eq_false ha)]

end Sys2Proof.Machine
end

section
/-!
PROOFS. Training, link failures, heartbeats and resends (R312, R315, R316, R324, R329, R330; log entries 2, 46 and 70).
-/
namespace Sys2Proof.Machine

/-- A row at a time of its own takes place there, where LOCAL_TIME has not passed it; with no delay added. -/
theorem State.passTo_onDev_time (s : State) (t n : Nat) (f : Env → Dev → Dev) :
    ((s.passTo t).onDev f).time = BitVec.ofNat 64 (max s.time.toNat (t + 0 * n)) := by
  rw [Nat.zero_mul, Nat.add_zero]; rfl

/-! ### Training, failures and heartbeats (R312, R315, R316) -/

section
variable {s : State} {p : PortId}

theorem exec_portTrainingAttempt_notDown (h : (s.dev.port p).st ≠ .down) : exec (.portTrainingAttempt p) s = .next s := if_neg (by simp [h])

theorem exec_peerFaultReceived_notUp (h : (s.dev.port p).st ≠ .up) : exec (.peerFaultReceived p) s = .next s := onDev_stays (if_neg (by simp [h]))

theorem Dev.failLink_notUp {e : Env} {d : Dev} {p : Nat} (h : (d.port p).st ≠ .up) (cause : Nat) : Dev.failLink e d p cause = d := if_neg h

theorem Dev.failLink_up {e : Env} {d : Dev} {p : Nat} (h : (d.port p).st = .up) (cause : Nat) :
    Dev.failLink e d p cause = (Dev.ownFails e (Dev.linkFailure e.fuse e.now d p cause)).returnAll := if_pos h

theorem exec_laneLockLoss_notUp (h : (s.dev.port p).st ≠ .up) : exec (.laneLockLoss p) s = .next s :=
  onDev_stays ((congrArg (ite _ · _) (Dev.failLink_notUp h 3)).trans (ite_self _))

theorem exec_linkSilenceExpiry_notUp (h : (s.dev.port p).st ≠ .up) : exec (.linkSilenceExpiry p) s = .next s := if_neg (by simp [h])

variable (hl : s.dev.linkLive = true)
include hl

theorem exec_portTrainingAttempt (h : (s.dev.port p).st = .down) : exec (.portTrainingAttempt p) s =
    onDevAt s ((s.dev.port p).tryAt s.time.toNat) fun e d =>
      (d.modPort p fun x => { x with nextTry := (s.dev.port p).tryAt s.time.toNat + tryPeriod }).startTraining e.fuse e.now p :=
  if_pos (by simp [hl, h])

theorem exec_trainingTimeout (h : (s.dev.port p).st = .training) : exec (.trainingTimeout p) s =
    onDevAt s ((s.dev.port p).trainSince + 2000 * Config.usTicks) fun _ d => d.modPort p fun x => x.lower .down := if_pos (by simp [hl, h])

theorem exec_laneLockLoss (h : (s.dev.port p).st = .up) : exec (.laneLockLoss p) s =
    .next (s.onDev fun e d => (Dev.ownFails e (Dev.linkFailure e.fuse e.now d p 3)).returnAll) :=
  onDev_acts ((if_pos hl).trans (Dev.failLink_up h 3))

theorem exec_linkSilenceExpiry (h : (s.dev.port p).st = .up) : exec (.linkSilenceExpiry p) s =
    onDevAt s ((s.dev.port p).lastRx + 30 * Config.usTicks) fun e d => Dev.failLink e (d.rasEvent e 6 Config.link) p 2 := if_pos (by simp [hl, h])

theorem exec_peerFaultReceived (h : (s.dev.port p).st = .up) : exec (.peerFaultReceived p) s =
    .next { s with dev := s.dev.setPort p { s.dev.port p with st := .peerFault, traffic := false } } :=
  onDev_leads (if_pos (by simp [hl, h]))

theorem exec_peerFaultClear (h : (s.dev.port p).st = .peerFault) : exec (.peerFaultClear p) s =
    .next (s.onDev fun e d => d.startTraining e.fuse e.now p) := onDev_acts (if_pos (by simp [hl, h]))

theorem exec_viaHeartbeatSend : exec .viaHeartbeatSend s =
    onDevAt s ((s.dev.via.beatAt / (10 * Config.usTicks) + 1) * (10 * Config.usTicks)) fun e d =>
      (List.range 4).foldl (fun d q => if (d.port q).st = .up then d.sendNeighbour q .heartbeat [] else d)
        { d with via := { d.via with beatAt := e.now } } := if_pos hl

theorem exec_flitCrcFailure (h : (s.dev.port p).linked = true) : exec (.flitCrcFailure p) s = .next (s.onDev fun _ d =>
    (d.setPort p { s.dev.port p with fecUncorr := min ((s.dev.port p).fecUncorr + 1) (2 ^ 32 - 1) }).sendNeighbour p .lretry
      (toBytes 2 (s.dev.port p).rxSeq)) := onDev_acts (if_pos (by simp [Dev.hears, hl, h]))

end

/-! ### What is sent again (R324, R329, R330) -/

section
variable {s : State}

theorem exec_rtsResend_notFull {uid : Nat} {y : ViaSend} (hy : s.dev.sendOf uid = some y) (hf : y.full = false) :
    exec (.rtsResend uid) s = .next s := by
  change execRtsResend uid s = _
  simp [execRtsResend, hy, hf]

variable {f : FuncId} {group : Word}

theorem exec_querySend_none (hg : s.dev.doubt f group.toNat = none) : exec (.querySend f group) s = .next s := by
  change execQuerySend f group s = _
  simp only [execQuerySend, hg]

/-- The NO that a participant has voted for a group, while no DECISION has come. -/
def Dev.votedNo (d : Dev) (f : FuncId) (group : Word) : Option NoVote := d.via.noVotes.find? fun x => x.func = f.val && x.group = group.toNat

theorem exec_voteResend_none (hg : s.dev.doubt f group.toNat = none) (hv : s.dev.votedNo f group = none) : exec (.voteResend f group) s = .next s := by
  rw [Dev.votedNo] at hv
  change execVoteResend f group s = _
  simp only [execVoteResend, hg, hv]

variable (hr : s.dev.running = true)
include hr

theorem exec_rtsResend {uid : Nat} {y : ViaSend} (hy : s.dev.sendOf uid = some y) (hf : y.full = true) : exec (.rtsResend uid) s =
    onDevAt s (y.triedAt + 10 * Config.usTicks) fun e d => sendRts e (d.setSend { y with full := false }) { y with full := false } := by
  change execRtsResend uid s = _
  simp only [execRtsResend, hy, hr, hf, Bool.and_self, if_true]

theorem exec_voteResend_yes {g : Group} (hg : s.dev.doubt f group.toNat = some g) : exec (.voteResend f group) s =
    onDevAt s (g.voteAt + 100 * Config.usTicks) fun e d =>
      (d.setGroup { g with voteAt := e.now }).sendVote e.fuse (d.coordPhys g.num) g.num .vote (some true) := by
  change execVoteResend f group s = _
  simp only [execVoteResend, hg, hr, if_true]

theorem exec_voteResend_no {y : NoVote} (hg : s.dev.doubt f group.toNat = none) (hv : s.dev.votedNo f group = some y) :
    exec (.voteResend f group) s = onDevAt s (y.sentAt + 100 * Config.usTicks) fun e d => d.voteNo e y.func y.group := by
  rw [Dev.votedNo] at hv
  change execVoteResend f group s = _
  simp only [execVoteResend, hg, hv, hr, if_true]

theorem exec_querySend {g : Group} (hg : s.dev.doubt f group.toNat = some g) (hc : s.dev.coordPeer g.num = some 2) : exec (.querySend f group) s =
    onDevAt s (g.queryAt + 100 * Config.usTicks) fun e d =>
      (d.setGroup { g with queryAt := e.now }).sendVote e.fuse (d.coordPhys g.num) g.num .query none := by
  change execQuerySend f group s = _
  simp [execQuerySend, hg, hr, hc]

end

/-- Settles O56: each row is at its time, or at once, what the lemmas above say. -/
theorem linksAndResends : Obligations.LinksAndResends := by
  intro p f group uid s
  refine ⟨fun hl => ⟨exec_portTrainingAttempt_notDown, fun hx => ⟨_, exec_portTrainingAttempt hl hx, s.passTo_onDev_time .., rfl⟩, fun hx => ?_,
      fun hx => ⟨exec_laneLockLoss_notUp hx, exec_linkSilenceExpiry_notUp hx, exec_peerFaultReceived_notUp hx⟩, exec_laneLockLoss hl, fun hx => ?_,
      exec_peerFaultReceived hl, exec_peerFaultClear hl, ⟨_, exec_viaHeartbeatSend hl, s.passTo_onDev_time .., ?_⟩, exec_flitCrcFailure hl⟩,
    fun hr => ⟨fun y hy hf => ⟨_, exec_rtsResend hr hy hf, rfl, rfl⟩, fun y hy hf => exec_rtsResend_notFull hy hf,
      fun g hg => ⟨⟨_, exec_voteResend_yes hr hg, rfl, rfl⟩, fun hc => ⟨_, exec_querySend hr hg hc, rfl, rfl⟩⟩,
      fun hg => ⟨exec_querySend_none hg, exec_voteResend_none hg, fun y hv => ⟨_, exec_voteResend_no hr hg hv, rfl, rfl⟩⟩⟩⟩
  · have lowered : ((s.passTo ((s.dev.port p).trainSince + 2000 * Config.usTicks)).dev.modPort p fun x => x.lower .down).port p =
        (s.dev.port p).lower .down := Dev.port_setPort ..
    exact ⟨_, exec_trainingTimeout hl hx, rfl, congrArg Port.st lowered, congrArg Port.waiting lowered, fun q hq => Dev.port_setPort_other _ hq _, rfl, rfl⟩
  · refine ⟨_, exec_linkSilenceExpiry hl hx, rfl, ?_⟩
    rw [State.passTo_upTo]
    generalize (s.passTo _).onDev _ = u
    exact Dev.failLink_up (d := (s.upTo u).rasEvent { s.env with now := u.time.toNat } 6 Config.link) hx 2
  · rw [State.passTo_upTo]
    generalize (s.passTo _).onDev _ = u
    rfl

end Sys2Proof.Machine
end

section
/-!
PROOFS. Map-out, the peer states and training as registers of the host (R315 to R318, R326, R335), and CLK_WAKE (R359, R360).
-/
namespace Sys2Proof.Machine

/-! ### The registers -/

/-- A register of the physical function outside RAS_, written by the host. -/
theorem exec_hostRegister {s : State} (ho : s.dev.hostOpen = true) {off : Nat} (h8 : off % 8 = 0) (hr : off / 0x100000 ≠ 8) (v : Nat) :
    writerRow .host off v s = .next (s.onDev fun e d => d.writeReg e 0 off v false false) := by
  rw [writerRow_host ho h8, writeReg_dev _ _ _ _ _ (by omega) (by simp only [startsReset]; omega)]
  rfl

/-- A VIA_ register written by the host. -/
theorem exec_viaRegister {s : State} (ho : s.dev.hostOpen = true) {off : Nat} (h8 : off % 8 = 0) (h7 : off / 0x100000 = 7) (v : Nat) :
    writerRow .host off v s = .next (s.onDev fun e d => writeVia e d off v) := by
  rw [exec_hostRegister ho h8 (by omega)]
  exact onDev_acts (by rw [Dev.writeReg, h7]; rfl)

/-- A word with one bit set names that bit alone. -/
theorem bitList_single {n k : Nat} (hk : k < n) : bitList n (2 ^ k) = [k] := by
  have only : (List.range n).filter (2 ^ k).testBit = (List.range n).filter fun j => j = k :=
    List.filter_congr fun j _ => by simp [Nat.testBit_two_pow, eq_comm]
  rw [bitList, only, List.filter_eq, List.count_eq_one_of_mem List.nodup_range (List.mem_range.2 hk), List.replicate_one]

/-! ### VIA_ registers -/

section
variable {e : Env} {d : Dev} {v : Nat}

theorem writeVia_mapout (hp : e.fuse.part ≠ .kpv4S) : writeVia e d 0x700028 v = d.writeMapout e v := if_neg hp

theorem writeVia_mapoutClr (hp : e.fuse.part ≠ .kpv4S) : writeVia e d 0x700030 v = d.clearMapout e.fuse v := if_neg hp

theorem writeVia_portCtrl (hp : e.fuse.part ≠ .kpv4S) {p : Nat} (h : p < 4) : writeVia e d (0x700100 + 8 * p) v = writePortCtrl e d p v := by
  have port : place (0x700100 + 8 * p) 0x700100 4 8 = some (p, 0) := by
    rw [place, if_pos (by simp; omega)]; simp
  unfold writeVia
  simp only [if_neg hp, port]
  split
  case h_7 => rfl
  all_goals omega

theorem writeVia_peer (hp : e.fuse.part ≠ .kpv4S) {i : Nat} (h : i < 256) : writeVia e d (0x711800 + 8 * i) v = d.writePeer e i v := by
  have port : place (0x711800 + 8 * i) 0x700100 4 8 = none := if_neg (by simp; omega)
  have table : place (0x711800 + 8 * i) 0x710000 1024 8 = some (768 + i, 0) := by
    rw [place, if_pos (by simp; omega), show 0x711800 + 8 * i - 0x710000 = 8 * (768 + i) by omega]; simp
  have kind : (768 + i) / 256 = 3 := by omega
  have index : (768 + i) % 256 = i := by omega
  unfold writeVia
  simp only [if_neg hp, port, table, kind, index]
  split
  case h_7 => rfl
  all_goals omega

end

/-! ### A cleared bit -/

/-- A number without its bit `i`: what lies above the bit, and what lies below it. -/
theorem putBit_false_eq (v i : Nat) : putBit v i false = 2 ^ i * (2 * (v / 2 ^ i / 2)) + v % 2 ^ i := by
  have cleared : putBit v i false = v - 2 ^ i * (v / 2 ^ i % 2) := by
    simp [putBit, putBits, bitsAt, bit, Nat.shiftRight_eq_div_pow, Nat.mul_comm]
  have whole : 2 ^ i * (2 * (v / 2 ^ i / 2)) + 2 ^ i * (v / 2 ^ i % 2) + v % 2 ^ i = v := by
    rw [← Nat.mul_add, Nat.div_add_mod, Nat.div_add_mod]
  omega

theorem bitAt_putBit_false_other (v : Nat) {i j : Nat} (h : j ≠ i) : bitAt (putBit v i false) j = bitAt v j := by
  rw [bitAt, putBit_false_eq, Nat.testBit_two_pow_mul_add _ (Nat.mod_lt _ (Nat.two_pow_pos i))]
  by_cases hj : j < i
  · rw [if_pos hj, Nat.testBit_mod_two_pow, decide_eq_true hj, Bool.true_and, bitAt]
  · obtain ⟨k, rfl⟩ : ∃ k, j = i + (k + 1) := ⟨j - i - 1, by omega⟩
    rw [if_neg hj, Nat.add_sub_cancel_left, Nat.testBit_succ, Nat.mul_div_cancel_left _ Nat.two_pos, ← Nat.testBit_succ, Nat.testBit_div_two_pow, Nat.add_comm, bitAt]

/-! ### Map-out (R317, R318) -/

/-- VIA_MAPOUT without the two bits of a port. -/
def Dev.unmapped (d : Dev) (p : Nat) : Dev :=
  { d with via := { d.via with mapout := BitVec.ofNat 8 (putBit (putBit d.via.mapout.toNat p false) (p + 4) false) } }

theorem Dev.bitAt_unmapped (d : Dev) (p : Nat) {j : Nat} (hj : j < 8) :
    bitAt (d.unmapped p).via.mapout.toNat j = (bitAt d.via.mapout.toNat j && Decidable.decide (j ≠ p ∧ j ≠ p + 4)) := by
  rw [Dev.unmapped, BitVec.toNat_ofNat, bitAt, Nat.testBit_mod_two_pow, decide_eq_true hj, Bool.true_and, ← bitAt]
  by_cases upper : j = p + 4
  · simp [upper, bitAt_putBit_false]
  · rw [bitAt_putBit_false_other _ upper]
    by_cases lower : j = p
    · simp [lower, bitAt_putBit_false]
    · simp [bitAt_putBit_false_other _ lower, upper, lower]

section
variable {u : Fuses} {d : Dev}

theorem Dev.clearMapout_closed (h : bitAt d.via.maint.toNat 0 = false) (v : Nat) : d.clearMapout u v = d := if_neg (ne_true_of_eq_false h)

/-- Outside the parapet state a port mapped out enters DOWN, and any other keeps its state. -/
theorem Dev.clearMapout_port (ho : bitAt d.via.maint.toNat 0 = true) (hr : d.bar0Open = true) {p : Nat} (hp : p < 4) : d.clearMapout u (2 ^ p) =
    if bitAt d.via.mapout.toNat p && d.via.portThere u p then (d.unmapped p).modPort p fun x => { x with st := .down } else d.unmapped p := by
  have open_ : ¬(d.ras.st = .parapet || d.ras.st = .retired) = true := by
    simp only [Dev.bar0Open, Bool.and_eq_true, Bool.or_eq_true, decide_eq_true_eq] at hr
    rcases hr.2 with h | h <;> simp [h]
  rw [Dev.clearMapout, if_pos ho, bitList_single hp, List.foldl_cons, List.foldl_nil]
  dsimp only
  exact ite_congr rfl (fun _ => if_neg open_) fun _ => rfl

theorem Dev.clearMapout_mapout (ho : bitAt d.via.maint.toNat 0 = true) (hr : d.bar0Open = true) {p : Nat} (hp : p < 4) :
    (d.clearMapout u (2 ^ p)).via.mapout = (d.unmapped p).via.mapout := by
  rw [Dev.clearMapout_port ho hr hp]; split <;> rfl

theorem Dev.bitAt_clearMapout (ho : bitAt d.via.maint.toNat 0 = true) (hr : d.bar0Open = true) {p j : Nat} (hp : p < 4) (hj : j < 8) :
    bitAt (d.clearMapout u (2 ^ p)).via.mapout.toNat j = (bitAt d.via.mapout.toNat j && Decidable.decide (j ≠ p ∧ j ≠ p + 4)) := by
  rw [Dev.clearMapout_mapout ho hr hp, Dev.bitAt_unmapped d p hj]

theorem Dev.clearMapout_down (ho : bitAt d.via.maint.toNat 0 = true) (hr : d.bar0Open = true) {p : Nat} (hp : p < 4)
    (hm : bitAt d.via.mapout.toNat p = true) (ht : d.via.portThere u p = true) : (d.clearMapout u (2 ^ p)).port p = { d.port p with st := .down } := by
  rw [Dev.clearMapout_port ho hr hp, if_pos (by simp [hm, ht])]
  exact Dev.port_setPort ..

/-- A write that names no port anew leaves the ports; the credits owed go back. -/
theorem Dev.writeMapout_known {v : Nat} (h : ∀ j, j < 4 → v.testBit j = true → bitAt d.via.mapout.toNat j = true) (e : Env) :
    d.writeMapout e v = d.returnAll := by
  have none_new : ((bitList 4 v).filter fun p => !bitAt d.via.mapout.toNat p) = [] := by
    refine List.filter_eq_nil_iff.2 fun j hj => ?_
    obtain ⟨hj, hb⟩ := List.mem_filter.1 hj
    simp [h j (List.mem_range.1 hj) hb]
  have kept : d.via.mapout ||| BitVec.ofNat 8 (v % 16) = d.via.mapout := by
    refine BitVec.eq_of_getLsbD_eq fun j hj => ?_
    rw [BitVec.getLsbD_or, BitVec.getLsbD_ofNat, show v % 16 = v % 2 ^ 4 from rfl, Nat.testBit_mod_two_pow]
    cases hb : d.via.mapout.getLsbD j with
    | true => rfl
    | false =>
      have : ¬(j < 4 ∧ v.testBit j = true) := fun hj => Bool.false_ne_true (hb.symm.trans (h j hj.1 hj.2))
      simpa [hj] using this
  rw [Dev.writeMapout, none_new, kept]
  rfl

end

/-! ### Peer states (R326) -/

section
variable {e : Env} {d : Dev} {i v : Nat}

theorem Dev.writePeer_ignored (h : 4 < bitsAt v 0 3) : d.writePeer e i v = d := if_pos h

theorem Dev.writePeer_self (h : bitsAt v 0 3 ≤ 4) (hi : i = d.via.self) : d.writePeer e i v =
    { d with via := { d.via with peers := Tab.set 0#3 i (BitVec.ofNat 3 (bitsAt v 0 3)) d.via.peers } } :=
  (if_neg (Nat.not_lt.2 h)).trans (if_pos hi)

end

/-! ### Training (R315) -/

theorem Dev.setPort_linkLive (d : Dev) (p : Nat) (x : Port) : (d.setPort p x).linkLive = d.linkLive := rfl
theorem Dev.transmit_linkLive (d : Dev) (p : Nat) (f : Flit) : (d.transmit p f).linkLive = d.linkLive := rfl
theorem Dev.oweCredit_linkLive (d : Dev) (p c : Nat) : (d.oweCredit p c).linkLive = d.linkLive := rfl

/-- What a port sends leaves the state of the package. -/
theorem Dev.servePort_linkLive (d : Dev) (p n : Nat) : (d.servePort p n).linkLive = d.linkLive := by
  induction n generalizing d with
  | zero => rfl
  | succ n ih =>
    rw [Dev.servePort]
    dsimp only
    split
    · rfl
    · split
      · rfl
      · rw [ih]
        split
        · rw [Dev.oweCredit_linkLive, Dev.transmit_linkLive, Dev.setPort_linkLive]
        · rw [Dev.transmit_linkLive, Dev.setPort_linkLive]

theorem Dev.serve_linkLive (d : Dev) (p : Nat) : (d.serve p).linkLive = d.linkLive := by
  unfold Dev.serve
  split
  · exact Dev.servePort_linkLive ..
  · rfl

theorem writePortCtrl_train {e : Env} {d : Dev} {p : Nat} (hf : e.fuse.portFitted p = true) (hl : d.linkLive = true) (traffic : Bool) :
    writePortCtrl e d p (2 + bit traffic) = ((d.modPort p fun x => { x with traffic := traffic }).serve p).trainPort e p := by
  have train : bitAt (2 + bit traffic) 1 = true := by cases traffic <;> rfl
  have keeps : bitAt (2 + bit traffic) 0 = traffic := by cases traffic <;> rfl
  have live : ((d.modPort p fun x => { x with traffic := traffic }).serve p).linkLive = true := (Dev.serve_linkLive ..).trans hl
  simp [writePortCtrl, hf, train, keeps, live]

/-! ### CLK_WAKE (R359, R360) -/

section
variable {e : Env} {d : Dev} {cl : Nat}

theorem Dev.clkWake_one (hc : cl < 16) : d.clkWake e (2 ^ cl) =
    if (d.sleep cl).st = .active then (if e.kf.usable cl then d.setSleep cl { d.sleep cl with idleSince := e.now } else d) else d.wake e cl := by
  rw [Dev.clkWake, bitList_single hc, List.foldl_cons, List.foldl_nil]

theorem Dev.clkWake_awake (hc : cl < 16) (hu : e.kf.usable cl = true) (hs : (d.sleep cl).st = .active) :
    d.clkWake e (2 ^ cl) = d.setSleep cl { d.sleep cl with idleSince := e.now } := by rw [Dev.clkWake_one hc, if_pos hs, if_pos hu]

theorem Dev.clkWake_asleep (hf : e.fuse.clusterFitted cl = true) (hu : e.kf.usable cl = true) (hs : (d.sleep cl).st ≠ .active) :
    d.clkWake e (2 ^ cl) = d.setSleep cl { d.sleep cl with waking := true } := by
  rw [Dev.clkWake_one (clusterFitted_lt hf), if_neg hs]
  exact if_pos (by simp [hf, hu, hs])

end

/-! ### The rows -/

section
variable {s : State} (ho : s.dev.hostOpen = true)
include ho

theorem exec_clkWake_open (value : Quad) : exec (.clkWake value) s = .next (s.onDev fun e d => d.clkWake e value.toNat) :=
  exec_hostRegister (off := 0x901010) ho rfl (by decide) _

variable (hp : s.fuse.part ≠ .kpv4S)
include hp

theorem exec_mapout_open (value : Quad) : exec (.mapout .host value) s = .next (s.onDev fun e d => d.writeMapout e value.toNat) :=
  (exec_viaRegister ho rfl rfl _).trans (onDev_acts (writeVia_mapout hp))

theorem exec_mapoutClr_open (value : Quad) : exec (.mapoutClr .host value) s = .next (s.onDev fun e d => d.clearMapout e.fuse value.toNat) :=
  (exec_viaRegister ho rfl rfl _).trans (onDev_acts (writeVia_mapoutClr hp))

theorem exec_peerStateWrite_open (i : Fin 256) (value : Quad) :
    exec (.peerStateWrite .host i value) s = .next (s.onDev fun e d => d.writePeer e i value.toNat) :=
  (exec_viaRegister ho (by omega) (by omega) _).trans (onDev_acts (writeVia_peer hp i.isLt))

theorem exec_portTrain_open {p : PortId} (hf : s.fuse.portFitted p = true) (hl : s.dev.linkLive = true) : exec (.portTrain p .host) s =
    .next (s.onDev fun e d => ((d.modPort p fun x => { x with traffic := (s.dev.port p).traffic }).serve p).trainPort e p) :=
  (exec_viaRegister ho (by omega) (by omega) _).trans (onDev_acts ((writeVia_portCtrl hp p.isLt).trans (writePortCtrl_train hf hl _)))

end

/-- Settles O45: each row writes its register, and the lemmas above say what the write does. -/
theorem viaductAndClockWrites : Obligations.ViaductAndClockWrites := by
  intro p i cl value s ho hp
  have hr : s.dev.bar0Open = true := (Bool.and_eq_true_iff.1 ho).1
  refine ⟨fun hv hm => ?_, fun hv hm => ?_, exec_mapout_open ho hp value, fun known back => ?_, fun h => ?_, fun h self => ?_,
    fun _ _ => exec_peerStateWrite_open ho hp i value, exec_portTrain_open ho hp, fun hv hf hu => ⟨fun hs => ?_, fun hs => ?_⟩⟩
  · rw [exec_mapoutClr_open ho hp, onDev_same (Dev.clearMapout_closed hm _)]
  · rw [exec_mapoutClr_open ho hp, hv]
    refine ⟨_, rfl, ?_, ?_, fun j hj lower upper => ?_, Dev.clearMapout_down hm hr p.isLt⟩
    · exact (Dev.bitAt_clearMapout hm hr p.isLt (by omega)).trans (by simp)
    · exact (Dev.bitAt_clearMapout hm hr p.isLt (by omega)).trans (by simp)
    · exact (Dev.bitAt_clearMapout hm hr p.isLt hj).trans (by simp [lower, upper])
  · refine (exec_mapout_open ho hp value).trans (congrArg _ (onDev_same ?_))
    exact (Dev.writeMapout_known known _).trans back
  · rw [exec_peerStateWrite_open ho hp, onDev_same (Dev.writePeer_ignored h)]
  · rw [exec_peerStateWrite_open ho hp, State.onDev_eq (Dev.writePeer_self h self)]
  · rw [exec_clkWake_open ho, hv, State.onDev_eq (Dev.clkWake_asleep hf hu hs)]
  · rw [exec_clkWake_open ho, hv, State.onDev_eq (Dev.clkWake_awake cl.isLt hu hs), State.env_now]

end Sys2Proof.Machine
end

section
/-!
PROOFS. LOCAL_TIME as it counts while no command waits (R339, R358), and the register writes of a session over the management bus (R348, R365, R394,
R395).
-/
namespace Sys2Proof.Machine

/-! ### Idle steps -/

theorem step_idle {s : State} (h : s.pending = []) : step s = .next s.tick := by rw [step, h]

theorem State.tick_supplied {s : State} (h : s.dev.pins.powered = true) : s.tick = { s with time := s.time + 1#64, dev := s.dev.countCores 1 } := if_pos h

/-- Settles O2: an idle step is one count of LOCAL_TIME, with which the watchdogs that run count. -/
theorem idleCountsTime : Obligations.IdleCountsTime := by
  intro s idle
  rw [step_idle idle]
  refine ⟨fun supplied => ⟨_, rfl, ?_, fun cl ph hp => ?_⟩, fun dark => congrArg _ (if_neg (ne_true_of_eq_false dark))⟩
  · rw [State.tick_supplied supplied]; rfl
  · rw [State.tick_supplied supplied]; exact Dev.core_countCores s.dev 1 cl hp

/-! ### What a session may write (R394) -/

section
variable {d : Dev} {id off : Nat}

theorem Dev.mgmtStatus_outside (h : d.session id = none) : d.mgmtStatus (.session id) off = Config.noPermission := by
  simp [Dev.mgmtStatus, h]

variable {x : Session} (h : d.session id = some x)
include h

/-- What the role of a session allows is taken while the package runs. -/
theorem Dev.mgmtStatus_role (may : roleWrites x.role off = true) (running : d.ras.st = .running) (warm : d.ras.coldReset = false) :
    d.mgmtStatus (.session id) off = Config.ok := by
  simp [Dev.mgmtStatus, h, may, running, warm]

/-- The owner writes RAS_UNRETIRE in every state but a reset. -/
theorem Dev.mgmtStatus_owner (may : d.ownerSession x = true) (out : d.ras.st ≠ .resetting) (warm : d.ras.coldReset = false) :
    d.mgmtStatus (.session id) 0x800050 = Config.ok := by
  simp [Dev.mgmtStatus, h, may, out, warm]

end

/-- A register of the always-on domain is written in recovery mode too. -/
theorem mgmtWrite_alwaysOn {s : State} (h : s.dev.pins.powered = true) (w : Writer) {off : Nat} (v : Nat) (hs : s.dev.mgmtStatus w off = Config.ok)
    (ho : alwaysOn off = true) : s.mgmtWrite w off v = (s.writeReg 0 off v true true).onDev fun _ d => d.emit (.response Config.ok []) := by
  simp [State.mgmtWrite, h, hs, ho]

/-! ### RAS_UNRETIRE (R348) -/

/-- A write with which no package reset begins leaves the core maps. -/
theorem onReset_calm {s : State} {f : Env → Dev → Dev} (h : (f s.env s.dev).inPackageReset = s.dev.inPackageReset) : s.onReset f = s.onDev f :=
  if_neg (by simp [h])

theorem writeReg_unretire (s : State) (v : Nat) (m a : Bool) : s.writeReg 0 0x800050 v m a = s.onReset fun e d => d.unretire e v a :=
  writeReg_reset 0 0x800050 v m a (.inr rfl)

/-- The package after a write of RAS_UNRETIRE that is refused for a reason. -/
def Dev.unretireRefused (d : Dev) (reason : BitVec 3) : Dev := { d with ras := { d.ras with unretireStatus := reason } }

section
variable {e : Env} {d : Dev} {v : Nat} (go : bitAt v 0 = true)
include go

theorem Dev.unretire_notRetired (auth : Bool) (h : d.ras.st ≠ .retired) : d.unretire e v auth = d.unretireRefused 2#3 := by
  simp [Dev.unretire, go, h, Dev.unretireRefused]

variable (h : d.ras.st = .retired)
include h

theorem Dev.unretire_unbooted (auth : Bool) (hb : d.ras.retiredBoot = false) : d.unretire e v auth = d.unretireRefused 3#3 := by
  simp [Dev.unretire, go, h, hb, Dev.unretireRefused]

theorem Dev.unretire_unauthorised (hb : d.ras.retiredBoot = true) : d.unretire e v false = d.unretireRefused 4#3 := by
  simp [Dev.unretire, go, h, hb, Dev.unretireRefused]

end

section
variable {s : State} {id : Nat} (supplied : s.dev.pins.powered = true)
include supplied

/-- The owner's session writes RAS_UNRETIRE. -/
theorem exec_rasUnretire_owner {x : Session} (hx : s.dev.session id = some x) (may : s.dev.ownerSession x = true) (out : s.dev.ras.st ≠ .resetting)
    (warm : s.dev.ras.coldReset = false) (value : Quad) : exec (.rasUnretire (.session id) value) s =
      .next ((s.onReset fun e d => d.unretire e value.toNat true).onDev fun _ d => d.emit (.response Config.ok [])) := by
  rw [← writeReg_unretire s value.toNat true true]
  exact congrArg _ (mgmtWrite_alwaysOn supplied _ _ (Dev.mgmtStatus_owner hx may out warm) (by decide))

/-- A refusal of the owner's write is its answer. -/
theorem exec_rasUnretire_refused {x : Session} (hx : s.dev.session id = some x) (may : s.dev.ownerSession x = true) (out : s.dev.ras.st ≠ .resetting)
    (warm : s.dev.ras.coldReset = false) {value : Quad} {reason : BitVec 3}
    (hr : s.dev.unretire s.env value.toNat true = s.dev.unretireRefused reason) :
    exec (.rasUnretire (.session id) value) s = .next { s with dev := (s.dev.unretireRefused reason).emit (.response Config.ok []) } := by
  have calm : (s.dev.unretire s.env value.toNat true).inPackageReset = s.dev.inPackageReset := by rw [hr]; rfl
  have written : (s.onReset fun e d => d.unretire e value.toNat true) = { s with dev := s.dev.unretireRefused reason } :=
    (onReset_calm calm).trans (State.onDev_eq hr)
  rw [exec_rasUnretire_owner supplied hx may out warm value, written]
  rfl

/-- Outside a session the write is answered, with its reason in RAS_UNRETIRE. -/
theorem exec_rasUnretire_outside (hx : s.dev.session id = none) (value : Quad) : exec (.rasUnretire (.session id) value) s =
    .next { s with dev := (s.dev.unretire s.env value.toNat false).emit (.response Config.noPermission []) } := by
  have denied := Dev.mgmtStatus_outside (off := 0x800050) hx
  change Host.Outcome.next (s.mgmtWrite (.session id) 0x800050 value.toNat) = _
  simp [State.mgmtWrite, supplied, denied, State.onDev, show Config.noPermission ≠ Config.ok by decide]

end

/-- Settles O44: the status of the session's write says whether its register's own write acts, and what the answer is. -/
theorem sessionWrites : Obligations.SessionWrites := by
  intro id x value s supplied
  refine ⟨fun hx => ?_, fun hx running warm role beat => ?_, fun hx may alive out warm go => ?_,
    fun hx may retired warm go => ⟨fun hb => ?_, fun hb => ?_⟩, fun hx retired hb go => ?_⟩
  · have denied := Dev.mgmtStatus_outside (off := 0x900020) hx
    refine congrArg _ ((mgmtWrite_refused supplied (.session id) _ _ ?_ (by decide)).trans ?_)
    · rw [denied]; decide
    · rw [denied]
  · have allowed : s.dev.mgmtStatus (.session id) 0x900020 = Config.ok := Dev.mgmtStatus_role hx (by rw [role]; decide) running warm
    have acts : s.dev.writePwrLater s.fuse s.time.toNat 0x900020 value.toNat = s.dev.heartbeat s.time.toNat := by
      rw [Dev.writePwrLater, if_neg (by simp [running])]; exact if_pos beat
    refine congrArg _ ((mgmtWrite_alwaysOn supplied _ _ allowed (by decide)).trans ?_)
    rw [writeReg_dev _ _ _ _ _ (by decide) (by simp [startsReset])]
    exact State.onDev_eq (congrArg (Dev.emit · _) acts)
  · exact exec_rasUnretire_refused supplied hx may out warm (Dev.unretire_notRetired go true alive)
  · exact exec_rasUnretire_refused supplied hx may (by simp [retired]) warm (Dev.unretire_unbooted go retired true hb)
  · refine ⟨_, exec_rasUnretire_owner supplied hx may (by simp [retired]) warm value, ?_, onReset_time .., ?_⟩
    · rw [State.onDev_dev, onReset_dev]
    · rw [State.onDev_kf, onReset_kf, State.onDev_dev, onReset_dev]; rfl
  · rw [exec_rasUnretire_outside supplied hx, Dev.unretire_unauthorised go retired hb]; rfl

end Sys2Proof.Machine
end

section
/-!
PROOFS. PLDM over the management bus: readings of sensors and effecters, the write of an effecter, the poll of events (R350, R393).
-/
namespace Sys2Proof.Machine

/-- A supplied package serves a request, whatever its state. -/
theorem mgmtRow_serves {s : State} {f : Env → Dev → Dev} {d : Dev} (supplied : s.dev.pins.powered = true) (h : f s.env s.dev = d) :
    mgmtRow s f = .next { s with dev := d } := onDev_leads ((if_pos supplied).trans h)

/-! ### What stands behind an ID (R393) -/

theorem pldmKind_numeric {n : Nat} : pldmKind n = some .numeric ↔ 1 ≤ n ∧ n ≤ 11 := by unfold pldmKind; split_ifs <;> simp <;> omega

theorem pldmKind_effecter {n : Nat} : pldmKind n = some .effecter ↔ 0x100 ≤ n ∧ n ≤ 0x106 := by unfold pldmKind; split_ifs <;> simp <;> omega

theorem pldmIds_past {n : Nat} (h : 20 < n) : pldmIds[n - 1]? = none := List.getElem?_eq_none (by change 20 ≤ n - 1; omega)

/-! ### Readings -/

section
variable {s : State} {id : Half} (supplied : s.dev.pins.powered = true)
include supplied

theorem exec_getSensorReading_numeric (h : 1 ≤ id.toNat ∧ id.toNat ≤ 11) : exec (.getSensorReading id) s =
    .next { s with dev := s.dev.respond 0 [sensorValue s.dev id.toNat] } :=
  mgmtRow_serves supplied (if_pos (pldmKind_numeric.2 h))

theorem exec_getSensorReading_unknown (h : id.toNat = 0 ∨ 11 < id.toNat) : exec (.getSensorReading id) s =
    .next { s with dev := s.dev.respond 0x80 [] } :=
  mgmtRow_serves supplied (if_neg fun k => absurd (pldmKind_numeric.1 k) (by omega))

theorem exec_getEffecter_known (h : 0x100 ≤ id.toNat ∧ id.toNat ≤ 0x106) : exec (.getNumericEffecterValue id) s =
    .next { s with dev := s.dev.respond 0 [effecterValue s.dev.pwr id.toNat] } :=
  mgmtRow_serves supplied (if_pos (pldmKind_effecter.2 h))

theorem exec_getEffecter_unknown (h : id.toNat < 0x100 ∨ 0x106 < id.toNat) : exec (.getNumericEffecterValue id) s =
    .next { s with dev := s.dev.respond 0x80 [] } :=
  mgmtRow_serves supplied (if_neg fun k => absurd (pldmKind_effecter.1 k) (by omega))

end

theorem sensorValue_input (d : Dev) {n : Nat} (h : n ≤ 4) : sensorValue d n = bitsAt d.pwr.input.toNat (16 * (n - 1)) 16 := if_pos h
theorem sensorValue_temp (d : Dev) {n : Nat} (lower : 4 < n) (upper : n ≤ 10) : sensorValue d n = bitsAt (pwrTemp d.pwr) (10 * (n - 5)) 10 :=
  (if_neg (Nat.not_le.2 lower)).trans (if_pos upper)
theorem sensorValue_energy (d : Dev) : sensorValue d 11 = d.pwr.energy % 2 ^ 64 := rfl

/-! ### Effecters -/

section
variable {s : State} {id : Half} {w : Writer} {value : Word} (supplied : s.dev.pins.powered = true)
include supplied

theorem exec_setEffecter_unknown (h : id.toNat < 0x100 ∨ 0x106 < id.toNat) : exec (.setNumericEffecterValue w id value) s =
    .next { s with dev := s.dev.respond 0x80 [] } :=
  mgmtRow_serves supplied (if_pos fun k => absurd (pldmKind_effecter.1 k) (by omega))

variable (known : 0x100 ≤ id.toNat ∧ id.toNat ≤ 0x106)
include known

theorem exec_setEffecter_outOfRange (fits : effecterFits s.fuse s.dev.pwr id.toNat value.toNat = false) :
    exec (.setNumericEffecterValue w id value) s = .next { s with dev := s.dev.respond 2 [] } :=
  mgmtRow_serves supplied (by simp [pldmKind_effecter.2 known, fits, pldmInvalidData])

variable (fits : effecterFits s.fuse s.dev.pwr id.toNat value.toNat = true)
include fits

theorem exec_setEffecter_denied (denied : s.dev.mgmtStatus w (effecterWrite id.toNat value.toNat).1 ≠ Config.ok) :
    exec (.setNumericEffecterValue w id value) s = .next { s with dev := s.dev.respond 1 [] } :=
  mgmtRow_serves supplied (by simp [pldmKind_effecter.2 known, fits, denied, pldmError])

end

theorem bitsAt_low {x y : Nat} (hx : x < 2 ^ 16) : bitsAt (BitVec.ofNat 64 (x + y * 2 ^ 16)).toNat 0 16 = x := by
  rw [BitVec.toNat_ofNat, bitsAt, Nat.shiftRight_zero]; omega

theorem bitsAt_high {x y : Nat} (hx : x < 2 ^ 16) (hy : y < 2 ^ 16) : bitsAt (BitVec.ofNat 64 (x + y * 2 ^ 16)).toNat 16 16 = y := by
  rw [BitVec.toNat_ofNat, bitsAt, Nat.shiftRight_eq_div_pow]; omega

theorem bitsAt_whole {x n : Nat} (hx : x < 2 ^ n) (hn : n ≤ 64) : bitsAt (BitVec.ofNat 64 x).toNat 0 n = x := by
  have : x < 2 ^ 64 := lt_of_lt_of_le hx (Nat.pow_le_pow_right (by decide) hn)
  rw [BitVec.toNat_ofNat, bitsAt, Nat.shiftRight_zero, Nat.mod_eq_of_lt this, Nat.mod_eq_of_lt hx]

/-- The PWR_ block with the field of an effecter at a value (R372). -/
def Pwr.setEffecter (p : Pwr) (n v : Nat) : Pwr :=
  match n with
  | 0x100 => { p with cap := BitVec.ofNat 64 v }
  | 0x101 => { p with slew := BitVec.ofNat 64 v }
  | 0x102 => { p with brakeFloor := BitVec.ofNat 64 v }
  | 0x103 => { p with safe := BitVec.ofNat 64 (v + p.hbTimeoutMs * 2 ^ 16) }
  | 0x104 => { p with safe := BitVec.ofNat 64 (p.safeCap + v * 2 ^ 16) }
  | 0x105 => { p with therm := BitVec.ofNat 64 v }
  | _ => p

theorem Fuses.tdp_le (u : Fuses) : u.tdp ≤ 2800 := by unfold Fuses.tdp; split <;> omega
theorem Fuses.floorMax_le (u : Fuses) : u.floorMax ≤ 1600 := by unfold Fuses.floorMax; split <;> omega

section
variable {u : Fuses} {v n : Nat} (lower : 0x100 ≤ n) (upper : n ≤ 0x105)
include lower upper

/-- The effecters of a value, but for the heartbeat. -/
theorem effecter_cases : n = 0x100 ∨ n = 0x101 ∨ n = 0x102 ∨ n = 0x103 ∨ n = 0x104 ∨ n = 0x105 := by omega

theorem effecterFits_lt {p : Pwr} (fits : effecterFits u p n v = true) : v < 2 ^ 16 ∧ (n = 0x101 ∨ n = 0x105 → v < 2 ^ 8) := by
  have := u.tdp_le
  have := u.floorMax_le
  rcases effecter_cases lower upper with rfl | rfl | rfl | rfl | rfl | rfl <;> simp [effecterFits] at fits ⊢ <;> omega

/-- The word that writes an effecter writes its field alone: 0 is out of range in the other field of PWR_SAFE. -/
theorem Dev.writePwr_effecter {d : Dev} (now : Nat) (fits : effecterFits u d.pwr n v = true) (floor : d.pwr.brakeW ≠ 0) :
    d.writePwr u now (effecterWrite n v).1 (effecterWrite n v).2 = { d with pwr := d.pwr.setEffecter n v } := by
  obtain ⟨h16, h8⟩ := effecterFits_lt lower upper fits
  have e16 : v % 65536 = v := Nat.mod_eq_of_lt h16
  rcases effecter_cases lower upper with rfl | rfl | rfl | rfl | rfl | rfl <;>
    simp only [effecterFits, Bool.and_eq_true, decide_eq_true_eq] at fits
  · simp [effecterWrite, Dev.writePwr, Pwr.setEffecter, e16, fits]
  · have e8 : v % 256 = v := Nat.mod_eq_of_lt (h8 (.inl rfl))
    simp [effecterWrite, Dev.writePwr, Pwr.setEffecter, e8, fits]
  · simp [effecterWrite, Dev.writePwr, Pwr.setEffecter, e16, fits]
  · have ms : bitsAt v 16 16 = 0 := by rw [bitsAt, Nat.shiftRight_eq_div_pow]; omega
    simp [effecterWrite, Dev.writePwr, Pwr.setEffecter, e16, ms, fits]
  · have cap : v * 2 ^ 16 % 2 ^ 16 = 0 := Nat.mul_mod_left ..
    have ms : bitsAt (v * 2 ^ 16) 16 16 = v := by rw [bitsAt, Nat.shiftRight_eq_div_pow]; omega
    simp only [effecterWrite, Dev.writePwr, Pwr.setEffecter, cap, ms, fits]
    simp [floor]
  · have e8 : v % 256 = v := Nat.mod_eq_of_lt (h8 (.inr rfl))
    simp [effecterWrite, Dev.writePwr, Pwr.setEffecter, e8, fits]

end

theorem Pwr.safeCap_pair (p : Pwr) {x y : Nat} (hx : x < 2 ^ 16) : Pwr.safeCap { p with safe := BitVec.ofNat 64 (x + y * 2 ^ 16) } = x := bitsAt_low hx
theorem Pwr.hbTimeoutMs_pair (p : Pwr) {x y : Nat} (hx : x < 2 ^ 16) (hy : y < 2 ^ 16) :
    Pwr.hbTimeoutMs { p with safe := BitVec.ofNat 64 (x + y * 2 ^ 16) } = y := bitsAt_high hx hy

section
variable {u : Fuses} {p : Pwr} {v n : Nat} (lower : 0x100 ≤ n) (upper : n ≤ 0x105) (fits : effecterFits u p n v = true)
include lower upper fits

/-- What is written to an effecter is read. -/
theorem effecterValue_setEffecter : effecterValue (p.setEffecter n v) n = v := by
  obtain ⟨h16, h8⟩ := effecterFits_lt lower upper fits
  have cap : p.safeCap < 2 ^ 16 := Nat.mod_lt _ (by decide)
  rcases effecter_cases lower upper with rfl | rfl | rfl | rfl | rfl | rfl <;> simp only [effecterValue, Pwr.setEffecter]
  · exact bitsAt_whole h16 (by decide)
  · exact bitsAt_whole (h8 (.inl rfl)) (by decide)
  · exact bitsAt_whole h16 (by decide)
  · exact p.safeCap_pair h16
  · exact p.hbTimeoutMs_pair cap h16
  · exact bitsAt_whole (h8 (.inr rfl)) (by decide)

end

/-! Each field is left by the writes of the others. -/

section
variable {p : Pwr} {v n : Nat}

theorem Pwr.capW_setEffecter (h : n ≠ 0x100) : (p.setEffecter n v).capW = p.capW := by
  unfold Pwr.setEffecter; split <;> simp_all [Pwr.capW]
theorem Pwr.slewStep_setEffecter (h : n ≠ 0x101) : (p.setEffecter n v).slewStep = p.slewStep := by
  unfold Pwr.setEffecter; split <;> simp_all [Pwr.slewStep]
theorem Pwr.brakeW_setEffecter (h : n ≠ 0x102) : (p.setEffecter n v).brakeW = p.brakeW := by
  unfold Pwr.setEffecter; split <;> simp_all [Pwr.brakeW]
theorem Pwr.throttleC_setEffecter (h : n ≠ 0x105) : (p.setEffecter n v).throttleC = p.throttleC := by
  unfold Pwr.setEffecter; split <;> simp_all [Pwr.throttleC]

/-- The two fields of PWR_SAFE. -/
theorem Pwr.safeCap_setEffecter (h : n ≠ 0x103) : (p.setEffecter n v).safeCap = p.safeCap := by
  unfold Pwr.setEffecter
  split
  case h_5 => exact p.safeCap_pair (Nat.mod_lt _ (by decide))
  all_goals simp_all [Pwr.safeCap]
theorem Pwr.hbTimeoutMs_setEffecter (h : n ≠ 0x104) (hv : v < 2 ^ 16) : (p.setEffecter n v).hbTimeoutMs = p.hbTimeoutMs := by
  unfold Pwr.setEffecter
  split
  case h_4 => exact p.hbTimeoutMs_pair hv (Nat.mod_lt _ (by decide))
  all_goals simp_all [Pwr.hbTimeoutMs]

/-- Every other effecter reads as before. -/
theorem effecterValue_setEffecter_other {k : Nat} (h : k ≠ n) (hv : v < 2 ^ 16) : effecterValue (p.setEffecter n v) k = effecterValue p k := by
  unfold effecterValue
  split
  · exact Pwr.capW_setEffecter h.symm
  · exact Pwr.slewStep_setEffecter h.symm
  · exact Pwr.brakeW_setEffecter h.symm
  · exact Pwr.safeCap_setEffecter h.symm
  · exact Pwr.hbTimeoutMs_setEffecter h.symm hv
  · exact Pwr.throttleC_setEffecter h.symm
  · rfl

end

/-- A package that runs takes a value that an effecter takes, from a writer that may write it, and writes its field alone. -/
theorem exec_setEffecter_taken {s : State} {id : Half} {w : Writer} {value : Word} (supplied : s.dev.pins.powered = true) (lower : 0x100 ≤ id.toNat)
    (upper : id.toNat ≤ 0x105) (fits : effecterFits s.fuse s.dev.pwr id.toNat value.toNat = true)
    (allowed : s.dev.mgmtStatus w (effecterWrite id.toNat value.toNat).1 = Config.ok) (running : s.dev.ras.st = .running)
    (floor : s.dev.pwr.brakeW ≠ 0) : exec (.setNumericEffecterValue w id value) s =
      .next { s with dev := { s.dev with pwr := s.dev.pwr.setEffecter id.toNat value.toNat, out := s.dev.out ++ [.response 0 []] } } := by
  have known := pldmKind_effecter.2 ⟨lower, Nat.le_succ_of_le upper⟩
  have written := Dev.writePwr_effecter lower upper s.time.toNat fits floor
  refine mgmtRow_serves supplied ?_
  simp [known, fits, allowed, Dev.writePwrLater, running, written, Dev.respond, Dev.emit]

/-! ### Events -/

section
variable {s : State} (supplied : s.dev.pins.powered = true)
include supplied

theorem exec_poll_empty (h : s.dev.mgmt.events = []) : exec .pollForPlatformEventMessage s = .next { s with dev := s.dev.respond 0 [] } :=
  mgmtRow_serves supplied (by simp only [h])

theorem exec_poll_oldest {x : BitVec 256} {l : List (BitVec 256)} (h : s.dev.mgmt.events = x :: l) : exec .pollForPlatformEventMessage s =
    .next (s.onDev fun _ d => (({ d with mgmt := { d.mgmt with events := l } } : Dev).respond 0 [0xF0]).emit (.bytes (toBytes 32 x.toNat))) :=
  mgmtRow_serves supplied (by simp only [h])

end

/-- Settles O59: what stands behind an ID says which field is read or written, and an ID, a record or a value that the table has not is refused. -/
theorem pldmAnswers : Obligations.PldmAnswers := by
  intro w record id value s supplied answer n
  have toId : ∀ k : Nat, k < 2 ^ 16 → n = k → id = BitVec.ofNat 16 k := fun k hk h =>
    BitVec.eq_of_toNat_eq (by rw [BitVec.toNat_ofNat, Nat.mod_eq_of_lt hk]; exact h)
  refine ⟨mgmtRow_serves supplied rfl, fun k h => mgmtRow_serves supplied (by simp only [h]),
    fun h => mgmtRow_serves supplied (by simp only [pldmIds_past h, pldmInvalidRecord]),
    fun lower upper => ?_, fun lower upper => ?_, fun h => ?_, exec_getSensorReading_unknown supplied,
    fun h => mgmtRow_serves supplied (if_pos (toId 0x20 (by decide) h)), fun h => ?_, fun h1 h2 => ?_,
    fun lower upper => exec_getEffecter_known supplied ⟨lower, upper⟩,
    fun h => ⟨exec_getEffecter_unknown supplied h, exec_setEffecter_unknown supplied h⟩,
    fun lower upper => exec_setEffecter_outOfRange supplied ⟨lower, upper⟩, fun lower upper => exec_setEffecter_denied supplied ⟨lower, upper⟩,
    fun lower upper fits allowed running beat floor => ?_, exec_poll_empty supplied, fun x l => exec_poll_oldest supplied, mgmtRow_serves supplied rfl⟩
  · rw [exec_getSensorReading_numeric supplied ⟨lower, by omega⟩, sensorValue_input _ upper]
  · rw [exec_getSensorReading_numeric supplied ⟨by omega, by omega⟩, sensorValue_temp _ (by omega) upper]
  · rw [exec_getSensorReading_numeric supplied ⟨by omega, by omega⟩, show id.toNat = 11 from h, sensorValue_energy]
  · rw [toId 0x21 (by decide) h]; exact mgmtRow_serves supplied rfl
  · exact mgmtRow_serves supplied ((if_neg fun e => h1 (congrArg BitVec.toNat e)).trans (if_neg fun e => h2 (congrArg BitVec.toNat e)))
  · have upper5 : id.toNat ≤ 0x105 := by omega
    refine ⟨_, exec_setEffecter_taken supplied lower upper5 fits allowed running floor, effecterValue_setEffecter lower upper5 fits, rfl,
      fun k _ _ other => effecterValue_setEffecter_other other (effecterFits_lt lower upper5 fits).1⟩

end Sys2Proof.Machine
end

section
/-!
PROOFS. The sleep states of a cluster: NAP, DEEP and the wake (R339, R359, R360).
-/
namespace Sys2Proof.Machine

/-! ### What power gating takes (R360) -/

theorem Memory.get_eq_tab (m : Memory) (a : Nat) : m.get a = Tab.get 0#8 a m := by
  induction m with
  | nil => rfl
  | cons c m ih => obtain ⟨x, v⟩ := c; simp only [Memory.get, Tab.get, ih]

/-- A byte whose address `p` does not keep reads 0. -/
theorem Memory.get_filter (m : Memory) (a : Nat) (p : Nat → Bool) : Memory.get (m.filter fun c => p c.1) a = if p a then m.get a else 0#8 := by
  rw [Memory.get_eq_tab, Memory.get_eq_tab, Tab.get_filter]

/-- A core without its stage registers, queues and output buffers. -/
def Core.gated (c : Core) : Core := { c with engs := c.engs.map fun y => (y.1, { y.2 with regs := [], queues := [], outs := [] }) }

section
variable (d : Dev) (cl : Nat)

theorem Dev.core_powerGate (c : Nat) {p : Nat} (hp : p < 32) : (d.powerGate cl).core c p = if c = cl then (d.core c p).gated else d.core c p := by
  let g (k : Nat) (x : Core) : Core := if k / 32 = cl then x.gated else x
  have table : (d.powerGate cl).cores = d.cores.map fun x => (x.1, g x.1 x.2) :=
    List.map_congr_left fun x _ => by simp only [g]; split <;> rfl
  have own : (32 * c + p) / 32 = c := by omega
  have unlisted : g (32 * c + p) {} = {} := by simp only [g]; split <;> rfl
  unfold Dev.core
  rw [table, Tab.get_map {} _ g d.cores fun _ => unlisted]
  simp only [g, own]

theorem Dev.near_powerGate (a : Nat) : Memory.get (d.powerGate cl).blk.near a = if a / 0x4000000 = cl then 0#8 else Memory.get d.blk.near a := by
  refine (Memory.get_filter d.blk.near a fun x => Decidable.decide (x / 0x4000000 ≠ cl)).trans ?_
  by_cases h : a / 0x4000000 = cl <;> simp [h]

theorem Dev.nearBad_powerGate (w : Nat) :
    (d.powerGate cl).blk.nearBad.contains w = (d.blk.nearBad.contains w && Decidable.decide (8 * w / 0x4000000 ≠ cl)) := by
  rw [Bool.eq_iff_iff]
  simp [Dev.powerGate]

theorem Dev.powerGate_rest : d.powerGate cl = { d with
    cores := (d.powerGate cl).cores
    blk := { d.blk with near := (d.powerGate cl).blk.near, nearBad := (d.powerGate cl).blk.nearBad } } := rfl

end

/-! ### The rows -/

section
variable {s : State} {cl : ClusterId} (hr : s.dev.running = true) (hf : s.fuse.clusterFitted cl = true) (hu : s.kf.usable cl = true)

section
include hr hf hu

theorem exec_clusterNap (hs : (s.dev.sleep cl).st = .active) (hi : s.dev.clusterIdle cl = true) : exec (.clusterNap cl) s =
    onDevAt s ((s.dev.sleep cl).idleSince + s.dev.pwr.napUs * Config.usTicks) fun e d =>
      d.setSleep cl { s.dev.sleep cl with st := .nap, napSince := e.now } :=
  if_pos (by simp [hr, hf, hu, hs, hi])

theorem exec_clusterDeep (hs : (s.dev.sleep cl).st = .nap) (hw : (s.dev.sleep cl).waking = false) (he : s.dev.pwr.deepEn cl = true)
    (hc : ∀ p, p < 32 → (s.dev.core cl p).sleepy = true) : exec (.clusterDeep cl) s =
      onDevAt s ((s.dev.sleep cl).napSince + s.dev.pwr.deepMs * (1000 * Config.usTicks)) fun _ d =>
        (d.powerGate cl).setSleep cl { s.dev.sleep cl with st := .deep } :=
  if_pos (by simpa [hr, hf, hu, hs, hw, he] using hc)

theorem exec_clusterWake (hs : (s.dev.sleep cl).st ≠ .active) : exec (.clusterWake cl) s =
    .next { s with dev := s.dev.setSleep cl { s.dev.sleep cl with waking := true } } :=
  onDev_leads ((if_pos hr).trans (if_pos (by simp [hf, hu, hs])))

end

theorem exec_clusterNap_busy (hi : s.dev.clusterIdle cl = false) : exec (.clusterNap cl) s = .next s := if_neg (by simp [hi])

theorem exec_clusterDeep_disabled (he : s.dev.pwr.deepEn cl = false) : exec (.clusterDeep cl) s = .next s := if_neg (by simp [he])

theorem exec_clusterWake_awake (hs : (s.dev.sleep cl).st = .active) : exec (.clusterWake cl) s = .next s := by
  have awake : s.dev.wake s.env cl = s.dev := if_neg (by simp [hs])
  exact onDev_stays (ite_eq_right_iff.2 fun _ => awake)

theorem exec_clusterWakeDone_none (hw : (s.dev.sleep cl).waking = false) : exec (.clusterWakeDone cl) s = .next s :=
  onDev_stays (if_neg (by simp [hw]))

include hr hu in
/-- A wake ends ACTIVE; it is counted where it left DEEP. -/
theorem exec_clusterWakeDone (hw : (s.dev.sleep cl).waking = true) : exec (.clusterWakeDone cl) s =
    .next { s with dev := s.dev.setSleep cl { s.dev.sleep cl with
      st := .active, waking := false, idleSince := s.time.toNat
      wakes := if (s.dev.sleep cl).st = .deep then min ((s.dev.sleep cl).wakes + 1) (2 ^ 32 - 1) else (s.dev.sleep cl).wakes } } := by
  have supplied : s.dev.pins.powered = true := by simp [Dev.running] at hr; exact hr.1.1
  exact onDev_leads (if_pos (by simp [supplied, hw, hu]))

end

/-- Settles O54: each row changes the sleep state of its cluster, and DEEP takes with it what the power gate takes. -/
theorem clustersSleep : Obligations.ClustersSleep := by
  intro cl s hr hf hu z
  refine ⟨fun hs hi => ⟨_, exec_clusterNap hr hf hu hs hi, rfl, rfl⟩, exec_clusterNap_busy, fun hs hw he hc => ?_, exec_clusterDeep_disabled,
    exec_clusterWake hr hf hu, exec_clusterWake_awake, fun hw hs => ?_, fun hw hs => ?_, exec_clusterWakeDone_none⟩
  · refine ⟨_, exec_clusterDeep hr hf hu hs hw he hc, rfl, ?_⟩
    rw [State.passTo_upTo]
    generalize (s.passTo _).onDev _ = t
    refine ⟨congrArg Sleep.st (Dev.sleep_setSleep ..), fun c hne => Dev.sleep_setSleep_other _ hne _, fun a ha => ?_, fun a ha => ?_,
      fun w => Dev.nearBad_powerGate (s.upTo t) cl w, fun p hp => ?_, fun c p hne hp => ?_, rfl⟩
    · exact (Dev.near_powerGate (s.upTo t) cl a).trans (if_pos ha)
    · exact (Dev.near_powerGate (s.upTo t) cl a).trans (if_neg ha)
    · exact (Dev.core_powerGate (s.upTo t) cl cl hp).trans (if_pos rfl)
    · exact (Dev.core_powerGate (s.upTo t) cl c hp).trans (if_neg hne)
  · rw [exec_clusterWakeDone hr hu hw, if_pos hs]
  · rw [exec_clusterWakeDone hr hu hw, if_neg hs]

end Sys2Proof.Machine
end

section
/-!
PROOFS. The ends of a launch, a load and a drain of a span, and its reload (R20, R127, R129, R130, R293, R301).
-/
namespace Sys2Proof.Machine

/-- The span once its launch has ended: its engines rest, and a drain that waits enters its step 1 (R129, R130). -/
def Dev.launchOver (d : Dev) (now k : Nat) : Dev :=
  ((d.markIdle now k).restEngines k).modSpan k fun p => { p with running := none, st := if p.drain.isSome then .draining else .loaded }

/-- The span once its load has ended: its image stands on its cores, and its handoffs are joined (R127, R130). -/
def Dev.loadOver (d : Dev) (now k : Nat) : Dev :=
  let q := d.span k
  let w := ((d.markIdle now k).writeSpan k q.cores q.epoch).setSpan k
    { q with st := if q.drain.isSome then .draining else .loaded, late := [], loadCmd := none }
  q.hands.foldl (fun d h => d.joinPair k h) w

/-- The clusters of a span that ends are idle from now on; nothing else changes. -/
theorem Dev.markIdle_cases (d : Dev) (now k : Nat) : ∃ l, d.markIdle now k = { d with pwr := { d.pwr with sleep := l } } := by
  unfold Dev.markIdle
  generalize (d.span k).cores = l
  induction l generalizing d with
  | nil => exact ⟨d.pwr.sleep, rfl⟩
  | cons r l ih =>
    obtain ⟨z, h⟩ := ih (d.setSleep r.cl { d.sleep r.cl with idleSince := now })
    exact ⟨z, by rw [List.foldl_cons, h]; rfl⟩

@[simp] theorem Dev.markIdle_funcResetting (d : Dev) (now k f : Nat) : (d.markIdle now k).funcResetting f = d.funcResetting f := by
  obtain ⟨l, h⟩ := d.markIdle_cases now k
  rw [h]; rfl

/-- The span once its image stands on the cores that lacked it (R20). -/
def Dev.reloaded (d : Dev) (now k : Nat) : Dev :=
  ((d.markIdle now k).writeSpan k (d.bareCores k) (d.span k).epoch).modSpan k fun p => { p with reload := false }

section
variable {e : Env} {d : Dev} {k uid : Nat} (hr : d.running = true)
include hr

/-- A launch whose sinks have ended is charged, and completes with its cycles; the next one may start. -/
theorem launchDone_ended {o : OpenCmd} {cycles : Nat} (hu : (d.span k).running = some uid) (ended : d.sinksEnded k = true)
    (ho : (d.launchOver e.now k).openOf uid = some o) (plain : o.opcode ≠ opSeqStep) : launchDone e d k cycles =
      ((d.launchOver e.now k).charge o ((d.span k).ncores * cycles)).settle e [.done uid cycles, .next k] := by
  rw [Dev.launchOver] at ho ⊢
  simp only [launchDone, hu]
  rw [if_neg (by simp [hr, ended])]
  simp only [ho, if_neg plain]

/-- A load that may end completes with the handle of its slot; what started after a drain that waits is refused. -/
theorem loadDone_ended {v : Dev} (hu : (d.span k).loadCmd = some uid) (hs : (d.span k).st = .loading) (active : d.clustersActive (d.span k) = true)
    (ready : d.coresReady (d.span k) = true) (hv : d.replace e.kf k = some v) : loadDone e d k =
      (v.loadOver e.now k).settle e (.done uid (slotHandle k) :: ((v.span k).late.map fun x => Todo.fail x.1 Config.badHandle 16) ++ [.next k]) := by
  simp only [loadDone, hu]
  rw [if_neg (by simp [hr, hs, active, ready])]
  simp only [hv, Dev.loadOver]

section
variable (hs : (d.span k).st = .draining) (keyed : (d.span k).keyed = true) (sinks : d.sinksKeyed k = true) (alone : d.hasSender k = false)
  (hu : (d.span k).drain = some uid)
include hs keyed sinks alone hu

/-- The drained span's cores advance their epoch, and its slot is FREE. -/
theorem drainDone_frees (live : d.funcResetting (d.span k).func = false) : drainDone e d k =
    (((d.markIdle e.now k).advance k).releaseSlot k).settle e [.done uid ((d.span k).epoch + 1#4).toNat] := by
  simp only [drainDone, hu]
  rw [if_neg (by simp [hr, hs, keyed, sinks, alone])]
  exact if_neg (by simpa using live)

/-- Under a reset of its function the slot is left to that reset. -/
theorem drainDone_leaves (resetting : d.funcResetting (d.span k).func = true) : drainDone e d k =
    ((d.markIdle e.now k).modSpan k fun p => { p with drain := none }).settle e [.done uid ((d.span k).epoch + 1#4).toNat] := by
  simp only [drainDone, hu]
  rw [if_neg (by simp [hr, hs, keyed, sinks, alone])]
  exact if_pos (by simpa using resetting)

end

section
variable (waits : (d.span k).reload = true) (used : (d.span k).st ≠ .free) (loaded : (d.span k).st ≠ .loading)
  (active : d.clustersActive (d.span k) = true) (ready : d.coresReady (d.span k) = true)
include waits used loaded active ready

theorem spanReload_lost (hv : d.replace e.kf k = none) : spanReload e d k = d.settle e [.lose k Config.quota 16 true] := by
  simp [spanReload, hr, waits, used, loaded, active, ready, hv]

theorem spanReload_written {v : Dev} (hv : d.replace e.kf k = some v) : spanReload e d k = (v.reloaded e.now k).settle e [.next k] := by
  simp [spanReload, hr, waits, used, loaded, active, ready, hv, Dev.reloaded]

end
end

/-- Settles O17: each row meets the condition of its end, whose effect the lemmas above name. -/
theorem spanCommandsEnd : Obligations.SpanCommandsEnd := by
  refine ⟨fun die slot cycles s => ⟨fun uid o hr hu ended ho plain => ?_, fun uid v hr hu hs active ready hv => ?_,
      fun uid hr hs keyed sinks alone hu => ⟨fun live => ?_, fun resetting => ?_⟩⟩,
    fun die slot s hr waits used loaded active ready => ⟨fun hv => ?_, fun v hv => ?_⟩⟩
  · exact congrArg (fun v => Host.Outcome.next (State.fenceDue v)) (State.onDev_eq (launchDone_ended hr hu ended ho plain))
  · exact onDev_acts (loadDone_ended hr hu hs active ready hv)
  · exact onDev_acts (drainDone_frees hr hs keyed sinks alone hu live)
  · exact onDev_acts (drainDone_leaves hr hs keyed sinks alone hu resetting)
  · exact onDev_acts (spanReload_lost hr waits used loaded active ready hv)
  · exact onDev_acts (spanReload_written hr waits used loaded active ready hv)

end Sys2Proof.Machine
end

section
/-!
PROOFS. The supply and PERST_N: power-on, the removal of power, and the cold reset that PERST_N begins (R344, R347, R356, R358, R388, R389).
-/
namespace Sys2Proof.Machine

/-! ### The supply (R356) -/

section
variable {s : State}

theorem exec_powerOn_supplied (h : s.dev.pins.powered = true) : exec .powerOn s = .next s := onDev_stays (if_pos h)

theorem exec_powerOn (h : s.dev.pins.powered = false) (he : s.dev.pins.epo = false) (hb : s.dev.pins.brake = false) :
    exec .powerOn s = .next { s with dev := { s.dev with pins := { s.dev.pins with powered := true } } } :=
  onDev_leads (by simp [powerOn, h, he, hb])

theorem exec_powerRemoval_unsupplied (h : s.dev.pins.powered = false) : exec .powerRemoval s = .next s :=
  congrArg _ (if_neg (ne_true_of_eq_false h))

theorem exec_powerRemoval (h : s.dev.pins.powered = true) :
    exec .powerRemoval s = .next { s with kf := Kf.atPower s.fuse, time := 0#64, dev := s.dev.unpowered s.fuse } := congrArg _ (if_pos h)

end

/-! ### The cold reset (R344, R347, R389) -/

/-- What a cold reset leaves of the work of a package: nothing of it is open, queued, loaded or held. -/
structure Dev.Cold (d : Dev) : Prop where
  longs : d.longs = []
  vers : d.vers = []
  seqs : d.seqs = []
  steps : d.steps = []
  near : d.blk.near = []
  locked : d.blk.locked = false
  running : d.sec.running = none
  sessions : d.mgmt.sessions = []
  resetting : d.ras.resetting = []
  queues : d.hif.queues = []
  submitBusy : d.sec.submitBusy = false

theorem Dev.coldStart_cold (e : Env) (d : Dev) : (Dev.coldStart e d).Cold := ⟨rfl, rfl, rfl, rfl, rfl, rfl, rfl, rfl, rfl, rfl, rfl⟩

/-- Retirement leaves all of that as it is. -/
theorem Dev.Cold.retire {d : Dev} (h : d.Cold) (e : Env) (fresh : Bool) : (d.retire e fresh).Cold :=
  ⟨h.longs, h.vers, h.seqs, h.steps, h.near, h.locked, h.running, h.sessions, rfl, h.queues, h.submitBusy⟩

theorem Dev.retire_st (d : Dev) (e : Env) (fresh : Bool) : (d.retire e fresh).ras.st = .retired := rfl

/-- PERST_N is low from now on. -/
def Dev.perstLow (d : Dev) (now : Nat) : Dev := { d with pins := { d.pins with perst := true, perstAt := now } }

/-- The cold reset of PERST_N is logged, and a flash write that it cuts short leaves no image. -/
def Dev.perstCold (e : Env) (d : Dev) : Dev := Dev.coldStart e (d.cutFlash.rasEvent e 2 0 0xFF 0xFF 5)

section
variable {e : Env} {d : Dev}

theorem perstAssert_idle (h : d.pins.powered = false ∨ d.pins.perst = true) : perstAssert e d = { d with pins := { d.pins with perst := true } } :=
  if_pos (by rcases h with h | h <;> simp [h])

section
variable (hp : d.pins.powered = true) (hq : d.pins.perst = false)
include hp hq

theorem perstAssert_retired (h : d.ras.st = .retired) : perstAssert e d = Dev.perstCold e (d.perstLow e.now) := by
  simp [perstAssert, hp, hq, h, Dev.perstCold, Dev.perstLow]

/-- A package that is not RETIRED counts the reset, and retires where the count exceeds its limit. -/
theorem perstAssert_counted (h : d.ras.st ≠ .retired) : perstAssert e d = if ((d.perstLow e.now).countReset e 5).1
    then (Dev.perstCold e ((d.perstLow e.now).countReset e 5).2).retire e (d.ras.st = .running)
    else Dev.perstCold e ((d.perstLow e.now).countReset e 5).2 := by
  simp [perstAssert, hp, hq, h, Dev.perstCold, Dev.perstLow]

theorem perstAssert_cold : (perstAssert e d).Cold := by
  by_cases h : d.ras.st = .retired
  · rw [perstAssert_retired hp hq h]; exact Dev.coldStart_cold ..
  · rw [perstAssert_counted hp hq h]
    split
    · exact (Dev.coldStart_cold ..).retire ..
    · exact Dev.coldStart_cold ..

end
end

section
variable {s : State}

theorem exec_perstAssert_idle (h : s.dev.pins.powered = false ∨ s.dev.pins.perst = true) :
    exec .perstAssert s = .next { s with dev := { s.dev with pins := { s.dev.pins with perst := true } } } := by
  have down : s.dev.busUp = false := by rcases h with h | h <;> simp [Dev.busUp, h]
  exact congrArg _ ((if_neg (ne_true_of_eq_false down)).trans (State.onDev_eq (perstAssert_idle h)))

theorem exec_perstAssert (hp : s.dev.pins.powered = true) (hq : s.dev.pins.perst = false) :
    exec .perstAssert s = .next { s with dev := perstAssert s.env s.dev, kf := { s.kf with vmap := [] } } :=
  congrArg _ (if_pos (by simp [Dev.busUp, hp, hq]))

end

/-- Settles O50: what a supply row leaves, and the cold reset with its count where PERST_N falls. -/
theorem supplyAndColdReset : Obligations.SupplyAndColdReset := by
  intro s
  refine ⟨exec_powerOn_supplied, exec_powerOn, exec_powerRemoval_unsupplied, fun hp => ?_, exec_perstAssert_idle, fun hp hq => ?_⟩
  · exact ⟨_, exec_powerRemoval hp, rfl, rfl, rfl, rfl, rfl, rfl, rfl, rfl, rfl, rfl, rfl⟩
  · rw [exec_perstAssert hp hq]
    refine ⟨⟨_, rfl, ?_⟩, fun h => ⟨_, rfl, perstAssert_retired hp hq h, rfl⟩, fun h hc => ⟨_, rfl, ?_, rfl⟩, fun h hc => ⟨_, rfl, ?_, rfl⟩⟩
    · have cold : (perstAssert s.env s.dev).Cold := perstAssert_cold hp hq
      exact ⟨cold.longs, cold.vers, cold.seqs, cold.steps, cold.near, cold.locked, cold.running, cold.sessions, cold.resetting, cold.queues,
        cold.submitBusy⟩
    · exact (perstAssert_counted hp hq h).trans (if_neg (ne_true_of_eq_false hc))
    · exact (congrArg (fun v : Dev => v.ras.st) ((perstAssert_counted hp hq h).trans (if_pos hc))).trans (Dev.retire_st ..)

end Sys2Proof.Machine
end

section
/-!
PROOFS. The ends of resets and of self-tests, the automatic reset out of the parapet state, and the retirement record (R338, R343 to R345, R347, R407).
-/
namespace Sys2Proof.Machine

/-! ### Ends of resets (R344, R345) -/

/-- A reset whose end leaves a package reset as it stands leaves the core maps. -/
theorem loaded_calm {s t : State} (h : t.dev.inPackageReset = s.dev.inPackageReset) : s.loaded t = t := if_neg (by simp [h])

theorem loaded_dev (s t : State) : (s.loaded t).dev = t.dev := by rcases loaded_cases s t with ⟨h, _⟩ | ⟨h, _⟩ <;> rw [h]
theorem loaded_time (s t : State) : (s.loaded t).time = t.time := by rcases loaded_cases s t with ⟨h, _⟩ | ⟨h, _⟩ <;> rw [h]
theorem loaded_kf (s t : State) : (s.loaded t).kf = if s.dev.inPackageReset && !t.dev.inPackageReset then t.kf.boot else t.kf := by
  rcases loaded_cases s t with ⟨h, stays⟩ | ⟨h, ends⟩
  · rw [h, stays]; rfl
  · rw [h, ends]; rfl

theorem exec_resetComplete {t : ResetTarget} (h : t.wf = true) (s : State) :
    exec (.resetComplete t) s = .next (s.loaded (s.onDev fun e d => resetDone e d t)) := guarded_wf h _

/-- A row whose reset does not end changes nothing. -/
theorem exec_resetComplete_idle {t : ResetTarget} (h : t.wf = true) {s : State} (hd : resetDone s.env s.dev t = s.dev) :
    exec (.resetComplete t) s = .next s := by
  rw [exec_resetComplete h, onDev_same hd, loaded_calm rfl]

/-- The package with the reset of a target no longer under way. -/
def Dev.resetOver (d : Dev) (t : ResetTarget) : Dev :=
  { d with ras := { d.ras with resetting := d.ras.resetting.filter fun x => x.1 ≠ t } }

/-- The end of another reset leaves a package reset under way. -/
theorem Dev.resetOver_inPackageReset (d : Dev) {t : ResetTarget} (h : t ≠ .package) : (d.resetOver t).inPackageReset = d.inPackageReset := by
  have keeps : (d.ras.resetting.filter fun x => x.1 ≠ t).any (fun x => x.1 = .package) = d.ras.resetting.any fun x => x.1 = .package := by
    rw [List.any_filter]
    refine List.any_congr rfl fun x => ?_
    by_cases hx : x.1 = .package <;> simp [hx, h.symm]
  simp only [Dev.inPackageReset, Dev.resetOver, keeps]

/-- The reset of a core, a cluster or a die ends. -/
theorem exec_resetComplete_ends {t : ResetTarget} (h : t.wf = true) (ht : t ≠ .package) {s : State} {d : Dev} (hd : resetDone s.env s.dev t = d)
    (hr : d.inPackageReset = (s.dev.resetOver t).inPackageReset) : exec (.resetComplete t) s = .next { s with dev := d } := by
  rw [exec_resetComplete h, State.onDev_eq hd, loaded_calm (hr.trans (s.dev.resetOver_inPackageReset ht))]

section
variable {e : Env} {d : Dev} {t : ResetTarget}

theorem resetDone_none (h : (d.ras.resetting.any fun x => x.1 = t) = false) : resetDone e d t = d := if_pos (by simp [h])

section
variable (h : (d.ras.resetting.any fun x => x.1 = t) = true)
include h

theorem resetDone_core {cl ph : Nat} (ht : t = .core cl ph) : resetDone e d t = (d.resetOver t).rasEvent e 3 0 cl ph 1 := by
  subst ht; exact if_neg (by simp [h])

theorem resetDone_cluster {cl : Nat} (ht : t = .cluster cl) : resetDone e d t = if d.tested (insideCluster cl)
    then ((d.resetOver t).watchPiers e fun k => k = cl / 4).rasEvent e 3 0 cl 0xFF 2 else d := by
  subst ht; exact if_neg (by simp [h])

theorem resetDone_die {n : Nat} (ht : t = .die n) : resetDone e d t = if d.tested (insideDie n)
    then ((d.resetOver t).watchPiers e fun k => k = n).rasEvent e 3 0 0xFF 0xFF 3 else d := by
  subst ht; exact if_neg (by simp [h])

theorem resetDone_package (ht : t = .package) : resetDone e d t = if d.tested fun _ => true then Dev.warmDone e d else d := by
  subst ht; exact if_neg (by simp [h])

end
end

/-! ### Self-tests (R338, R345) -/

/-- The package with a self-test over, and the fences `l` still to follow. -/
def Dev.testOver (d : Dev) (t : ResetTarget) (l : List (Nat × Nat)) : Dev :=
  { d with ras := { d.ras with testing := d.ras.testing.filter (· ≠ t), toFence := l } }

theorem exec_selfTestDone {t : ResetTarget} (h : t.wf = true) (failed : Word) (pier : Bool) (s : State) :
    exec (.selfTestDone t failed pier) s = .next (s.testDone t failed.toNat pier) := guarded_wf h _

theorem fenceFailed_none (s : State) (cl : Nat) (pier : Bool) : s.fenceFailed cl 0 pier = if pier then s.fenceCluster cl none else s := by
  have empty : bitList 32 0 = [] := List.filter_eq_nil_iff.2 fun j _ => by simp
  simp [State.fenceFailed, empty]

theorem fenceFailed_one (s : State) (cl : Nat) {ph : Nat} (h : ph < 32) : s.fenceFailed cl (2 ^ ph) false = s.fenceCore cl ph none := by
  simp [State.fenceFailed, bitList_single h]

section
variable {s : State} {cl : Nat} (hr : s.dev.ras.st = .running)
include hr

theorem testDone_core {ph : Nat} (ht : s.dev.ras.testing.contains (.core cl ph) = true)
    (hn : (s.dev.ras.resetting.any fun x => x.1 = .core cl ph) = false) (failed : Nat) (pier : Bool) : s.testDone (.core cl ph) failed pier =
      if bitAt failed ph then State.fenceCore { s with dev := s.dev.testOver (.core cl ph) s.dev.ras.toFence } cl ph none
      else { s with dev := s.dev.testOver (.core cl ph) s.dev.ras.toFence } := by
  have all : (s.dev.ras.toFence.filter fun _ => !false) = s.dev.ras.toFence := List.filter_true _
  rw [State.testDone, if_neg (by rw [ht, hr]; decide), ← all]
  exact if_neg (ne_true_of_eq_false hn)

/-- A cluster's test without fences that wait for it fences what it found. -/
theorem testDone_cluster (ht : s.dev.ras.testing.contains (.cluster cl) = true) (hl : ∀ x ∈ s.dev.ras.toFence, x.1 ≠ cl) (failed : Nat) (pier : Bool) :
    s.testDone (.cluster cl) failed pier = State.fenceFailed { s with
      dev := s.dev.testOver (.cluster cl) (s.dev.ras.toFence.filter fun x => !(x.1 = cl)) } cl failed pier := by
  have none_ : (s.dev.ras.toFence.filter fun x => x.1 = cl) = [] := List.filter_eq_nil_iff.2 fun x hx => by simp [hl x hx]
  rw [State.testDone, if_neg (by rw [ht, hr]; decide)]
  simp only [none_, List.foldl_nil]
  rfl

end

/-! ### The automatic reset (R343, R347) -/

/-- The package and the surroundings in which a package reset at a time of its own begins. -/
theorem State.passTo_onReset_dev (s : State) (n : Nat) (f : Env → Dev → Dev) : ((s.passTo n).onReset f).dev =
    f { s.env with now := ((s.passTo n).onReset f).time.toNat } (s.upTo ((s.passTo n).onReset f)) := by
  rw [State.upTo, onReset_time, onReset_dev]; rfl

theorem State.passTo_onReset_kf (s : State) (n : Nat) (f : Env → Dev → Dev) : ((s.passTo n).onReset f).kf =
    if ((s.passTo n).onReset f).dev.inPackageReset && !s.dev.inPackageReset then { s.kf with vmap := [] } else s.kf := by
  rw [onReset_kf, onReset_dev]; rfl

section
variable {s : State}

theorem exec_autoReset (hb : s.dev.busUp = true) (hs : s.dev.ras.st = .parapet) (auto : bitAt s.dev.ras.ctrl.toNat 0 = true)
    (hn : s.dev.ras.noAuto = false) (ha : s.dev.allowsWarm = true) : exec .autoReset s =
      .next ((s.passTo (s.dev.ras.lastTime.toNat + bitsAt s.dev.ras.ctrl.toNat 8 16 * 100000)).onReset fun e d => Dev.warmReset e d) :=
  if_pos (by simp [hb, hs, auto, hn, ha])

theorem exec_autoReset_held (h : s.dev.ras.st ≠ .parapet ∨ bitAt s.dev.ras.ctrl.toNat 0 = false ∨ s.dev.ras.noAuto = true ∨
    s.dev.allowsWarm = false) : exec .autoReset s = .next s := if_neg (by rcases h with h | h | h | h <;> simp [h])

/-! ### The retirement record (R347, R407) -/

theorem exec_retirementRecordWrite (hp : s.dev.pins.powered = true) (hs : s.dev.ras.st = .retired) (hb : s.dev.ras.retiredBoot = false) :
    exec .retirementRecordWrite s =
      .next { s with dev := { s.dev with sec := { s.dev.sec with record := retirementRecord s.fuse s.dev.ras } } } :=
  onDev_leads (if_pos (by simp [hp, hs, hb]))

theorem exec_retirementRecordWrite_idle (h : s.dev.ras.st ≠ .retired ∨ s.dev.ras.retiredBoot = true) : exec .retirementRecordWrite s = .next s :=
  onDev_stays (if_neg (by rcases h with h | h <;> simp [h]))

end

/-- Settles O47: each row's end, fence, reset or record is its own, under the conditions that the rules state. -/
theorem resetsEndAndRecur : Obligations.ResetsEndAndRecur := by
  refine ⟨fun t cl ph n s => ?_, fun s => ⟨fun hb hs auto hn ha => ?_, exec_autoReset_held,
    fun hp hs hb => ⟨_, rfl, exec_retirementRecordWrite hp hs hb⟩, exec_retirementRecordWrite_idle⟩⟩
  · have core : ResetTarget.wf (.core cl ph) = true := by simp [ResetTarget.wf]
    have cluster : ResetTarget.wf (.cluster cl) = true := by simp [ResetTarget.wf]
    have die : ResetTarget.wf (.die n) = true := by simp [ResetTarget.wf]
    refine ⟨fun h none_ => exec_resetComplete_idle h (resetDone_none none_), fun under => ⟨fun ht => ?_, fun ht tested => ?_, fun ht tested => ?_,
      fun ht untested => ?_, fun ht tested => ?_⟩, fun hr ht hn => ⟨fun failed pass => ?_, fun failed fail => ?_⟩, fun hr ht hl => ⟨?_, ?_, ?_⟩⟩
    · exact exec_resetComplete_ends (by rw [ht]; exact core) (by simp [ht]) (resetDone_core under ht) rfl
    · exact exec_resetComplete_ends (by rw [ht]; exact cluster) (by simp [ht]) ((resetDone_cluster under ht).trans (if_pos tested)) rfl
    · exact exec_resetComplete_ends (by rw [ht]; exact die) (by simp [ht]) ((resetDone_die under ht).trans (if_pos tested)) rfl
    · exact exec_resetComplete_idle (by rw [ht]; exact cluster) ((resetDone_cluster under ht).trans (if_neg (ne_true_of_eq_false untested)))
    · have ended : resetDone s.env s.dev t = Dev.warmDone s.env s.dev := (resetDone_package under ht).trans (if_pos tested)
      have wf : t.wf = true := by rw [ht]; rfl
      refine ⟨_, exec_resetComplete wf s, loaded_time .., (loaded_dev ..).trans ended, ?_⟩
      rw [loaded_kf, loaded_dev]; rfl
    · rw [exec_selfTestDone core, testDone_core hr ht hn, if_neg (ne_true_of_eq_false pass)]; rfl
    · rw [exec_selfTestDone core, testDone_core hr ht hn, if_pos fail]; rfl
    · rw [exec_selfTestDone cluster, testDone_cluster hr ht hl]
      exact congrArg _ (fenceFailed_none ..)
    · rw [exec_selfTestDone cluster, testDone_cluster hr ht hl]
      exact congrArg _ (fenceFailed_none ..)
    · have one : (BitVec.ofNat 32 (2 ^ ph.val)).toNat = 2 ^ ph.val := by
        rw [BitVec.toNat_ofNat, Nat.mod_eq_of_lt (Nat.pow_lt_pow_right (by decide) ph.isLt)]
      rw [exec_selfTestDone cluster, testDone_cluster hr ht hl, one]
      exact congrArg _ (fenceFailed_one _ _ ph.isLt)
  · exact ⟨_, exec_autoReset hb hs auto hn ha, onReset_time .., s.passTo_onReset_dev .., s.passTo_onReset_kf ..⟩

end Sys2Proof.Machine
end

section
/-!
PROOFS. How the package enters the parapet state: the causes of the hub die, of the supply, of the thermal trip and of EPO_N (R340, R341, R343, R356, R368).
-/
namespace Sys2Proof.Machine

/-! ### The parapet state (R340, R341) -/

/-- Fault ordered sets touch the ports and the output alone. -/
theorem Dev.faultSets_cases (d : Dev) : ∃ v o, d.faultSets = { d with via := v, out := o } := by
  unfold Dev.faultSets
  generalize List.range 4 = l
  induction l generalizing d with
  | nil => exact ⟨d.via, d.out, rfl⟩
  | cons p l ih =>
    rw [List.foldl_cons]
    split
    · exact ih d
    · obtain ⟨v, o, h⟩ := ih ((d.modPort p fun x => { x with faultSets := true }).emit (.faultSets p))
      exact ⟨v, o, by rw [h]; rfl⟩

@[simp] theorem Dev.faultSets_ras (d : Dev) : d.faultSets.ras = d.ras := by obtain ⟨v, o, h⟩ := d.faultSets_cases; rw [h]
@[simp] theorem Dev.faultSets_opens (d : Dev) : d.faultSets.opens = d.opens := by obtain ⟨v, o, h⟩ := d.faultSets_cases; rw [h]
@[simp] theorem Dev.faultSets_groups (d : Dev) : d.faultSets.groups = d.groups := by obtain ⟨v, o, h⟩ := d.faultSets_cases; rw [h]

/-- A package as a cause leaves it that it has entered the parapet state with at `now`. -/
structure Dev.Entered (d : Dev) (cause code now : Nat) : Prop where
  st : d.ras.st = .parapet
  opens : d.opens = []
  groups : d.groups = []
  named : bitAt d.ras.cause.toNat cause = true
  latched : d.ras.latched = BitVec.ofNat 8 (2 ^ cause)
  lastCode : d.ras.lastCode = BitVec.ofNat 8 code
  lastTime : d.ras.lastTime = BitVec.ofNat 64 now
  resetting : d.ras.resetting = []
  hard : d.pwr.hard = true

theorem bitAt_cause (c : Byte) {cause : Nat} (h : cause < 8) : bitAt (c ||| BitVec.ofNat 8 (2 ^ cause)).toNat cause = true := by
  have small : 2 ^ cause < 2 ^ 8 := Nat.pow_lt_pow_right (by decide) h
  rw [bitAt, BitVec.toNat_or, Nat.testBit_or, BitVec.toNat_ofNat, Nat.mod_eq_of_lt small, Nat.testBit_two_pow_self, Bool.or_true]

section
variable {e : Env} {d : Dev} {cause code : Nat}

theorem Dev.parapet_entered (h : d.ras.st ≠ .parapet) (hr : d.ras.st ≠ .retired) (hc : cause < 8) :
    (Dev.parapet e d cause code).Entered cause code e.now := by
  rw [Dev.parapet, if_neg (by simp [h, hr])]
  exact {
    st := by simp [Dev.rasEvent, Dev.hardFloor]
    opens := by simp [Dev.hardFloor, Dev.dropAll]
    groups := by simp [Dev.hardFloor, Dev.dropAll]
    named := by simpa [Dev.rasEvent, Dev.hardFloor] using bitAt_cause _ hc
    latched := by simp [Dev.rasEvent, Dev.hardFloor]
    lastCode := by simp [Dev.rasEvent, Dev.hardFloor]
    lastTime := by simp [Dev.rasEvent, Dev.hardFloor]
    resetting := by simp [Dev.rasEvent, Dev.hardFloor]
    hard := rfl }

/-- In the parapet state a further cause is latched beside the others; nothing else changes. -/
theorem Dev.parapet_held (h : d.ras.st = .parapet ∨ d.ras.st = .retired) : Dev.parapet e d cause code = { d with ras := { d.ras with
    cause := d.ras.cause ||| BitVec.ofNat 8 (2 ^ cause), latched := d.ras.latched ||| BitVec.ofNat 8 (2 ^ cause) } } := by
  rw [Dev.parapet, if_pos (by rcases h with h | h <;> simp [h])]

end

/-! ### The rows -/

/-- The package with what a cause does beside the parapet state: cores, tiers, the kind of a supply fault. -/
def Dev.afterCause (d : Dev) (c : Tab Core) (b : Blk) (x : BitVec 3) (y : Bool) : Dev :=
  { d with cores := c, blk := b, pwr := { d.pwr with supply := x }, ras := { d.ras with supplyHard := y } }

/-- Row `i` brings a cause from `s` to `t`: `d` is the package at the cause, which shows what that of `s` does. -/
structure Detects (i : Instr) (cause code : Nat) (s t : State) (d : Dev) : Prop where
  row : exec i s = .next t
  st : d.ras.st = s.dev.ras.st
  opens : d.opens = s.dev.opens
  causes : d.ras.cause = s.dev.ras.cause
  lastCode : d.ras.lastCode = s.dev.ras.lastCode
  after : ∃ c b x y, t.dev = (Dev.parapet { s.env with now := t.time.toNat } d cause code).afterCause c b x y
  lost : i = .epoAssert → t.dev.cores = [] ∧ t.dev.blk.near = []

section
variable {i : Instr} {cause code : Nat} {s t : State} {d : Dev}

/-- A package that runs or is reset is in the parapet state after it. -/
theorem Detects.enters (h : Detects i cause code s t d) (hp : s.dev.ras.st ≠ .parapet) (hr : s.dev.ras.st ≠ .retired) (hc : cause < 8) :
    t.dev.Entered cause code t.time.toNat := by
  obtain ⟨c, b, x, y, after⟩ := h.after
  have entered : (Dev.parapet { s.env with now := t.time.toNat } d cause code).Entered cause code t.time.toNat :=
    Dev.parapet_entered (by rwa [h.st]) (by rwa [h.st]) hc
  rw [after]
  exact ⟨entered.st, entered.opens, entered.groups, entered.named, entered.latched, entered.lastCode, entered.lastTime, entered.resetting, entered.hard⟩

/-- One in the parapet state, or RETIRED, adds the bit of the cause alone. -/
theorem Detects.adds (h : Detects i cause code s t d) (hs : s.dev.ras.st = .parapet ∨ s.dev.ras.st = .retired) : t.dev.ras.st = s.dev.ras.st ∧
    t.dev.opens = s.dev.opens ∧ t.dev.ras.cause = s.dev.ras.cause ||| BitVec.ofNat 8 (2 ^ cause) ∧ t.dev.ras.lastCode = s.dev.ras.lastCode := by
  obtain ⟨c, b, x, y, after⟩ := h.after
  rw [after, Dev.parapet_held (by rwa [h.st])]
  exact ⟨h.st, h.opens, by rw [← h.causes]; rfl, h.lastCode⟩

/-- A row that does nothing beside the parapet state. -/
theorem Detects.plain (row : exec i s = .next t) (after : t.dev = Dev.parapet { s.env with now := t.time.toNat } d cause code)
    (he : i ≠ .epoAssert) (st : d.ras.st = s.dev.ras.st) (opens : d.opens = s.dev.opens) (causes : d.ras.cause = s.dev.ras.cause)
    (lastCode : d.ras.lastCode = s.dev.ras.lastCode) : Detects i cause code s t d :=
  ⟨row, st, opens, causes, lastCode, ⟨t.dev.cores, t.dev.blk, t.dev.pwr.supply, t.dev.ras.supplyHard, by rw [← after]; rfl⟩, fun h => absurd h he⟩

/-- A supply fault of a kind. -/
theorem Detects.supply {kind : Nat} (row : exec i s = .next { s with dev := supplyFault s.env d kind }) (he : i ≠ .epoAssert)
    (st : d.ras.st = s.dev.ras.st) (opens : d.opens = s.dev.opens) (causes : d.ras.cause = s.dev.ras.cause)
    (lastCode : d.ras.lastCode = s.dev.ras.lastCode) : ∃ t d, Detects i 2 Config.power s t d :=
  ⟨_, d, row, st, opens, causes, lastCode, ⟨_, _, _, _, rfl⟩, fun h => absurd h he⟩

end

section
variable {s : State} (supplied : s.dev.pins.powered = true)
include supplied

theorem detects_epoAssert : ∃ t d, Detects .epoAssert 0 Config.power s t d := by
  have row : exec .epoAssert s = _ := onDev_leads (if_neg (by simp [supplied]))
  exact ⟨_, { s.dev with pins := { s.dev.pins with epo := true } }, row, rfl, rfl, rfl, rfl, ⟨_, _, _, _, rfl⟩, fun _ => ⟨rfl, rfl⟩⟩

theorem detects_thermalTrip : ∃ t d, Detects .thermalTrip 1 Config.thermal s t d :=
  ⟨_, _, .plain (onDev_leads (if_pos supplied)) rfl (by simp) rfl rfl rfl rfl⟩

theorem detects_hubControlEcc : ∃ t d, Detects .hubControlEcc 3 Config.eccUncorrected s t d :=
  ⟨_, _, .plain (onDev_leads (if_pos supplied)) rfl (by simp) rfl rfl rfl rfl⟩

theorem detects_supplyUndervoltage : ∃ t d, Detects .supplyUndervoltage 2 Config.power s t d :=
  Detects.supply (onDev_leads (if_pos supplied)) (by simp) rfl rfl rfl rfl

theorem detects_supplyOvervoltage : ∃ t d, Detects .supplyOvervoltage 2 Config.power s t d :=
  Detects.supply (onDev_leads (if_pos supplied)) (by simp) rfl rfl rfl rfl

theorem detects_regulatorFault : ∃ t d, Detects .regulatorFault 2 Config.power s t d :=
  Detects.supply (onDev_leads (if_pos supplied)) (by simp) rfl rfl rfl rfl

theorem detects_refclkLoss : ∃ t d, Detects .refclkLoss 2 Config.power s t d :=
  Detects.supply (onDev_leads (if_pos supplied)) (by simp) rfl rfl rfl rfl

theorem detects_hubWatchdog : ∃ t d, Detects .hubWatchdogExpiry 5 Config.hang s t d :=
  ⟨_, _, .plain (if_pos supplied) (State.passTo_upTo ..) (by simp) rfl rfl rfl rfl⟩

end

theorem detects_dieResetWatchdog {s : State} {n : DieId} (under : (s.dev.ras.resetting.any fun x => x.1 = .die n) = true)
    (running : s.dev.running = true) : ∃ t d, Detects (.dieResetWatchdogExpiry n) 5 Config.hang s t d := by
  obtain ⟨x, hx⟩ := Option.isSome_iff_exists.1 ((List.find?_isSome (p := fun x : ResetTarget × Nat => x.1 = .die n)).2 (List.any_eq_true.1 under))
  have row : exec (.dieResetWatchdogExpiry n) s = onDevAt s (x.2 + 2000 * Config.usTicks) fun e d =>
      Dev.parapet e (d.expired e 0xFF 0xFF 0) 5 Config.hang := by
    change execDieResetWatchdogExpiry n s = _
    simp only [execDieResetWatchdogExpiry, hx]
    exact if_pos running
  exact ⟨_, _, .plain row (State.passTo_upTo ..) (by simp) rfl rfl rfl rfl⟩

/-- Settles O46: each of the rows detects its cause, which a package outside the parapet state enters it with. -/
theorem parapetEntered : Obligations.ParapetEntered := by
  intro i cause code n s supplied h
  have detected : cause < 8 ∧ ∃ t d, Detects i cause code s t d := by
    rcases h with ⟨rfl, rfl, rfl⟩ | ⟨rfl, rfl, rfl⟩ | ⟨rfl | rfl | rfl | rfl, rfl, rfl⟩ | ⟨rfl, rfl, rfl⟩ |
      ⟨rfl | ⟨rfl, under, running⟩, rfl, rfl⟩
    · exact ⟨by decide, detects_epoAssert supplied⟩
    · exact ⟨by decide, detects_thermalTrip supplied⟩
    · exact ⟨by decide, detects_supplyUndervoltage supplied⟩
    · exact ⟨by decide, detects_supplyOvervoltage supplied⟩
    · exact ⟨by decide, detects_regulatorFault supplied⟩
    · exact ⟨by decide, detects_refclkLoss supplied⟩
    · exact ⟨by decide, detects_hubControlEcc supplied⟩
    · exact ⟨by decide, detects_hubWatchdog supplied⟩
    · exact ⟨by decide, detects_dieResetWatchdog under running⟩
  obtain ⟨small, t, d, found⟩ := detected
  refine ⟨fun hp hr => ?_, fun hs => ⟨t, found.row, found.adds hs⟩⟩
  have entered := found.enters hp hr small
  exact ⟨t, found.row, entered.st, entered.opens, entered.groups, entered.named, entered.latched, entered.lastCode,
    entered.lastTime.trans (BitVec.ofNat_toNat ..), entered.resetting, entered.hard, found.lost⟩

end Sys2Proof.Machine
end

section
/-!
PROOFS. The host link: doorbells, the fetch of commands, and the setting up of queues (R378 to R385), with the row of an opcode that is not assigned (R437).
-/
namespace Sys2Proof.Machine

/-! ### An opcode that is not assigned (R437) -/

theorem cmdUnassigned_of {c : Command} (h : cmdOpcode c = 0x00 ∨ 0x1B ≤ cmdOpcode c) : cmdUnassigned c = true := by
  rw [cmdUnassigned, opAssigned, Bool.not_eq_true', Bool.and_eq_false_iff, decide_eq_false_iff_not, decide_eq_false_iff_not]
  omega

/-- Settles O12: the row's check refuses every command, and a command that is refused changes nothing (O9). -/
theorem badOpcodeCompletes : Obligations.BadOpcodeCompletes := by
  intro f q c s x unassigned head
  have starts : Option.map (fun y : Fetched => (y, false)) (s.dev.headOf f q c) = some (x, false) := by rw [head]; rfl
  exact failedCheckChangesNothing (.badOpcode f q c) _ s x false Config.badOpcode 0 rfl (cmdUnassigned_of unassigned) (by simp) starts rfl

/-! ### Doorbells (R378, R379, R385) -/

section
variable {d : Dev} {f q v : Nat} (served : d.takesDoorbell f = true)
include served

theorem sqDoorbell_ignored (h : (d.queue f q).st ≠ .bound ∨ (d.queue f q).sqSize ≤ v) : sqDoorbell d f q v = d.badDoorbell f q := by
  rw [sqDoorbell, if_neg (by simp [served]), if_pos (by simpa using h)]

theorem sqDoorbell_taken (bound : (d.queue f q).st = .bound) (inside : v < (d.queue f q).sqSize) :
    sqDoorbell d f q v = d.setQueue f q { d.queue f q with sqTail := v } := by
  rw [sqDoorbell, if_neg (by simp [served]), if_neg (by simp [bound, inside])]

theorem cqDoorbell_ignored (h : (d.queue f q).st ≠ .bound ∨ (d.queue f q).cqSize ≤ v ∨ (d.queue f q).unread < (d.queue f q).freed v) :
    cqDoorbell d f q v = d.badDoorbell f q := by
  rw [cqDoorbell, if_neg (by simp [served]), if_pos (by simpa [or_assoc] using h)]

theorem cqDoorbell_taken (bound : (d.queue f q).st = .bound) (inside : v < (d.queue f q).cqSize)
    (written : (d.queue f q).freed v ≤ (d.queue f q).unread) :
    cqDoorbell d f q v = d.setQueue f q { d.queue f q with cqHead := v, unread := (d.queue f q).unread - (d.queue f q).freed v } := by
  rw [cqDoorbell, if_neg (by simp [served]), if_neg (by simp [bound, inside, written])]

end

/-- Settles O33: a doorbell that is served moves its index, or is counted. -/
theorem doorbellsTaken : Obligations.DoorbellsTaken := by
  intro f q v s served u ignored
  exact ⟨fun unbound => ⟨onDev_leads (sqDoorbell_ignored served (.inl unbound)), onDev_leads (cqDoorbell_ignored served (.inl unbound))⟩,
    fun _ outside => onDev_leads (sqDoorbell_ignored served (.inr outside)),
    fun bound inside => onDev_leads (sqDoorbell_taken served bound inside),
    fun _ outside => onDev_leads (cqDoorbell_ignored served (.inr outside)),
    fun bound inside written => onDev_leads (cqDoorbell_taken served bound inside written)⟩

/-! ### Fetching (R382) -/

theorem fetchWf_cons {l : List Command} (h : fetchWf l = true) : ∃ c t, l = c :: t := by
  cases l with
  | nil => simp [fetchWf] at h
  | cons c t => exact ⟨c, t, rfl⟩

theorem owes_le (c : Command) : owes c ≤ 2 := by unfold owes; split <;> omega

theorem Dev.takeTurn_mayFetch (d : Dev) (f q g r : Nat) : (d.takeTurn f q).mayFetch g r = d.mayFetch g r := rfl

/-- The package once the next command of a queue has been fetched. -/
def Dev.fetchOne (d : Dev) (f q : Nat) (c : Command) : Dev :=
  let u := d.queue f q
  d.setQueue f q { u with
    sqHead := (u.sqHead + 1) % u.sqSize, fetched := u.fetched ++ [{ cmd := c, sqHead := (u.sqHead + 1) % u.sqSize }] }

theorem fetchAll_cons {f q : Nat} {d : Dev} (h : d.mayFetch f q = true) (c : Command) (l : List Command) :
    fetchAll f q (c :: l) d = fetchAll f q l (d.fetchOne f q c) := if_pos h

theorem fetchAll_stopped {f q : Nat} {d : Dev} (h : d.mayFetch f q = false) (c : Command) (l : List Command) : fetchAll f q (c :: l) d = none :=
  if_neg (by simp [h])

theorem fetchAll_some {f q : Nat} {d d' : Dev} {c : Command} {l : List Command} (h : fetchAll f q (c :: l) d = some d') :
    d.mayFetch f q = true ∧ fetchAll f q l (d.fetchOne f q c) = some d' := by
  cases may : d.mayFetch f q with
  | false => rw [fetchAll_stopped may] at h; cases h
  | true => rw [fetchAll_cons may] at h; exact ⟨rfl, h⟩

theorem Dev.mayFetch_room {d : Dev} {f q : Nat} (h : d.mayFetch f q = true) : d.owed f q + 2 ≤ (d.queue f q).cqFree := by
  simp only [Dev.mayFetch, Bool.and_eq_true, decide_eq_true_eq] at h
  exact h.2

/-- A command that is fetched owes its completions from now on. -/
theorem Dev.owed_fetchOne (d : Dev) (f q : Nat) (c : Command) : (d.fetchOne f q c).owed f q = d.owed f q + owes c := by
  simp [Dev.owed, Dev.fetchOne]; omega

/-- `d'` is `d` with the commands `l` fetched by queue `q` of function `f`: they stand behind those that were there, SQ_HEAD has moved on by their
number, every completion owed has its place in the ring, and nothing else has changed. -/
structure Fetches (d d' : Dev) (f q : Nat) (l : List Command) : Prop where
  rest : d' = { d with hif := { d.hif with queues := d'.hif.queues } }
  fetched : (d'.queue f q).fetched.map (·.cmd) = (d.queue f q).fetched.map (·.cmd) ++ l
  sqHead : (d'.queue f q).sqHead = ((d.queue f q).sqHead + l.length) % (d.queue f q).sqSize
  queue : d'.queue f q = { d.queue f q with sqHead := (d'.queue f q).sqHead, fetched := (d'.queue f q).fetched }
  room : d'.owed f q ≤ (d'.queue f q).cqFree
  others : ∀ k, k ≠ 64 * f + q → Tab.get {} k d'.hif.queues = Tab.get {} k d.hif.queues

section
variable {d d1 d' : Dev} {f q : Nat}

theorem Fetches.one (h : d.mayFetch f q = true) (c : Command) : Fetches d (d.fetchOne f q c) f q [c] where
  rest := rfl
  fetched := by simp [Dev.fetchOne]
  sqHead := by simp [Dev.fetchOne]
  queue := by simp [Dev.fetchOne]
  room := by
    have room := Dev.mayFetch_room h
    have more := owes_le c
    have same : ((d.fetchOne f q c).queue f q).cqFree = (d.queue f q).cqFree := by rw [Dev.fetchOne, Dev.queue_setQueue]; rfl
    rw [d.owed_fetchOne, same]; omega
  others k hk := Tab.get_put_other _ hk _ _

theorem Fetches.append {l l1 : List Command} (h1 : Fetches d d1 f q l1) (h : Fetches d1 d' f q l) : Fetches d d' f q (l1 ++ l) where
  rest := by rw [h.rest, h1.rest]
  fetched := by rw [h.fetched, h1.fetched, List.append_assoc]
  sqHead := by
    have size : (d1.queue f q).sqSize = (d.queue f q).sqSize := by rw [h1.queue]; rfl
    rw [h.sqHead, h1.sqHead, size, Nat.mod_add_mod, List.length_append, Nat.add_assoc]
  queue := by rw [h.queue, h1.queue]
  room := h.room
  others k hk := (h.others k hk).trans (h1.others k hk)

theorem fetchAll_fetches {c : Command} {l : List Command} (h : fetchAll f q (c :: l) d = some d') : Fetches d d' f q (c :: l) := by
  induction l generalizing c d with
  | nil =>
    obtain ⟨may, done⟩ := fetchAll_some h
    cases done
    exact .one may c
  | cons x l ih =>
    obtain ⟨may, next⟩ := fetchAll_some h
    exact (Fetches.one may c).append (ih next)

end

section
variable {s : State} {f : FuncId} {q : QueueId} {l : List Command} (wf : fetchWf l = true) (turn : s.dev.turnOf f q = true)
include wf

include turn in
theorem exec_commandFetch {d : Dev} (h : fetchAll f q l (s.dev.takeTurn f q) = some d) :
    exec (.commandFetch f q l) s = .next { s with dev := d } :=
  (guarded_wf wf _).trans (onDev_leads ((if_pos turn).trans (congrArg (Option.getD · s.dev) h)))

theorem exec_commandFetch_none (h : fetchAll f q l (s.dev.takeTurn f q) = none) : exec (.commandFetch f q l) s = .next s := by
  have stays : commandFetch s.dev f q l = s.dev := ite_eq_right_iff.2 fun _ => congrArg (Option.getD · s.dev) h
  exact (guarded_wf wf _).trans (onDev_stays stays)

end

/-- Settles O34: by induction on the commands that are fetched, each of which finds room for two more completions. -/
theorem commandsFetched : Obligations.CommandsFetched := by
  intro f q l s wf turn u
  obtain ⟨c, t, rfl⟩ := fetchWf_cons wf
  refine ⟨exec_commandFetch_none wf, fun d h => ⟨_, exec_commandFetch wf turn h, ?_⟩, fun may => ?_⟩
  · have done := fetchAll_fetches h
    have rest := done.rest
    exact ⟨done.fetched, done.sqHead, done.queue, done.room, done.others, by rw [rest]; rfl, by rw [rest]; rfl, by rw [rest]; rfl⟩
  · change fetchAll f q [c] _ ≠ none
    rw [fetchAll_cons ((s.dev.takeTurn_mayFetch f q f q).trans may)]
    exact Option.some_ne_none _

/-! ### A fetch that fails (R383) -/

/-- The package with a queue that a failed fetch has stopped. -/
def Dev.fetchStopped (d : Dev) (f q : Nat) (why : FetchError) : Dev :=
  (d.takeTurn f q).setQueue f q { d.queue f q with st := .stopped, err := BitVec.ofNat 8 (fetchCode why) }

section
variable {d : Dev} {f q : Nat} (why : FetchError)

theorem Dev.fetchStopped_queue : (d.fetchStopped f q why).queue f q =
    { d.queue f q with st := .stopped, err := BitVec.ofNat 8 (fetchCode why) } := Dev.queue_setQueue ..

/-- The commands fetched before run on. -/
theorem Dev.fetchStopped_headOf (bound : (d.queue f q).st = .bound) (c : Command) : (d.fetchStopped f q why).headOf f q c = d.headOf f q c := by
  have serves : (d.fetchStopped f q why).inService = d.inService := rfl
  have live : (d.fetchStopped f q why).funcLive f = d.funcLive f := rfl
  have held : (d.fetchStopped f q why).queueHeld f q = d.queueHeld f q := rfl
  have clear : (d.fetchStopped f q why).queueClear f q = d.queueClear f q := rfl
  simp [Dev.headOf, Dev.queueBlocked, serves, live, held, clear, Dev.fetchStopped_queue, bound]

/-- A queue that is not BOUND fetches nothing. -/
theorem Dev.mayFetch_notBound (h : (d.queue f q).st ≠ .bound) : d.mayFetch f q = false := by simp [Dev.mayFetch, h]

end

section
variable {s : State} {f : FuncId} {q : QueueId}

theorem exec_fetchFault (may : s.dev.mayFetch f q = true) (turn : s.dev.turnOf f q = true) (why : FetchError) :
    exec (.fetchFault f q why) s = .next { s with dev := s.dev.fetchStopped f q why } := onDev_leads (if_pos (by simp [may, turn]))

/-- A queue that is not BOUND stays as it is, whatever is brought to it. -/
theorem exec_commandFetch_notBound (h : (s.dev.queue f q).st ≠ .bound) {l : List Command} (wf : fetchWf l = true) :
    exec (.commandFetch f q l) s = .next s := by
  obtain ⟨c, t, rfl⟩ := fetchWf_cons wf
  have may : (s.dev.takeTurn f q).mayFetch f q = false := Dev.mayFetch_notBound h
  exact exec_commandFetch_none wf (fetchAll_stopped may c t)

/-! ### ENABLE (R380, R381) -/

theorem Dev.enableQueue_draining {d : Dev} {f q : Nat} (e : Env) (h : (d.queue f q).st = .draining) : d.enableQueue e f q = d := if_pos h

theorem Dev.enableQueue_inUse {d : Dev} {f q : Nat} (e : Env) (h : (d.queue f q).st = .bound ∨ (d.queue f q).st = .stopped) :
    d.enableQueue e f q = d.setQueue f q { d.queue f q with enable := true } := by
  rcases h with h | h <;> simp [Dev.enableQueue, h]

/-- ENABLE of a queue that is UNBOUND acts as the check says. -/
theorem Dev.enableQueue_unbound {d : Dev} {f q : Nat} (e : Env) (h : (d.queue f q).st = .unbound) : d.enableQueue e f q =
    d.setQueue f q (if d.queueError e f (d.queue f q) = 0
      then { d.queue f q with enable := true, st := .bound, sqHead := 0, sqTail := 0, cqTail := 0, cqHead := 0, unread := 0, phase := true }
      else { d.queue f q with enable := true, err := BitVec.ofNat 8 (d.queueError e f (d.queue f q)) }) := by
  simp [Dev.enableQueue, h]

theorem Dev.disableQueue_inUse {d : Dev} {f q : Nat} (h : (d.queue f q).st = .bound ∨ (d.queue f q).st = .stopped) :
    d.disableQueue f q = d.setQueue f q { d.queue f q with enable := false, st := .draining } := by
  rcases h with h | h <;> simp [Dev.disableQueue, Dev.modQueue, h]

theorem exec_queueEnable (served : s.dev.hostOpen = true) :
    exec (.queueEnable f q) s = .next { s with dev := s.dev.enableQueue s.env f q } := onDev_leads (if_pos served)

theorem exec_queueEnable_closed (h : s.dev.hostOpen = false) : exec (.queueEnable f q) s = .next s := onDev_stays (if_neg (by simp [h]))

theorem exec_queueDisable (served : s.dev.hostOpen = true) :
    exec (.queueDisable f q) s = .next { s with dev := s.dev.disableQueue f q } := onDev_leads (if_pos served)

/-- A STOPPED queue is not set up again before a write of 0 to its ENABLE. -/
theorem exec_queueEnable_stopped (h : (s.dev.queue f q).st = .stopped) :
    ∃ u, exec (.queueEnable f q) s = .next u ∧ (u.dev.queue f q).st = .stopped := by
  cases served : s.dev.hostOpen with
  | false => exact ⟨s, exec_queueEnable_closed served, h⟩
  | true =>
    refine ⟨_, exec_queueEnable served, ?_⟩
    rw [Dev.enableQueue_inUse s.env (.inr h), Dev.queue_setQueue]
    exact h

end

/-- Settles O35: a queue that a failed fetch has stopped fetches nothing and is not set up again, and its commands stay. -/
theorem failedFetchStops : Obligations.FailedFetchStops := by
  intro f q why s may turn
  have bound : (s.dev.queue f q).st = .bound := by
    by_contra h
    rw [Dev.mayFetch_notBound h] at may
    cases may
  have stopped : ((s.dev.fetchStopped f q why).queue f q).st = .stopped := by rw [Dev.fetchStopped_queue]
  refine ⟨_, exec_fetchFault may turn why, ?_, Dev.fetchStopped_headOf why bound, rfl, rfl,
    fun l wf => exec_commandFetch_notBound (by rw [stopped]; decide) wf, exec_queueEnable_stopped stopped,
    fun served => ⟨_, exec_queueDisable served, ?_⟩⟩
  · rw [Dev.fetchStopped_queue]; cases why <;> rfl
  · rw [Dev.disableQueue_inUse (.inr stopped), Dev.queue_setQueue]

/-! ### The end of a drain, and MSI-X (R381, R384) -/

section
variable {s : State} {f : FuncId} {q : QueueId}

theorem exec_queueDrainDone (h : (s.dev.queue f q).st = .draining) (none_ : s.dev.owed f q = 0) :
    exec (.queueDrainDone f q) s = .next { s with dev := s.dev.setQueue f q { s.dev.queue f q with st := .unbound } } :=
  onDev_leads (if_pos (by simp [h, none_]))

theorem exec_queueDrainDone_owing (owing : s.dev.owed f q ≠ 0) : exec (.queueDrainDone f q) s = .next s := onDev_stays (if_neg (by simp [owing]))

end

/-- The package with a vector unmasked. -/
def Dev.unmask (d : Dev) (n : Nat) : Dev :=
  { d with hif := { d.hif with unmasked := if d.hif.unmasked.contains n then d.hif.unmasked else d.hif.unmasked ++ [n] } }

section
variable {d : Dev} {n : Nat}

theorem Dev.unmask_unmasked : (d.unmask n).hif.unmasked.contains n = true := by
  unfold Dev.unmask
  dsimp only
  split
  · assumption
  · simp

/-- A message that waits is sent, and waits no longer. -/
theorem msixUnmask_waiting (h : d.hif.pba.contains n = true) : msixUnmask d n =
    { (d.unmask n) with hif := { (d.unmask n).hif with pba := d.hif.pba.filter (· ≠ n) }, out := d.out ++ [.msix (n / 64) (n % 64)] } := if_pos h

theorem msixUnmask_silent (h : d.hif.pba.contains n = false) : msixUnmask d n = d.unmask n := if_neg (by simpa using h)

end

theorem exec_msixUnmask {s : State} (live : s.dev.linkLive = true) (f : FuncId) (v : Fin 64) :
    exec (.msixUnmask f v) s = .next { s with dev := msixUnmask s.dev (64 * f + v) } := onDev_leads (if_pos live)

/-- Settles O36: ENABLE and its clearing act by the state of the queue, and a message that waits for its vector is sent once it is unmasked. -/
theorem queuesSetUp : Obligations.QueuesSetUp := by
  intro f q v s u
  refine ⟨fun served unbound passes => ?_, fun served unbound fails => ?_, fun draining => ?_, fun served inUse => ?_, fun draining => ⟨?_,
    exec_queueDrainDone draining, exec_queueDrainDone_owing⟩, fun live => ⟨_, exec_msixUnmask live f v, ?_⟩⟩
  · rw [exec_queueEnable served, Dev.enableQueue_unbound s.env unbound, if_pos passes]
  · rw [exec_queueEnable served, Dev.enableQueue_unbound s.env unbound, if_neg fails]
  · exact onDev_stays (ite_eq_right_iff.2 fun _ => Dev.enableQueue_draining s.env draining)
  · rw [exec_queueDisable served, Dev.disableQueue_inUse inUse]
  · exact Dev.mayFetch_notBound (by rw [show (s.dev.queue f q).st = .draining from draining]; decide)
  · have func : (64 * f.val + v.val) / 64 = f.val := by omega
    have vector : (64 * f.val + v.val) % 64 = v.val := by omega
    cases waits : s.dev.hif.pba.contains (64 * f.val + v.val) with
    | true =>
      rw [msixUnmask_waiting waits, func, vector]
      exact ⟨Dev.unmask_unmasked, by simp, fun _ => rfl, nofun, rfl, rfl, rfl⟩
    | false =>
      rw [msixUnmask_silent waits]
      exact ⟨Dev.unmask_unmasked, waits, nofun, fun _ => rfl, rfl, rfl, rfl⟩

end Sys2Proof.Machine
end

section
/-!
PROOFS. The pins and the heartbeat (R356, R365 to R368), and one period of the power governor (R362 to R364).
-/
namespace Sys2Proof.Machine

/-! ### PWRBRAKE_N and the forced floor (R366, R367) -/

/-- The PWR_ block with the draw at the brake floor. -/
def Pwr.atFloor (p : Pwr) : Pwr := { p with ceiling := 100 * bitsAt p.brakeFloor.toNat 0 16, floor := 0, ballast := false, ballastShort := false, hard := true }

section
variable {s : State}

theorem exec_brakeAssert_held (h : s.dev.pins.brake = true) : exec .brakeAssert s = .next s := onDev_stays (if_pos h)

theorem exec_brakeAssert (h : s.dev.pins.brake = false) (supplied : s.dev.pins.powered = true) : exec .brakeAssert s =
    .next { s with dev := { s.dev with
      pins := { s.dev.pins with brake := true }, pwr := Pwr.atFloor { s.dev.pwr with evBrake := count16 s.dev.pwr.evBrake } } } :=
  onDev_leads ((if_neg (by simp [h])).trans (if_pos supplied))

theorem exec_thermalForcedFloor (supplied : s.dev.pins.powered = true) (h : s.dev.pwr.forced = false) : exec .thermalForcedFloor s =
    .next { s with dev := { s.dev with pwr := Pwr.atFloor { s.dev.pwr with forced := true, evForced := count16 s.dev.pwr.evForced } } } :=
  onDev_leads (if_pos (by simp [supplied, h]))

theorem exec_thermalForcedFloor_held (h : s.dev.pwr.forced = true) : exec .thermalForcedFloor s = .next s := onDev_stays (if_neg (by simp [h]))

/-! ### The input and the heartbeat (R356, R365) -/

theorem exec_inputWithin_good (h : s.dev.pins.powered = false ∨ s.dev.pins.inputGood = true) : exec .inputWithinOperatingRange s =
    .next { s with dev := { s.dev with pins := { s.dev.pins with inputGood := true } } } := if_neg (by rcases h with h | h <;> simp [h])

theorem exec_inputWithin (supplied : s.dev.pins.powered = true) (h : s.dev.pins.inputGood = false) : exec .inputWithinOperatingRange s =
    onDevAt s (s.dev.pins.inputAt + 100000 * Config.usTicks) fun _ d => { d with pins := { d.pins with inputGood := true } } :=
  if_pos (by simp [supplied, h])

theorem exec_heartbeatTimeout (supplied : s.dev.pins.powered = true) (h : s.dev.pwr.hbLost = false) : exec .heartbeatTimeout s =
    onDevAt s (s.dev.pwr.lastBeat + s.dev.pwr.hbTimeoutMs * (1000 * Config.usTicks)) fun _ d =>
      { d with pwr := { d.pwr with hbLost := true, h := d.pwr.cf, evHb := count16 d.pwr.evHb } } := if_pos (by simp [supplied, h])

theorem exec_heartbeatTimeout_lost (h : s.dev.pwr.hbLost = true) : exec .heartbeatTimeout s = .next s := if_neg (by simp [h])

end

/-- Settles O52: each row acts where its pin or its count has not come to what it reports. -/
theorem pinsAndHeartbeat : Obligations.PinsAndHeartbeat := by
  intro s p hard
  exact ⟨exec_brakeAssert_held, exec_brakeAssert, exec_thermalForcedFloor, exec_thermalForcedFloor_held, rfl, rfl, rfl, exec_inputWithin_good,
    fun supplied h => ⟨_, exec_inputWithin supplied h, rfl, State.passTo_upTo ..⟩, rfl,
    fun supplied h => ⟨_, exec_heartbeatTimeout supplied h, rfl, State.passTo_upTo ..⟩, exec_heartbeatTimeout_lost⟩

/-! ### The governor (R362 to R364) -/

/-- The hottest junction, in the units of PWR_TEMP. -/
def Pwr.tj (p : Pwr) : Nat := maxList 0 (p.temps.map BitVec.toNat)

section
variable (e : Env) (d : Dev) (m : Measured)

/-- A period of the governor changes the PWR_ block, and draws the clock that R363 leaves open. -/
theorem governorPeriod_rest : governorPeriod e d m =
    { d with pwr := (governorPeriod e d m).pwr, freeCount := (governorPeriod e d m).freeCount } := rfl

theorem governorPeriod_energy : (governorPeriod e d m).pwr.energy = d.pwr.energy + m.energy := rfl

theorem governorPeriod_h : (governorPeriod e d m).pwr.h =
    if d.pwr.hbLost then max (100 * d.pwr.safeCap) (d.pwr.h - d.pwr.slewStep) else 100 * e.fuse.tdp := rfl

/-- TL falls while the hottest junction is above the throttle, and rises while it is more than 2 °C below it. -/
theorem governorPeriod_tl : (governorPeriod e d m).pwr.tl =
    if tempOf d.pwr.throttleC < (governorPeriod e d m).pwr.tj then max (100 * d.pwr.brakeW) (min d.pwr.tl (100 * m.total.toNat) - d.pwr.slewStep)
    else if (governorPeriod e d m).pwr.tj < tempOf (d.pwr.throttleC - 2) then min (100 * e.fuse.tdp) (d.pwr.tl + d.pwr.slewStep) else d.pwr.tl := rfl

theorem governorPeriod_cf : (governorPeriod e d m).pwr.cf =
    min (100 * d.pwr.capW) (min (governorPeriod e d m).pwr.h (governorPeriod e d m).pwr.tl) := rfl

theorem governorPeriod_hard : (governorPeriod e d m).pwr.hard = true ↔
    d.ras.st = .parapet ∨ d.ras.st = .retired ∨ d.pins.brake = true ∨ tempOf 105 ≤ (governorPeriod e d m).pwr.tj := by
  have cond : (governorPeriod e d m).pwr.hard = (Decidable.decide (d.ras.st = .parapet) || Decidable.decide (d.ras.st = .retired) || d.pins.brake
    || Decidable.decide (tempOf 105 ≤ (governorPeriod e d m).pwr.tj)) := rfl
  rw [cond]
  simp [or_assoc]

theorem governorPeriod_ceiling : (governorPeriod e d m).pwr.ceiling = if (governorPeriod e d m).pwr.hard then 100 * d.pwr.brakeW
    else min (governorPeriod e d m).pwr.cf (100 * m.total.toNat + d.pwr.slewStep) := rfl

theorem governorPeriod_floor : (governorPeriod e d m).pwr.floor =
    if (governorPeriod e d m).pwr.hard then 0 else 100 * m.total.toNat - d.pwr.slewStep := rfl

/-- A sensor shows what it measured, where its die is fitted. -/
theorem governorPeriod_temps {k : Nat} {x : BitVec 10} (read : m.temps[k]? = some x) (fitted : k < 4 → e.fuse.dieFitted k = true) :
    (governorPeriod e d m).pwr.temps[k]? = some x := by
  have shown : (governorPeriod e d m).pwr.temps =
    m.temps.zipIdx.map fun y : BitVec 10 × Nat => if y.2 < 4 && !e.fuse.dieFitted y.2 then 0#10 else y.1 := rfl
  rw [shown, List.getElem?_map, List.getElem?_zipIdx, read]
  exact congrArg some (if_neg (by simpa using fitted))

end

theorem exec_governorPeriod {m : Measured} {s : State} (wf : m.wf = true) (supplied : s.dev.pins.powered = true) : exec (.governorPeriod m) s =
    onDevAt s ((s.dev.pwr.lastPeriod + 1) * 1000) fun e d => governorPeriod e d m := (guarded_wf wf _).trans (if_pos supplied)

/-- Settles O53: each quantity of R364 is that of the period, computed from the package as LOCAL_TIME has reached it. -/
theorem governorPeriods : Obligations.GovernorPeriods := by
  intro m s wf supplied p u drawn brakeW
  refine ⟨_, exec_governorPeriod wf supplied, rfl, ?_⟩
  rw [State.passTo_upTo]
  generalize (s.passTo _).onDev _ = t
  refine ⟨governorPeriod_rest .., governorPeriod_energy .., fun k x => governorPeriod_temps { s.env with now := t.time.toNat } _ m,
    fun lost => ?_, fun kept => ?_, fun hot => ?_, fun warm cool => ?_, fun warm near => ?_, governorPeriod_cf .., fun h => ?_, fun hp hr hb hj => ?_⟩
  · exact (governorPeriod_h ..).trans (if_pos lost)
  · exact (governorPeriod_h ..).trans (if_neg (ne_true_of_eq_false kept))
  · exact (governorPeriod_tl ..).trans (if_pos hot)
  · exact (governorPeriod_tl ..).trans ((if_neg (Nat.not_lt.2 warm)).trans (if_pos cool))
  · exact (governorPeriod_tl ..).trans ((if_neg (Nat.not_lt.2 warm)).trans (if_neg (Nat.not_lt.2 near)))
  · have hard := (governorPeriod_hard _ (s.upTo t) m).2 h
    exact ⟨(governorPeriod_ceiling ..).trans (if_pos hard), (governorPeriod_floor ..).trans (if_pos hard), hard⟩
  · have soft : ¬ (governorPeriod _ (s.upTo t) m).pwr.hard = true := fun hard =>
      ((governorPeriod_hard _ (s.upTo t) m).1 hard).elim hp fun h => h.elim hr fun h => h.elim (ne_true_of_eq_false hb) (Nat.not_le.2 hj)
    exact ⟨(governorPeriod_ceiling ..).trans (if_neg soft), (governorPeriod_floor ..).trans (if_neg soft), Bool.eq_false_of_not_eq_true soft⟩

end Sys2Proof.Machine
end

section
/-!
PROOFS. The submissions to the security processor: owner records, images, and the flash write (R399, R400, R403, R404, R409).
-/
namespace Sys2Proof.Machine

/-! ### Owner records (R404) -/

section
variable {e : Env} {d : Dev} {l : List Byte}

theorem ownerRecord_idle (h : d.checking 1 = false) : ownerRecord e d l = d := if_pos (by simp [h])

section
variable (open_ : d.checking 1 = true)
include open_

theorem ownerRecord_short (h : d.sec.submitLen ≠ 1024#64) : ownerRecord e d l = d.endSubmit Config.badField := by
  have code : Config.badField ≠ 0 := by decide
  simp [ownerRecord, open_, h, code]

variable (len : d.sec.submitLen = 1024#64)
include len

theorem ownerRecord_refused (h : recordError e.fuse d.sec l ≠ 0) : ownerRecord e d l = d.endSubmit (recordError e.fuse d.sec l) := by
  simp [ownerRecord, open_, len, h]

theorem ownerRecord_accepted (h : recordError e.fuse d.sec l = 0) : ownerRecord e d l = (d.applyRecord l).endSubmit Config.ok := by
  simp [ownerRecord, open_, len, h]

end

/-- A record changes the key store, and the sessions of the keys that it takes away. -/
theorem Dev.applyRecord_rest : d.applyRecord l = { d with sec := (d.applyRecord l).sec, mgmt := (d.applyRecord l).mgmt } := by
  unfold Dev.applyRecord
  split <;> rfl

end

/-- A session that is left was one, and no requester slot of `p` had authenticated it. -/
theorem Mgmt.mem_endSessions {m : Mgmt} {p : Nat → Bool} {x : Session} (h : x ∈ (m.endSessions p).sessions) :
    x ∈ m.sessions ∧ x.slot.any p = false := by
  obtain ⟨there, kept⟩ := List.mem_filter.1 h
  exact ⟨there, by simpa using kept⟩

/-- The row of the owner record of an operation. -/
def recordRow (l : List Byte) : Nat → Instr
  | 1 => .claim l
  | 2 => .ownerRelease l
  | 3 => .pubEnrol l
  | 4 => .pubRemove l
  | 5 => .reqEnrol l
  | 6 => .reqRemove l
  | _ => .policy l

theorem exec_recordRow {l : List Byte} {op : Nat} (lower : 1 ≤ op) (upper : op ≤ 7) (is_ : recordIs op l = true) (s : State) :
    exec (recordRow l op) s = onDev s fun e d => ownerRecord e d l := by
  interval_cases op <;> exact guarded_wf is_ _

/-! ### Images (R399, R400, R403) -/

section
variable {s : State} {l : List Byte}

theorem Dev.submitted_whole {d : Dev} (u : Fuses) (len : l.length = d.sec.submitLen.toNat) : d.submitted u l = checkImage u d.sec.floor l :=
  if_neg (not_not.2 len)

theorem exec_imageBoot_none (h : s.dev.checking 2 = false) : exec (.imageBoot l) s = .next s := onDev_stays (if_pos (by simp [h]))

theorem exec_imageWriteFlash_none (h : s.dev.checking 3 = false) : exec (.imageWriteFlash l) s = .next s := onDev_stays (if_pos (by simp [h]))

section
variable (len : l.length = s.dev.sec.submitLen.toNat)
include len

theorem exec_imageBoot_refused (open_ : s.dev.checking 2 = true) {x : Nat × Nat} (h : checkImage s.fuse s.dev.sec.floor l = .error x) :
    exec (.imageBoot l) s = .next { s with dev := s.dev.endSubmit x.2 } :=
  onDev_leads (by simp [imageBoot, open_, Dev.submitted_whole _ len, h])

theorem exec_imageBoot (open_ : s.dev.checking 2 = true) {i : FwInfo} (h : checkImage s.fuse s.dev.sec.floor l = .ok i) :
    exec (.imageBoot l) s = .next { s with dev := (s.dev.bootHost i).endSubmit Config.ok } :=
  onDev_leads (by simp [imageBoot, open_, Dev.submitted_whole _ len, h])

theorem exec_imageWriteFlash_refused (open_ : s.dev.checking 3 = true) {x : Nat × Nat} (h : checkImage s.fuse s.dev.sec.floor l = .error x) :
    exec (.imageWriteFlash l) s = .next { s with dev := s.dev.endSubmit x.2 } :=
  onDev_leads (by simp [imageWriteFlash, open_, Dev.submitted_whole _ len, h])

end

/-- The package with its image region erased and an image being written to it. -/
def Dev.flashing (d : Dev) (l : List Byte) : Dev := { d with sec := { d.sec with submitPhase := 2#2, flash := [], flashNew := l } }

/-- In recovery mode the image boots meanwhile. -/
theorem exec_imageWriteFlash (len : l.length = s.dev.sec.submitLen.toNat) (open_ : s.dev.checking 3 = true) {i : FwInfo}
    (h : checkImage s.fuse s.dev.sec.floor l = .ok i) : exec (.imageWriteFlash l) s =
      .next { s with dev := (if s.dev.sec.recovery then s.dev.bootHost i else s.dev).flashing l } :=
  onDev_leads (by simp [imageWriteFlash, open_, Dev.submitted_whole _ len, h, Dev.flashing])

theorem exec_flashWriteDone (supplied : s.dev.pins.powered = true) (busy : s.dev.sec.submitBusy = true) (writes : s.dev.sec.submitPhase = 2#2) :
    exec .flashWriteDone s = .next { s with dev :=
      ({ s.dev with sec := { s.dev.sec with flash := s.dev.sec.flashNew, flashNew := [] } } : Dev).endSubmit Config.ok } :=
  onDev_leads (if_pos (by simp [supplied, busy, writes]))

theorem exec_flashWriteDone_none (h : s.dev.sec.submitBusy = false) : exec .flashWriteDone s = .next s := onDev_stays (if_neg (by simp [h]))

end

/-- What a submission that is being checked says of the package. -/
theorem Dev.checking_open {d : Dev} {k : Nat} (h : d.checking k = true) : d.pins.powered = true ∧ d.sec.submitBusy = true := by
  simp only [Dev.checking, Bool.and_eq_true] at h
  exact h.1.1

theorem Dev.checking_none {d : Dev} (h : d.sec.submitBusy = false) (k : Nat) : d.checking k = false := by simp [Dev.checking, h]

/-- Settles O57: a submission that is being checked takes effect or ends with its code, and a flash write that is under way ends. -/
theorem submissionsEnd : Obligations.SubmissionsEnd := by
  intro l s k counted ended row
  refine ⟨fun op lower upper is_ => ?_, fun open_ len => ⟨fun c code h => exec_imageBoot_refused len open_ h, fun i h => ?_⟩,
    fun open_ len => ⟨fun c code h => exec_imageWriteFlash_refused len open_ h, fun i h => ?_⟩,
    exec_flashWriteDone, fun idle => ⟨exec_imageBoot_none (Dev.checking_none idle 2), exec_imageWriteFlash_none (Dev.checking_none idle 3),
      exec_flashWriteDone_none idle⟩⟩
  · have run : exec (row op) s = onDev s fun e d => ownerRecord e d l := exec_recordRow lower upper is_ s
    rw [run]
    refine ⟨fun h => onDev_stays (ownerRecord_idle h), fun open_ h => onDev_leads (ownerRecord_short open_ h),
      fun open_ len h => onDev_leads (ownerRecord_refused open_ len h), fun open_ len h named => ⟨_, onDev_leads (ownerRecord_accepted open_ len h), ?_⟩⟩
    have effect {k : Nat} (of : op = k) : recOp l = k := named.trans of
    refine ⟨?_, fun of => ?_, fun of => ?_, fun of => ?_, fun of => ?_, fun of => ?_, fun of => ?_, fun of => ?_⟩
    · rw [Dev.applyRecord_rest]; rfl
    all_goals simp only [Dev.applyRecord, effect of]
    case refine_3 =>
      refine ⟨rfl, fun x hx => ?_⟩
      obtain ⟨there, none_⟩ := Mgmt.mem_endSessions hx
      exact ⟨there, by simpa using none_⟩
    case refine_7 =>
      refine ⟨rfl, fun x hx => ?_⟩
      obtain ⟨there, other⟩ := Mgmt.mem_endSessions hx
      exact ⟨there, fun slot => by simp [slot] at other⟩
    all_goals exact ⟨rfl, rfl⟩
  · exact ⟨_, exec_imageBoot len open_ h, rfl, rfl, rfl, rfl, rfl, rfl, rfl, rfl⟩
  · obtain ⟨supplied, busy⟩ := Dev.checking_open open_
    refine ⟨_, exec_imageWriteFlash len open_ h, ?_⟩
    cases s.dev.sec.recovery <;> exact ⟨rfl, rfl, busy, rfl, _, exec_flashWriteDone supplied busy rfl, rfl, rfl, rfl⟩

end Sys2Proof.Machine
end

section
/-!
PROOFS. The management bus: register messages and SPDM sessions (R394, R395, R406), and the answers of MCTP control, I3C and SPDM (R392, R405).
-/
namespace Sys2Proof.Machine

/-! ### Register messages (R395) -/

/-- As many registers are read as are asked for. -/
theorem Dev.readMany_length (e : Env) (f n off : Nat) (d : Dev) : (Dev.readMany e f n off d).1.length = n := by
  induction n generalizing off d with
  | zero => rfl
  | succ n ih => exact congrArg (· + 1) (ih ..)

section
variable {s : State} {w : Writer} {m : RegMessage} (supplied : s.dev.pins.powered = true)
include supplied

theorem exec_registerRead_misfit (h : messageFits m 32 = false) : exec (.registerReadMessage w m) s =
    .next { s with dev := s.dev.respond Config.badField [] } := mgmtRow_serves supplied (if_pos (by simp [h]))

theorem exec_registerRead_outside (fits : messageFits m 32 = true) (h : s.dev.inSession w = false) : exec (.registerReadMessage w m) s =
    .next { s with dev := s.dev.respond Config.noPermission [] } :=
  mgmtRow_serves supplied ((if_neg (by simp [fits])).trans (if_pos (by simp [h])))

theorem exec_registerRead (fits : messageFits m 32 = true) (h : s.dev.inSession w = true) : exec (.registerReadMessage w m) s =
    .next { s with dev := ((Dev.readMany s.env m.func m.count m.offset s.dev).2.respond Config.ok
      (Dev.readMany s.env m.func m.count m.offset s.dev).1) } :=
  mgmtRow_serves supplied ((if_neg (by simp [fits])).trans (if_neg (by simp [h])))

theorem exec_registerWrite_misfit (h : messageFits m 1 = false) : exec (.registerWriteMessage w m) s =
    .next { s with dev := s.dev.respond Config.badField [] } := (if_neg (by simp [h])).trans (mgmtRow_serves supplied rfl)

theorem exec_registerWrite_refused (fits : messageFits m 1 = true) (denied : s.dev.mgmtStatus w m.offset ≠ Config.ok) (h : m.offset ≠ 0x800050) :
    exec (.registerWriteMessage w m) s = .next { s with dev := s.dev.respond (s.dev.mgmtStatus w m.offset) [] } :=
  (if_pos fits).trans (congrArg _ (mgmtWrite_refused supplied w m.offset m.value.toNat denied h))

theorem exec_registerWrite_accepted (fits : messageFits m 1 = true) (allowed : s.dev.mgmtStatus w m.offset = Config.ok)
    (h : s.dev.sec.recovery = false) : exec (.registerWriteMessage w m) s =
      .next ((s.writeReg 0 m.offset m.value.toNat true true).onDev fun _ d => d.respond Config.ok []) :=
  (if_pos fits).trans (congrArg _ (mgmtWrite_accepted supplied w m.offset m.value.toNat allowed h))

end

/-! ### Slots of certificate chains (R405) -/

theorem certSlot_held {slot : Fin 8} (h : slot.val ≤ 1) : certSlot slot = true := decide_eq_true h
theorem certSlot_empty {slot : Fin 8} (h : 2 ≤ slot.val) : ¬ certSlot slot = true := by simp [certSlot]; omega

/-- Settles O58: each message is served by its checks, and each SPDM request by the session that it names. -/
theorem sessionsAndMessages : Obligations.SessionsAndMessages := by
  intro w m slot id hash chain s supplied answer ss withSessions
  exact ⟨exec_registerRead_misfit supplied, exec_registerRead_outside supplied,
    fun fits inside => ⟨_, _, exec_registerRead supplied fits inside, Dev.readMany_length .., rfl⟩,
    exec_registerWrite_misfit supplied, exec_registerWrite_refused supplied, exec_registerWrite_accepted supplied,
    fun held => mgmtRow_serves supplied (if_pos (certSlot_held held)), fun empty => mgmtRow_serves supplied (if_neg (certSlot_empty empty)),
    fun opened => mgmtRow_serves supplied (if_pos opened), fun none_ => mgmtRow_serves supplied (if_neg (ne_true_of_eq_false none_)),
    fun x there => mgmtRow_serves supplied (if_pos (by rw [there]; rfl)), fun none_ => mgmtRow_serves supplied (if_neg (by rw [none_]; decide)),
    fun there => mgmtRow_serves supplied (if_pos there), fun none_ => mgmtRow_serves supplied (if_neg (ne_true_of_eq_false none_))⟩

/-! ### I3C (R392) -/

section
variable {s : State} (supplied : s.dev.pins.powered = true)
include supplied

/-- A CCC to the package's own address, which it has. -/
theorem cccRow_addressed {f : Env → Dev → Dev} {d : Dev} (h : s.dev.mgmt.dynAddr ≠ 0#7) (hf : f s.env s.dev = d) :
    cccRow s f = .next { s with dev := d } := mgmtRow_serves supplied ((if_neg h).trans hf)

theorem cccRow_unaddressed {f : Env → Dev → Dev} (h : s.dev.mgmt.dynAddr = 0#7) : cccRow s f = .next s := mgmtRow_serves supplied (if_pos h)

/-! ### MCTP control (R392) -/

theorem exec_setEndpointId_taken {eid : Byte} (h0 : eid ≠ 0#8) (h1 : eid ≠ 0xFF#8) : exec (.setEndpointId eid) s =
    .next { s with dev := ({ s.dev with mgmt := { s.dev.mgmt with eid := eid } } : Dev).respond 0 [eid.toNat] } :=
  mgmtRow_serves supplied (if_neg (not_or.2 ⟨h0, h1⟩))

theorem exec_getMctpVersionSupport_known {typ : Byte} (h : typ.toNat ∈ [0xFF, 0, 1, 5, 6, 0x7E]) : exec (.getMctpVersionSupport typ) s =
    .next { s with dev := (s.dev.respond 0 []).emit (.bytes (Config.mctpVersions typ.toNat)) } :=
  mgmtRow_serves supplied (if_pos (List.contains_iff_mem.2 h))

theorem exec_getMctpVersionSupport_unknown {typ : Byte} (h : typ.toNat ∉ [0xFF, 0, 1, 5, 6, 0x7E]) : exec (.getMctpVersionSupport typ) s =
    .next { s with dev := s.dev.respond 0x80 [] } :=
  mgmtRow_serves supplied (if_neg fun c => h (List.contains_iff_mem.1 c))

/-! ### Attestation (R405) -/

/-- The answer to a challenge is signed over a number of the package's own. -/
theorem exec_spdmChallenge_held {slot : Fin 8} (h : slot.val ≤ 1) (nonce : BitVec 256) : exec (.spdmChallenge slot nonce) s =
    .next { s with dev := (s.dev.respond 0 [slot.val]).sign s.env nonce (chainDigest s.fuse slot.val) } :=
  mgmtRow_serves supplied (if_pos (certSlot_held h))

section
variable {index : Byte} (nonce : BitVec 256)

theorem exec_spdmGetMeasurements_count (h : index = 0#8) : exec (.spdmGetMeasurements index nonce) s =
    .next { s with dev := (s.dev.respond 0 [8]).sign s.env nonce [] } := mgmtRow_serves supplied (if_pos (by rw [h]; rfl))

theorem exec_spdmGetMeasurements_one (lower : 1 ≤ index.toNat) (upper : index.toNat ≤ 8) : exec (.spdmGetMeasurements index nonce) s =
    .next (s.onDev fun e d => ((Dev.measureAll e [index.toNat] d).2.respond 0 [1]).sign e nonce (Dev.measureAll e [index.toNat] d).1) := by
  have some_ : index.toNat ≠ 0 := by omega
  have block : ¬ (8 < index.toNat ∧ index.toNat ≠ 0xFF) := by omega
  have single : index.toNat ≠ 0xFF := by omega
  refine mgmtRow_serves supplied ((if_neg some_).trans ((if_neg block).trans ?_))
  simp only [if_neg single]

theorem exec_spdmGetMeasurements_unknown (h : 8 < index.toNat) (all_ : index ≠ 0xFF#8) : exec (.spdmGetMeasurements index nonce) s =
    .next { s with dev := s.dev.respond 1 [] } := by
  have some_ : index.toNat ≠ 0 := by omega
  have other : index.toNat ≠ 0xFF := fun c => all_ (BitVec.eq_of_toNat_eq c)
  exact mgmtRow_serves supplied ((if_neg some_).trans (if_pos ⟨h, other⟩))

end

end

/-- Settles O60: each request is answered from the identity, the registers of the bus, or the chains of the package. -/
theorem endpointAnswers : Obligations.EndpointAnswers := by
  intro a eid sel typ index len slot nonce s supplied answer bytes mgmt m
  refine ⟨exec_setEndpointId_taken supplied, fun reserved => mgmtRow_serves supplied (if_pos reserved), mgmtRow_serves supplied rfl,
    mgmtRow_serves supplied rfl, exec_getMctpVersionSupport_known supplied, exec_getMctpVersionSupport_unknown supplied,
    fun first => mgmtRow_serves supplied (if_pos first), fun further => mgmtRow_serves supplied (if_neg further),
    fun unaddressed => mgmtRow_serves supplied (if_pos unaddressed),
    fun addressed => ⟨mgmtRow_serves supplied (if_neg addressed), cccRow_addressed supplied addressed rfl, cccRow_addressed supplied addressed rfl,
      cccRow_addressed supplied addressed rfl, cccRow_addressed supplied addressed rfl, cccRow_addressed supplied addressed rfl,
      cccRow_addressed supplied addressed rfl⟩,
    fun unaddressed => ⟨cccRow_unaddressed supplied unaddressed, cccRow_unaddressed supplied unaddressed⟩,
    mgmtRow_serves supplied rfl, mgmtRow_serves supplied rfl, mgmtRow_serves supplied rfl, mgmtRow_serves supplied rfl, mgmtRow_serves supplied rfl,
    mgmtRow_serves supplied rfl, mgmtRow_serves supplied rfl, fun held => mgmtRow_serves supplied (if_pos (certSlot_held held)),
    fun held => ⟨_, exec_spdmChallenge_held supplied held nonce⟩,
    fun empty => ⟨mgmtRow_serves supplied (if_neg (certSlot_empty empty)), mgmtRow_serves supplied (if_neg (certSlot_empty empty))⟩,
    exec_spdmGetMeasurements_count supplied nonce, exec_spdmGetMeasurements_one supplied nonce, exec_spdmGetMeasurements_unknown supplied nonce⟩

end Sys2Proof.Machine
end
